-- ==== Sys2Proof/Word.lean ====
section
/-! DEFINITION. The word types of the BG-2440 and nothing else: bytes, addresses and beats of data. -/

namespace Sys2Proof

/-- One byte, as it travels on the management link and lies in memory. -/
abbrev Byte := BitVec 8

/-- A memory address: 40 bits wide (00_scope.md, "Addresses"). -/
abbrev Addr := BitVec 40

/-- One beat of data: sixteen bytes. The byte at the lowest address stands in bits 7..0
(a way of writing sixteen bytes down, log entry 14; nothing of the part depends on it). -/
abbrev Beat := BitVec 128

end Sys2Proof
end

