-- ==== Sys2Proof/Config.lean ====
section
/-! DEFINITION. What the manual leaves to the implementation, as constants without a body. -/

namespace Sys2Proof

/-- The order of window closes and deadlines that fall on the same microsecond. R38, R124 and R137
allow either order and fix none, so the order is FREE: `Config.dueOrder n` is the place the `n`-th
such happening takes among those drawn after it (log entry 2). -/
opaque Config.dueOrder : Nat → Nat

/-- The byte at offset `n` of a profile record that the answer to its read did not carry. R108 gives an
answer to a READ one beat per beat of length and says nothing of a shorter one, so the byte is FREE (log
entry 4). -/
opaque Config.missingByte : Nat → Byte

end Sys2Proof
end

