-- ==== Sys2Proof/Syntax.lean ====
section
/-! DEFINITION. The commands and events of the BG-2440: one constructor of `Instr` per row of
spec/opcode_table.json, with the operands its rule names. -/

namespace Sys2Proof

/-- The four requester ports RP0 to RP3. -/
inductive Port where
  | rp0 | rp1 | rp2 | rp3
deriving DecidableEq, Repr

/-- The direction of a transfer (R1). -/
inductive Kind where
  | read | write
deriving DecidableEq, Repr

/-- One beat of write data: sixteen bytes with one byte-enable per byte (R1). Bit `i` of `enables`
belongs to the byte in bits `8i+7..8i` of `data`. -/
structure WriteBeat where
  data    : Beat
  enables : BitVec 16
deriving DecidableEq, Repr

/-- A request as a master presents it (R1). -/
structure Request where
  kind    : Kind
  address : Addr
  /-- length in beats, 1 to 16 (`Request.wellFormed`) -/
  beats   : Nat
  /-- the requester tag, 0 to 31 -/
  tag     : Fin 32
  /-- one write beat per beat of length for a WRITE, none for a READ -/
  data    : List WriteBeat
deriving DecidableEq, Repr

/-- The status of an answer of the memory controller (R108). -/
inductive AnswerStatus where
  | ok | error
deriving DecidableEq, Repr

/-- What a management frame holds after byte 0: the whole bytes in the order received, and how many
bits of an incomplete last byte followed them (R164). -/
structure Frame where
  args        : List Byte
  partialBits : Fin 8
deriving DecidableEq, Repr

/-- The happenings of the part, one constructor per row of the opcode table. A management command
carries its whole frame, so that the length and argument checks of R165 are part of its meaning. -/
inductive Instr where
  /-- REQUEST_TAKEN (R3): the master of port `k` presents `r` -/
  | requestTaken (k : Port) (r : Request)
  /-- PRST_N_ASSERTED (R17) -/
  | prstAsserted (k : Port)
  /-- PRST_N_RELEASED (R19) -/
  | prstReleased (k : Port)
  /-- RST_N_ASSERTED (R128) -/
  | rstAsserted
  /-- RST_N_RELEASED (R20); `mcsLow` is whether MCS_N is low at the release (R183) -/
  | rstReleased (mcsLow : Bool)
  /-- REFCLK_STOPPED (R185) -/
  | refclkStopped
  /-- REFCLK_RESTARTED (R185); `mcsLow` is whether MCS_N is low at that moment -/
  | refclkRestarted (mcsLow : Bool)
  /-- WINDOW_CLOSE (R36) of meter `k` -/
  | windowClose (k : Port)
  /-- DONATION_TAKEN (R53): the pool takes the oldest message of meter `k`, a donation -/
  | donationTaken (k : Port)
  /-- CLAIM_TAKEN (R54): the pool takes the oldest message of meter `k`, a borrow claim -/
  | claimTaken (k : Port)
  /-- CLAIM_ANSWER_TAKEN (R31): meter `k` takes the pool's answer -/
  | claimAnswerTaken (k : Port)
  /-- REPORT_SUBMISSION (R149): the report writer takes the oldest submission of meter `k` -/
  | reportSubmission (k : Port)
  /-- ISSUE_GRANT (R116) -/
  | issueGrant
  /-- MEMORY_PORT_READY (R108) -/
  | memoryPortReady
  /-- MEMORY_ANSWER (R119): in-flight tag, status and, for a READ, the data beats -/
  | memoryAnswer (tag : Fin 64) (status : AnswerStatus) (data : List Beat)
  /-- COMPLETION_DEADLINE (R122) of the entry with this tag -/
  | completionDeadline (tag : Fin 64)
  /-- SHORT_FRAME (R164): a frame of `bits` bits, fewer than 8 -/
  | shortFrame (bits : Fin 8)
  /-- BAD_COMMAND (R165): a frame whose byte 0, `code`, is no command code -/
  | badCommand (code : Byte) (f : Frame)
  | readResponse (f : Frame)
  | getStatus (f : Frame)
  | getPort (f : Frame)
  | getWindow (f : Frame)
  | getProfile (f : Frame)
  | getPool (f : Frame)
  | setTableBase (f : Frame)
  | setFallback (f : Frame)
  | clearFallback (f : Frame)
  | load (f : Frame)
  | quiesce (f : Frame)
  | resume (f : Frame)
  | setPoolLimit (f : Frame)
  | setTimeout (f : Frame)
  | setRing (f : Frame)
  | ringOff (f : Frame)
  | reportAck (f : Frame)
  | popNotice (f : Frame)
  | clearOverflow (f : Frame)
  | setIrq (f : Frame)
  | softReset (f : Frame)
  /-- MCS_N_RISE_WITHOUT_FRAME (R183, R185) -/
  | mcsRiseWithoutFrame
deriving DecidableEq, Repr

end Sys2Proof
end

