-- ==== Sys2Proof/Decode.lean ====
section
/-! DEFINITION. Reading a management frame into a command (R164, R165 steps 1 and 2, R188), its
inverse, and `decodeTableWord`, which answers none: no row of the opcode table gives bits. -/

namespace Sys2Proof

/-- The command codes of R188: byte 0 of a frame names the command. `none`: not a command code. -/
def commandOf (code : Byte) : Option (Frame → Instr) :=
  match code.toNat with
  | 0x10 => some .getStatus
  | 0x11 => some .getPort
  | 0x12 => some .getWindow
  | 0x13 => some .getProfile
  | 0x14 => some .getPool
  | 0x20 => some .setTableBase
  | 0x21 => some .setFallback
  | 0x22 => some .clearFallback
  | 0x23 => some .load
  | 0x24 => some .quiesce
  | 0x25 => some .resume
  | 0x30 => some .setPoolLimit
  | 0x31 => some .setTimeout
  | 0x40 => some .setRing
  | 0x41 => some .ringOff
  | 0x42 => some .reportAck
  | 0x50 => some .popNotice
  | 0x51 => some .clearOverflow
  | 0x52 => some .setIrq
  | 0x5A => some .softReset
  | 0xA5 => some .readResponse
  | _ => none

/-- A byte from its bits, the most significant first (R164). -/
def byteOfBits (bits : List Bool) : Byte :=
  BitVec.ofNat 8 (bits.foldl (fun n b => 2 * n + b.toNat) 0)

/-- The bits of a byte, the most significant first (R164). -/
def bitsOfByte (b : Byte) : List Bool :=
  [b.getLsbD 7, b.getLsbD 6, b.getLsbD 5, b.getLsbD 4, b.getLsbD 3, b.getLsbD 2, b.getLsbD 1, b.getLsbD 0]

/-- Gather bits into whole bytes in the order received; what is left over is a partial byte (R164). -/
def gatherBytes : List Bool → List Byte × List Bool
  | b7 :: b6 :: b5 :: b4 :: b3 :: b2 :: b1 :: b0 :: rest =>
    let r := gatherBytes rest
    (byteOfBits [b7, b6, b5, b4, b3, b2, b1, b0] :: r.1, r.2)
  | left => ([], left)

/-- The command a frame carries, from the bits sampled on MDI in the order received (R164, R165).
Total: fewer than 8 bits are a SHORT_FRAME, an unknown byte 0 is a BAD_COMMAND. -/
def decodeFrame (bits : List Bool) : Instr :=
  match gatherBytes bits with
  | ([], left) => .shortFrame (Fin.ofNat 8 left.length)
  | (code :: args, left) =>
    match commandOf code with
    | some cmd => cmd ⟨args, Fin.ofNat 8 left.length⟩
    | none => .badCommand code ⟨args, Fin.ofNat 8 left.length⟩

/-- The code and the frame of a management command; `none` for the other happenings (R188). -/
def frameOf : Instr → Option (Byte × Frame)
  | .requestTaken _ _ => none
  | .prstAsserted _ => none
  | .prstReleased _ => none
  | .rstAsserted => none
  | .rstReleased _ => none
  | .refclkStopped => none
  | .refclkRestarted _ => none
  | .windowClose _ => none
  | .donationTaken _ => none
  | .claimTaken _ => none
  | .claimAnswerTaken _ => none
  | .reportSubmission _ => none
  | .issueGrant => none
  | .memoryPortReady => none
  | .memoryAnswer _ _ _ => none
  | .completionDeadline _ => none
  | .shortFrame _ => none
  | .badCommand code f => some (code, f)
  | .readResponse f => some (0xA5, f)
  | .getStatus f => some (0x10, f)
  | .getPort f => some (0x11, f)
  | .getWindow f => some (0x12, f)
  | .getProfile f => some (0x13, f)
  | .getPool f => some (0x14, f)
  | .setTableBase f => some (0x20, f)
  | .setFallback f => some (0x21, f)
  | .clearFallback f => some (0x22, f)
  | .load f => some (0x23, f)
  | .quiesce f => some (0x24, f)
  | .resume f => some (0x25, f)
  | .setPoolLimit f => some (0x30, f)
  | .setTimeout f => some (0x31, f)
  | .setRing f => some (0x40, f)
  | .ringOff f => some (0x41, f)
  | .reportAck f => some (0x42, f)
  | .popNotice f => some (0x50, f)
  | .clearOverflow f => some (0x51, f)
  | .setIrq f => some (0x52, f)
  | .softReset f => some (0x5A, f)
  | .mcsRiseWithoutFrame => none

/-- The bits of a frame on MDI: byte 0, the argument bytes, and a partial byte of 0 bits. -/
def encodeFrame (code : Byte) (f : Frame) : List Bool :=
  bitsOfByte code ++ f.args.flatMap bitsOfByte ++ List.replicate f.partialBits.val false

/-- The command a word spells by the bits of its opcode-table row. The table gives no row any bits,
so no word spells a command. -/
def decodeTableWord (_nbits _w : Nat) : Option Instr := none

end Sys2Proof
end

