-- ==== Sys2Proof/WellFormed.lean ====
section
/-! DEFINITION. Which terms of `Instr` describe something the outside world can present. A term that
is not well formed is no happening, and its meaning leaves the part as it was (log entry 3). -/

namespace Sys2Proof

/-- R1: a length of 1 to 16 beats; a WRITE carries one data beat per beat of length, a READ none. -/
def Request.wellFormed (r : Request) : Bool :=
  decide (1 ≤ r.beats) && decide (r.beats ≤ 16) &&
    (match r.kind with
     | .read => r.data.isEmpty
     | .write => decide (r.data.length = r.beats))

/-- A well-formed command: REQUEST_TAKEN carries a request a master can present (R1), and BAD_COMMAND
a code that is no command code (R165). Every other term describes a happening as it stands. -/
def Instr.wellFormed : Instr → Bool
  | .requestTaken _ r => r.wellFormed
  | .prstAsserted _ => true
  | .prstReleased _ => true
  | .rstAsserted => true
  | .rstReleased _ => true
  | .refclkStopped => true
  | .refclkRestarted _ => true
  | .windowClose _ => true
  | .donationTaken _ => true
  | .claimTaken _ => true
  | .claimAnswerTaken _ => true
  | .reportSubmission _ => true
  | .issueGrant => true
  | .memoryPortReady => true
  | .memoryAnswer _ _ _ => true
  | .completionDeadline _ => true
  | .shortFrame _ => true
  | .badCommand code _ => (commandOf code).isNone
  | .readResponse _ => true
  | .getStatus _ => true
  | .getPort _ => true
  | .getWindow _ => true
  | .getProfile _ => true
  | .getPool _ => true
  | .setTableBase _ => true
  | .setFallback _ => true
  | .clearFallback _ => true
  | .load _ => true
  | .quiesce _ => true
  | .resume _ => true
  | .setPoolLimit _ => true
  | .setTimeout _ => true
  | .setRing _ => true
  | .ringOff _ => true
  | .reportAck _ => true
  | .popNotice _ => true
  | .clearOverflow _ => true
  | .setIrq _ => true
  | .softReset _ => true
  | .mcsRiseWithoutFrame => true

end Sys2Proof
end

