-- ==== Sys2Proof/Machine/State.lean ====
section
/-! DEFINITION. The state of the BG-2440, block by block, as plain data, with its values at reset. -/

namespace Sys2Proof.Machine

open Sys2Proof

/-! ## Values for each of the four ports -/

/-- One value for each requester port. -/
structure PerPort (α : Type) where
  p0 : α
  p1 : α
  p2 : α
  p3 : α
deriving DecidableEq, Repr

/-- The value of port `k`. -/
def PerPort.get {α : Type} (v : PerPort α) : Port → α
  | .rp0 => v.p0
  | .rp1 => v.p1
  | .rp2 => v.p2
  | .rp3 => v.p3

/-- `v` with the value of port `k` replaced. -/
def PerPort.set {α : Type} (v : PerPort α) : Port → α → PerPort α
  | .rp0, x => { v with p0 := x }
  | .rp1, x => { v with p1 := x }
  | .rp2, x => { v with p2 := x }
  | .rp3, x => { v with p3 := x }

/-- The same value for every port. -/
def PerPort.all {α : Type} (x : α) : PerPort α := ⟨x, x, x, x⟩

/-- `f` applied to the value of every port. -/
def PerPort.map {α β : Type} (f : α → β) (v : PerPort α) : PerPort β :=
  ⟨f v.p0, f v.p1, f v.p2, f v.p3⟩

/-! ## Requester port (01) -/

/-- Status of a queue entry (R6). -/
inductive EntryStatus where
  | waiting | admitted
deriving DecidableEq, Repr

/-- An entry of a port queue (R6). -/
structure QueueEntry where
  request     : Request
  status      : EntryStatus
  /-- held-closes count, 0 to 15 (R10) -/
  heldCloses  : Nat
  /-- refused-once mark (R11) -/
  refusedOnce : Bool
deriving DecidableEq, Repr

/-! ## Profiles (04) -/

/-- Profile mode (R62). -/
inductive Mode where
  | observe | cap | bucket
deriving DecidableEq, Repr

/-- Profile scope (R62). `unset` is the field value 0, which names no scope: it stands only in the
cleared fields of an invalid fallback profile (R66). -/
inductive Scope where
  | unset | reads | writes | both
deriving DecidableEq, Repr

/-- The nine flags of a profile (R62, R186). -/
structure ProfileFlags where
  share    : Bool
  borrow   : Bool
  report   : Bool
  link     : Bool
  nHigh    : Bool
  nLow     : Bool
  nForced  : Bool
  nDwell   : Bool
  nInstall : Bool
deriving DecidableEq, Repr

/-- The fields of a profile (R62). -/
structure Profile where
  mode         : Mode
  scope        : Scope
  windowLength : Nat
  budget       : Nat
  ceiling      : Nat
  highMark     : Nat
  lowMark      : Nat
  maxHold      : Nat
  flags        : ProfileFlags
  dwell        : Nat
  nextIndex    : Byte
deriving DecidableEq, Repr

/-- A profile with every field 0 (R66, R175). -/
def Profile.zero : Profile :=
  { mode := .observe, scope := .unset, windowLength := 0, budget := 0, ceiling := 0, highMark := 0,
    lowMark := 0, maxHold := 0,
    flags := ⟨false, false, false, false, false, false, false, false, false⟩,
    dwell := 0, nextIndex := 0 }

/-- Where an installed profile came from; `noSource` is NONE (R63, 10.1). -/
inductive Source where
  | noSource | table | fallback
deriving DecidableEq, Repr

/-- The installed profile: the meter's own copy with its index and source (R22). -/
structure Installed where
  profile : Profile
  index   : Byte
  source  : Source
deriving DecidableEq, Repr

/-- A port's fallback profile (R66). -/
structure Fallback where
  valid  : Bool
  fields : Profile
deriving DecidableEq, Repr

/-- A load context (R66): the index asked for and the address fixed when the load started. -/
structure LoadContext where
  index   : Byte
  address : Addr
deriving DecidableEq, Repr

/-! ## Meter (02) -/

/-- The nine window counters (R34). -/
structure Counters where
  meteredRead  : Nat
  meteredWrite : Nat
  unmetered    : Nat
  forced       : Nat
  borrowed     : Nat
  refused      : Nat
  maxLatency   : Nat
  timeouts     : Nat
  errors       : Nat
deriving DecidableEq, Repr

/-- Every counter 0. -/
def Counters.zero : Counters := ⟨0, 0, 0, 0, 0, 0, 0, 0, 0⟩

/-- The flags of an ended window (R39, R145). -/
structure WindowFlags where
  partialEnd : Bool
  high       : Bool
  low        : Bool
  fallback   : Bool
deriving DecidableEq, Repr

/-- The last-window snapshot (R39). -/
structure Snapshot where
  seqNo        : BitVec 32
  index        : Byte
  source       : Source
  mode         : Mode
  counters     : Counters
  /-- used in CAP, credit in BUCKET, 0 in OBSERVE -/
  endAllowance : Nat
  flags        : WindowFlags
deriving DecidableEq, Repr

/-- The snapshot after reset: every field 0, source NONE, index 0xFF (R39). -/
def Snapshot.reset : Snapshot :=
  { seqNo := 0, index := 0xFF, source := .noSource, mode := .observe, counters := Counters.zero,
    endAllowance := 0, flags := ⟨false, false, false, false⟩ }

/-- The claim record while a claim is outstanding (R30, R32): `current := false` is a stale claim. -/
structure Claim where
  shortfall : Nat
  current   : Bool
deriving DecidableEq, Repr

/-- The state of a meter (02, opening list). -/
structure Meter where
  installed     : Option Installed
  windowRunning : Bool
  timeRemaining : Nat
  seqNo         : BitVec 32
  used          : Nat
  credit        : Nat
  highSeen      : Bool
  counters      : Counters
  snapshot      : Snapshot
  claim         : Option Claim
deriving DecidableEq, Repr

/-- The meter after power-on reset (R48). -/
def Meter.reset : Meter :=
  { installed := none, windowRunning := false, timeRemaining := 0, seqNo := 0, used := 0, credit := 0,
    highSeen := false, counters := Counters.zero, snapshot := Snapshot.reset, claim := none }

/-! ## Port controller (05) -/

/-- The five port states (R91). -/
inductive PortState where
  | pass | loading | active | draining | quiet
deriving DecidableEq, Repr

/-- The drain record (R91). -/
structure Drain where
  ahead   : Nat
  drained : Nat
deriving DecidableEq, Repr

/-- The state of a port controller (R67, R91). -/
structure Controller where
  portState      : PortState
  dwellRemaining : Nat
  dwellCounting  : Bool
  loadInFlight   : Bool
  cancelledLoad  : Bool
  fallbackInUse  : Bool
  /-- present only while DRAINING -/
  drain          : Option Drain
deriving DecidableEq, Repr

/-- The port controller after power-on reset and SOFT_RESET (R67, R91). -/
def Controller.reset : Controller :=
  { portState := .pass, dwellRemaining := 0, dwellCounting := false, loadInFlight := false,
    cancelledLoad := false, fallbackInUse := false, drain := none }

/-! ## Messages between blocks (03, 08) -/

/-- A message from a meter to the credit pool, with its beats (R53, R54). -/
inductive PoolMessage where
  | donation (beats : Nat)
  | claim (shortfall : Nat)
deriving DecidableEq, Repr

/-- The pool's answer to a claim (R54). -/
inductive ClaimAnswer where
  | grant | refusal
deriving DecidableEq, Repr

/-- A report record (R145). Everything but the gap count comes from the snapshot (R40). -/
structure Report where
  port     : Port
  window   : Snapshot
  gapCount : Nat
deriving DecidableEq, Repr

/-- Everything the part holds for one port. -/
structure PortBlock where
  /-- the port queue, head first (R5) -/
  queue         : List QueueEntry
  /-- PRST_Nk is asserted (R17) -/
  resetAsserted : Bool
  meter         : Meter
  controller    : Controller
  /-- load context k of the profile loader (R66) -/
  load          : Option LoadContext
  /-- fallback profile k of the profile loader (R66) -/
  fallback      : Fallback
  /-- messages of meter k the pool has not taken, in the order sent (R56) -/
  toPool        : List PoolMessage
  /-- answers of the pool meter k has not taken (R55) -/
  answers       : List ClaimAnswer
  /-- report records of meter k the report writer has not taken, in the order submitted (R146) -/
  toWriter      : List Report
deriving DecidableEq, Repr

/-- A port after power-on reset, with its reset input at the level given. -/
def PortBlock.reset (resetAsserted : Bool) : PortBlock :=
  { queue := [], resetAsserted := resetAsserted, meter := Meter.reset, controller := Controller.reset,
    load := none, fallback := ⟨false, Profile.zero⟩, toPool := [], answers := [], toWriter := [] }

/-! ## Credit pool (03) -/

/-- The credit pool (R51). -/
structure Pool where
  level : Nat
  limit : Nat
deriving DecidableEq, Repr

/-! ## Memory port, internal requester and in-flight table (06) -/

/-- An item of the internal pending list (R109). -/
inductive InternalItem where
  /-- a READ of 2 beats, marked as a LOAD of port `k` -/
  | load (k : Port) (address : Addr)
  /-- a WRITE of 4 beats, marked as a REPORT -/
  | report (address : Addr) (data : List WriteBeat)
deriving DecidableEq, Repr

/-- Whom the answer of an in-flight entry is for (R111): a port, with the requester tag, or the
internal requester, with the internal purpose. -/
inductive Owner where
  | port (k : Port) (tag : Fin 32)
  | load (k : Port)
  | report
deriving DecidableEq, Repr

/-- The state of an in-flight entry that is not FREE (R111). -/
inductive EntryState where
  | live | orphan
deriving DecidableEq, Repr

/-- A LIVE or ORPHAN entry of the in-flight table (R111). -/
structure InFlight where
  state     : EntryState
  owner     : Owner
  kind      : Kind
  beats     : Nat
  issueTime : BitVec 32
  deadline  : Option (BitVec 32)
deriving DecidableEq, Repr

/-- A transaction on the memory port (R108). -/
structure Transaction where
  kind    : Kind
  address : Addr
  beats   : Nat
  data    : List WriteBeat
  tag     : Fin 64
deriving DecidableEq, Repr

/-! ## Notices (07) -/

/-- The ten notice kinds (R131). -/
inductive NoticeKind where
  | high | low | forced | dwellEnd | installed | profileFault | quiesced | completionTimeout
  | ringFull | reportFault
deriving DecidableEq, Repr

/-- A notice record (R131). Port `none` is NONE. -/
structure Notice where
  kind   : NoticeKind
  port   : Option Port
  seqNo  : BitVec 32
  index  : Byte
  detail : Nat
deriving DecidableEq, Repr

/-- The notice queue (R135), oldest record first. -/
structure NoticeQueue where
  records   : List Notice
  overflow  : Bool
  irqEnable : Bool
deriving DecidableEq, Repr

/-- The notice queue after reset (R142, R143). -/
def NoticeQueue.reset : NoticeQueue := ⟨[], false, false⟩

/-! ## Report writer (08) -/

/-- The ring state (R148). -/
inductive RingState where
  | off | run | halt
deriving DecidableEq, Repr

/-- The report writer (R147). -/
structure ReportWriter where
  ring          : RingState
  base          : Addr
  /-- in slots; 0 when no ring has been set -/
  size          : Nat
  producer      : BitVec 16
  consumer      : BitVec 16
  /-- the report queue, oldest first -/
  queue         : List Report
  writeInFlight : Bool
  gapCount      : PerPort Nat
  fullEpisode   : Bool
deriving DecidableEq, Repr

/-- The report writer after reset (R147, R162). -/
def ReportWriter.reset : ReportWriter :=
  { ring := .off, base := 0, size := 0, producer := 0, consumer := 0, queue := [],
    writeInFlight := false, gapCount := PerPort.all 0, fullEpisode := false }

/-! ## Management link (09) -/

/-- The seven status codes of a response (R169). -/
inductive Status where
  | ok | busy | badArg | badState | badCommand | badFrame | empty
deriving DecidableEq, Repr

/-- The response buffer (R166). -/
structure Response where
  status : Status
  data   : List Byte
deriving DecidableEq, Repr

/-- The management link. -/
structure Link where
  response      : Response
  /-- completion-timeout setting, 0 to 255 (R118) -/
  timeout       : Byte
  /-- MCS_N was low when RST_N was released or REFCLK ran again and has not risen since (R183, R185) -/
  awaitingRise  : Bool
deriving DecidableEq, Repr

/-- The link after power-on reset (R166, R118), with MCS_N low or not at that moment (R183). -/
def Link.reset (mcsLow : Bool) : Link := ⟨⟨.ok, []⟩, 40, mcsLow⟩

/-! ## What the part puts out -/

/-- The status of a completion returned to a master (R14). -/
inductive CompletionStatus where
  | ok | error | timeout
deriving DecidableEq, Repr

/-- One thing the part has put out at its pins and ports. -/
inductive Output where
  /-- a completion returned at RPk (R14): requester tag, status and data beats (R15) -/
  | completion (k : Port) (tag : Fin 32) (status : CompletionStatus) (data : List Beat)
  /-- a transaction sent on the memory port (R108, R130) -/
  | sent (t : Transaction)
  /-- the bits MDO carried during one frame, first bit first (R167, R168) -/
  | mdo (bits : List Bool)
deriving DecidableEq, Repr

/-! ## The whole part -/

/-- The state of the BG-2440. -/
structure State where
  /-- requester port, meter, port controller, loader context and fallback of each port -/
  ports          : PerPort PortBlock
  /-- the profile table base (R64) -/
  tableBase      : Addr
  pool           : Pool
  /-- the internal pending list, oldest first (R109) -/
  internalList   : List InternalItem
  /-- the round-robin pointer (R115) -/
  roundRobin     : Port
  /-- the in-flight table; `none` is FREE (R111) -/
  table          : Vector (Option InFlight) 64
  /-- the transaction the memory controller has not yet taken whole; `none`: the request side of the
  memory port is ready (R108) -/
  memoryPort     : Option Transaction
  notices        : NoticeQueue
  writer         : ReportWriter
  link           : Link
  /-- RST_N is asserted -/
  rstAsserted    : Bool
  /-- REFCLK runs (R185) -/
  refclkRunning  : Bool
  /-- the 32-bit count of timebase ticks (R185) -/
  ticks          : BitVec 32
  /-- the MODEL's: everything put out so far, oldest first; the part never reads it (log entry 6) -/
  outputs        : List Output
  /-- the MODEL's: how many free choices of order have been drawn (log entry 2) -/
  choices        : Nat
  /-- the commands that are waiting, first in, first out -/
  pending        : List Instr
deriving DecidableEq, Repr

/-- The part right after the release of power-on reset (R20, R48, R52, R66, R67, R128, R142, R147,
R166), with every input pin at the level log entry 5 names; the time remaining and the tick count are 0 by
log entry 24. -/
def State.reset : State :=
  { ports := PerPort.all (PortBlock.reset false)
    tableBase := 0
    pool := ⟨0, 0⟩
    internalList := []
    roundRobin := .rp0
    table := Vector.replicate 64 none
    memoryPort := none
    notices := NoticeQueue.reset
    writer := ReportWriter.reset
    link := Link.reset false
    rstAsserted := false
    refclkRunning := true
    ticks := 0
    outputs := []
    choices := 0
    pending := [] }

/-- No happening of the part is a fault: where the manual gives a thing no effect, the state stays as
it is. There is therefore no constructor. -/
inductive Fault where
deriving DecidableEq, Repr

/-- The refusals of `exec`. -/
inductive Refusal where
  /-- raised by an arm of `exec` for a row without a meaning; safe. No arm raises it: every row of the
  opcode table has its meaning. -/
  | notModelled (mnemonic : String)
deriving DecidableEq, Repr

end Sys2Proof.Machine
end

