-- ==== Sys2Proof/Machine/Flags.lean ====
section
/-! DEFINITION. Flags and flag words: the conditions the part derives from its state (the accepting
flag, IRQ_N, whether a window runs) and the flag bytes of records and responses. -/

namespace Sys2Proof.Machine

open Sys2Proof

/-- The four ports, in the order of their numbers. -/
def allPorts : List Port := [.rp0, .rp1, .rp2, .rp3]

/-- The number of a port, as records and responses carry it (10.1). -/
def portNumber : Port → Nat
  | .rp0 => 0
  | .rp1 => 1
  | .rp2 => 2
  | .rp3 => 3

/-- The block of port `k`. -/
def State.port (s : State) (k : Port) : PortBlock := s.ports.get k

/-- Happenings are taken: REFCLK runs (R185) and RST_N is not asserted (R20, R128, R183). -/
def State.operating (s : State) : Bool := s.refclkRunning && !s.rstAsserted

/-- The link takes frames: the part operates, and MCS_N has risen since the release of RST_N or the
restart of REFCLK if it was low then (R183, R185). -/
def State.listening (s : State) : Bool := s.operating && !s.link.awaitingRise

/-- The port states in which a port takes requests (R2). -/
def PortState.open : PortState → Bool
  | .pass => true
  | .loading => true
  | .active => true
  | .draining => false
  | .quiet => false

/-- The accepting flag of port `k` (R2): it follows its three conditions as they change. -/
def State.accepting (s : State) (k : Port) : Bool :=
  (s.port k).controller.portState.open &&
    (!(s.port k).resetAsserted && !s.rstAsserted) &&
    decide ((s.port k).queue.length < 16)

/-- A window runs (R25). -/
def PortBlock.windowRuns (b : PortBlock) : Bool :=
  b.meter.installed.isSome &&
    (match b.controller.portState with
     | .active => true
     | .loading => true
     | .pass => false
     | .draining => false
     | .quiet => false) &&
    b.meter.windowRunning

/-- IRQ_N is asserted (R141). -/
def NoticeQueue.irqAsserted (q : NoticeQueue) : Bool :=
  q.irqEnable && (!q.records.isEmpty || q.overflow)

/-- The kind of traffic a scope meters (R24). -/
def inScope (scope : Scope) (kind : Kind) : Bool :=
  match scope, kind with
  | .unset, _ => false
  | .reads, .read => true
  | .reads, .write => false
  | .writes, .read => false
  | .writes, .write => true
  | .both, _ => true

/-- A number from flag bits, bit 0 first. -/
def wordOfBits : List Bool → Nat
  | [] => 0
  | b :: bs => b.toNat + 2 * wordOfBits bs

/-- The profile flag word (R186): bits 9 to 15 are 0. -/
def wordOfFlags (f : ProfileFlags) : Nat :=
  wordOfBits [f.share, f.borrow, f.report, f.link, f.nHigh, f.nLow, f.nForced, f.nDwell, f.nInstall]

/-- The flags of a profile flag word (R186); bits 9 to 15 are ignored and not kept. -/
def flagsOfWord (w : Nat) : ProfileFlags :=
  { share := w.testBit 0, borrow := w.testBit 1, report := w.testBit 2, link := w.testBit 3,
    nHigh := w.testBit 4, nLow := w.testBit 5, nForced := w.testBit 6, nDwell := w.testBit 7,
    nInstall := w.testBit 8 }

/-- The window flags byte (10.1). -/
def windowFlagsByte (f : WindowFlags) : Byte :=
  BitVec.ofNat 8 (wordOfBits [f.partialEnd, f.high, f.low, f.fallback])

/-- The notice flags byte of the status image (R189). -/
def noticeFlagsByte (q : NoticeQueue) : Byte :=
  BitVec.ofNat 8 (wordOfBits [q.overflow, q.irqEnable, q.irqAsserted])

/-- The ring flags byte (R189). -/
def ringFlagsByte (w : ReportWriter) : Byte :=
  BitVec.ofNat 8 (wordOfBits [w.writeInFlight, w.fullEpisode])

/-- The port flags byte of the port image (R189). -/
def portFlagsByte (s : State) (k : Port) : Byte :=
  BitVec.ofNat 8 (wordOfBits [s.accepting k, (s.port k).resetAsserted])

end Sys2Proof.Machine
end

