-- ==== Sys2Proof/Machine/Operands.lean ====
section
/-! DEFINITION. Operand forms and byte layouts: the arguments of management frames, the profile
record, the report record, the notice record and the response images (chapter 10). -/

namespace Sys2Proof.Machine

open Sys2Proof

/-! ## Byte order -/

/-- `n` in `count` bytes, the most significant first: management frames and responses (R188, R189). -/
def bytesBE : Nat → Nat → List Byte
  | 0, _ => []
  | count + 1, n => BitVec.ofNat 8 (n / 256 ^ count) :: bytesBE count n

/-- The number in bytes with the most significant first (R188). -/
def natOfBE (bytes : List Byte) : Nat := bytes.foldl (fun n b => 256 * n + b.toNat) 0

/-- `n` in `count` bytes, the least significant first: records in memory (R187). -/
def bytesLE : Nat → Nat → List Byte
  | 0, _ => []
  | count + 1, n => BitVec.ofNat 8 n :: bytesLE count (n / 256)

/-- The number in bytes with the least significant first (R186). -/
def natOfLE : List Byte → Nat
  | [] => 0
  | b :: bs => b.toNat + 256 * natOfLE bs

/-- The `count` bytes at offset `at_` of bytes that reach so far. -/
def fieldAt (bytes : List Byte) (at_ count : Nat) : List Byte :=
  (List.range count).map fun i => bytes.getD (at_ + i) 0

/-- The sixteen bytes of a beat, in address order. -/
def bytesOfBeat (b : Beat) : List Byte := (List.range 16).map fun i => BitVec.ofNat 8 (b.toNat / 256 ^ i)

/-- The 32 bytes of a profile record, taken from the beats of its read in address order (R186); a byte
the answer did not carry is free (log entry 4). -/
def bytesOfRecordRead (data : List Beat) : List Byte :=
  (List.range 32).map fun n => (data.flatMap bytesOfBeat).getD n (Config.missingByte n)

/-- The beat that holds these bytes, in address order. -/
def beatOfBytes (bytes : List Byte) : Beat := BitVec.ofNat 128 (natOfLE bytes)

/-- A beat of write data with every byte enabled. -/
def fullBeat (b : Beat) : WriteBeat := ⟨b, 0xFFFF⟩

/-! ## Codes (10.1, R189, R190) -/

def codeOfMode : Mode → Nat
  | .observe => 0
  | .cap => 1
  | .bucket => 2

def codeOfScope : Scope → Nat
  | .unset => 0
  | .reads => 1
  | .writes => 2
  | .both => 3

def codeOfSource : Source → Nat
  | .noSource => 0
  | .table => 1
  | .fallback => 2

def codeOfPortState : PortState → Nat
  | .pass => 0
  | .loading => 1
  | .active => 2
  | .draining => 3
  | .quiet => 4

def codeOfRing : RingState → Nat
  | .off => 0
  | .run => 1
  | .halt => 2

def codeOfStatus : Status → Nat
  | .ok => 0
  | .busy => 1
  | .badArg => 2
  | .badState => 3
  | .badCommand => 4
  | .badFrame => 5
  | .empty => 6

def codeOfNotice : NoticeKind → Nat
  | .high => 1
  | .low => 2
  | .forced => 3
  | .dwellEnd => 4
  | .installed => 5
  | .profileFault => 6
  | .quiesced => 7
  | .completionTimeout => 8
  | .ringFull => 9
  | .reportFault => 10

/-- The port byte of a notice: 0 to 3, or 0xFF for NONE (R190). -/
def codeOfNoticePort : Option Port → Nat
  | some k => portNumber k
  | none => 255

/-- A fault reason of a load, or the cause of a write fault (10.1). -/
inductive FaultReason where
  | memoryError | timeout | badFormat | badCheck | badField
deriving DecidableEq, Repr

def codeOfReason : FaultReason → Nat
  | .memoryError => 1
  | .timeout => 2
  | .badFormat => 3
  | .badCheck => 4
  | .badField => 5

/-! ## Profile fields before they are checked -/

/-- The profile fields as a record or a frame carries them, before the checks of R74. -/
structure RawProfile where
  mode         : Nat
  scope        : Nat
  windowLength : Nat
  budget       : Nat
  ceiling      : Nat
  highMark     : Nat
  lowMark      : Nat
  maxHold      : Nat
  flags        : Nat
  dwell        : Nat
  nextIndex    : Nat
deriving DecidableEq, Repr

/-- The fields of a 32-byte profile record (R186). -/
def rawOfRecord (bytes : List Byte) : RawProfile :=
  { mode := natOfLE (fieldAt bytes 1 1)
    scope := natOfLE (fieldAt bytes 2 1)
    maxHold := natOfLE (fieldAt bytes 3 1)
    windowLength := natOfLE (fieldAt bytes 4 2)
    budget := natOfLE (fieldAt bytes 6 2)
    ceiling := natOfLE (fieldAt bytes 8 2)
    highMark := natOfLE (fieldAt bytes 10 2)
    lowMark := natOfLE (fieldAt bytes 12 2)
    flags := natOfLE (fieldAt bytes 14 2)
    dwell := natOfLE (fieldAt bytes 16 2)
    nextIndex := natOfLE (fieldAt bytes 18 1) }

/-- The fields of the 18 profile bytes of SET_FALLBACK, frame bytes 2 to 19 (R188). -/
def rawOfFrame (bytes : List Byte) : RawProfile :=
  { mode := natOfBE (fieldAt bytes 0 1)
    scope := natOfBE (fieldAt bytes 1 1)
    windowLength := natOfBE (fieldAt bytes 2 2)
    budget := natOfBE (fieldAt bytes 4 2)
    ceiling := natOfBE (fieldAt bytes 6 2)
    highMark := natOfBE (fieldAt bytes 8 2)
    lowMark := natOfBE (fieldAt bytes 10 2)
    maxHold := natOfBE (fieldAt bytes 12 1)
    flags := natOfBE (fieldAt bytes 13 2)
    dwell := natOfBE (fieldAt bytes 15 2)
    nextIndex := natOfBE (fieldAt bytes 17 1) }

/-- No field fails a range check of R74. -/
def RawProfile.inRange (r : RawProfile) : Bool :=
  decide (r.mode < 3) &&
    decide (1 ≤ r.scope ∧ r.scope < 4) &&
    decide (16 ≤ r.windowLength) &&
    !((r.mode == 1 || r.mode == 2) && r.budget == 0) &&
    !(r.mode == 2 && decide (r.ceiling < r.budget)) &&
    decide (r.maxHold < 16)

/-- The mode a mode byte names; bytes of 3 or more fail `RawProfile.inRange`. -/
def modeOfCode : Nat → Mode
  | 0 => .observe
  | 1 => .cap
  | _ => .bucket

/-- The scope a scope byte names; 0, and 4 or more, fail `RawProfile.inRange`. -/
def scopeOfCode : Nat → Scope
  | 0 => .unset
  | 1 => .reads
  | 2 => .writes
  | _ => .both

/-- The profile the fields make up once they have passed the checks. -/
def RawProfile.toProfile (r : RawProfile) : Profile :=
  { mode := modeOfCode r.mode
    scope := scopeOfCode r.scope
    windowLength := r.windowLength
    budget := r.budget
    ceiling := r.ceiling
    highMark := r.highMark
    lowMark := r.lowMark
    maxHold := r.maxHold
    flags := flagsOfWord r.flags
    dwell := r.dwell
    nextIndex := BitVec.ofNat 8 r.nextIndex }

/-- The check sum of a record: its sixteen little-endian halfwords, modulo 65,536 (R73). -/
def checkSum (bytes : List Byte) : Nat :=
  ((List.range 16).map fun i => natOfLE (fieldAt bytes (2 * i) 2)).sum % 65536

/-- Validation of a record's 32 bytes (R72): the profile, or the reason of the first test that fails. -/
def validateRecord (bytes : List Byte) : Except FaultReason Profile :=
  if bytes.getD 0 0 ≠ 0xB6 then .error .badFormat
  else if checkSum bytes ≠ 0 then .error .badCheck
  else if (rawOfRecord bytes).inRange then .ok (rawOfRecord bytes).toProfile
  else .error .badField

/-! ## Frame arguments -/

/-- The port an argument byte names; 4 to 255 name none (R171). -/
def portOfByte (b : Byte) : Option Port :=
  match b.toNat with
  | 0 => some .rp0
  | 1 => some .rp1
  | 2 => some .rp2
  | 3 => some .rp3
  | _ => none

/-- The 40-bit base that starts the argument bytes (R176, R179). -/
def baseOfArgs (args : List Byte) : Nat := natOfBE (args.take 5)

/-! ## The report record (R187) -/

/-- The 64 bytes of a report record, at their offsets. -/
def bytesOfReport (r : Report) : List Byte :=
  bytesLE 1 (portNumber r.port) ++
  [windowFlagsByte r.window.flags] ++
  bytesLE 1 (codeOfSource r.window.source) ++
  bytesLE 1 (codeOfMode r.window.mode) ++
  bytesLE 4 r.window.seqNo.toNat ++
  [r.window.index] ++
  bytesLE 1 r.gapCount ++
  bytesLE 2 r.window.endAllowance ++
  bytesLE 4 r.window.counters.meteredRead ++
  bytesLE 4 r.window.counters.meteredWrite ++
  bytesLE 4 r.window.counters.unmetered ++
  bytesLE 4 r.window.counters.forced ++
  bytesLE 4 r.window.counters.borrowed ++
  bytesLE 2 r.window.counters.refused ++
  bytesLE 2 r.window.counters.timeouts ++
  bytesLE 2 r.window.counters.errors ++
  bytesLE 2 r.window.counters.maxLatency ++
  List.replicate 24 0

/-- The four beats of a report write, every byte enabled (R153). -/
def beatsOfReport (r : Report) : List WriteBeat :=
  (List.range 4).map fun i => fullBeat (beatOfBytes (fieldAt (bytesOfReport r) (16 * i) 16))

/-! ## Responses (R189) -/

/-- The 18 profile-field bytes of a GET_PROFILE response (R188). -/
def bytesOfProfile (p : Profile) : List Byte :=
  bytesBE 1 (codeOfMode p.mode) ++
  bytesBE 1 (codeOfScope p.scope) ++
  bytesBE 2 p.windowLength ++
  bytesBE 2 p.budget ++
  bytesBE 2 p.ceiling ++
  bytesBE 2 p.highMark ++
  bytesBE 2 p.lowMark ++
  bytesBE 1 p.maxHold ++
  bytesBE 2 (wordOfFlags p.flags) ++
  bytesBE 2 p.dwell ++
  [p.nextIndex]

/-- The 9 bytes of a notice record (R190). -/
def bytesOfNotice (n : Notice) : List Byte :=
  bytesBE 1 (codeOfNotice n.kind) ++
  bytesBE 1 (codeOfNoticePort n.port) ++
  bytesBE 4 n.seqNo.toNat ++
  [n.index] ++
  bytesBE 2 n.detail

/-- The window image of GET_WINDOW: 33 bytes (R189). -/
def windowImage (w : Snapshot) : List Byte :=
  bytesBE 4 w.seqNo.toNat ++
  [w.index] ++
  bytesBE 1 (codeOfSource w.source) ++
  bytesBE 1 (codeOfMode w.mode) ++
  [windowFlagsByte w.flags] ++
  bytesBE 3 w.counters.meteredRead ++
  bytesBE 3 w.counters.meteredWrite ++
  bytesBE 3 w.counters.unmetered ++
  bytesBE 3 w.counters.forced ++
  bytesBE 3 w.counters.borrowed ++
  bytesBE 2 w.counters.refused ++
  bytesBE 2 w.counters.timeouts ++
  bytesBE 2 w.counters.errors ++
  bytesBE 2 w.counters.maxLatency ++
  bytesBE 2 w.endAllowance

/-- The installed index of a meter, 0xFF with no profile (R50). -/
def Meter.index (m : Meter) : Byte :=
  match m.installed with
  | some i => i.index
  | none => 0xFF

/-- The source of a meter's profile, NONE with no profile (R50). -/
def Meter.source (m : Meter) : Source :=
  match m.installed with
  | some i => i.source
  | none => .noSource

/-- Used in CAP, credit in BUCKET, 0 in OBSERVE or with no profile (R50). -/
def Meter.allowance (m : Meter) : Nat :=
  match m.installed with
  | none => 0
  | some i =>
    match i.profile.mode with
    | .observe => 0
    | .cap => m.used
    | .bucket => m.credit

/-- The data of a GET_PROFILE response: 20 bytes (R175). -/
def profileImage (m : Meter) : List Byte :=
  m.index :: (bytesBE 1 (codeOfSource m.source) ++
    bytesOfProfile (match m.installed with
      | some i => i.profile
      | none => Profile.zero))

/-- The data of GET_POOL and SET_POOL_LIMIT: 4 bytes. -/
def poolImage (p : Pool) : List Byte := bytesBE 2 p.level ++ bytesBE 2 p.limit

/-- The data of SET_RING: 12 bytes. -/
def ringImage (w : ReportWriter) : List Byte :=
  bytesBE 1 (codeOfRing w.ring) ++ bytesBE 5 w.base.toNat ++ bytesBE 2 w.size ++
    bytesBE 2 w.producer.toNat ++ bytesBE 2 w.consumer.toNat

/-- The data of REPORT_ACK: 5 bytes; those of RING_OFF are these and the ring flags byte. -/
def indexImage (w : ReportWriter) : List Byte :=
  bytesBE 1 (codeOfRing w.ring) ++ bytesBE 2 w.producer.toNat ++ bytesBE 2 w.consumer.toNat

/-- The response image that MDO shifts out from byte 1 of a READ_RESPONSE frame (R167). -/
def responseImage (r : Response) : List Byte :=
  BitVec.ofNat 8 (codeOfStatus r.status) :: BitVec.ofNat 8 r.data.length :: r.data

end Sys2Proof.Machine
end

