-- ==== Sys2Proof/Machine/Ops.lean ====
section
/-! DEFINITION. The named operations the meanings are made of: reading and writing the state of a
port, submitting a notice, judging the queue, ending and starting windows, loads, drains, the
in-flight table, the report writer and the frames of the link. -/

namespace Sys2Proof.Machine

open Sys2Proof

/-! ## Writing the state -/

/-- The state with the block of port `k` replaced. -/
def State.setPort (s : State) (k : Port) (b : PortBlock) : State := { s with ports := s.ports.set k b }

/-- The state with meter `k` replaced. -/
def State.setMeter (s : State) (k : Port) (m : Meter) : State :=
  s.setPort k { s.port k with meter := m }

/-- The state with port controller `k` replaced. -/
def State.setController (s : State) (k : Port) (c : Controller) : State :=
  s.setPort k { s.port k with controller := c }

/-- The state with the port queue of RPk replaced. -/
def State.setQueue (s : State) (k : Port) (q : List QueueEntry) : State :=
  s.setPort k { s.port k with queue := q }

/-- The state with the notice queue replaced. -/
def State.setNotices (s : State) (q : NoticeQueue) : State := { s with notices := q }

/-- The state with the report writer replaced. -/
def State.setWriter (s : State) (w : ReportWriter) : State := { s with writer := w }

/-- The state with the in-flight table replaced. -/
def State.setTable (s : State) (t : Vector (Option InFlight) 64) : State := { s with table := t }

/-- The state with one more thing put out. -/
def State.emit (s : State) (o : Output) : State := { s with outputs := s.outputs ++ [o] }

/-- An item joins the tail of the internal pending list (R109). -/
def State.joinInternal (s : State) (item : InternalItem) : State :=
  { s with internalList := s.internalList ++ [item] }

/-- The response buffer is replaced whole (R166). -/
def State.respond (s : State) (status : Status) (data : List Byte) : State :=
  { s with link := { s.link with response := ⟨status, data⟩ } }

/-- What a happening answers: it is taken where it can be, and otherwise the part stays as it is
(log entry 3). -/
def happening (enabled : Bool) (s s' : State) : Host.Outcome State Fault Refusal :=
  .next (if enabled then s' else s)

/-! ## Notices (07) -/

/-- Submission of a notice (R136): it joins the tail, or is lost and sets the overflow flag. -/
def NoticeQueue.submit (q : NoticeQueue) (n : Notice) : NoticeQueue :=
  if q.records.length < 32 then { q with records := q.records ++ [n] } else { q with overflow := true }

/-- Submission of a notice to the part's notice queue (R134, R136). -/
def State.submit (s : State) (n : Notice) : State := s.setNotices (s.notices.submit n)

/-- Submission of several notices of one happening, in order (R134). -/
def State.submitAll (s : State) (ns : List Notice) : State :=
  s.setNotices (ns.foldl NoticeQueue.submit s.notices)

/-- A notice of port `k`, from the state as it stands at the submission (R132). -/
def portNotice (s : State) (k : Port) (kind : NoticeKind) (detail : Nat) : Notice :=
  { kind := kind, port := some k, seqNo := (s.port k).meter.seqNo, index := (s.port k).meter.index,
    detail := min detail 65535 }

/-- A notice of the report writer (R133). -/
def writerNotice (kind : NoticeKind) (detail : Nat) : Notice :=
  { kind := kind, port := none, seqNo := 0, index := 0xFF, detail := detail }

/-! ## Evaluation (2.3) -/

/-- A counter that stops at its maximum (R34). -/
def saturate (max n : Nat) : Nat := min n max

/-- The maximum of a beat counter (R34). -/
def maxBeats : Nat := 16777215

/-- The maximum of an event counter, of a latency and of the detail of a notice (R34). -/
def maxEvents : Nat := 65535

/-- The charged beats of the window (R33). -/
def Counters.charged (c : Counters) : Nat := c.meteredRead + c.meteredWrite - c.borrowed

/-- The beats of an entry counted as metered read or metered write beats, by kind (R28, R31). -/
def Counters.addMetered (c : Counters) (r : Request) : Counters :=
  match r.kind with
  | .read => { c with meteredRead := saturate maxBeats (c.meteredRead + r.beats) }
  | .write => { c with meteredWrite := saturate maxBeats (c.meteredWrite + r.beats) }

/-- The high mark after an in-scope admission (R33): the flag, and the HIGH notice if it is raised. -/
def crossHighMark (k : Port) (i : Installed) (m : Meter) : Meter × List Notice :=
  if i.profile.highMark ≠ 0 ∧ m.highSeen = false ∧ i.profile.highMark ≤ m.counters.charged then
    ({ m with highSeen := true },
      if i.profile.flags.nHigh then
        [{ kind := .high, port := some k, seqNo := m.seqNo, index := i.index,
           detail := min m.counters.charged maxEvents }]
      else [])
  else (m, [])

/-- What the meter decides about the first WAITING entry (R28 to R30). -/
inductive Verdict where
  /-- admitted: the meter afterwards, and a HIGH notice if one is raised -/
  | admission (m : Meter) (notices : List Notice)
  | refuse
  | claim (shortfall : Nat)

/-- The in-scope admission of a request by the meter's own allowance (R28). -/
def admitInScope (k : Port) (i : Installed) (m : Meter) (r : Request) : Verdict :=
  let a := crossHighMark k i { m with counters := m.counters.addMetered r }
  .admission a.1 a.2

/-- The case of R28 that applies to an entry, and R29 or R30 where its test fails. -/
def decideEntry (k : Port) (i : Installed) (m : Meter) (r : Request) : Verdict :=
  if inScope i.profile.scope r.kind then
    match i.profile.mode with
    | .observe => admitInScope k i m r
    | .cap =>
      if m.used + r.beats ≤ i.profile.budget then admitInScope k i { m with used := m.used + r.beats } r
      else if i.profile.flags.borrow then .claim (m.used + r.beats - i.profile.budget)
      else .refuse
    | .bucket =>
      if r.beats ≤ m.credit then admitInScope k i { m with credit := m.credit - r.beats } r
      else if i.profile.flags.borrow then .claim (r.beats - m.credit)
      else .refuse
  else
    .admission { m with counters :=
      { m.counters with unmetered := saturate maxBeats (m.counters.unmetered + r.beats) } } []

/-- An entry marked ADMITTED (R7). -/
def QueueEntry.markAdmitted (e : QueueEntry) : QueueEntry := { e with status := .admitted }

/-- The meter refuses an entry (R11): the refused requests counter, once in the entry's life. -/
def Meter.refuse (m : Meter) (e : QueueEntry) : Meter :=
  if e.refusedOnce then m
  else { m with counters :=
    { m.counters with refused := saturate maxEvents (m.counters.refused + 1) } }

/-- A refused entry: it stays WAITING with its refused-once mark set (R11, R29). -/
def QueueEntry.markRefused (e : QueueEntry) : QueueEntry := { e with refusedOnce := true }

/-- What one evaluation leaves: the meter, the queue, the notices and the claim sent, if any. -/
structure Evaluated where
  meter    : Meter
  queue    : List QueueEntry
  notices  : List Notice
  messages : List PoolMessage

/-- The evaluation of a queue (R27): the first WAITING entry is decided; after an admission the next;
a refusal, a claim or the end of the queue ends it. -/
def evaluateQueue (k : Port) (i : Installed) (m : Meter) : List QueueEntry → Evaluated
  | [] => ⟨m, [], [], []⟩
  | e :: rest =>
    match e.status with
    | .admitted =>
      let r := evaluateQueue k i m rest
      { r with queue := e :: r.queue }
    | .waiting =>
      match decideEntry k i m e.request with
      | .admission m' ns =>
        let r := evaluateQueue k i m' rest
        { r with queue := e.markAdmitted :: r.queue, notices := ns ++ r.notices }
      | .refuse => ⟨m.refuse e, e.markRefused :: rest, [], []⟩
      | .claim shortfall =>
        ⟨{ m with claim := some ⟨shortfall, true⟩ }, e :: rest, [], [.claim shortfall]⟩

/-- What an evaluation does to the state: meter, queue, claim sent and notices. -/
def State.applyEvaluated (s : State) (k : Port) (r : Evaluated) : State :=
  (s.setPort k { s.port k with
    meter := r.meter, queue := r.queue, toPool := (s.port k).toPool ++ r.messages }).submitAll r.notices

/-- Meter `k` evaluates (R27): only while a window runs and no claim of its own is outstanding. -/
def evaluate (k : Port) (s : State) : State :=
  match (s.port k).meter.installed with
  | none => s
  | some i =>
    if (s.port k).windowRuns && (s.port k).meter.claim.isNone then
      s.applyEvaluated k (evaluateQueue k i (s.port k).meter (s.port k).queue)
    else s

/-- The admitted run at the head of a queue (R5). -/
def admittedRun (q : List QueueEntry) : List QueueEntry := q.takeWhile fun e => e.status == .admitted

/-- The queue from its first WAITING entry on (R5). -/
def waitingRest (q : List QueueEntry) : List QueueEntry := q.dropWhile fun e => e.status == .admitted

/-- The number of ADMITTED entries (R5). -/
def admittedCount (q : List QueueEntry) : Nat := q.countP fun e => e.status == .admitted

/-- A current grant admits the entry under claim, exhausts the allowance, counts the borrowed beats
and goes on evaluating behind it (R31). -/
def grantQueue (k : Port) (i : Installed) (shortfall : Nat) (m : Meter) (q : List QueueEntry) : Evaluated :=
  match waitingRest q with
  | [] => ⟨m, q, [], []⟩
  | e :: rest =>
    let c := m.counters.addMetered e.request
    let paid : Meter :=
      { m with
        used := if i.profile.mode = .cap then i.profile.budget else m.used
        credit := if i.profile.mode = .bucket then 0 else m.credit
        counters := { c with borrowed := saturate maxBeats (c.borrowed + shortfall) } }
    let a := crossHighMark k i paid
    let r := evaluateQueue k i a.1 rest
    { r with queue := admittedRun q ++ e.markAdmitted :: r.queue, notices := a.2 ++ r.notices }

/-- A current refusal refuses the entry under claim (R31, R29). -/
def refuseQueue (m : Meter) (q : List QueueEntry) : Evaluated :=
  match waitingRest q with
  | [] => ⟨m, q, [], []⟩
  | e :: rest => ⟨m.refuse e, admittedRun q ++ e.markRefused :: rest, [], []⟩

/-- A claim outstanding becomes stale (R32). -/
def Meter.staleClaim (m : Meter) : Meter :=
  { m with claim := m.claim.map fun c => { c with current := false } }

/-- The mass admission of port `k` (R9): every WAITING entry becomes ADMITTED, uncounted, and a claim
outstanding becomes stale. -/
def massAdmit (k : Port) (s : State) : State :=
  s.setPort k { s.port k with
    queue := (s.port k).queue.map QueueEntry.markAdmitted, meter := (s.port k).meter.staleClaim }

/-! ## Windows (2.6, 2.8) -/

/-- The snapshot of the window of meter `k` as it ends (R36 step 1, R41). -/
def endSnapshot (b : PortBlock) (i : Installed) (partialEnd : Bool) : Snapshot :=
  { seqNo := b.meter.seqNo, index := i.index, source := i.source, mode := i.profile.mode,
    counters := b.meter.counters, endAllowance := b.meter.allowance,
    flags := { partialEnd := partialEnd, high := b.meter.highSeen, low := false,
               fallback := b.controller.fallbackInUse } }

/-- Meter `k` submits the report record of the window just ended, if the profile has REPORT (R40).
The report writer takes it as a happening of its own and fills in the gap count. -/
def submitReport (k : Port) (i : Installed) (s : State) : State :=
  if i.profile.flags.report then
    s.setPort k { s.port k with
      toWriter := (s.port k).toWriter ++ [⟨k, (s.port k).meter.snapshot, 0⟩] }
  else s

/-- The early end of the window of meter `k`, if one runs (R41). -/
def earlyEnd (k : Port) (s : State) : State :=
  match (s.port k).meter.installed with
  | none => s
  | some i =>
    if (s.port k).windowRuns then
      submitReport k i (s.setMeter k
        { (s.port k).meter.staleClaim with
          snapshot := endSnapshot (s.port k) i true, counters := Counters.zero, highSeen := false })
    else s

/-- Meter `k` starts a window under its installed profile (R42, R43, R45). DEDUCED: the number rises by one, at a
RESUME too, as R26, R45, R104 and 5.10 say, and not by two, as a sentence of R146 has it (log entry 27). -/
def startWindow (k : Port) (i : Installed) (s : State) : State :=
  s.setMeter k
    { (s.port k).meter with
      windowRunning := true
      timeRemaining := i.profile.windowLength
      seqNo := (s.port k).meter.seqNo + 1
      used := 0
      credit := if i.profile.mode = .bucket then i.profile.ceiling else 0
      counters := Counters.zero
      highSeen := false }

/-- Meter `k` takes a profile as its installed copy, starts a window and evaluates (R42, R43). The
early end of the old window comes before (R76, R78). -/
def installProfile (k : Port) (i : Installed) (s : State) : State :=
  evaluate k (startWindow k i (s.setMeter k { (s.port k).meter with installed := some i }))

/-! ## Loads (04) -/

/-- The address of a table record (R64). -/
def recordAddress (base : Addr) (index : Byte) : Addr := base + 32 * index.zeroExtend 40

/-- A load of record `index` for port `k` starts (R68). -/
def startLoad (k : Port) (index : Byte) (s : State) : State :=
  (s.setPort k { s.port k with
    load := some ⟨index, recordAddress s.tableBase index⟩
    controller := { (s.port k).controller with
      loadInFlight := true, cancelledLoad := false, portState := .loading } }).joinInternal
    (.load k (recordAddress s.tableBase index))

/-- The load of port `k` is over: the context goes, both flags are clear (R75 step 3, R82). -/
def endLoad (k : Port) (s : State) : State :=
  s.setPort k { s.port k with
    load := none
    controller := { (s.port k).controller with loadInFlight := false, cancelledLoad := false } }

/-- The result of a load (R71). -/
inductive LoadResult where
  | data (bytes : List Byte)
  | fault (reason : FaultReason)

/-- What the result of a load comes to: the profile read, or a fault with its reason (R72, R75). -/
def LoadResult.judge : LoadResult → Except FaultReason Profile
  | .data bytes => validateRecord bytes
  | .fault reason => .error reason

/-- The dwell of an install from the table (R84). -/
def Controller.loadDwell (c : Controller) (dwell : Nat) : Controller :=
  { c with dwellRemaining := dwell, dwellCounting := decide (dwell ≠ 0) }

/-- An accepted record is installed (R76), with the INSTALLED notice of R77. -/
def installFromTable (k : Port) (index : Byte) (p : Profile) (s : State) : State :=
  let s1 := earlyEnd k s
  let s2 := s1.setController k { (s1.port k).controller with fallbackInUse := false }
  let s3 := installProfile k ⟨p, index, .table⟩ s2
  let s4 := endLoad k (s3.setController k
    { (s3.port k).controller.loadDwell p.dwell with portState := .active })
  if p.flags.nInstall then s4.submit (portNotice s4 k .installed index.toNat) else s4

/-- The detail of a PROFILE_FAULT notice (R190). -/
def faultDetail (reason : FaultReason) (fallbackUsed : Bool) : Nat :=
  codeOfReason reason + if fallbackUsed then 256 else 0

/-- A faulted load with a valid fallback installs the fallback (R78). -/
def installFallback (k : Port) (index : Byte) (reason : FaultReason) (s : State) : State :=
  let s1 := earlyEnd k s
  let s2 := s1.setController k { (s1.port k).controller with fallbackInUse := true }
  let s3 := installProfile k ⟨{ (s2.port k).fallback.fields with dwell := 0 }, index, .fallback⟩ s2
  let s4 := endLoad k (s3.setController k
    { (s3.port k).controller with dwellRemaining := 0, dwellCounting := false, portState := .active })
  s4.submit (portNotice s4 k .profileFault (faultDetail reason true))

/-- A faulted load without a valid fallback returns the port to its prior regime (R79). -/
def keepRegime (k : Port) (reason : FaultReason) (s : State) : State :=
  let s1 := endLoad k s
  let s2 :=
    if (s1.port k).meter.installed.isSome then
      s1.setController k { (s1.port k).controller with portState := .active }
    else massAdmit k (s1.setController k { (s1.port k).controller with portState := .pass })
  s2.submit (portNotice s2 k .profileFault (faultDetail reason false))

/-- The loader and port controller `k` take the result of a load (R75). With no load context there is
no load, and nothing is done. -/
def takeLoadResult (k : Port) (result : LoadResult) (s : State) : State :=
  match (s.port k).load with
  | none => s
  | some ctx =>
    if (s.port k).controller.cancelledLoad then endLoad k s
    else
      match result.judge with
      | .ok p => installFromTable k ctx.index p s
      | .error reason =>
        if (s.port k).fallback.valid then installFallback k ctx.index reason s
        else keepRegime k reason s

/-! ## In-flight table (6.3, 6.8) -/

/-- The port a port entry is owned by. -/
def Owner.portOf : Owner → Option Port
  | .port k _ => some k
  | .load _ => none
  | .report => none

/-- An entry, LIVE or ORPHAN, owned by port `k` (R112). -/
def heldBy (k : Port) (e : Option InFlight) : Bool :=
  match e with
  | some f => f.owner.portOf == some k
  | none => false

/-- A LIVE entry owned by port `k` (R129). -/
def liveOf (k : Port) (e : Option InFlight) : Bool :=
  heldBy k e && (match e with
    | some f => f.state == .live
    | none => false)

/-- An ORPHAN entry. -/
def isOrphan (e : Option InFlight) : Bool :=
  match e with
  | some f => f.state == .orphan
  | none => false

/-- Held entries of port `k`, LIVE and ORPHAN (R112, R129). -/
def State.heldCount (s : State) (k : Port) : Nat := s.table.toList.countP (heldBy k)

/-- LIVE entries of port `k` (R129). -/
def State.liveCount (s : State) (k : Port) : Nat := s.table.toList.countP (liveOf k)

/-- ORPHAN entries, all owners (R129). -/
def State.orphanCount (s : State) : Nat := s.table.toList.countP isOrphan

/-- The shared pool's use: each port's held entries less 4, over the ports that hold more (R112). -/
def State.sharedInUse (s : State) : Nat :=
  (s.heldCount .rp0 - 4) + (s.heldCount .rp1 - 4) + (s.heldCount .rp2 - 4) + (s.heldCount .rp3 - 4)

/-- Internal entries in use: tags 62 and 63, LIVE or ORPHAN (R113). -/
def State.internalInUse (s : State) : Nat :=
  (if s.table[62].isSome then 1 else 0) + (if s.table[63].isSome then 1 else 0)

/-- The quota test of port `k` (R113). -/
def State.portMayTake (s : State) (k : Port) : Bool :=
  decide (s.heldCount k < 4) || decide (s.sharedInUse < 46)

/-- The quota test of the internal requester (R113). -/
def State.internalMayTake (s : State) : Bool := decide (s.internalInUse < 2)

/-- The lowest-numbered FREE tag from 0 to 61 (R112). -/
def State.freePortTag (s : State) : Option (Fin 64) :=
  (List.finRange 64).find? fun t => decide (t.val < 62) && s.table[t.val].isNone

/-- The lower-numbered FREE tag of 62 and 63 (R112). -/
def State.freeInternalTag (s : State) : Option (Fin 64) :=
  (List.finRange 64).find? fun t => decide (62 ≤ t.val) && s.table[t.val].isNone

/-- An entry made an ORPHAN: its deadline goes, the rest stays (R111, R122). -/
def InFlight.orphan (f : InFlight) : InFlight := { f with state := .orphan, deadline := none }

/-- Every LIVE entry whose owner meets `p` becomes an ORPHAN (R126, R127). -/
def orphanWhere (p : Owner → Bool) (t : Vector (Option InFlight) 64) : Vector (Option InFlight) 64 :=
  Vector.ofFn fun i => (t[i.val]).map fun f => if f.state == .live && p f.owner then f.orphan else f

/-- One entry of the table replaced. -/
def State.setEntry (s : State) (tag : Fin 64) (e : Option InFlight) : State :=
  s.setTable (s.table.set tag.val e)

/-- The deadline of an entry granted now: the issue time plus the setting times 256 µs, or none while
the completion timeout is off (R116 step 2). -/
def State.newDeadline (s : State) : Option (BitVec 32) :=
  if s.link.timeout = 0 then none else some (s.ticks + 256 * s.link.timeout.zeroExtend 32)

/-- The timebase has reached the deadline of a LIVE entry (R122), reckoned from differences of the
tick count (R185). -/
def State.deadlineReached (s : State) (f : InFlight) : Bool :=
  match f.state, f.deadline with
  | .live, some d => decide ((d - f.issueTime).toNat ≤ (s.ticks - f.issueTime).toNat)
  | .live, none => false
  | .orphan, _ => false

/-- The latency of an answer taken now (R120 step 2), reckoned from a difference of the tick count. -/
def State.latency (s : State) (f : InFlight) : Nat := min (s.ticks - f.issueTime).toNat maxEvents

/-! ## Drains (5.4) -/

/-- The drain condition of port `k` (R99). -/
def State.drainCondition (s : State) (k : Port) : Bool :=
  (s.port k).queue.isEmpty && s.liveCount k == 0

/-- The drained count of port `k`, 0 with no drain record. -/
def State.drainedCount (s : State) (k : Port) : Nat :=
  match (s.port k).controller.drain with
  | some d => d.drained
  | none => 0

/-- Port controller `k` takes drain done (R100). -/
def drainDone (k : Port) (s : State) : State :=
  (s.setController k { (s.port k).controller with portState := .quiet, drain := none }).submit
    (portNotice s k .quiesced (s.drainedCount k))

/-- Port controller `k` judges its drain condition, if the port is DRAINING (R99). -/
def judgeDrain (k : Port) (s : State) : State :=
  if (s.port k).controller.portState = .draining ∧ s.drainCondition k = true then drainDone k s else s

/-- The drain record at a departure from the head of the queue (R98). -/
def Drain.depart (d : Drain) : Drain :=
  if 0 < d.ahead then { d with ahead := d.ahead - 1 } else { d with drained := d.drained + 1 }

/-! ## Report writer (08) -/

/-- The ring's occupancy (R147). -/
def ReportWriter.occupancy (w : ReportWriter) : Nat := (w.producer - w.consumer).toNat

/-- The ring has no room (R147, R152). -/
def ReportWriter.full (w : ReportWriter) : Bool := decide (w.size ≤ w.occupancy)

/-- The address of the slot the producer index names (R147, R153). -/
def ReportWriter.slotAddress (w : ReportWriter) : Addr :=
  w.base + BitVec.ofNat 40 (64 * (w.producer.toNat % w.size))

/-- The report writer judges whether to start a write (R152), and starts it (R153) or waits. -/
def judgeWrite (s : State) : State :=
  match s.writer.queue with
  | [] => s
  | head :: _ =>
    if s.writer.ring = .run ∧ s.writer.writeInFlight = false then
      if s.writer.full then
        if s.writer.fullEpisode then s
        else (s.setWriter { s.writer with fullEpisode := true }).submit
          (writerNotice .ringFull s.writer.producer.toNat)
      else (s.setWriter { s.writer with writeInFlight := true }).joinInternal
        (.report s.writer.slotAddress (beatsOfReport head))
    else s

/-- One more lost record of a port, stopping at 255 (R150). -/
def countGap (g : PerPort Nat) (k : Port) : PerPort Nat := g.set k (saturate 255 (g.get k + 1))

/-- The OK result of a report write (R154). -/
def writeSucceeded (s : State) : State :=
  let w := { s.writer with writeInFlight := false, producer := s.writer.producer + 1 }
  if w.ring = .run then judgeWrite (s.setWriter { w with queue := w.queue.tail })
  else s.setWriter w

/-- The fault of a report write, with its cause (R156). -/
def writeFailed (cause : FaultReason) (s : State) : State :=
  (s.setWriter
    { s.writer with
      writeInFlight := false
      ring := .halt
      queue := []
      gapCount := s.writer.queue.foldl (fun g r => countGap g r.port) s.writer.gapCount
      fullEpisode := false }).submit (writerNotice .reportFault (codeOfReason cause))

/-! ## Resets -/

/-- Every block at its power-on values (R20, R48, R52, R66, R67, R128, R142, R162, R183). The levels
of the input pins, what was put out and the command queue are no part of it. -/
def powerOn (mcsLow : Bool) (s : State) : State :=
  { s with
    ports := s.ports.map fun b => PortBlock.reset b.resetAsserted
    tableBase := 0
    pool := ⟨0, 0⟩
    internalList := []
    roundRobin := .rp0
    table := Vector.replicate 64 none
    memoryPort := none
    notices := NoticeQueue.reset
    writer := ReportWriter.reset
    link := Link.reset mcsLow
    ticks := 0 }

/-! ## Frames (9.1, 9.4) -/

/-- What MDO carries during a frame that is no READ_RESPONSE: bits of 0 (R168). -/
def quietMdo (f : Frame) : Output :=
  .mdo (List.replicate (8 * (1 + f.args.length) + f.partialBits.val) false)

/-- The link takes a frame of a command with `count` argument bytes: the length check of R165 step 3,
then the owner (R170). -/
def takeFrame (count : Nat) (f : Frame) (s : State) (owner : List Byte → State → State) :
    Host.Outcome State Fault Refusal :=
  happening s.listening s
    (if f.partialBits = 0 ∧ f.args.length = count then owner f.args (s.emit (quietMdo f))
     else (s.emit (quietMdo f)).respond .badFrame [])

/-- The link takes a frame of a command whose byte 1 is a port: the checks of R165 steps 3 and 4, then
the owner, which is given the bytes after the port. -/
def takePortFrame (count : Nat) (f : Frame) (s : State) (owner : Port → List Byte → State → State) :
    Host.Outcome State Fault Refusal :=
  takeFrame count f s fun args s' =>
    match portOfByte (args.headD 0) with
    | none => s'.respond .badArg []
    | some k => owner k args.tail s'

end Sys2Proof.Machine
end

