-- ==== Sys2Proof/Machine/CreditPool.lean ====
section
/-! DEFINITION. Meanings of DONATION_TAKEN, CLAIM_TAKEN, SET_POOL_LIMIT and GET_POOL (chapter 03). -/

namespace Sys2Proof.Machine

open Sys2Proof

/-- The pool takes a donation of `d` beats (R53): up to the limit, the excess lost. -/
def Pool.donate (p : Pool) (d : Nat) : Pool := { p with level := min (p.level + d) p.limit }

/-- The pool's answer to a claim of `shortfall` beats (R54). -/
def Pool.answer (p : Pool) (shortfall : Nat) : ClaimAnswer :=
  if shortfall ≤ p.level then .grant else .refusal

/-- The pool after it has answered a claim (R54): a grant takes the whole shortfall. -/
def Pool.afterClaim (p : Pool) (shortfall : Nat) : Pool :=
  if shortfall ≤ p.level then { p with level := p.level - shortfall } else p

/-- The pool with a new limit, the level clipped to it (R58). -/
def Pool.setLimit (p : Pool) (limit : Nat) : Pool := ⟨min p.level limit, limit⟩

/-- DONATION_TAKEN: the pool takes the oldest message of meter `k`, a donation (R53, R56). -/
def execDonationTaken (k : Port) (s : State) : Host.Outcome State Fault Refusal :=
  match (s.port k).toPool with
  | .donation d :: rest =>
    happening s.operating s
      { s.setPort k { s.port k with toPool := rest } with pool := s.pool.donate d }
  | .claim _ :: _ => .next s
  | [] => .next s

/-- CLAIM_TAKEN: the pool takes the oldest message of meter `k`, a borrow claim, and answers it (R54,
R56). -/
def execClaimTaken (k : Port) (s : State) : Host.Outcome State Fault Refusal :=
  match (s.port k).toPool with
  | .claim n :: rest =>
    happening s.operating s
      { s.setPort k { s.port k with
          toPool := rest, answers := (s.port k).answers ++ [s.pool.answer n] } with
        pool := s.pool.afterClaim n }
  | .donation _ :: _ => .next s
  | [] => .next s

/-- SET_POOL_LIMIT (R58, R178). -/
def execSetPoolLimit (f : Frame) (s : State) : Host.Outcome State Fault Refusal :=
  takeFrame 2 f s fun args s' =>
    let p := s'.pool.setLimit (natOfBE args)
    { s' with pool := p }.respond .ok (poolImage p)

/-- GET_POOL (R61, R175). -/
def execGetPool (f : Frame) (s : State) : Host.Outcome State Fault Refusal :=
  takeFrame 0 f s fun _ s' => s'.respond .ok (poolImage s'.pool)

end Sys2Proof.Machine
end

