-- ==== Sys2Proof/Machine/LinkFrames.lean ====
section
/-! DEFINITION. Meanings of SHORT_FRAME, BAD_COMMAND, READ_RESPONSE, GET_STATUS, GET_WINDOW and
SOFT_RESET (chapter 09). -/

namespace Sys2Proof.Machine

open Sys2Proof

/-- SHORT_FRAME (R164): discarded; MDO carried bits of 0 (R168). -/
def execShortFrame (bits : Fin 8) (s : State) : Host.Outcome State Fault Refusal :=
  happening s.listening s (s.emit (.mdo (List.replicate bits.val false)))

/-- BAD_COMMAND (R165 step 1): refused, whatever the length of the frame. -/
def execBadCommand (code : Byte) (f : Frame) (s : State) : Host.Outcome State Fault Refusal :=
  happening (s.listening && (commandOf code).isNone) s
    ((s.emit (quietMdo f)).respond .badCommand [])

/-- The bits MDO carries during a READ_RESPONSE frame (R167, R168): bits of 0 during byte 0, then the
response image, then bits of 0, for as long as the frame lasts. -/
def responseMdo (f : Frame) (r : Response) : List Bool :=
  List.replicate 8 false ++
    ((responseImage r).flatMap bitsOfByte ++
      List.replicate (8 * f.args.length + f.partialBits.val) false).take
      (8 * f.args.length + f.partialBits.val)

/-- READ_RESPONSE (R167): MDO shifts out the response image; nothing changes. -/
def execReadResponse (f : Frame) (s : State) : Host.Outcome State Fault Refusal :=
  happening s.listening s (s.emit (.mdo (responseMdo f s.link.response)))

/-- The status image of GET_STATUS: 28 bytes (R172, R189). -/
def statusImage (s : State) : List Byte :=
  bytesBE 1 s.notices.records.length ++
  [noticeFlagsByte s.notices] ++
  bytesBE 1 (codeOfRing s.writer.ring) ++
  [ringFlagsByte s.writer] ++
  bytesBE 5 s.writer.base.toNat ++
  bytesBE 2 s.writer.size ++
  bytesBE 2 s.writer.producer.toNat ++
  bytesBE 2 s.writer.consumer.toNat ++
  bytesBE 1 s.writer.queue.length ++
  allPorts.flatMap (fun k => bytesBE 1 (s.writer.gapCount.get k)) ++
  bytesBE 1 s.sharedInUse ++
  bytesBE 1 s.internalInUse ++
  bytesBE 1 s.orphanCount ++
  [s.link.timeout] ++
  allPorts.flatMap (fun k => bytesBE 1 (codeOfPortState (s.port k).controller.portState))

/-- GET_STATUS (R172). -/
def execGetStatus (f : Frame) (s : State) : Host.Outcome State Fault Refusal :=
  takeFrame 0 f s fun _ s' => s'.respond .ok (statusImage s')

/-- GET_WINDOW (R174). -/
def execGetWindow (f : Frame) (s : State) : Host.Outcome State Fault Refusal :=
  takePortFrame 1 f s fun k _ s' => s'.respond .ok (windowImage (s'.port k).meter.snapshot)

/-- What SOFT_RESET does to the blocks of one port (R21, R49, R66, R81, R106): the queue is kept and
admitted, a claim stays outstanding and stale, messages on their way stay on their way (R60). -/
def softResetPort (b : PortBlock) : PortBlock :=
  { b with
    queue := b.queue.map QueueEntry.markAdmitted
    meter := { Meter.reset with claim := b.meter.staleClaim.claim }
    controller := Controller.reset
    load := none
    fallback := ⟨false, Profile.zero⟩ }

/-- SOFT_RESET at every block (R181): forwarded traffic is kept, the part's own work is abandoned. -/
def softReset (s : State) : State :=
  { s with
    ports := s.ports.map softResetPort
    tableBase := 0
    pool := ⟨0, 0⟩
    internalList := []
    roundRobin := .rp0
    table := orphanWhere (fun o => o.portOf.isNone) s.table
    notices := NoticeQueue.reset
    writer := ReportWriter.reset
    link := { s.link with timeout := 40, response := ⟨.ok, []⟩ } }

/-- SOFT_RESET (R181). -/
def execSoftReset (f : Frame) (s : State) : Host.Outcome State Fault Refusal :=
  takeFrame 0 f s fun _ s' => softReset s'

end Sys2Proof.Machine
end

