-- ==== Sys2Proof/Machine/MemoryPort.lean ====
section
/-! DEFINITION. Meanings of ISSUE_GRANT, MEMORY_PORT_READY, MEMORY_ANSWER, COMPLETION_DEADLINE and
SET_TIMEOUT (chapter 06). -/

namespace Sys2Proof.Machine

open Sys2Proof

/-- The internal requester is a candidate (R114). -/
def State.internalCandidate (s : State) : Bool := !s.internalList.isEmpty && s.internalMayTake

/-- Port `k` is a candidate (R12, R114). -/
def State.portCandidate (s : State) (k : Port) : Bool :=
  (match (s.port k).queue with
   | [] => false
   | e :: _ => e.status == .admitted) && s.portMayTake k

/-- The port after `k` in the round, RP0 after RP3 (R115). -/
def nextPort : Port → Port
  | .rp0 => .rp1
  | .rp1 => .rp2
  | .rp2 => .rp3
  | .rp3 => .rp0

/-- The ports in turn, from the one the round-robin pointer names (R115). -/
def roundFrom (k : Port) : List Port :=
  [k, nextPort k, nextPort (nextPort k), nextPort (nextPort (nextPort k))]

/-- The port a grant goes to, if no internal grant is made (R115). -/
def State.grantedPort (s : State) : Option Port := (roundFrom s.roundRobin).find? s.portCandidate

/-- A transaction goes out on the memory port, which becomes not ready (R116 step 3). -/
def State.send (s : State) (t : Transaction) : State := { s with memoryPort := some t }.emit (.sent t)

/-- The LIVE entry of a transaction granted now (R116 step 2). -/
def liveEntry (s : State) (owner : Owner) (kind : Kind) (beats : Nat) : InFlight :=
  { state := .live, owner := owner, kind := kind, beats := beats, issueTime := s.ticks,
    deadline := s.newDeadline }

/-- The owner an internal item's entry records (R111). -/
def InternalItem.owner : InternalItem → Owner
  | .load k _ => .load k
  | .report _ _ => .report

/-- The transaction of an internal item (R109). -/
def InternalItem.transaction (tag : Fin 64) : InternalItem → Transaction
  | .load _ address => ⟨.read, address, 2, [], tag⟩
  | .report address data => ⟨.write, address, 4, data, tag⟩

/-- The grant of the head of the internal pending list (R115, R116). -/
def grantInternal (s : State) : State :=
  match s.internalList, s.freeInternalTag with
  | item :: rest, some tag =>
    let t := item.transaction tag
    ({ s with internalList := rest }.setEntry tag
      (some (liveEntry s item.owner t.kind t.beats))).send t
  | _, _ => s

/-- The grant of the head of the port queue of RPk (R12, R98, R115, R116). -/
def grantPort (k : Port) (s : State) : State :=
  match (s.port k).queue, s.freePortTag with
  | e :: rest, some tag =>
    let c := (s.port k).controller
    let s1 := s.setPort k { s.port k with
      queue := rest, controller := { c with drain := c.drain.map Drain.depart } }
    let s2 := s1.setEntry tag (some (liveEntry s (.port k e.request.tag) e.request.kind e.request.beats))
    { s2 with roundRobin := nextPort k }.send
      ⟨e.request.kind, e.request.address, e.request.beats, e.request.data, tag⟩
  | _, _ => s

/-- The grant (R115): the internal requester first, otherwise the first candidate of the round. -/
def grant (s : State) : State :=
  if s.internalCandidate then grantInternal s
  else
    match s.grantedPort with
    | some k => grantPort k s
    | none => s

/-- ISSUE_GRANT: made when the request side of the memory port is ready and a candidate exists. -/
def execIssueGrant (s : State) : Host.Outcome State Fault Refusal :=
  happening (s.operating && s.memoryPort.isNone) s (grant s)

/-- MEMORY_PORT_READY (R108): the granted transaction has been taken whole. DESIGN CHOICE: while REFCLK is stopped
it is lost, and the port stays not ready (R185, log entry 28). -/
def execMemoryPortReady (s : State) : Host.Outcome State Fault Refusal :=
  happening s.operating s { s with memoryPort := none }

/-- The status of a completion for an answer's status (R14). -/
def completionStatus : AnswerStatus → CompletionStatus
  | .ok => .ok
  | .error => .error

/-- A counted completion of meter `k` (R35): only while a window runs. -/
def countCompletion (k : Port) (status : AnswerStatus) (latency : Nat) (s : State) : State :=
  let m := (s.port k).meter
  if (s.port k).windowRuns then
    s.setMeter k { m with counters := { m.counters with
      maxLatency := max m.counters.maxLatency (saturate maxEvents latency)
      errors := if status = .error then saturate maxEvents (m.counters.errors + 1)
                else m.counters.errors } }
  else s

/-- A counted timeout of meter `k` (R35): only while a window runs. -/
def countTimeout (k : Port) (s : State) : State :=
  let m := (s.port k).meter
  if (s.port k).windowRuns then
    s.setMeter k { m with counters :=
      { m.counters with timeouts := saturate maxEvents (m.counters.timeouts + 1) } }
  else s

/-- An answer for a LIVE entry of RPk (R120). A WRITE's completion carries no data (R15). DESIGN CHOICE: a READ
answered with another number of beats than R108 says is handed on as it came (log entry 25). -/
def answerPort (k : Port) (reqTag : Fin 32) (tag : Fin 64) (f : InFlight) (status : AnswerStatus)
    (data : List Beat) (s : State) : State :=
  let s1 := s.emit (.completion k reqTag (completionStatus status)
    (if f.kind = .read then data else []))
  let s2 := countCompletion k status (s.latency f) s1
  judgeDrain k (s2.setEntry tag none)

/-- The result of a load from an answer (R71, R121): the bytes of its beats in address order. -/
def loadResultOf (status : AnswerStatus) (data : List Beat) : LoadResult :=
  match status with
  | .ok => .data (bytesOfRecordRead data)
  | .error => .fault .memoryError

/-- The report writer takes the result of its write (R121, R154, R156). -/
def takeWriteResult (status : AnswerStatus) (s : State) : State :=
  match status with
  | .ok => writeSucceeded s
  | .error => writeFailed .memoryError s

/-- The in-flight table takes an answer (R119): by the state and owner of the entry its tag names. -/
def takeMemoryAnswer (tag : Fin 64) (status : AnswerStatus) (data : List Beat) (s : State) : State :=
  match s.table[tag.val] with
  | none => s
  | some f =>
    match f.state, f.owner with
    | .orphan, .port k _ => judgeDrain k (s.setEntry tag none)
    | .orphan, .load _ => s.setEntry tag none
    | .orphan, .report => s.setEntry tag none
    | .live, .port k reqTag => answerPort k reqTag tag f status data s
    | .live, .load k => takeLoadResult k (loadResultOf status data) (s.setEntry tag none)
    | .live, .report => takeWriteResult status (s.setEntry tag none)

/-- MEMORY_ANSWER (R119). DESIGN CHOICE: an answer delivered while REFCLK is stopped is lost, and its entry stays
(R185, log entry 28). -/
def execMemoryAnswer (tag : Fin 64) (status : AnswerStatus) (data : List Beat) (s : State) :
    Host.Outcome State Fault Refusal :=
  happening s.operating s (takeMemoryAnswer tag status data s)

/-- The deadline of a LIVE entry of RPk (R122). -/
def deadlinePort (k : Port) (reqTag : Fin 32) (tag : Fin 64) (f : InFlight) (s : State) : State :=
  let s1 := s.setEntry tag (some f.orphan)
  let s2 := s1.emit (.completion k reqTag .timeout
    (if f.kind = .read then List.replicate f.beats 0 else []))
  let s3 := countTimeout k s2
  judgeDrain k (s3.submit (portNotice s3 k .completionTimeout reqTag.val))

/-- The timebase reaches the deadline of the entry (R122, R123). -/
def passDeadline (tag : Fin 64) (f : InFlight) (s : State) : State :=
  match f.owner with
  | .port k reqTag => deadlinePort k reqTag tag f s
  | .load k => takeLoadResult k (.fault .timeout) (s.setEntry tag (some f.orphan))
  | .report => writeFailed .timeout (s.setEntry tag (some f.orphan))

/-- COMPLETION_DEADLINE (R122, R123): of a LIVE entry whose deadline the timebase has reached. -/
def execCompletionDeadline (tag : Fin 64) (s : State) : Host.Outcome State Fault Refusal :=
  match s.table[tag.val] with
  | none => .next s
  | some f => happening (s.operating && s.deadlineReached f) s (passDeadline tag f s)

/-- SET_TIMEOUT (R118, R178). -/
def execSetTimeout (f : Frame) (s : State) : Host.Outcome State Fault Refusal :=
  takeFrame 1 f s fun args s' =>
    { s' with link := { s'.link with timeout := args.headD 0 } }.respond .ok [args.headD 0]

end Sys2Proof.Machine
end

