-- ==== Sys2Proof/Machine/Notices.lean ====
section
/-! DEFINITION. Meanings of POP_NOTICE, CLEAR_OVERFLOW and SET_IRQ (chapter 07). -/

namespace Sys2Proof.Machine

open Sys2Proof

/-- The depth and overflow bytes of a POP_NOTICE response (R189). -/
def popHeader (depth : Nat) (overflow : Bool) : List Byte :=
  bytesBE 1 depth ++ [BitVec.ofNat 8 overflow.toNat]

/-- The notice queue takes POP_NOTICE (R138). -/
def takePopNotice (s : State) : State :=
  match s.notices.records with
  | [] => s.respond .empty (popHeader 0 s.notices.overflow)
  | n :: rest =>
    (s.setNotices { s.notices with records := rest }).respond .ok
      (popHeader rest.length s.notices.overflow ++ bytesOfNotice n)

/-- POP_NOTICE (R138, R180). -/
def execPopNotice (f : Frame) (s : State) : Host.Outcome State Fault Refusal :=
  takeFrame 0 f s fun _ s' => takePopNotice s'

/-- CLEAR_OVERFLOW (R139, R180). -/
def execClearOverflow (f : Frame) (s : State) : Host.Outcome State Fault Refusal :=
  takeFrame 0 f s fun _ s' =>
    (s'.setNotices { s'.notices with overflow := false }).respond .ok
      (bytesBE 1 s'.notices.records.length)

/-- SET_IRQ (R140, R180): an enable of 0 or 1; any other value is refused. -/
def execSetIrq (f : Frame) (s : State) : Host.Outcome State Fault Refusal :=
  takeFrame 1 f s fun args s' =>
    if args.headD 0 = 0 ∨ args.headD 0 = 1 then
      (s'.setNotices { s'.notices with irqEnable := decide (args.headD 0 = 1) }).respond .ok []
    else s'.respond .badArg []

end Sys2Proof.Machine
end

