-- ==== Sys2Proof/Machine/PortStates.lean ====
section
/-! DEFINITION. Meanings of QUIESCE, RESUME and GET_PORT (chapter 05). -/

namespace Sys2Proof.Machine

open Sys2Proof

/-- Meter `k` takes QUIESCE (R44): a running window ends early and the window-running flag clears. -/
def stopMeter (k : Port) (s : State) : State :=
  if (s.port k).windowRuns then
    let s1 := earlyEnd k s
    s1.setMeter k { (s1.port k).meter with windowRunning := false }
  else s

/-- Port controller `k` enters DRAINING (R93 steps 1 and 3): a load is cancelled if the port was
LOADING (R80), and the ahead count is the admitted count before the mass admission. -/
def enterDraining (k : Port) (s : State) : State :=
  let c := (s.port k).controller
  s.setController k { c with
    portState := .draining
    cancelledLoad := if c.portState = .loading then true else c.cancelledLoad
    drain := some ⟨admittedCount (s.port k).queue, 0⟩ }

/-- An accepted QUIESCE of port `k` (R93 to R96). -/
def quiescePort (k : Port) (s : State) : State :=
  judgeDrain k (massAdmit k (enterDraining k (stopMeter k s)))

/-- Port controller `k` takes QUIESCE (R93, R97). -/
def takeQuiesce (k : Port) (s : State) : State :=
  match (s.port k).controller.portState with
  | .pass => (quiescePort k s).respond .ok []
  | .loading => (quiescePort k s).respond .ok []
  | .active => (quiescePort k s).respond .ok []
  | .draining => s.respond .badState []
  | .quiet => s.respond .badState []

/-- QUIESCE (R93, R177). -/
def execQuiesce (f : Frame) (s : State) : Host.Outcome State Fault Refusal :=
  takePortFrame 1 f s fun k _ s' => takeQuiesce k s'

/-- An accepted RESUME of port `k` (R104, R45). -/
def resumePort (k : Port) (s : State) : State :=
  match (s.port k).meter.installed with
  | some i =>
    evaluate k (startWindow k i
      (s.setController k { (s.port k).controller with portState := .active }))
  | none => massAdmit k (s.setController k { (s.port k).controller with portState := .pass })

/-- RESUME (R104, R177). -/
def execResume (f : Frame) (s : State) : Host.Outcome State Fault Refusal :=
  takePortFrame 1 f s fun k _ s' =>
    if (s'.port k).controller.portState = .quiet then (resumePort k s').respond .ok []
    else s'.respond .badState []

/-- The port image of GET_PORT: 17 bytes (R173, R189). -/
def portImage (s : State) (k : Port) : List Byte :=
  let b := s.port k
  bytesBE 1 (codeOfPortState b.controller.portState) ++
  [b.meter.index] ++
  bytesBE 1 (codeOfSource b.meter.source) ++
  [portFlagsByte s k] ++
  bytesBE 4 b.meter.seqNo.toNat ++
  bytesBE 2 b.meter.allowance ++
  bytesBE 2 (if b.windowRuns then b.meter.timeRemaining else 0) ++
  bytesBE 2 b.controller.dwellRemaining ++
  bytesBE 1 b.queue.length ++
  bytesBE 1 (admittedCount b.queue) ++
  bytesBE 1 (s.heldCount k)

/-- GET_PORT (R173). -/
def execGetPort (f : Frame) (s : State) : Host.Outcome State Fault Refusal :=
  takePortFrame 1 f s fun k _ s' => s'.respond .ok (portImage s' k)

end Sys2Proof.Machine
end

