-- ==== Sys2Proof/Machine/Power.lean ====
section
/-! DEFINITION. Meanings of the power-on reset, the reference clock and MCS_N events (R20, R128, R183,
R185). -/

namespace Sys2Proof.Machine

open Sys2Proof

/-- RST_N_ASSERTED (R20, R128, R142, R162, R183): every block holds its power-on values and takes
nothing until the release. -/
def execRstAsserted (s : State) : Host.Outcome State Fault Refusal :=
  happening (s.refclkRunning && !s.rstAsserted) s { powerOn false s with rstAsserted := true }

/-- RST_N_RELEASED (R20): every block at its power-on values, the timebase from 0, and the link waiting
for MCS_N to rise if it is low at the release (R183). -/
def execRstReleased (mcsLow : Bool) (s : State) : Host.Outcome State Fault Refusal :=
  happening (s.refclkRunning && s.rstAsserted) s { powerOn mcsLow s with rstAsserted := false }

/-- REFCLK_STOPPED (R185): the timebase halts and no happening is taken. -/
def execRefclkStopped (s : State) : Host.Outcome State Fault Refusal :=
  happening s.refclkRunning s { s with refclkRunning := false }

/-- REFCLK_RESTARTED (R185): the part goes on from the state it held; the link waits for MCS_N to rise
if it is low at that moment. -/
def execRefclkRestarted (mcsLow : Bool) (s : State) : Host.Outcome State Fault Refusal :=
  happening (!s.refclkRunning) s
    { s with refclkRunning := true, link := { s.link with awaitingRise := mcsLow } }

/-- MCS_N_RISE_WITHOUT_FRAME (R183, R185): no frame is taken, and the next fall of MCS_N begins one. DESIGN
CHOICE: R168 says that MDO is driven in the wait that ends here and gives it no bits, and none are recorded (log
entry 26). -/
def execMcsRiseWithoutFrame (s : State) : Host.Outcome State Fault Refusal :=
  happening (s.operating && s.link.awaitingRise) s
    { s with link := { s.link with awaitingRise := false } }

end Sys2Proof.Machine
end

