-- ==== Sys2Proof/Machine/Profiles.lean ====
section
/-! DEFINITION. Meanings of SET_TABLE_BASE, SET_FALLBACK, CLEAR_FALLBACK, LOAD and GET_PROFILE
(chapter 04). -/

namespace Sys2Proof.Machine

open Sys2Proof

/-- The highest table base: the 8,192-byte table lies below 2^40 (R65). -/
def maxTableBase : Nat := 1099511619584

/-- SET_TABLE_BASE (R65, R176). -/
def execSetTableBase (f : Frame) (s : State) : Host.Outcome State Fault Refusal :=
  takeFrame 5 f s fun args s' =>
    let base := baseOfArgs args
    if base % 32 = 0 ∧ base ≤ maxTableBase then
      { s' with tableBase := BitVec.ofNat 40 base }.respond .ok (bytesBE 5 base)
    else s'.respond .badArg []

/-- SET_FALLBACK (R87, R176). -/
def execSetFallback (f : Frame) (s : State) : Host.Outcome State Fault Refusal :=
  takePortFrame 19 f s fun k args s' =>
    if (rawOfFrame args).inRange then
      (s'.setPort k { s'.port k with fallback := ⟨true, (rawOfFrame args).toProfile⟩ }).respond .ok []
    else s'.respond .badArg []

/-- CLEAR_FALLBACK (R88): the stored fields are kept. -/
def execClearFallback (f : Frame) (s : State) : Host.Outcome State Fault Refusal :=
  takePortFrame 1 f s fun k _ s' =>
    (s'.setPort k { s'.port k with fallback := { (s'.port k).fallback with valid := false } }).respond
      .ok []

/-- Port controller `k` takes LOAD (R69). -/
def takeLoad (k : Port) (index : Byte) (s : State) : State :=
  match (s.port k).controller.portState with
  | .pass =>
    if (s.port k).controller.loadInFlight then s.respond .busy []
    else (startLoad k index s).respond .ok []
  | .active =>
    if (s.port k).controller.loadInFlight then s.respond .busy []
    else (startLoad k index s).respond .ok []
  | .loading => s.respond .busy []
  | .draining => s.respond .badState []
  | .quiet => s.respond .badState []

/-- LOAD (R69, R177). -/
def execLoad (f : Frame) (s : State) : Host.Outcome State Fault Refusal :=
  takePortFrame 2 f s fun k args s' => takeLoad k (args.headD 0) s'

/-- GET_PROFILE (R175). -/
def execGetProfile (f : Frame) (s : State) : Host.Outcome State Fault Refusal :=
  takePortFrame 1 f s fun k _ s' => s'.respond .ok (profileImage (s'.port k).meter)

end Sys2Proof.Machine
end

