-- ==== Sys2Proof/Machine/Reports.lean ====
section
/-! DEFINITION. Meanings of REPORT_SUBMISSION, SET_RING, RING_OFF and REPORT_ACK (chapter 08). -/

namespace Sys2Proof.Machine

open Sys2Proof

/-- The report writer takes a report record (R149): it is queued with the gap count, or dropped. -/
def takeReport (r : Report) (s : State) : State :=
  let w := s.writer
  match w.ring with
  | .off => s
  | .halt => s
  | .run =>
    if w.queue.length < 8 then
      let s1 := s.setWriter { w with
        queue := w.queue ++ [{ r with gapCount := w.gapCount.get r.port }]
        gapCount := w.gapCount.set r.port 0 }
      if w.queue = [] then judgeWrite s1 else s1
    else s.setWriter { w with gapCount := countGap w.gapCount r.port }

/-- REPORT_SUBMISSION: the report writer takes the oldest submission of meter `k` (R146, R149). -/
def execReportSubmission (k : Port) (s : State) : Host.Outcome State Fault Refusal :=
  match (s.port k).toWriter with
  | [] => .next s
  | r :: rest =>
    happening s.operating s (takeReport r (s.setPort k { s.port k with toWriter := rest }))

/-- The ring sizes SET_RING accepts (R158). -/
def ringSizes : List Nat := [16, 32, 64, 128, 256, 512, 1024, 2048, 4096]

/-- The argument checks of SET_RING (R158). -/
def ringArgsOk (base size : Nat) : Bool :=
  decide (base % 64 = 0) && ringSizes.contains size && decide (base + 64 * size ≤ 2 ^ 40)

/-- An accepted SET_RING (R158): the ring starts RUN and empty. -/
def startRing (base size : Nat) (s : State) : State :=
  judgeWrite (s.setWriter { s.writer with
    ring := .run, base := BitVec.ofNat 40 base, size := size, producer := 0, consumer := 0,
    gapCount := PerPort.all 0, fullEpisode := false })

/-- The report writer takes SET_RING (R158). -/
def takeSetRing (base size : Nat) (s : State) : State :=
  if s.writer.ring = .run ∨ s.writer.writeInFlight = true then s.respond .busy []
  else if ringArgsOk base size then
    (startRing base size s).respond .ok (ringImage (startRing base size s).writer)
  else s.respond .badArg []

/-- SET_RING (R158, R179). -/
def execSetRing (f : Frame) (s : State) : Host.Outcome State Fault Refusal :=
  takeFrame 7 f s fun args s' => takeSetRing (baseOfArgs args) (natOfBE (args.drop 5)) s'

/-- RING_OFF (R159, R179): a write in flight goes on. -/
def execRingOff (f : Frame) (s : State) : Host.Outcome State Fault Refusal :=
  takeFrame 0 f s fun _ s' =>
    let w := { s'.writer with ring := .off, queue := [], fullEpisode := false }
    (s'.setWriter w).respond .ok (indexImage w ++ [ringFlagsByte w])

/-- The consumer index may move to `c` (R160). -/
def ReportWriter.ackOk (w : ReportWriter) (c : BitVec 16) : Bool :=
  decide ((c - w.consumer).toNat ≤ w.occupancy)

/-- An accepted REPORT_ACK (R160): the index moves, an episode ends if the ring is no longer full, and
a waiting write is judged again. -/
def acknowledge (c : BitVec 16) (s : State) : State :=
  let w := { s.writer with consumer := c }
  judgeWrite (s.setWriter (if w.full then w else { w with fullEpisode := false }))

/-- REPORT_ACK (R160, R179). -/
def execReportAck (f : Frame) (s : State) : Host.Outcome State Fault Refusal :=
  takeFrame 2 f s fun args s' =>
    let c := BitVec.ofNat 16 (natOfBE args)
    if s'.writer.ackOk c then
      (acknowledge c s').respond .ok (indexImage (acknowledge c s').writer)
    else s'.respond .badArg []

end Sys2Proof.Machine
end

