-- ==== Sys2Proof/Machine/RequesterPort.lean ====
section
/-! DEFINITION. Meanings of REQUEST_TAKEN, PRST_N_ASSERTED and PRST_N_RELEASED (chapter 01). -/

namespace Sys2Proof.Machine

open Sys2Proof

/-- The entry of a request at its creation (R3). -/
def newEntry (portState : PortState) (r : Request) : QueueEntry :=
  { request := r, status := if portState = .pass then .admitted else .waiting,
    heldCloses := 0, refusedOnce := false }

/-- RPk takes a request (R3). The meter evaluates where the new entry is WAITING and the first WAITING
entry, that is behind an all-ADMITTED or empty queue (R8, R27). -/
def takeRequest (k : Port) (r : Request) (s : State) : State :=
  let e := newEntry (s.port k).controller.portState r
  let s1 := s.setQueue k ((s.port k).queue ++ [e])
  if e.status = .waiting ∧ waitingRest (s.port k).queue = [] then evaluate k s1 else s1

/-- REQUEST_TAKEN. While the accepting flag is clear the request stays with its master (R2). -/
def execRequestTaken (k : Port) (r : Request) (s : State) : Host.Outcome State Fault Refusal :=
  happening (s.operating && s.accepting k && r.wellFormed) s (takeRequest k r s)

/-- The port reset of port `k` (R17, R47, R102, R126): the queue is discarded, the LIVE entries become
ORPHANs, a claim becomes stale, and a DRAINING port meets drain done. -/
def portReset (k : Port) (s : State) : State :=
  let c := (s.port k).controller
  let s1 := s.setPort k { s.port k with
    resetAsserted := true, queue := [], meter := (s.port k).meter.staleClaim,
    controller := { c with drain := c.drain.map fun d => { d with ahead := 0 } } }
  judgeDrain k (s1.setTable (orphanWhere (fun o => o.portOf == some k) s1.table))

/-- PRST_N_ASSERTED. The port acts on each change of the input, not on its level (R18); while RST_N is
asserted there is nothing to reset but the level is followed (R20). -/
def execPrstAsserted (k : Port) (s : State) : Host.Outcome State Fault Refusal :=
  happening (s.refclkRunning && !(s.port k).resetAsserted) s
    (if s.rstAsserted then s.setPort k { s.port k with resetAsserted := true } else portReset k s)

/-- PRST_N_RELEASED (R19): nothing but the input changes; the accepting flag follows it. -/
def execPrstReleased (k : Port) (s : State) : Host.Outcome State Fault Refusal :=
  happening s.refclkRunning s (s.setPort k { s.port k with resetAsserted := false })

end Sys2Proof.Machine
end

