-- ==== Sys2Proof/Machine/Windows.lean ====
section
/-! DEFINITION. Meanings of WINDOW_CLOSE and CLAIM_ANSWER_TAKEN (chapter 02), the close step by step
as R36 and R37 number it. -/

namespace Sys2Proof.Machine

open Sys2Proof

/-- Step 1 of a close: the snapshot (R36). An outstanding claim becomes stale (R32). -/
def closeSnapshot (k : Port) (i : Installed) (s : State) : State :=
  s.setMeter k { (s.port k).meter.staleClaim with snapshot := endSnapshot (s.port k) i false }

/-- The metered beats of a window (R36 step 2). -/
def Counters.metered (c : Counters) : Nat := c.meteredRead + c.meteredWrite

/-- Step 2 of a close: the low mark (R36). -/
def closeLowMark (k : Port) (i : Installed) (s : State) : State :=
  let m := (s.port k).meter
  if i.profile.lowMark ≠ 0 ∧ m.counters.metered < i.profile.lowMark then
    let s1 := s.setMeter k { m with
      snapshot := { m.snapshot with flags := { m.snapshot.flags with low := true } } }
    if i.profile.flags.nLow then s1.submit (portNotice s1 k .low m.counters.metered) else s1
  else s

/-- The donation of a close, 0 for none (R36 step 3). -/
def donationOf (p : Profile) (m : Meter) : Nat :=
  if p.flags.share then
    match p.mode with
    | .observe => 0
    | .cap => p.budget - m.used
    | .bucket => m.credit + p.budget - p.ceiling
  else 0

/-- Step 3 of a close: the donation goes to the credit pool; a donation of 0 is not sent (R36). -/
def closeDonate (k : Port) (i : Installed) (s : State) : State :=
  if donationOf i.profile (s.port k).meter = 0 then s
  else s.setPort k { s.port k with
    toPool := (s.port k).toPool ++ [.donation (donationOf i.profile (s.port k).meter)] }

/-- Step 4 of a close: the refill (R36). -/
def closeRefill (k : Port) (i : Installed) (s : State) : State :=
  match i.profile.mode with
  | .observe => s
  | .cap => s.setMeter k { (s.port k).meter with used := 0 }
  | .bucket => s.setMeter k { (s.port k).meter with
      credit := min ((s.port k).meter.credit + i.profile.budget) i.profile.ceiling }

/-- Step 5 of a close: the new window (R36). -/
def closeNewWindow (k : Port) (i : Installed) (s : State) : State :=
  s.setMeter k { (s.port k).meter with
    counters := Counters.zero
    highSeen := false
    seqNo := (s.port k).meter.seqNo + 1
    timeRemaining := i.profile.windowLength }

/-- One more held close of an entry still WAITING, stopping at 15 (R10). -/
def QueueEntry.age (e : QueueEntry) : QueueEntry :=
  if e.status = .waiting then { e with heldCloses := saturate 15 (e.heldCloses + 1) } else e

/-- The hold limit reaches an entry: WAITING, and its count at least a max_hold that is not 0 (R37). -/
def reachesHold (maxHold : Nat) (e : QueueEntry) : Bool :=
  e.status == .waiting && maxHold != 0 && decide (maxHold ≤ e.heldCloses)

/-- An entry after the hold limit: ADMITTED without debit if the limit reaches it (R37). -/
def QueueEntry.release (maxHold : Nat) (e : QueueEntry) : QueueEntry :=
  if reachesHold maxHold e then e.markAdmitted else e

/-- The beats of a list of entries. -/
def totalBeats (q : List QueueEntry) : Nat := (q.map fun e => e.request.beats).sum

/-- The hold limit reaches the first WAITING entry of a queue, which is the one under a current
claim (R30). -/
def firstReached (maxHold : Nat) (q : List QueueEntry) : Bool :=
  match waitingRest q with
  | [] => false
  | e :: _ => reachesHold maxHold e

/-- Step 7 of a close: the hold limit (R37). -/
def closeHold (k : Port) (i : Installed) (s : State) : State :=
  let b := s.port k
  let aged := b.queue.map QueueEntry.age
  let released := aged.filter (reachesHold i.profile.maxHold)
  let m : Meter := if firstReached i.profile.maxHold aged then b.meter.staleClaim else b.meter
  let s1 := s.setPort k { b with
    queue := aged.map (QueueEntry.release i.profile.maxHold)
    meter := { m with counters :=
      { m.counters with forced := saturate maxBeats (m.counters.forced + totalBeats released) } } }
  if released ≠ [] ∧ i.profile.flags.nForced then s1.submit (portNotice s1 k .forced released.length)
  else s1

/-- Port controller `k` takes a close signal (R85, R86): frozen or stopped it is ignored; otherwise the
dwell steps, and at 0 the chain advances or the dwell ends. -/
def closeSignal (k : Port) (i : Installed) (s : State) : State :=
  let c := (s.port k).controller
  if c.portState = .active ∧ c.loadInFlight = false ∧ c.dwellCounting = true then
    if c.dwellRemaining ≤ 1 then
      let s1 := s.setController k { c with dwellRemaining := 0, dwellCounting := false }
      if i.profile.flags.link then startLoad k i.profile.nextIndex s1
      else if i.profile.flags.nDwell then s1.submit (portNotice s1 k .dwellEnd 0)
      else s1
    else s.setController k { c with dwellRemaining := c.dwellRemaining - 1 }
  else s

/-- The close of the window of meter `k` (R36, R37), in its nine steps. -/
def closeWindow (k : Port) (i : Installed) (s : State) : State :=
  let s1 := closeSnapshot k i s
  let s2 := closeLowMark k i s1
  let s3 := closeDonate k i s2
  let s4 := closeRefill k i s3
  let s5 := closeNewWindow k i s4
  let s6 := evaluate k s5
  let s7 := closeHold k i s6
  let s8 := closeSignal k i s7
  submitReport k i s8

/-- A close is due: a window runs and its time remaining is 0 (R25, R36). -/
def State.closeDue (s : State) (k : Port) : Bool :=
  (s.port k).windowRuns && (s.port k).meter.timeRemaining == 0

/-- WINDOW_CLOSE of meter `k`: taken when the time remaining of a running window has reached 0. -/
def execWindowClose (k : Port) (s : State) : Host.Outcome State Fault Refusal :=
  happening (s.operating && s.closeDue k) s
    (match (s.port k).meter.installed with
     | some i => closeWindow k i s
     | none => s)

/-- Meter `k` takes an answer (R31, R32): a current claim's answer is acted on; a stale claim's, or one
without a claim, is discarded, and the meter evaluates. -/
def takeAnswer (k : Port) (answer : ClaimAnswer) (s : State) : State :=
  let m := (s.port k).meter
  let cleared := s.setMeter k { m with claim := none }
  match m.installed, m.claim with
  | some i, some claim =>
    if claim.current then
      match answer with
      | .grant =>
        cleared.applyEvaluated k
          (grantQueue k i claim.shortfall { m with claim := none } (s.port k).queue)
      | .refusal =>
        cleared.applyEvaluated k (refuseQueue { m with claim := none } (s.port k).queue)
    else evaluate k cleared
  | _, _ => evaluate k cleared

/-- CLAIM_ANSWER_TAKEN: meter `k` takes the oldest answer on its way to it. -/
def execClaimAnswerTaken (k : Port) (s : State) : Host.Outcome State Fault Refusal :=
  match (s.port k).answers with
  | [] => .next s
  | answer :: rest =>
    happening s.operating s (takeAnswer k answer (s.setPort k { s.port k with answers := rest }))

end Sys2Proof.Machine
end

