-- ==== Sys2Proof/Machine/Dispatch.lean ====
section
/-! DEFINITION. One arm per command: the direct call of its meaning. -/

namespace Sys2Proof.Machine

open Sys2Proof

def exec (i : Instr) (s : State) : Host.Outcome State Fault Refusal :=
  match i with
  | .requestTaken k r => Sys2Proof.Machine.execRequestTaken k r s
  | .prstAsserted k => Sys2Proof.Machine.execPrstAsserted k s
  | .prstReleased k => Sys2Proof.Machine.execPrstReleased k s
  | .rstAsserted => Sys2Proof.Machine.execRstAsserted s
  | .rstReleased mcsLow => Sys2Proof.Machine.execRstReleased mcsLow s
  | .refclkStopped => Sys2Proof.Machine.execRefclkStopped s
  | .refclkRestarted mcsLow => Sys2Proof.Machine.execRefclkRestarted mcsLow s
  | .windowClose k => Sys2Proof.Machine.execWindowClose k s
  | .donationTaken k => Sys2Proof.Machine.execDonationTaken k s
  | .claimTaken k => Sys2Proof.Machine.execClaimTaken k s
  | .claimAnswerTaken k => Sys2Proof.Machine.execClaimAnswerTaken k s
  | .reportSubmission k => Sys2Proof.Machine.execReportSubmission k s
  | .issueGrant => Sys2Proof.Machine.execIssueGrant s
  | .memoryPortReady => Sys2Proof.Machine.execMemoryPortReady s
  | .memoryAnswer tag status data => Sys2Proof.Machine.execMemoryAnswer tag status data s
  | .completionDeadline tag => Sys2Proof.Machine.execCompletionDeadline tag s
  | .shortFrame bits => Sys2Proof.Machine.execShortFrame bits s
  | .badCommand code f => Sys2Proof.Machine.execBadCommand code f s
  | .readResponse f => Sys2Proof.Machine.execReadResponse f s
  | .getStatus f => Sys2Proof.Machine.execGetStatus f s
  | .getPort f => Sys2Proof.Machine.execGetPort f s
  | .getWindow f => Sys2Proof.Machine.execGetWindow f s
  | .getProfile f => Sys2Proof.Machine.execGetProfile f s
  | .getPool f => Sys2Proof.Machine.execGetPool f s
  | .setTableBase f => Sys2Proof.Machine.execSetTableBase f s
  | .setFallback f => Sys2Proof.Machine.execSetFallback f s
  | .clearFallback f => Sys2Proof.Machine.execClearFallback f s
  | .load f => Sys2Proof.Machine.execLoad f s
  | .quiesce f => Sys2Proof.Machine.execQuiesce f s
  | .resume f => Sys2Proof.Machine.execResume f s
  | .setPoolLimit f => Sys2Proof.Machine.execSetPoolLimit f s
  | .setTimeout f => Sys2Proof.Machine.execSetTimeout f s
  | .setRing f => Sys2Proof.Machine.execSetRing f s
  | .ringOff f => Sys2Proof.Machine.execRingOff f s
  | .reportAck f => Sys2Proof.Machine.execReportAck f s
  | .popNotice f => Sys2Proof.Machine.execPopNotice f s
  | .clearOverflow f => Sys2Proof.Machine.execClearOverflow f s
  | .setIrq f => Sys2Proof.Machine.execSetIrq f s
  | .softReset f => Sys2Proof.Machine.execSoftReset f s
  | .mcsRiseWithoutFrame => Sys2Proof.Machine.execMcsRiseWithoutFrame s

end Sys2Proof.Machine
end

