-- ==== Sys2Proof/Machine/Timebase.lean ====
section
/-! DEFINITION. The timebase (R25, R185): what the part does by itself when no command waits. The
opcode table has no row for a tick (log entry 1). -/

namespace Sys2Proof.Machine

open Sys2Proof

/-- The happenings whose moment the timebase has reached: closes (R36) and deadlines (R122, R123). -/
def State.dueHappenings (s : State) : List Instr :=
  (allPorts.filter s.closeDue).map Instr.windowClose ++
    ((List.finRange 64).filter fun t =>
      match s.table[t.val] with
      | some f => s.deadlineReached f
      | none => false).map Instr.completionDeadline

/-- Happenings of one microsecond in an order the manual leaves open: each takes the free place
`Config.dueOrder` gives it among those after it. -/
def arrange : List Instr → Nat → List Instr
  | [], _ => []
  | [c], _ => [c]
  | c :: d :: rest, n => (arrange (d :: rest) (n + 1)).insertIdx (Config.dueOrder n % (rest.length + 2)) c

/-- One microsecond of a port's window (R25). -/
def PortBlock.tick (b : PortBlock) : PortBlock :=
  if b.windowRuns then
    { b with meter := { b.meter with timeRemaining := b.meter.timeRemaining - 1 } }
  else b

/-- One microsecond of the timebase (R25, R185). -/
def tick (s : State) : State := { s with ticks := s.ticks + 1, ports := s.ports.map PortBlock.tick }

/-- What the part does with no command waiting: the happenings whose moment has come join the queue,
and otherwise a microsecond passes. Without REFCLK or under RST_N no time passes (R185, R128). -/
def idle (s : State) : State :=
  if s.operating then
    match s.dueHappenings with
    | [] => tick s
    | c :: rest => { s with
        pending := s.pending ++ arrange (c :: rest) s.choices
        choices := s.choices + (c :: rest).length }
  else s

end Sys2Proof.Machine
end

