-- ==== Sys2Proof/Safety.lean ====
section
/-! DEFINITION. What a sound state of the part is: the bounds and the agreements between its blocks that
the manual states in prose, gathered into invariants that every step keeps. -/

namespace Sys2Proof.Machine

open Sys2Proof

/-- R135: the notice queue never holds more than 32 notices. -/
def NoticesBounded (s : State) : Prop := s.notices.records.length ≤ 32

/-- R51: the pool level never exceeds the pool limit, which is at most 65,535. -/
def PoolBounded (s : State) : Prop := s.pool.level ≤ s.pool.limit ∧ s.pool.limit ≤ 65535

/-- R166: the response buffer holds at most 48 data bytes. -/
def ResponseBounded (s : State) : Prop := s.link.response.data.length ≤ 48

/-- The ranges of the fields of an installed or valid fallback profile (R62, R74). -/
structure ProfileInRange (p : Profile) : Prop where
  scope   : p.scope ≠ .unset
  window  : 16 ≤ p.windowLength ∧ p.windowLength ≤ 65535
  budget  : p.budget ≤ 65535 ∧ (p.mode ≠ .observe → 1 ≤ p.budget)
  ceiling : p.ceiling ≤ 65535 ∧ (p.mode = .bucket → p.budget ≤ p.ceiling)
  marks   : p.highMark ≤ 65535 ∧ p.lowMark ≤ 65535
  maxHold : p.maxHold ≤ 15
  dwell   : p.dwell ≤ 65535

/-- R34: every window counter lies between 0 and its maximum. -/
structure CountersBounded (c : Counters) : Prop where
  meteredRead  : c.meteredRead ≤ maxBeats
  meteredWrite : c.meteredWrite ≤ maxBeats
  unmetered    : c.unmetered ≤ maxBeats
  forced       : c.forced ≤ maxBeats
  borrowed     : c.borrowed ≤ maxBeats
  refused      : c.refused ≤ maxEvents
  maxLatency   : c.maxLatency ≤ maxEvents
  timeouts     : c.timeouts ≤ maxEvents
  errors       : c.errors ≤ maxEvents

/-- R23, R34, R62: the installed profile and a valid fallback are in range, the allowance lies within
the installed profile's, and the counters within their maxima. -/
structure MeterSound (b : PortBlock) : Prop where
  fallback  : b.fallback.valid = true → ProfileInRange b.fallback.fields
  profile   : ∀ i, b.meter.installed = some i → ProfileInRange i.profile
  source    : ∀ i, b.meter.installed = some i → i.source ≠ .noSource
  used      : ∀ i, b.meter.installed = some i → i.profile.mode = .cap → b.meter.used ≤ i.profile.budget
  credit    : ∀ i, b.meter.installed = some i → i.profile.mode = .bucket →
                b.meter.credit ≤ i.profile.ceiling
  remaining : b.meter.timeRemaining ≤ 65535
  counters  : CountersBounded b.meter.counters
  snapshot  : CountersBounded b.meter.snapshot.counters

/-- R23, R34: every meter is sound. -/
def MetersSound (s : State) : Prop := ∀ k, MeterSound (s.port k)

/-- R5, R6, R10: the queue holds at most 16 well-formed entries, its ADMITTED entries are an unbroken run
from the head, and the held-closes counts do not rise along its WAITING entries. -/
structure QueueSound (q : List QueueEntry) : Prop where
  depth      : q.length ≤ 16
  run        : ∀ e ∈ waitingRest q, e.status = .waiting
  held       : ∀ e ∈ q, e.heldCloses ≤ 15
  heldOrder  : (waitingRest q).Pairwise fun a b => b.heldCloses ≤ a.heldCloses
  wellFormed : ∀ e ∈ q, e.request.wellFormed = true

/-- R67, R82, R92: a load is in flight exactly while its context is present, a port is LOADING exactly
while a load that was not cancelled is in flight, and only a load in flight can be cancelled. -/
structure LoadFlagsSound (b : PortBlock) : Prop where
  context   : b.controller.loadInFlight = b.load.isSome
  loading   : b.controller.portState = .loading ↔
                b.controller.loadInFlight = true ∧ b.controller.cancelledLoad = false
  cancelled : b.controller.cancelledLoad = true → b.controller.loadInFlight = true

/-- What each port state fixes (R67, R92, R99, R100, R103), what a port reset leaves (R18, R102), and what
the power-on reset leaves (R20, R128). -/
structure RegimeSound (s : State) (k : Port) : Prop where
  pass     : (s.port k).controller.portState = .pass →
               (s.port k).meter.installed = none ∧ waitingRest (s.port k).queue = []
  active   : (s.port k).controller.portState = .active →
               (s.port k).meter.installed.isSome = true ∧ (s.port k).meter.windowRunning = true
  loading  : (s.port k).controller.portState = .loading →
               (s.port k).meter.windowRunning = (s.port k).meter.installed.isSome
  running  : (s.port k).meter.windowRunning = true →
               (s.port k).controller.portState = .active ∨ (s.port k).controller.portState = .loading
  draining : (s.port k).controller.portState = .draining →
               waitingRest (s.port k).queue = [] ∧ s.drainCondition k = false
  quiet    : (s.port k).controller.portState = .quiet →
               (s.port k).queue = [] ∧ s.liveCount k = 0
  reset    : (s.port k).resetAsserted = true → (s.port k).queue = [] ∧ s.liveCount k = 0
  power    : s.rstAsserted = true → (s.port k).queue = [] ∧ s.liveCount k = 0
  drain    : (s.port k).controller.drain.isSome = true ↔ (s.port k).controller.portState = .draining
  counts   : ∀ d, (s.port k).controller.drain = some d →
               d.ahead ≤ (s.port k).queue.length ∧ d.drained + (s.port k).queue.length ≤ 16 ∧
                 (0 < d.ahead → d.drained = 0)

/-- R5, R67, R92, R100: every port's queue, load flags and regime are sound. -/
def PortsSound (s : State) : Prop :=
  ∀ k, QueueSound (s.port k).queue ∧ LoadFlagsSound (s.port k) ∧ RegimeSound s k

/-- The LOAD items of port `k` on the internal pending list. -/
def State.listedLoads (s : State) (k : Port) : Nat :=
  s.internalList.countP fun item =>
    match item with
    | .load j _ => j == k
    | .report _ _ => false

/-- The REPORT items on the internal pending list. -/
def State.listedReports (s : State) : Nat :=
  s.internalList.countP fun item =>
    match item with
    | .load _ _ => false
    | .report _ _ => true

/-- LIVE entries with this owner in the in-flight table. -/
def State.liveOwned (s : State) (owner : Owner) : Nat :=
  s.table.toList.countP fun e =>
    match e with
    | some f => f.state == .live && f.owner == owner
    | none => false

/-- R68, R71, R109: a load that has not ended is one item of the pending list or one LIVE entry, and
nothing else is; so the list never holds more than one LOAD of a port. -/
def LoadsAccounted (s : State) : Prop :=
  ∀ k, (s.port k).controller.loadInFlight = (s.port k).load.isSome ∧
    s.listedLoads k + s.liveOwned (.load k) = if (s.port k).load.isSome then 1 else 0

/-- R111 to R113: tags 0 to 61 hold port entries and tags 62 and 63 internal ones, the shared pool's use
is at most 46, and an ORPHAN has no deadline. -/
structure TableSound (s : State) : Prop where
  layout : ∀ (t : Fin 64) (f : InFlight), s.table[t.val] = some f →
             (f.owner.portOf.isSome = true ↔ t.val < 62)
  shared : s.sharedInUse ≤ 46
  orphan : ∀ (t : Fin 64) (f : InFlight), s.table[t.val] = some f → f.state = .orphan → f.deadline = none

/-- R109, R147 to R156: the report writer's queue, indices and flags agree with each other and with the
one write it may have in flight. -/
structure WriterSound (s : State) : Prop where
  queue    : s.writer.queue.length ≤ 8
  size     : s.writer.size = 0 ∨ s.writer.size ∈ ringSizes
  running  : s.writer.ring = .run → s.writer.size ≠ 0
  room     : s.writer.occupancy ≤ s.writer.size
  writing  : s.writer.writeInFlight = true → s.writer.occupancy < s.writer.size
  stopped  : s.writer.ring ≠ .run → s.writer.queue = []
  halted   : s.writer.ring = .halt → s.writer.writeInFlight = false
  head     : s.writer.ring = .run → s.writer.writeInFlight = true → s.writer.queue ≠ []
  waiting  : s.writer.ring = .run → s.writer.writeInFlight = false → s.writer.queue ≠ [] →
               s.writer.full = true ∧ s.writer.fullEpisode = true
  episode  : s.writer.fullEpisode = true →
               s.writer.full = true ∧ s.writer.ring = .run ∧ s.writer.writeInFlight = false
  gaps     : ∀ k, s.writer.gapCount.get k ≤ 255
  account  : s.listedReports + s.liveOwned .report = if s.writer.writeInFlight then 1 else 0

/-- The claims of meter `k` the pool has not taken. -/
def PortBlock.claimsSent (b : PortBlock) : Nat :=
  b.toPool.countP fun m =>
    match m with
    | .donation _ => false
    | .claim _ => true

/-- The shortfall of a request against the allowance (R30). -/
def shortfallOf (i : Installed) (m : Meter) (r : Request) : Nat :=
  match i.profile.mode with
  | .observe => 0
  | .cap => m.used + r.beats - i.profile.budget
  | .bucket => r.beats - m.credit

/-- R30, R55: a claim outstanding is one message on its way to the pool or one answer on its way back, and
while it is current a window runs and its shortfall is still what the first WAITING entry lacks. -/
structure ClaimSound (b : PortBlock) : Prop where
  account : b.claimsSent + b.answers.length = if b.meter.claim.isSome then 1 else 0
  message : ∀ c n, b.meter.claim = some c → PoolMessage.claim n ∈ b.toPool → n = c.shortfall
  current : ∀ c, b.meter.claim = some c → c.current = true →
              b.windowRuns = true ∧
              ∃ i e, b.meter.installed = some i ∧ (waitingRest b.queue).head? = some e ∧
                i.profile.flags.borrow = true ∧ inScope i.profile.scope e.request.kind = true ∧
                c.shortfall = shortfallOf i b.meter e.request ∧ 1 ≤ c.shortfall

/-- R30, R55: every meter has at most one claim outstanding, accounted for. -/
def ClaimsSound (s : State) : Prop := ∀ k, ClaimSound (s.port k)

/-- A sound state of the whole part. -/
structure Sound (s : State) : Prop where
  notices  : NoticesBounded s
  pool     : PoolBounded s
  response : ResponseBounded s
  meters   : MetersSound s
  ports    : PortsSound s
  loads    : LoadsAccounted s
  table    : TableSound s
  writer   : WriterSound s
  claims   : ClaimsSound s

/-! ## Terms of the statements -/

/-- A frame of whole bytes: what follows byte 0 (R164). -/
def wholeFrame (args : List Byte) : Frame := ⟨args, 0⟩

/-- The argument byte that names port `k` (R171). -/
def portByte (k : Port) : Byte := BitVec.ofNat 8 (portNumber k)

/-- The state once the link has taken a frame and left its response: MDO carried bits of 0 (R168), the
response buffer is replaced whole (R166), and nothing else is changed. -/
def State.answered (s : State) (f : Frame) (status : Status) (data : List Byte) : State :=
  { s with
    outputs := s.outputs ++ [.mdo (List.replicate (8 * (1 + f.args.length) + f.partialBits.val) false)]
    link := { s.link with response := ⟨status, data⟩ } }

/-- The number of argument bytes a command needs, by its code (R165, R188); READ_RESPONSE needs none in
particular and is not listed. -/
def argumentBytes : List (Nat × Nat) :=
  [(0x10, 0), (0x11, 1), (0x12, 1), (0x13, 1), (0x14, 0), (0x20, 5), (0x21, 19), (0x22, 1), (0x23, 2),
   (0x24, 1), (0x25, 1), (0x30, 2), (0x31, 1), (0x40, 7), (0x41, 0), (0x42, 2), (0x50, 0), (0x51, 0),
   (0x52, 1), (0x5A, 0)]

/-- The codes of the commands whose byte 1 is a port (R171). -/
def portCodes : List Nat := [0x11, 0x12, 0x13, 0x21, 0x22, 0x23, 0x24, 0x25]

/-- The three conditions of R2. -/
def State.Accepts (s : State) (k : Port) : Prop :=
  ((s.port k).controller.portState = .pass ∨ (s.port k).controller.portState = .loading ∨
      (s.port k).controller.portState = .active) ∧
    ((s.port k).resetAsserted = false ∧ s.rstAsserted = false) ∧ (s.port k).queue.length < 16

/-- The test of R28 for a request in scope. -/
def PassesTest (i : Installed) (m : Meter) (r : Request) : Prop :=
  match i.profile.mode with
  | .observe => True
  | .cap => m.used + r.beats ≤ i.profile.budget
  | .bucket => r.beats ≤ m.credit

/-- Every entry of the queue is ADMITTED: there is no WAITING entry (R5). -/
def AllAdmitted (q : List QueueEntry) : Prop := ∀ e ∈ q, e.status = .admitted

/-- A happening the timebase has reached: the close of a running window with no time remaining (R36), or
the deadline of a LIVE entry (R122), reckoned from differences of the tick count (R185). -/
def State.Due (s : State) (c : Instr) : Prop :=
  (∃ k, c = .windowClose k ∧ (s.port k).windowRuns = true ∧ (s.port k).meter.timeRemaining = 0) ∨
    ∃ (tag : Fin 64) (f : InFlight) (d : BitVec 32), c = .completionDeadline tag ∧
      s.table[tag.val] = some f ∧ f.state = .live ∧ f.deadline = some d ∧
      (d - f.issueTime).toNat ≤ (s.ticks - f.issueTime).toNat

/-- The meter once a request in scope is admitted by its own allowance (R28): the debit and the counts. -/
def debited (i : Installed) (m : Meter) (r : Request) : Meter :=
  { m with
    used := if i.profile.mode = .cap then m.used + r.beats else m.used
    credit := if i.profile.mode = .bucket then m.credit - r.beats else m.credit
    counters := match r.kind with
      | .read => { m.counters with meteredRead := min (m.counters.meteredRead + r.beats) 16777215 }
      | .write => { m.counters with meteredWrite := min (m.counters.meteredWrite + r.beats) 16777215 } }

/-- The meter once a pool grant of `n` beats has admitted a request (R31). -/
def granted (i : Installed) (n : Nat) (m : Meter) (r : Request) : Meter :=
  { m with
    claim := none
    used := if i.profile.mode = .cap then i.profile.budget else m.used
    credit := if i.profile.mode = .bucket then 0 else m.credit
    counters := match r.kind with
      | .read => { m.counters with
          meteredRead := min (m.counters.meteredRead + r.beats) 16777215
          borrowed := min (m.counters.borrowed + n) 16777215 }
      | .write => { m.counters with
          meteredWrite := min (m.counters.meteredWrite + r.beats) 16777215
          borrowed := min (m.counters.borrowed + n) 16777215 } }

/-- The charged beats of a window (R33). -/
def chargedBeats (m : Meter) : Nat := m.counters.meteredRead + m.counters.meteredWrite - m.counters.borrowed

/-- The high mark is reached for the first time in the window (R33). -/
def crossesHigh (i : Installed) (m : Meter) : Bool :=
  decide (i.profile.highMark ≠ 0 ∧ m.highSeen = false ∧ i.profile.highMark ≤ chargedBeats m)

/-- The state with meter and queue of port `k` replaced after an admission, the high-seen flag set and the
HIGH notice submitted where the high mark is crossed (R33). -/
def State.withAdmission (s : State) (k : Port) (i : Installed) (m : Meter) (q : List QueueEntry) :
    State :=
  if crossesHigh i m then
    let t := s.setPort k { s.port k with queue := q, meter := { m with highSeen := true } }
    if i.profile.flags.nHigh then
      t.submit { kind := .high, port := some k, seqNo := m.seqNo, index := i.index,
                 detail := min (chargedBeats m) 65535 }
    else t
  else s.setPort k { s.port k with queue := q, meter := m }

/-- A claim record that has become stale (R32). -/
def staled (c : Option Claim) : Option Claim := c.map fun x => { x with current := false }

/-- The snapshot of the window of port `k` as it ends under the installed profile (R36 step 1, R39,
R41). -/
def snapshotAtEnd (b : PortBlock) (i : Installed) (partialEnd low : Bool) : Snapshot :=
  { seqNo := b.meter.seqNo, index := i.index, source := i.source, mode := i.profile.mode,
    counters := b.meter.counters
    endAllowance := match i.profile.mode with
      | .observe => 0
      | .cap => b.meter.used
      | .bucket => b.meter.credit
    flags := { partialEnd := partialEnd, high := b.meter.highSeen, low := low,
               fallback := b.controller.fallbackInUse } }

/-- The report records a window's end adds to those on their way to the report writer (R40). -/
def reportOf (k : Port) (i : Installed) (w : Snapshot) : List Report :=
  if i.profile.flags.report then [⟨k, w, 0⟩] else []

/-- The LOW flag of a window as it closes (R36 step 2). -/
def missesLowMark (i : Installed) (m : Meter) : Bool :=
  decide (i.profile.lowMark ≠ 0 ∧
    m.counters.meteredRead + m.counters.meteredWrite < i.profile.lowMark)

/-- The donation a close sends to the pool, if any (R36 step 3). -/
def donationAtClose (i : Installed) (m : Meter) : List PoolMessage :=
  match i.profile.mode with
  | .observe => []
  | .cap => if i.profile.flags.share = true ∧ m.used < i.profile.budget
      then [.donation (i.profile.budget - m.used)] else []
  | .bucket => if i.profile.flags.share = true ∧ i.profile.ceiling < m.credit + i.profile.budget
      then [.donation (m.credit + i.profile.budget - i.profile.ceiling)] else []

/-- The state a close hands to the re-evaluation: after steps 1 to 5 of R36, with the LOW notice submitted
where the low mark is missed and N_LOW is set. -/
def State.windowRenewed (s : State) (k : Port) (i : Installed) : State :=
  let m := (s.port k).meter
  let t := s.setPort k { s.port k with
    toPool := (s.port k).toPool ++ donationAtClose i m
    meter := { m with
      snapshot := snapshotAtEnd (s.port k) i false (missesLowMark i m)
      claim := staled m.claim
      used := if i.profile.mode = .cap then 0 else m.used
      credit := if i.profile.mode = .bucket then min (m.credit + i.profile.budget) i.profile.ceiling
        else m.credit
      counters := ⟨0, 0, 0, 0, 0, 0, 0, 0, 0⟩, highSeen := false, seqNo := m.seqNo + 1
      timeRemaining := i.profile.windowLength } }
  if missesLowMark i m && i.profile.flags.nLow then
    t.submit { kind := .low, port := some k, seqNo := m.seqNo, index := i.index,
               detail := min (m.counters.meteredRead + m.counters.meteredWrite) 65535 }
  else t

/-- The state an install hands to the evaluation: the window that runs ended early, with its PARTIAL snapshot
and report, and a window begun under `i` (R41 to R43). -/
def State.windowInstalled (s : State) (k : Port) (i : Installed) : State :=
  let b := s.port k
  let started : Meter := { b.meter with
    installed := some i, windowRunning := true, timeRemaining := i.profile.windowLength
    seqNo := b.meter.seqNo + 1, used := 0
    credit := if i.profile.mode = .bucket then i.profile.ceiling else 0
    counters := ⟨0, 0, 0, 0, 0, 0, 0, 0, 0⟩, highSeen := false }
  match b.meter.installed with
  | some old =>
    if b.windowRuns then
      s.setPort k { b with
        toWriter := b.toWriter ++ reportOf k old (snapshotAtEnd b old true false)
        meter := { started with
          snapshot := snapshotAtEnd b old true false, claim := staled b.meter.claim } }
    else s.setPort k { b with meter := started }
  | none => s.setPort k { b with meter := started }

/-- The records of port `k` the account of R194 holds: those in the report queue, the gap count fields
they carry, and the present gap count. -/
def State.recordsHeld (s : State) (k : Port) : Nat :=
  ((s.writer.queue.filter fun r => r.port == k).map fun r => 1 + r.gapCount).sum + s.writer.gapCount.get k

end Sys2Proof.Machine
end

