-- ==== Sys2Proof/Certificates/Slice0/Obligations.lean ====
section
/-! DEFINITION. The statements about the BG-2440, for the provers. A statement names a rule of the manual
where it formalises one; where a clause rests on a choice of the model, the docstring says so. -/

open Sys2Proof Sys2Proof.Machine

/-! ## The machine -/

/-- A step with a command waiting is the front command run on the state with the rest of the queue. -/
def Obligations.StepRunsTheFrontCommand : Prop :=
  ∀ (c : Instr) (rest : List Instr) (s : State),
    step { s with pending := c :: rest } = exec c { s with pending := rest }

/-- The model's choice (log entries 1 and 2): with no command waiting, the happenings whose moment the
timebase has reached (R25, R36, R122, R185) join the queue, each once, and otherwise one microsecond passes.
Under RST_N or without REFCLK no time passes. -/
def Obligations.IdlePassesTimeOrQueuesWhatIsDue : Prop :=
  ∀ s : State, s.pending = [] →
    (s.operating = false → step s = .next s) ∧
    (s.operating = true → (∀ c, ¬ s.Due c) →
      ∃ t, step s = .next t ∧ t = { s with ticks := s.ticks + 1, ports := t.ports } ∧
        ∀ k, t.port k = { s.port k with meter := { (s.port k).meter with
          timeRemaining := if (s.port k).windowRuns then (s.port k).meter.timeRemaining - 1
            else (s.port k).meter.timeRemaining } }) ∧
    (s.operating = true → (∃ c, s.Due c) →
      ∃ (l : List Instr) (n : Nat), step s = .next { s with pending := l, choices := n } ∧ l.Nodup ∧
        ∀ c, c ∈ l ↔ s.Due c)

/-- After power-on reset every block holds the values its chapter gives (R20, R48, R52, R66, R67, R91, R118,
R128, R142, R147, R166). The time remaining of 0, with no window running, is the model's choice (log entry
24). -/
def Obligations.ResetLeavesPowerOnValues : Prop :=
  (∀ k, (State.reset.port k).queue = [] ∧
    (State.reset.port k).meter =
      { installed := none, windowRunning := false, timeRemaining := 0, seqNo := 0, used := 0, credit := 0,
        highSeen := false, counters := ⟨0, 0, 0, 0, 0, 0, 0, 0, 0⟩,
        snapshot := ⟨0, 0xFF, .noSource, .observe, ⟨0, 0, 0, 0, 0, 0, 0, 0, 0⟩, 0,
          ⟨false, false, false, false⟩⟩,
        claim := none } ∧
    (State.reset.port k).controller =
      { portState := .pass, dwellRemaining := 0, dwellCounting := false, loadInFlight := false,
        cancelledLoad := false, fallbackInUse := false, drain := none } ∧
    (State.reset.port k).load = none ∧ (State.reset.port k).fallback.valid = false ∧
    bytesOfProfile (State.reset.port k).fallback.fields = List.replicate 18 0 ∧
    (State.reset.port k).toPool = [] ∧ (State.reset.port k).answers = [] ∧
    State.reset.accepting k = !(State.reset.port k).resetAsserted) ∧
  State.reset.tableBase = 0 ∧ State.reset.pool = ⟨0, 0⟩ ∧ State.reset.internalList = [] ∧
  State.reset.roundRobin = .rp0 ∧ (∀ tag : Fin 64, State.reset.table[tag.val] = none) ∧
  State.reset.memoryPort = none ∧
  State.reset.notices = ⟨[], false, false⟩ ∧ State.reset.notices.irqAsserted = false ∧
  State.reset.writer =
    { ring := .off, base := 0, size := 0, producer := 0, consumer := 0, queue := [],
      writeInFlight := false, gapCount := ⟨0, 0, 0, 0⟩, fullEpisode := false } ∧
  State.reset.link.response = ⟨.ok, []⟩ ∧ State.reset.link.timeout = 40

/-- The state after reset is sound: every invariant below has its start. -/
def Obligations.ResetIsSound : Prop := Sound State.reset

/-- Frames written out bit by bit from the code table of R188 decode to the commands they stand for:
GET_STATUS, LOAD(2, 9), SET_TIMEOUT with a partial byte of three bits, the code 0x00, and five bits. -/
def Obligations.FrameWordsDecode : Prop :=
  decodeFrame [false, false, false, true, false, false, false, false] = .getStatus ⟨[], 0⟩ ∧
  decodeFrame [false, false, true, false, false, false, true, true,
      false, false, false, false, false, false, true, false,
      false, false, false, false, true, false, false, true] = .load ⟨[2, 9], 0⟩ ∧
  decodeFrame [false, false, true, true, false, false, false, true, true, true, true] =
    .setTimeout ⟨[], 3⟩ ∧
  decodeFrame [false, false, false, false, false, false, false, false] = .badCommand 0 ⟨[], 0⟩ ∧
  decodeFrame [true, false, true, false, false] = .shortFrame 5

/-- The bits of every management command's frame decode back to that command, with every argument byte and
the length of a partial byte (R164, R165, R188). -/
def Obligations.FrameDecodesBackToItsCommand : Prop :=
  ∀ (i : Instr) (code : Byte) (f : Frame), i.wellFormed = true → frameOf i = some (code, f) →
    decodeFrame (encodeFrame code f) = i

/-! ## Invariants that every step keeps -/

/-- R51, R135, R166: the bounds of the pool level, the notice queue and the response buffer are kept. -/
def Obligations.EveryStepKeepsTheBounds : Prop :=
  ∀ s t : State, step s = .next t →
    (NoticesBounded s → NoticesBounded t) ∧ (PoolBounded s → PoolBounded t) ∧
      (ResponseBounded s → ResponseBounded t)

/-- R23, R34, R62: every step keeps the profiles in range, the allowances within their profiles and the
counters within their maxima. -/
def Obligations.EveryStepKeepsTheMetersSound : Prop :=
  ∀ s t : State, MetersSound s → step s = .next t → MetersSound t

/-- R5, R10, R67, R91, R92, R99, R100: every step keeps the admitted run unbroken, the load flags in
agreement with the load context, and the regime of each port state. -/
def Obligations.EveryStepKeepsThePortsSound : Prop :=
  ∀ s t : State, PortsSound s → step s = .next t → PortsSound t

/-- R68, R109: every step keeps each load that has not ended accounted for, once, on the pending list or in
the in-flight table; a port never has more than one. -/
def Obligations.EveryStepKeepsTheLoadsAccounted : Prop :=
  ∀ s t : State, LoadsAccounted s → step s = .next t → LoadsAccounted t

/-- R111 to R113: every step keeps port entries at tags 0 to 61, internal ones at 62 and 63, the shared
pool's use at 46 or below, and every ORPHAN without a deadline. -/
def Obligations.EveryStepKeepsTheTableSound : Prop :=
  ∀ s t : State, TableSound s → step s = .next t → TableSound t

/-- R147 to R156: every step keeps the occupancy within the ring, at most one write in flight and accounted
for, and the queue, the episode and the ring state in agreement. -/
def Obligations.EveryStepKeepsTheWriterSound : Prop :=
  ∀ s t : State, WriterSound s → step s = .next t → WriterSound t

/-- R30, R55: every step keeps each meter's claim a single message or answer on its way, and a current
claim's shortfall exact. -/
def Obligations.EveryStepKeepsTheClaimsSound : Prop :=
  ∀ s t : State, ClaimsSound s → step s = .next t → ClaimsSound t

/-! ## Rules about every command -/

/-- R26: no command changes a port's window sequence number but by increasing it by one, modulo 2^32, or by
returning it to 0 at power-on reset or SOFT_RESET. -/
def Obligations.SequenceNumbersRiseByOne : Prop :=
  ∀ (c : Instr) (s : State), ∃ t, exec c s = .next t ∧ ∀ k,
    (t.port k).meter.seqNo = (s.port k).meter.seqNo ∨
    (t.port k).meter.seqNo = (s.port k).meter.seqNo + 1 ∨
    ((t.port k).meter.seqNo = 0 ∧
      (c = .rstAsserted ∨ (∃ b, c = .rstReleased b) ∨ ∃ f, c = .softReset f))

/-- R70, R92: a happening or command of port `k` leaves everything the part holds for the other ports as it
was. -/
def Obligations.OnlyTheNamedPortChanges : Prop :=
  ∀ (k j : Port) (s t : State), j ≠ k →
    ((∃ r, exec (.requestTaken k r) s = .next t) ∨ exec (.prstAsserted k) s = .next t ∨
      exec (.prstReleased k) s = .next t ∨ exec (.windowClose k) s = .next t ∨
      exec (.donationTaken k) s = .next t ∨ exec (.claimTaken k) s = .next t ∨
      exec (.claimAnswerTaken k) s = .next t ∨ exec (.reportSubmission k) s = .next t ∨
      ∃ (args : List Byte) (p : Fin 8), exec (.setFallback ⟨portByte k :: args, p⟩) s = .next t ∨
        exec (.clearFallback ⟨portByte k :: args, p⟩) s = .next t ∨
        exec (.load ⟨portByte k :: args, p⟩) s = .next t ∨
        exec (.quiesce ⟨portByte k :: args, p⟩) s = .next t ∨
        exec (.resume ⟨portByte k :: args, p⟩) s = .next t) →
    t.port j = s.port j

/-- R16: whatever the command, each completion it returns is of a LIVE entry of that port with that
requester tag, which is LIVE no longer, and an ORPHAN never becomes LIVE again (R111): so no transaction is
completed twice. At most one is returned at once, and what was put out before stays. -/
def Obligations.EachTransactionCompletesAtMostOnce : Prop :=
  ∀ (c : Instr) (s : State), ∃ (t : State) (l : List Output), exec c s = .next t ∧
    t.outputs = s.outputs ++ l ∧ l.length ≤ 1 ∧
    (∀ k rtag status data, Output.completion k rtag status data ∈ l →
      ∃ (tag : Fin 64) (f : InFlight), s.table[tag.val] = some f ∧ f.state = .live ∧
        f.owner = .port k rtag ∧ ∀ g, t.table[tag.val] = some g → g.state = .orphan) ∧
    ∀ (tag : Fin 64) (f : InFlight), s.table[tag.val] = some f → f.state = .orphan →
      ∀ g, t.table[tag.val] = some g → g = f

/-- R194, one command at a time: while the ring stays RUN, no gap count is at 255 and no SET_RING, RING_OFF or
reset is taken, the records the account of port `k` holds rise by one with each record of port `k` taken, and
fall by one and its gap count field with each record of port `k` written. -/
def Obligations.EveryReportTakenIsAccountedFor : Prop :=
  ∀ (c : Instr) (s t : State) (k : Port), WriterSound s → exec c s = .next t →
    s.writer.ring = .run → t.writer.ring = .run → s.writer.gapCount.get k < 255 →
    (∀ f, c ≠ .setRing f ∧ c ≠ .ringOff f ∧ c ≠ .softReset f) → c ≠ .rstAsserted →
    t.recordsHeld k +
        (match s.writer.queue with
          | r :: _ => if t.writer.producer ≠ s.writer.producer ∧ r.port = k then 1 + r.gapCount else 0
          | [] => 0) =
      s.recordsHeld k +
        (match c with
          | .reportSubmission j =>
            match (s.port j).toWriter with
            | r :: _ => if s.operating = true ∧ r.port = k then 1 else 0
            | [] => 0
          | _ => 0)

/-- R20, R128, R183, R185: without REFCLK, or under RST_N, or for a frame while the link waits for MCS_N to
rise, nothing is taken: the state stays as it is. Only the changes of RST_N and of REFCLK, and under RST_N the
level of PRST_Nk, are followed. What comes while REFCLK is stopped is lost and not taken at the restart, an answer
of the memory and the ready of the memory port among them: that is the model's choice (log entries 15 and 28). -/
def Obligations.NothingIsTakenWithoutClockOrUnderReset : Prop :=
  ∀ (c : Instr) (s : State),
    (s.refclkRunning = false → (∀ b, c ≠ .refclkRestarted b) → exec c s = .next s) ∧
    (s.rstAsserted = true →
      (∀ k, c ≠ .prstAsserted k ∧ c ≠ .prstReleased k) →
      (∀ b, c ≠ .rstReleased b ∧ c ≠ .refclkRestarted b) → c ≠ .refclkStopped → exec c s = .next s) ∧
    (s.link.awaitingRise = true → ((∃ n, c = .shortFrame n) ∨ frameOf c ≠ none) → exec c s = .next s)

/-! ## Requester ports (01) -/

/-- R3: an accepted request joins the tail of the port queue. In PASS its entry is ADMITTED. In ACTIVE or
LOADING it is WAITING, and it waits without being judged behind another WAITING entry, while no window runs
(R25, R27), and while a claim is outstanding (R27). Nothing else changes. -/
def Obligations.RequestJoinsTheQueue : Prop :=
  ∀ (s : State) (k : Port) (r : Request), s.operating = true → s.Accepts k → r.wellFormed = true →
    ((s.port k).controller.portState = .pass →
      exec (.requestTaken k r) s =
        .next (s.setPort k { s.port k with queue := (s.port k).queue ++ [⟨r, .admitted, 0, false⟩] })) ∧
    ((s.port k).controller.portState ≠ .pass →
      ((∃ e ∈ (s.port k).queue, e.status = .waiting) ∨ (s.port k).windowRuns = false ∨
        (s.port k).meter.claim.isSome = true) →
      exec (.requestTaken k r) s =
        .next (s.setPort k { s.port k with queue := (s.port k).queue ++ [⟨r, .waiting, 0, false⟩] }))

/-- R2, R4: a request is held off, and the part keeps no trace of it, while one of the three conditions of
the accepting flag fails. -/
def Obligations.RequestIsHeldOff : Prop :=
  ∀ (s : State) (k : Port) (r : Request), ¬ s.Accepts k →
    s.accepting k = false ∧ exec (.requestTaken k r) s = .next s

/-- R28, R33: a request taken behind no WAITING entry while a window runs and no claim is outstanding is
judged at once. Outside the scope it is admitted without debit and counted as unmetered. In scope, where the
mode's test passes, it is admitted, the allowance is debited and the beats are counted, and the high mark may
be crossed. Nothing else changes. -/
def Obligations.RequestIsAdmittedByTheMeter : Prop :=
  ∀ (s : State) (k : Port) (r : Request) (i : Installed), s.operating = true → s.Accepts k →
    r.wellFormed = true → (s.port k).windowRuns = true → (s.port k).meter.installed = some i →
    (s.port k).meter.claim = none → AllAdmitted (s.port k).queue →
    (inScope i.profile.scope r.kind = false →
      exec (.requestTaken k r) s =
        .next (s.setPort k { s.port k with
          queue := (s.port k).queue ++ [⟨r, .admitted, 0, false⟩]
          meter := { (s.port k).meter with counters := { (s.port k).meter.counters with
            unmetered := min ((s.port k).meter.counters.unmetered + r.beats) 16777215 } } })) ∧
    (inScope i.profile.scope r.kind = true → PassesTest i (s.port k).meter r →
      exec (.requestTaken k r) s =
        .next (s.withAdmission k i (debited i (s.port k).meter r)
          ((s.port k).queue ++ [⟨r, .admitted, 0, false⟩])))

/-- R29, R30: where the test of CAP or BUCKET fails, the meter with BORROW set sends one claim for the
shortfall, 1 to 16 beats, and records it as outstanding and current; with BORROW clear it refuses the entry,
which is marked and counted once. The entry stays WAITING, and nothing else changes. -/
def Obligations.RequestIsClaimedForOrRefused : Prop :=
  ∀ (s : State) (k : Port) (r : Request) (i : Installed), s.operating = true → s.Accepts k →
    r.wellFormed = true → (s.port k).windowRuns = true → (s.port k).meter.installed = some i →
    (s.port k).meter.claim = none → AllAdmitted (s.port k).queue →
    inScope i.profile.scope r.kind = true → ¬ PassesTest i (s.port k).meter r →
    (i.profile.flags.borrow = true →
      exec (.requestTaken k r) s =
        .next (s.setPort k { s.port k with
          queue := (s.port k).queue ++ [⟨r, .waiting, 0, false⟩]
          meter := { (s.port k).meter with claim := some ⟨shortfallOf i (s.port k).meter r, true⟩ }
          toPool := (s.port k).toPool ++ [.claim (shortfallOf i (s.port k).meter r)] }) ∧
      1 ≤ shortfallOf i (s.port k).meter r ∧
      ((s.port k).meter.used ≤ i.profile.budget → shortfallOf i (s.port k).meter r ≤ 16)) ∧
    (i.profile.flags.borrow = false →
      exec (.requestTaken k r) s =
        .next (s.setPort k { s.port k with
          queue := (s.port k).queue ++ [⟨r, .waiting, 0, true⟩]
          meter := { (s.port k).meter with counters := { (s.port k).meter.counters with
            refused := min ((s.port k).meter.counters.refused + 1) 65535 } } }))

/-- R27 to R30: what an evaluation does. It does nothing while no window runs, while a claim is outstanding
or where no entry is WAITING. Otherwise it decides the first WAITING entry: admitted, it goes on with the next
one; refused or claimed for, it ends there. -/
def Obligations.EvaluationGoesAlongTheQueue : Prop :=
  ∀ (s : State) (k : Port),
    ((s.port k).windowRuns = false ∨ (s.port k).meter.claim.isSome = true ∨ AllAdmitted (s.port k).queue →
      evaluate k s = s) ∧
    ∀ (i : Installed) (run : List QueueEntry) (e : QueueEntry) (rest : List QueueEntry),
      (s.port k).windowRuns = true → (s.port k).meter.installed = some i →
      (s.port k).meter.claim = none → (s.port k).queue = run ++ e :: rest → AllAdmitted run →
      e.status = .waiting →
      (inScope i.profile.scope e.request.kind = false →
        evaluate k s = evaluate k (s.setPort k { s.port k with
          queue := run ++ { e with status := .admitted } :: rest
          meter := { (s.port k).meter with counters := { (s.port k).meter.counters with
            unmetered := min ((s.port k).meter.counters.unmetered + e.request.beats) 16777215 } } })) ∧
      (inScope i.profile.scope e.request.kind = true → PassesTest i (s.port k).meter e.request →
        evaluate k s = evaluate k (s.withAdmission k i (debited i (s.port k).meter e.request)
          (run ++ { e with status := .admitted } :: rest))) ∧
      (inScope i.profile.scope e.request.kind = true → ¬ PassesTest i (s.port k).meter e.request →
        i.profile.flags.borrow = true →
        evaluate k s = s.setPort k { s.port k with
          meter := { (s.port k).meter with
            claim := some ⟨shortfallOf i (s.port k).meter e.request, true⟩ }
          toPool := (s.port k).toPool ++ [.claim (shortfallOf i (s.port k).meter e.request)] }) ∧
      (inScope i.profile.scope e.request.kind = true → ¬ PassesTest i (s.port k).meter e.request →
        i.profile.flags.borrow = false →
        evaluate k s = s.setPort k { s.port k with
          queue := run ++ { e with refusedOnce := true } :: rest
          meter := { (s.port k).meter with counters := { (s.port k).meter.counters with
            refused := if e.refusedOnce then (s.port k).meter.counters.refused
              else min ((s.port k).meter.counters.refused + 1) 65535 } } })

/-- R17, R47, R102, R126: the assertion of PRST_Nk empties the port queue without any completion, makes every
LIVE entry of the port an ORPHAN without a deadline and a claim outstanding stale, and brings a DRAINING port
to QUIET with a QUIESCED notice of the entries drained before it. The release changes the input alone, and the
accepting flag is then set exactly if the other conditions of R2 hold (R19). Under RST_N the assertion changes
the input alone: that the level is followed there is the model's choice (R20, log entry 15). -/
def Obligations.PortResetDiscardsAndReleaseReopens : Prop :=
  ∀ (s : State) (k : Port), s.refclkRunning = true →
    (s.rstAsserted = false → (s.port k).resetAsserted = false →
      ((s.port k).controller.drain.isSome = true → (s.port k).controller.portState = .draining) →
      ∃ t, exec (.prstAsserted k) s = .next t ∧
        t = { s with ports := t.ports, table := t.table, notices := t.notices } ∧
        (∀ j, j ≠ k → t.port j = s.port j) ∧
        t.port k = { s.port k with
          queue := [], resetAsserted := true
          meter := { (s.port k).meter with claim := staled (s.port k).meter.claim }
          controller := (t.port k).controller } ∧
        t.accepting k = false ∧
        (∀ tag : Fin 64, t.table[tag.val] = (s.table[tag.val]).map fun f =>
          if f.state = .live ∧ f.owner.portOf = some k then { f with state := .orphan, deadline := none }
          else f) ∧
        ((s.port k).controller.portState ≠ .draining →
          (t.port k).controller = (s.port k).controller ∧ t.notices = s.notices) ∧
        (∀ d, (s.port k).controller.portState = .draining → (s.port k).controller.drain = some d →
          (t.port k).controller =
            { (s.port k).controller with portState := .quiet, drain := none } ∧
          t.notices = s.notices.submit
            { kind := .quiesced, port := some k, seqNo := (s.port k).meter.seqNo,
              index := (s.port k).meter.index, detail := min d.drained 65535 })) ∧
    (s.rstAsserted = true → exec (.prstAsserted k) s =
      .next (s.setPort k { s.port k with resetAsserted := true })) ∧
    (∃ t, exec (.prstReleased k) s = .next t ∧
      t = s.setPort k { s.port k with resetAsserted := false } ∧
      (t.accepting k = true ↔
        ((s.port k).controller.portState = .pass ∨ (s.port k).controller.portState = .loading ∨
          (s.port k).controller.portState = .active) ∧ s.rstAsserted = false ∧
          (s.port k).queue.length < 16))

/-! ## Power-on reset, clock and pins -/

/-- R20, R128, R142, R162, R183: from the assertion of RST_N to its release every block holds its power-on
values, no port accepts, and the levels of the PRST_Nk inputs are kept. The timebase begins at the release,
and the link waits for MCS_N to rise if it is low then. What was put out and the command queue are the model's
own and stay. That messages on their way are discarded, the reports among them, and a time remaining and a tick
count of 0 are the model's choice (log entries 18 and 24). -/
def Obligations.PowerOnResetLeavesEveryBlockAtItsValues : Prop :=
  ∀ s : State, s.refclkRunning = true →
    (s.rstAsserted = false →
      ∃ t, exec .rstAsserted s = .next t ∧ (∀ k, t.accepting k = false) ∧
        t = { State.reset with
          ports := s.ports.map fun b => PortBlock.reset b.resetAsserted
          rstAsserted := true, outputs := s.outputs, choices := s.choices, pending := s.pending }) ∧
    (s.rstAsserted = true → ∀ low : Bool,
      ∃ t, exec (.rstReleased low) s = .next t ∧
        (∀ k, t.accepting k = !(s.port k).resetAsserted) ∧
        t = { State.reset with
          ports := s.ports.map fun b => PortBlock.reset b.resetAsserted
          link := { State.reset.link with awaitingRise := low }
          outputs := s.outputs, choices := s.choices, pending := s.pending })

/-- R108, R183, R185: REFCLK stops and runs again with the state held; at the restart the link waits for MCS_N
to rise if it is low; the rise ends the wait; and the memory port becomes ready once the memory controller has
taken the granted transaction whole. That no bits of MDO are recorded for the wait is the model's choice (log entry
26). -/
def Obligations.ClockAndPinEvents : Prop :=
  ∀ s : State,
    (s.refclkRunning = true → exec .refclkStopped s = .next { s with refclkRunning := false }) ∧
    (s.refclkRunning = false → ∀ low : Bool, exec (.refclkRestarted low) s =
      .next { s with refclkRunning := true, link := { s.link with awaitingRise := low } }) ∧
    (s.operating = true → s.link.awaitingRise = true → exec .mcsRiseWithoutFrame s =
      .next { s with link := { s.link with awaitingRise := false } }) ∧
    (s.operating = true → exec .memoryPortReady s = .next { s with memoryPort := none })

/-- The model's choice (log entry 3): a happening whose cause does not stand leaves the state as it was. No
close without a running window at 0, no message taken that is not the oldest one of its kind, no answer and no
report without one on its way, no grant without a ready memory port, no deadline before its moment, no second
assertion of an asserted input, no rise of MCS_N that nothing waits for. -/
def Obligations.WithoutItsCauseAHappeningChangesNothing : Prop :=
  ∀ (s : State) (k : Port) (tag : Fin 64),
    (¬ s.Due (.windowClose k) → exec (.windowClose k) s = .next s) ∧
    ((∀ d rest, (s.port k).toPool ≠ .donation d :: rest) → exec (.donationTaken k) s = .next s) ∧
    ((∀ n rest, (s.port k).toPool ≠ .claim n :: rest) → exec (.claimTaken k) s = .next s) ∧
    ((s.port k).answers = [] → exec (.claimAnswerTaken k) s = .next s) ∧
    ((s.port k).toWriter = [] → exec (.reportSubmission k) s = .next s) ∧
    (s.memoryPort ≠ none → exec .issueGrant s = .next s) ∧
    (¬ s.Due (.completionDeadline tag) → exec (.completionDeadline tag) s = .next s) ∧
    ((s.port k).resetAsserted = true → exec (.prstAsserted k) s = .next s) ∧
    (s.rstAsserted = true → exec .rstAsserted s = .next s) ∧
    (s.rstAsserted = false → ∀ low, exec (.rstReleased low) s = .next s) ∧
    (s.refclkRunning = true → ∀ low, exec (.refclkRestarted low) s = .next s) ∧
    (s.link.awaitingRise = false → exec .mcsRiseWithoutFrame s = .next s)

/-! ## Windows and claims (02) -/

/-- R36, R39, R40: a close that is due is taken. The snapshot is replaced with the window as it ends, LOW
included; the donation goes to the pool ahead of any claim of the re-evaluation; the counters' window, its
number and its time begin anew; the meter re-evaluates the state of that moment, the LOW notice already
submitted, and the hold limit then changes of the meter the claim and the forced beats alone; the report goes
to the report writer; no entry leaves or joins the queue; and no other port, and nothing of the pool, the
table, the report writer, the memory port or the link, changes. Where no entry is WAITING, used is 0 in CAP
afterwards and credit is refilled up to the ceiling in BUCKET. -/
def Obligations.WindowCloseEndsTheWindow : Prop :=
  ∀ (s : State) (k : Port) (i : Installed), s.operating = true → (s.port k).windowRuns = true →
    (s.port k).meter.timeRemaining = 0 → (s.port k).meter.installed = some i →
    let u := evaluate k (s.windowRenewed k i)
    ∃ t, exec (.windowClose k) s = .next t ∧
      t = { s with ports := t.ports, notices := t.notices, internalList := t.internalList } ∧
      (∀ j, j ≠ k → t.port j = s.port j) ∧
      t.port k = { u.port k with
        queue := (t.port k).queue, controller := (t.port k).controller, load := (t.port k).load
        toWriter := (t.port k).toWriter
        meter := { (u.port k).meter with
          claim := (t.port k).meter.claim
          counters := { (u.port k).meter.counters with
            forced := (t.port k).meter.counters.forced } } } ∧
      (t.port k).meter.snapshot =
        snapshotAtEnd (s.port k) i false (missesLowMark i (s.port k).meter) ∧
      (t.port k).meter.seqNo = (s.port k).meter.seqNo + 1 ∧
      (t.port k).meter.timeRemaining = i.profile.windowLength ∧
      (t.port k).meter.windowRunning = true ∧ (t.port k).meter.installed = some i ∧
      (t.port k).toWriter = (s.port k).toWriter ++ reportOf k i (t.port k).meter.snapshot ∧
      (∃ claims : List PoolMessage, (∀ m ∈ claims, ∃ n, m = .claim n) ∧
        (t.port k).toPool = (s.port k).toPool ++ donationAtClose i (s.port k).meter ++ claims) ∧
      (t.port k).queue.map QueueEntry.request = (s.port k).queue.map QueueEntry.request ∧
      (t.port k).answers = (s.port k).answers ∧ (t.port k).fallback = (s.port k).fallback ∧
      (t.port k).resetAsserted = (s.port k).resetAsserted ∧
      (AllAdmitted (s.port k).queue →
        (t.port k).queue = (s.port k).queue ∧
        (t.port k).meter.counters = ⟨0, 0, 0, 0, 0, 0, 0, 0, 0⟩ ∧ (t.port k).meter.highSeen = false ∧
        (t.port k).meter.claim = staled (s.port k).meter.claim ∧
        (i.profile.mode = .cap → (t.port k).meter.used = 0) ∧
        (i.profile.mode = .bucket → (t.port k).meter.credit =
          min ((s.port k).meter.credit + i.profile.budget) i.profile.ceiling))

/-- R10, R37: what a close does to the queue after its re-evaluation. The count of every entry still WAITING
rises by one, up to 15; exactly those whose count then reaches a max_hold that is not 0 are admitted, without
debit, their beats counted as forced; a claim for the first of them becomes stale; and with N_FORCED set one
FORCED notice carries their number. Every other entry stays as it is. No request leaves or changes its place. -/
def Obligations.WindowCloseAppliesTheHoldLimit : Prop :=
  ∀ (s : State) (k : Port) (i : Installed), s.operating = true → (s.port k).windowRuns = true →
    (s.port k).meter.timeRemaining = 0 → (s.port k).meter.installed = some i →
    let u := evaluate k (s.windowRenewed k i)
    let aged := (u.port k).queue.map fun e =>
      if e.status = .waiting then { e with heldCloses := min (e.heldCloses + 1) 15 } else e
    let reached (e : QueueEntry) : Bool := decide
      (e.status = .waiting ∧ i.profile.maxHold ≠ 0 ∧ i.profile.maxHold ≤ e.heldCloses)
    let released := aged.filter reached
    let raised := if released ≠ [] ∧ i.profile.flags.nForced = true then u.notices.submit
        { kind := .forced, port := some k, seqNo := (s.port k).meter.seqNo + 1, index := i.index,
          detail := min released.length 65535 }
      else u.notices
    let c := (s.port k).controller
    let dwellEnds : Prop := c.portState = .active ∧ c.loadInFlight = false ∧ c.dwellCounting = true ∧
      i.profile.flags.link = false ∧ i.profile.flags.nDwell = true
    ∃ t, exec (.windowClose k) s = .next t ∧ (t.port k).queue.length = (s.port k).queue.length ∧
      (t.port k).queue = aged.map (fun e => if reached e then { e with status := .admitted } else e) ∧
      (t.port k).meter.counters = { (u.port k).meter.counters with
        forced := min ((u.port k).meter.counters.forced +
          (released.map fun e => e.request.beats).sum) 16777215 } ∧
      (∀ run e rest, aged = run ++ e :: rest → AllAdmitted run → e.status = .waiting →
        (t.port k).meter.claim =
          if reached e then staled (u.port k).meter.claim else (u.port k).meter.claim) ∧
      (AllAdmitted aged → (t.port k).meter.claim = (u.port k).meter.claim) ∧
      (¬ dwellEnds ∨ 2 ≤ c.dwellRemaining → t.notices = raised) ∧
      (dwellEnds → c.dwellRemaining = 1 → t.notices = raised.submit
        { kind := .dwellEnd, port := some k, seqNo := (s.port k).meter.seqNo + 1, index := i.index,
          detail := 0 }) ∧
      ∀ (n : Nat) (e e' : QueueEntry), (s.port k).queue[n]? = some e → (t.port k).queue[n]? = some e' →
        e'.request = e.request ∧ (e.status = .admitted → e' = e) ∧
        (e'.status = .waiting → e.status = .waiting ∧ e'.heldCloses = min (e.heldCloses + 1) 15 ∧
          (i.profile.maxHold ≠ 0 → e'.heldCloses < i.profile.maxHold))

/-- R85, R86: what a close does to the dwell. Frozen or not counting, it stays. Above 1 it falls by one. At 1
it stops at 0, and with LINK set a load of the next index starts, from the table base as it stands, the port
entering LOADING; with LINK clear the profile stays, and with N_DWELL set a DWELL_END notice is submitted
last, with the number of the window begun. -/
def Obligations.WindowCloseStepsTheDwell : Prop :=
  ∀ (s : State) (k : Port) (i : Installed), s.operating = true → (s.port k).windowRuns = true →
    (s.port k).meter.timeRemaining = 0 → (s.port k).meter.installed = some i →
    ∃ t, exec (.windowClose k) s = .next t ∧
      ((s.port k).controller.portState ≠ .active ∨ (s.port k).controller.loadInFlight = true ∨
          (s.port k).controller.dwellCounting = false →
        (t.port k).controller = (s.port k).controller ∧ (t.port k).load = (s.port k).load ∧
        t.internalList = s.internalList) ∧
      ((s.port k).controller.portState = .active → (s.port k).controller.loadInFlight = false →
        (s.port k).controller.dwellCounting = true →
        (2 ≤ (s.port k).controller.dwellRemaining →
          (t.port k).controller = { (s.port k).controller with
            dwellRemaining := (s.port k).controller.dwellRemaining - 1 } ∧
          (t.port k).load = (s.port k).load ∧ t.internalList = s.internalList) ∧
        ((s.port k).controller.dwellRemaining = 1 → i.profile.flags.link = true →
          (t.port k).controller = { (s.port k).controller with
            dwellRemaining := 0, dwellCounting := false, loadInFlight := true, cancelledLoad := false,
            portState := .loading } ∧
          (t.port k).load =
            some ⟨i.profile.nextIndex, s.tableBase + 32 * i.profile.nextIndex.zeroExtend 40⟩ ∧
          t.internalList = s.internalList ++
            [.load k (s.tableBase + 32 * i.profile.nextIndex.zeroExtend 40)]) ∧
        ((s.port k).controller.dwellRemaining = 1 → i.profile.flags.link = false →
          (t.port k).controller = { (s.port k).controller with
            dwellRemaining := 0, dwellCounting := false } ∧
          (t.port k).load = (s.port k).load ∧ t.internalList = s.internalList ∧
          (i.profile.flags.nDwell = true → ∃ q : NoticeQueue, t.notices = q.submit
            { kind := .dwellEnd, port := some k, seqNo := (s.port k).meter.seqNo + 1, index := i.index,
              detail := 0 })))

/-- R31: a grant of a current claim admits the entry under claim, exhausts the allowance, counts the whole
length as metered and the shortfall as borrowed, may cross the high mark, and the meter goes on evaluating
behind it. -/
def Obligations.GrantAdmitsTheEntryUnderClaim : Prop :=
  ∀ (s : State) (k : Port) (i : Installed) (n : Nat) (later : List ClaimAnswer)
    (run : List QueueEntry) (e : QueueEntry) (rest : List QueueEntry),
    s.operating = true → (s.port k).windowRuns = true → (s.port k).meter.installed = some i →
    (s.port k).meter.claim = some ⟨n, true⟩ → (s.port k).answers = .grant :: later →
    (s.port k).queue = run ++ e :: rest → AllAdmitted run → e.status = .waiting →
    exec (.claimAnswerTaken k) s =
      .next (evaluate k ((s.setPort k { s.port k with answers := later }).withAdmission k i
        (granted i n (s.port k).meter e.request) (run ++ { e with status := .admitted } :: rest)))

/-- R29, R31, R32: a refusal of a current claim refuses the entry under claim, marked and counted once, and
the allowance is unchanged. The answer to a stale claim clears the claim record and nothing else, and the
meter then evaluates. An answer for which no claim is held is discarded in the same way; that the
meter evaluates after it is the model's choice (log entry 11). -/
def Obligations.RefusedAndStaleAnswers : Prop :=
  ∀ (s : State) (k : Port) (a : ClaimAnswer) (later : List ClaimAnswer), s.operating = true →
    (s.port k).answers = a :: later →
    (∀ (i : Installed) (n : Nat) (run : List QueueEntry) (e : QueueEntry) (rest : List QueueEntry),
      a = .refusal → (s.port k).meter.installed = some i →
      (s.port k).meter.claim = some ⟨n, true⟩ → (s.port k).queue = run ++ e :: rest →
      AllAdmitted run → e.status = .waiting →
      exec (.claimAnswerTaken k) s =
        .next (s.setPort k { s.port k with
          answers := later, queue := run ++ { e with refusedOnce := true } :: rest
          meter := { (s.port k).meter with
            claim := none
            counters := { (s.port k).meter.counters with
              refused := if e.refusedOnce then (s.port k).meter.counters.refused
                else min ((s.port k).meter.counters.refused + 1) 65535 } } })) ∧
    ((∀ c, (s.port k).meter.claim = some c → c.current = false) →
      exec (.claimAnswerTaken k) s =
        .next (evaluate k (s.setPort k { s.port k with
          answers := later, meter := { (s.port k).meter with claim := none } })))

/-! ## Credit pool (03) -/

/-- R53: a donation of d beats sets the level to the smaller of level + d and the limit; the sum does not
wrap; no answer goes back, and no meter evaluates. -/
def Obligations.DonationRaisesTheLevelToTheLimit : Prop :=
  ∀ (s : State) (k : Port) (d : Nat) (later : List PoolMessage), s.operating = true →
    (s.port k).toPool = .donation d :: later →
    exec (.donationTaken k) s =
      .next { s.setPort k { s.port k with toPool := later } with
        pool := ⟨min (s.pool.level + d) s.pool.limit, s.pool.limit⟩ }

/-- R54: a claim of n beats is granted whole, the level falling by n, if the level is at least n, and refused
with the level unchanged otherwise. The answer goes back to the meter, and nothing else changes. -/
def Obligations.ClaimIsGrantedWholeOrRefused : Prop :=
  ∀ (s : State) (k : Port) (n : Nat) (later : List PoolMessage), s.operating = true →
    (s.port k).toPool = .claim n :: later →
    (n ≤ s.pool.level → exec (.claimTaken k) s =
      .next { s.setPort k { s.port k with
          toPool := later, answers := (s.port k).answers ++ [.grant] } with
        pool := ⟨s.pool.level - n, s.pool.limit⟩ }) ∧
    (s.pool.level < n → exec (.claimTaken k) s =
      .next (s.setPort k { s.port k with
        toPool := later, answers := (s.port k).answers ++ [.refusal] }))

/-! ## Report writer (08) -/

/-- R149, R150, R152, R153: what the report writer does with a submission. In OFF and HALT it is dropped; in RUN
with 8 records queued it is dropped and counted against its port, up to 255; otherwise it joins the queue and
carries the gap count away. Behind other records, or while a write is in flight, it waits. As the only record
it is judged at once: with room in the ring its write starts, to the slot the producer index names; on a full
ring the writer waits and announces the episode once. The write carries the 64 bytes of R187, in four beats with
every byte enabled (the enables are the model's choice, log entry 12). -/
def Obligations.ReportIsQueuedCountedOrDropped : Prop :=
  ∀ (s : State) (k : Port) (r : Report) (later : List Report), s.operating = true →
    (s.port k).toWriter = r :: later →
    let s' := s.setPort k { s.port k with toWriter := later }
    let w : ReportWriter := { s.writer with
      queue := s.writer.queue ++ [{ r with gapCount := s.writer.gapCount.get r.port }]
      gapCount := s.writer.gapCount.set r.port 0 }
    (s.writer.ring ≠ .run → exec (.reportSubmission k) s = .next s') ∧
    (s.writer.ring = .run → 8 ≤ s.writer.queue.length →
      exec (.reportSubmission k) s = .next { s' with writer := { s.writer with
        gapCount := s.writer.gapCount.set r.port (min (s.writer.gapCount.get r.port + 1) 255) } }) ∧
    (s.writer.ring = .run → s.writer.queue.length < 8 →
      (s.writer.queue ≠ [] ∨ s.writer.writeInFlight = true →
        exec (.reportSubmission k) s = .next { s' with writer := w }) ∧
      (s.writer.queue = [] → s.writer.writeInFlight = false →
        (s.writer.producer - s.writer.consumer).toNat < s.writer.size →
        exec (.reportSubmission k) s = .next { s' with
          writer := { w with writeInFlight := true }
          internalList := s.internalList ++
            [.report (s.writer.base + BitVec.ofNat 40 (64 * (s.writer.producer.toNat % s.writer.size)))
              (beatsOfReport { r with gapCount := s.writer.gapCount.get r.port })] }) ∧
      (s.writer.queue = [] → s.writer.writeInFlight = false →
        s.writer.size ≤ (s.writer.producer - s.writer.consumer).toNat →
        exec (.reportSubmission k) s = .next { s' with
          writer := { w with fullEpisode := true }
          notices := if s.writer.fullEpisode then s.notices else s.notices.submit
            { kind := .ringFull, port := none, seqNo := 0, index := 0xFF,
              detail := s.writer.producer.toNat } })) ∧
    let w := r.window
    let two (n : Nat) : List Byte := [BitVec.ofNat 8 n, BitVec.ofNat 8 (n / 256)]
    let four (n : Nat) : List Byte := two n ++ two (n / 65536)
    let bytes : List Byte :=
      [portByte r.port,
        BitVec.ofNat 8 (w.flags.partialEnd.toNat + 2 * w.flags.high.toNat + 4 * w.flags.low.toNat +
          8 * w.flags.fallback.toNat),
        BitVec.ofNat 8 (codeOfSource w.source), BitVec.ofNat 8 (codeOfMode w.mode)] ++
      four w.seqNo.toNat ++ [w.index, BitVec.ofNat 8 r.gapCount] ++ two w.endAllowance ++
      four w.counters.meteredRead ++ four w.counters.meteredWrite ++ four w.counters.unmetered ++
      four w.counters.forced ++ four w.counters.borrowed ++ two w.counters.refused ++
      two w.counters.timeouts ++ two w.counters.errors ++ two w.counters.maxLatency ++
      List.replicate 24 0
    (beatsOfReport r).length = 4 ∧ bytes.length = 64 ∧
      ∀ n j, n < 4 → j < 16 → ∃ beat, (beatsOfReport r)[n]? = some beat ∧ beat.enables = 0xFFFF ∧
        bytes[16 * n + j]? = some (beat.data.extractLsb' (8 * j) 8)

/-! ## Issue and the in-flight table (06) -/

/-- R113 to R116: with the memory port ready, a free internal entry and an item waiting, the internal
requester is granted ahead of every port. The item at the head of the list takes the lower-numbered FREE tag
of 62 and 63, with a deadline exactly while the setting is not 0, and goes out. The round-robin pointer, and
everything else, stays. -/
def Obligations.InternalRequesterIsGrantedFirst : Prop :=
  ∀ (s : State) (item : InternalItem) (rest : List InternalItem), s.operating = true →
    s.memoryPort = none → s.internalList = item :: rest → (s.table[62] = none ∨ s.table[63] = none) →
    let tag : Fin 64 := if s.table[62] = none then 62 else 63
    let t : Transaction := match item with
      | .load _ address => ⟨.read, address, 2, [], tag⟩
      | .report address data => ⟨.write, address, 4, data, tag⟩
    exec .issueGrant s = .next { s with
      internalList := rest
      table := s.table.set tag.val (some
        { state := .live
          owner := match item with
            | .load k _ => .load k
            | .report _ _ => .report
          kind := t.kind, beats := t.beats, issueTime := s.ticks
          deadline := if s.link.timeout = 0 then none
            else some (s.ticks + 256 * s.link.timeout.zeroExtend 32) })
      memoryPort := some t
      outputs := s.outputs ++ [.sent t] }

/-- R12, R98, R112 to R116: with the memory port ready and the internal requester no candidate, the first
candidate port in turn from the round-robin pointer is granted. Its ADMITTED head leaves, the drain record is
updated, and the transaction takes the lowest-numbered FREE tag from 0 to 61 and goes out unchanged. The
pointer moves on past the port. With no candidate at all nothing changes. -/
def Obligations.PortsAreGrantedInTurn : Prop :=
  ∀ s : State, s.operating = true → s.memoryPort = none →
    (s.internalList = [] ∨ (s.table[62] ≠ none ∧ s.table[63] ≠ none)) →
    let candidate (k : Port) : Prop :=
      (∃ e rest, (s.port k).queue = e :: rest ∧ e.status = .admitted) ∧
        (s.heldCount k < 4 ∨ s.sharedInUse < 46)
    (∀ (k : Port) (e : QueueEntry) (rest : List QueueEntry) (tag : Fin 64),
      (s.port k).queue = e :: rest → candidate k →
      (∀ before after, roundFrom s.roundRobin = before ++ k :: after → ∀ j ∈ before, ¬ candidate j) →
      tag.val < 62 → s.table[tag.val] = none →
      (∀ lower : Fin 64, lower < tag → s.table[lower.val] ≠ none) →
      exec .issueGrant s = .next { s with
        ports := s.ports.set k { s.port k with
          queue := rest
          controller := { (s.port k).controller with
            drain := (s.port k).controller.drain.map fun d =>
              if 0 < d.ahead then ⟨d.ahead - 1, d.drained⟩ else ⟨d.ahead, d.drained + 1⟩ } }
        table := s.table.set tag.val (some
          { state := .live, owner := .port k e.request.tag, kind := e.request.kind,
            beats := e.request.beats, issueTime := s.ticks
            deadline := if s.link.timeout = 0 then none
              else some (s.ticks + 256 * s.link.timeout.zeroExtend 32) })
        roundRobin := match k with
          | .rp0 => .rp1
          | .rp1 => .rp2
          | .rp2 => .rp3
          | .rp3 => .rp0
        memoryPort := some ⟨e.request.kind, e.request.address, e.request.beats, e.request.data, tag⟩
        outputs := s.outputs ++
          [.sent ⟨e.request.kind, e.request.address, e.request.beats, e.request.data, tag⟩] }) ∧
    ((∀ k, ¬ candidate k) → exec .issueGrant s = .next s)

/-- R14, R15, R35, R99, R120: the answer to a LIVE entry of a port returns the completion with the requester
tag, the status and for a READ the data; it is counted with its latency, a difference of the tick count, while a
window runs; the entry is freed; and a DRAINING port with nothing left becomes QUIET, with its QUIESCED notice.
The latency as a difference modulo 2^32, the detail 0 without a drain record, and data handed on in whatever
number of beats came are the model's choice (log entries 9, 19 and 25). -/
def Obligations.AnswerCompletesAPortTransaction : Prop :=
  ∀ (s : State) (tag : Fin 64) (f : InFlight) (k : Port) (rtag : Fin 32) (status : AnswerStatus)
    (data : List Beat), s.operating = true → s.table[tag.val] = some f → f.state = .live →
    f.owner = .port k rtag →
    ∃ t, exec (.memoryAnswer tag status data) s = .next t ∧
      t = { s with ports := t.ports, table := s.table.set tag.val none, notices := t.notices
                   outputs := s.outputs ++ [.completion k rtag
                     (match status with
                       | .ok => .ok
                       | .error => .error)
                     (match f.kind with
                       | .read => data
                       | .write => [])] } ∧
      (∀ j, j ≠ k → t.port j = s.port j) ∧
      t.port k = { s.port k with
        controller := (t.port k).controller
        meter := if (s.port k).windowRuns then
            { (s.port k).meter with counters := { (s.port k).meter.counters with
              maxLatency := max (s.port k).meter.counters.maxLatency
                (min (s.ticks - f.issueTime).toNat 65535)
              errors := match status with
                | .ok => (s.port k).meter.counters.errors
                | .error => min ((s.port k).meter.counters.errors + 1) 65535 } }
          else (s.port k).meter } ∧
      ((s.port k).controller.portState = .draining ∧ (s.port k).queue = [] ∧ t.liveCount k = 0 →
        (t.port k).controller = { (s.port k).controller with portState := .quiet, drain := none } ∧
        t.notices = s.notices.submit
          { kind := .quiesced, port := some k, seqNo := (s.port k).meter.seqNo,
            index := (s.port k).meter.index,
            detail := match (s.port k).controller.drain with
              | some d => min d.drained 65535
              | none => 0 }) ∧
      (¬ ((s.port k).controller.portState = .draining ∧ (s.port k).queue = [] ∧ t.liveCount k = 0) →
        (t.port k).controller = (s.port k).controller ∧ t.notices = s.notices)

/-- R82, R119: an answer to a FREE entry is discarded, and nothing changes. An answer to an ORPHAN is
discarded and frees the entry; a port entry's drain condition, which such an entry never held back, does not
change where the port is not at its end. The result of a cancelled load, whatever it is, data, an
error or a deadline, ends the load and changes nothing else at the port. -/
def Obligations.DiscardedAnswers : Prop :=
  ∀ (s : State) (tag : Fin 64) (status : AnswerStatus) (data : List Beat), s.operating = true →
    (s.table[tag.val] = none → exec (.memoryAnswer tag status data) s = .next s) ∧
    (∀ f, s.table[tag.val] = some f → f.state = .orphan →
      (∀ k, f.owner.portOf = some k → (s.port k).controller.portState = .draining →
        (s.port k).queue ≠ [] ∨ s.liveCount k ≠ 0) →
      exec (.memoryAnswer tag status data) s = .next { s with table := s.table.set tag.val none }) ∧
    (∀ f k, s.table[tag.val] = some f → f.state = .live → f.owner = .load k →
      (s.port k).load.isSome = true → (s.port k).controller.cancelledLoad = true →
      exec (.memoryAnswer tag status data) s =
        .next ({ s with table := s.table.set tag.val none }.setPort k { s.port k with
          load := none
          controller := { (s.port k).controller with loadInFlight := false, cancelledLoad := false } }) ∧
      (s.Due (.completionDeadline tag) → exec (.completionDeadline tag) s =
        .next ({ s with table := s.table.set tag.val (some { f with state := .orphan, deadline := none })
          }.setPort k { s.port k with
            load := none
            controller := { (s.port k).controller with
              loadInFlight := false, cancelledLoad := false } })))

/-- R41 to R43, R72 to R74, R76, R77, R84, R186: the 32 bytes of a record, those of its two beats in address
order, are validated in order: the format tag, the check sum over the sixteen halfwords, the field ranges; the
fields lie at their offsets, and what is unused is not kept. An accepted record is installed. The window that
runs ends early, with PARTIAL and a report if the outgoing profile reports; the record becomes the installed
copy with source TABLE and the index of the load; a window starts with the next number; the dwell is loaded;
the load is over and the port is ACTIVE; the meter evaluates the state in which the window has begun; and with
N_INSTALL set an INSTALLED notice is submitted last. Where nothing is WAITING or a claim is outstanding, the
allowance is the new profile's whole one and nothing is counted. For an answer of another number of beats than two,
the bytes it did not carry are free and those past the 32nd are not looked at: the model's choice (log entry 4). -/
def Obligations.AcceptedRecordIsInstalled : Prop :=
  (∀ (first second : Beat) (n : Nat), n < 16 →
    (bytesOfRecordRead [first, second]).length = 32 ∧
    (bytesOfRecordRead [first, second])[n]? = some (first.extractLsb' (8 * n) 8) ∧
    (bytesOfRecordRead [first, second])[16 + n]? = some (second.extractLsb' (8 * n) 8)) ∧
  (∀ (format mode scope maxHold next : Byte)
    (window budget ceiling high low flags dwell check : BitVec 16) (unused : List Byte),
    unused.length = 11 →
    let two (w : BitVec 16) : List Byte := [w.extractLsb' 0 8, w.extractLsb' 8 8]
    let bytes := [format, mode, scope, maxHold] ++ two window ++ two budget ++ two ceiling ++ two high ++
      two low ++ two flags ++ two dwell ++ [next] ++ unused ++ two check
    let sum := ((List.range 16).map fun n =>
      (bytes.getD (2 * n) 0).toNat + 256 * (bytes.getD (2 * n + 1) 0).toNat).sum % 65536
    let fails : Prop := 3 ≤ mode.toNat ∨ scope.toNat = 0 ∨ 4 ≤ scope.toNat ∨ window.toNat < 16 ∨
      ((mode = 1 ∨ mode = 2) ∧ budget = 0) ∨ (mode = 2 ∧ ceiling.toNat < budget.toNat) ∨
      16 ≤ maxHold.toNat
    (format ≠ 0xB6 → validateRecord bytes = .error .badFormat) ∧
    (format = 0xB6 → sum ≠ 0 → validateRecord bytes = .error .badCheck) ∧
    (format = 0xB6 → sum = 0 → fails → validateRecord bytes = .error .badField) ∧
    (format = 0xB6 → sum = 0 → ¬ fails → validateRecord bytes = .ok
      { mode := if mode = 0 then .observe else if mode = 1 then .cap else .bucket
        scope := if scope = 1 then .reads else if scope = 2 then .writes else .both
        windowLength := window.toNat, budget := budget.toNat, ceiling := ceiling.toNat
        highMark := high.toNat, lowMark := low.toNat, maxHold := maxHold.toNat
        flags := ⟨flags.getLsbD 0, flags.getLsbD 1, flags.getLsbD 2, flags.getLsbD 3,
          flags.getLsbD 4, flags.getLsbD 5, flags.getLsbD 6, flags.getLsbD 7, flags.getLsbD 8⟩
        dwell := dwell.toNat, nextIndex := next })) ∧
  ∀ (s : State) (tag : Fin 64) (f : InFlight) (k : Port) (ctx : LoadContext) (data : List Beat)
    (p : Profile), s.operating = true → s.table[tag.val] = some f → f.state = .live →
    f.owner = .load k → (s.port k).load = some ctx → (s.port k).controller.cancelledLoad = false →
    validateRecord (bytesOfRecordRead data) = .ok p → (s.port k).controller.portState = .loading →
    let u := evaluate k
      ({ s with table := s.table.set tag.val none }.windowInstalled k ⟨p, ctx.index, .table⟩)
    ∃ t, exec (.memoryAnswer tag .ok data) s = .next t ∧
      t = { s with ports := t.ports, notices := t.notices, table := s.table.set tag.val none } ∧
      (∀ j, j ≠ k → t.port j = s.port j) ∧
      t.port k = { u.port k with load := none, controller := (t.port k).controller } ∧
      t.notices = (if p.flags.nInstall = true then u.notices.submit
        { kind := .installed, port := some k, seqNo := (s.port k).meter.seqNo + 1, index := ctx.index,
          detail := ctx.index.toNat } else u.notices) ∧
      (t.port k).controller = { (s.port k).controller with
        portState := .active, dwellRemaining := p.dwell, dwellCounting := decide (p.dwell ≠ 0),
        loadInFlight := false, cancelledLoad := false, fallbackInUse := false } ∧
      (t.port k).load = none ∧ (t.port k).meter.installed = some ⟨p, ctx.index, .table⟩ ∧
      (t.port k).meter.windowRunning = true ∧ (t.port k).meter.timeRemaining = p.windowLength ∧
      (t.port k).meter.seqNo = (s.port k).meter.seqNo + 1 ∧
      (∀ i, (s.port k).meter.installed = some i → (s.port k).windowRuns = true →
        (t.port k).meter.snapshot = snapshotAtEnd (s.port k) i true false ∧
        (t.port k).toWriter = (s.port k).toWriter ++ reportOf k i (t.port k).meter.snapshot) ∧
      ((s.port k).windowRuns = false →
        (t.port k).meter.snapshot = (s.port k).meter.snapshot ∧
        (t.port k).toWriter = (s.port k).toWriter) ∧
      (t.port k).queue.map QueueEntry.request = (s.port k).queue.map QueueEntry.request ∧
      (AllAdmitted (s.port k).queue ∨ (s.port k).meter.claim.isSome = true →
        (t.port k).queue = (s.port k).queue ∧ (t.port k).toPool = (s.port k).toPool ∧
        (t.port k).meter.counters = ⟨0, 0, 0, 0, 0, 0, 0, 0, 0⟩ ∧ (t.port k).meter.used = 0 ∧
        (t.port k).meter.credit = (if p.mode = .bucket then p.ceiling else 0))

/-- R71, R72, R78, R79, R121, R123: how a fault of a load is handled, whether the memory answered ERROR, the
record failed its validation, or the deadline passed. With a valid fallback, its fields are installed with dwell
0, source FALLBACK and the index of the load, as a record is: the window that runs ends early with its PARTIAL
snapshot and report, a window begins, and the meter evaluates; the dwell stops, and the port is ACTIVE. Without
one, the port returns to its prior regime: to ACTIVE with its profile, window and dwell as they stood, or to
PASS with every WAITING entry admitted. In each case the load is over, and PROFILE_FAULT is submitted last, with
the reason and whether the fallback was used. What a record is for an answer of another number of beats than two is
the model's choice (log entry 4). -/
def Obligations.LoadFaultInstallsTheFallbackOrReturns : Prop :=
  ∀ (s : State) (tag : Fin 64) (f : InFlight) (k : Port) (ctx : LoadContext) (c : Instr)
    (reason : FaultReason) (entry : Option InFlight), s.operating = true →
    s.table[tag.val] = some f → f.state = .live → f.owner = .load k → (s.port k).load = some ctx →
    (s.port k).controller.cancelledLoad = false → (s.port k).controller.portState = .loading →
    ((∃ data, c = .memoryAnswer tag .error data ∧ reason = .memoryError ∧ entry = none) ∨
      (∃ data, c = .memoryAnswer tag .ok data ∧ entry = none ∧
        validateRecord (bytesOfRecordRead data) = .error reason) ∨
      (c = .completionDeadline tag ∧ s.Due c ∧ reason = .timeout ∧
        entry = some { f with state := .orphan, deadline := none })) →
    let u := evaluate k ({ s with table := s.table.set tag.val entry }.windowInstalled k
      ⟨{ (s.port k).fallback.fields with dwell := 0 }, ctx.index, .fallback⟩)
    ∃ t, exec c s = .next t ∧
      t = { s with ports := t.ports, notices := t.notices, table := s.table.set tag.val entry } ∧
      (∀ j, j ≠ k → t.port j = s.port j) ∧ (t.port k).load = none ∧
      (t.port k).controller.loadInFlight = false ∧ (t.port k).controller.cancelledLoad = false ∧
      (t.port k).fallback = (s.port k).fallback ∧
      ((s.port k).fallback.valid = true →
        t.port k = { u.port k with load := none, controller := (t.port k).controller } ∧
        t.notices = u.notices.submit
          { kind := .profileFault, port := some k, seqNo := (s.port k).meter.seqNo + 1,
            index := ctx.index, detail := codeOfReason reason + 256 } ∧
        (t.port k).meter.installed =
          some ⟨{ (s.port k).fallback.fields with dwell := 0 }, ctx.index, .fallback⟩ ∧
        (t.port k).controller = { (s.port k).controller with
          portState := .active, dwellRemaining := 0, dwellCounting := false, loadInFlight := false,
          cancelledLoad := false, fallbackInUse := true } ∧
        (t.port k).meter.windowRunning = true ∧
        (t.port k).meter.timeRemaining = (s.port k).fallback.fields.windowLength ∧
        (t.port k).meter.seqNo = (s.port k).meter.seqNo + 1 ∧
        (∀ i, (s.port k).meter.installed = some i → (s.port k).windowRuns = true →
          (t.port k).meter.snapshot = snapshotAtEnd (s.port k) i true false ∧
          (t.port k).toWriter = (s.port k).toWriter ++ reportOf k i (t.port k).meter.snapshot) ∧
        ((s.port k).windowRuns = false →
          (t.port k).meter.snapshot = (s.port k).meter.snapshot ∧
          (t.port k).toWriter = (s.port k).toWriter) ∧
        (AllAdmitted (s.port k).queue ∨ (s.port k).meter.claim.isSome = true →
          (t.port k).queue = (s.port k).queue ∧ (t.port k).toPool = (s.port k).toPool ∧
          (t.port k).meter.counters = ⟨0, 0, 0, 0, 0, 0, 0, 0, 0⟩ ∧ (t.port k).meter.used = 0 ∧
          (t.port k).meter.credit = (if (s.port k).fallback.fields.mode = .bucket
            then (s.port k).fallback.fields.ceiling else 0))) ∧
      ((s.port k).fallback.valid = false → ∀ i, (s.port k).meter.installed = some i →
        t.port k = { s.port k with
          load := none
          controller := { (s.port k).controller with
            portState := .active, loadInFlight := false, cancelledLoad := false } } ∧
        t.notices = s.notices.submit
          { kind := .profileFault, port := some k, seqNo := (s.port k).meter.seqNo, index := i.index,
            detail := codeOfReason reason }) ∧
      ((s.port k).fallback.valid = false → (s.port k).meter.installed = none →
        t.port k = { s.port k with
          load := none
          queue := (s.port k).queue.map fun e => { e with status := .admitted }
          meter := { (s.port k).meter with claim := staled (s.port k).meter.claim }
          controller := { (s.port k).controller with
            portState := .pass, loadInFlight := false, cancelledLoad := false } } ∧
        t.notices = s.notices.submit
          { kind := .profileFault, port := some k, seqNo := (s.port k).meter.seqNo, index := 0xFF,
            detail := codeOfReason reason })

/-- R121, R123, R152, R154, R156: the OK result of a report write frees the entry, clears the write-in-flight flag
and raises the producer index; the written record leaves a running ring's queue. With a record behind it, and
room left in the ring, the next write starts at once; on a full ring the writer waits and announces the episode
once. An ERROR result or a deadline halts the ring, discards the queue into the gap counts and submits
REPORT_FAULT with its cause. The data of a write are those ReportIsQueuedCountedOrDropped states. -/
def Obligations.WriteResultAdvancesOrHaltsTheRing : Prop :=
  ∀ (s : State) (tag : Fin 64) (f : InFlight), s.operating = true → s.table[tag.val] = some f →
    f.state = .live → f.owner = .report →
    (∀ data, s.writer.ring ≠ .run ∨ s.writer.queue.length ≤ 1 →
      exec (.memoryAnswer tag .ok data) s = .next { s with
        table := s.table.set tag.val none
        writer := { s.writer with
          writeInFlight := false, producer := s.writer.producer + 1
          queue := if s.writer.ring = .run then [] else s.writer.queue } }) ∧
    (∀ (data : List Beat) (written r : Report) (rest : List Report), s.writer.ring = .run →
      s.writer.queue = written :: r :: rest →
      let w : ReportWriter := { s.writer with
        writeInFlight := false, producer := s.writer.producer + 1, queue := r :: rest }
      ((w.producer - w.consumer).toNat < w.size →
        exec (.memoryAnswer tag .ok data) s = .next { s with
          table := s.table.set tag.val none
          writer := { w with writeInFlight := true }
          internalList := s.internalList ++
            [.report (w.base + BitVec.ofNat 40 (64 * (w.producer.toNat % w.size))) (beatsOfReport r)] }) ∧
      (w.size ≤ (w.producer - w.consumer).toNat →
        exec (.memoryAnswer tag .ok data) s = .next { s with
          table := s.table.set tag.val none
          writer := { w with fullEpisode := true }
          notices := if w.fullEpisode then s.notices else s.notices.submit
            { kind := .ringFull, port := none, seqNo := 0, index := 0xFF,
              detail := w.producer.toNat } })) ∧
    (∀ (c : Instr) (cause : FaultReason) (entry : Option InFlight),
      ((∃ data, c = .memoryAnswer tag .error data ∧ cause = .memoryError ∧ entry = none) ∨
        (c = .completionDeadline tag ∧ s.Due c ∧ cause = .timeout ∧
          entry = some { f with state := .orphan, deadline := none })) →
      ∃ t, exec c s = .next t ∧
        t = { s with
          table := s.table.set tag.val entry
          writer := { s.writer with
            writeInFlight := false, ring := .halt, queue := [], gapCount := t.writer.gapCount,
            fullEpisode := false }
          notices := s.notices.submit
            { kind := .reportFault, port := none, seqNo := 0, index := 0xFF,
              detail := codeOfReason cause } } ∧
        ∀ k, s.writer.gapCount.get k ≤ 255 → t.writer.gapCount.get k =
          min (s.writer.gapCount.get k + s.writer.queue.countP fun r => r.port == k) 255)

/-- R15, R35, R122: the deadline of a LIVE entry of a port makes it an ORPHAN without a deadline, returns
TIMEOUT with a zero beat per beat of a READ, is counted while a window runs, and submits COMPLETION_TIMEOUT; a
DRAINING port with nothing left then becomes QUIET, with its QUIESCED notice behind. Its detail 0 without a drain
record is the model's choice (log entry 19). -/
def Obligations.DeadlineTimesOutAPortTransaction : Prop :=
  ∀ (s : State) (tag : Fin 64) (f : InFlight) (k : Port) (rtag : Fin 32), s.operating = true →
    s.table[tag.val] = some f → s.Due (.completionDeadline tag) → f.owner = .port k rtag →
    let n : Notice := { kind := .completionTimeout, port := some k, seqNo := (s.port k).meter.seqNo,
                        index := (s.port k).meter.index, detail := rtag.val }
    ∃ t, exec (.completionDeadline tag) s = .next t ∧
      t = { s with
        ports := t.ports, notices := t.notices
        table := s.table.set tag.val (some { f with state := .orphan, deadline := none })
        outputs := s.outputs ++ [.completion k rtag .timeout
          (match f.kind with
            | .read => List.replicate f.beats 0
            | .write => [])] } ∧
      (∀ j, j ≠ k → t.port j = s.port j) ∧
      t.port k = { s.port k with
        controller := (t.port k).controller
        meter := if (s.port k).windowRuns then
            { (s.port k).meter with counters := { (s.port k).meter.counters with
              timeouts := min ((s.port k).meter.counters.timeouts + 1) 65535 } }
          else (s.port k).meter } ∧
      ((s.port k).controller.portState = .draining ∧ (s.port k).queue = [] ∧ t.liveCount k = 0 →
        (t.port k).controller = { (s.port k).controller with portState := .quiet, drain := none } ∧
        t.notices = (s.notices.submit n).submit
          { kind := .quiesced, port := some k, seqNo := (s.port k).meter.seqNo,
            index := (s.port k).meter.index,
            detail := match (s.port k).controller.drain with
              | some d => min d.drained 65535
              | none => 0 }) ∧
      (¬ ((s.port k).controller.portState = .draining ∧ (s.port k).queue = [] ∧ t.liveCount k = 0) →
        (t.port k).controller = (s.port k).controller ∧ t.notices = s.notices.submit n)

/-! ## Management link (09) -/

/-- R164, R165 step 1, R168: a frame of fewer than 8 bits is discarded, and MDO carried bits of 0 for it; a frame
of any length whose byte 0 is no command code is refused with BAD_COMMAND. Nothing else changes. -/
def Obligations.ShortAndUnknownFrames : Prop :=
  ∀ s : State, s.listening = true →
    (∀ bits : Fin 8, exec (.shortFrame bits) s =
      .next { s with outputs := s.outputs ++ [.mdo (List.replicate bits.val false)] }) ∧
    (∀ (code : Byte) (f : Frame), commandOf code = none →
      exec (.badCommand code f) s = .next (s.answered f .badCommand []))

/-- R167: during a READ_RESPONSE frame of any length MDO carries bits of 0 for byte 0 and then the response
image: the status byte, the data length, the data bytes, and bytes of 0 for as long as the frame goes on, each
byte most significant bit first, a partial last byte giving the leading bits of the byte in its place. The
bytes on MDI are ignored, and READ_RESPONSE changes neither the buffer nor any block. -/
def Obligations.ReadResponseShiftsOutTheImage : Prop :=
  ∀ (s : State) (f : Frame), s.listening = true →
    ∃ bits : List Bool,
      exec (.readResponse f) s = .next { s with outputs := s.outputs ++ [.mdo bits] } ∧
      bits.length = 8 * (1 + f.args.length) + f.partialBits.val ∧
      (∀ n, n < 8 → bits[n]? = some false) ∧
      ∀ n j, j < 8 → 8 + 8 * n + j < 8 * (1 + f.args.length) + f.partialBits.val →
        bits[8 + 8 * n + j]? = some
          ((match n with
            | 0 => BitVec.ofNat 8 (codeOfStatus s.link.response.status)
            | 1 => BitVec.ofNat 8 s.link.response.data.length
            | n + 2 => s.link.response.data.getD n 0).getLsbD (7 - j))

/-- R165 steps 3 and 4, R171: a command frame with a partial byte, or with another number of argument bytes than
its command needs, is refused with BAD_FRAME. One of the right length whose port argument is 4 or more is
refused with BAD_ARG. Either way the response buffer is replaced and the command reaches no block. -/
def Obligations.WrongLengthOrPortIsRefused : Prop :=
  ∀ (s : State) (code : Byte) (command : Frame → Instr) (count : Nat) (f : Frame),
    s.listening = true → commandOf code = some command → (code.toNat, count) ∈ argumentBytes →
    (f.partialBits ≠ 0 ∨ f.args.length ≠ count →
      exec (command f) s = .next (s.answered f .badFrame [])) ∧
    (∀ port rest, f.partialBits = 0 → f.args.length = count → code.toNat ∈ portCodes →
      f.args = port :: rest → 4 ≤ port.toNat → exec (command f) s = .next (s.answered f .badArg []))

/-- R172, R184, R189: GET_STATUS returns the 28 bytes of the status image, every field from the one moment the
command is taken, and changes nothing. -/
def Obligations.GetStatusReturnsTheStatusImage : Prop :=
  ∀ s : State, s.listening = true →
    exec (.getStatus (wholeFrame [])) s = .next (s.answered (wholeFrame []) .ok
      [ BitVec.ofNat 8 s.notices.records.length,
        BitVec.ofNat 8 (s.notices.overflow.toNat + 2 * s.notices.irqEnable.toNat +
          4 * (s.notices.irqEnable && (!s.notices.records.isEmpty || s.notices.overflow)).toNat),
        BitVec.ofNat 8 (codeOfRing s.writer.ring),
        BitVec.ofNat 8 (s.writer.writeInFlight.toNat + 2 * s.writer.fullEpisode.toNat),
        s.writer.base.extractLsb' 32 8, s.writer.base.extractLsb' 24 8, s.writer.base.extractLsb' 16 8,
        s.writer.base.extractLsb' 8 8, s.writer.base.extractLsb' 0 8,
        BitVec.ofNat 8 (s.writer.size / 256), BitVec.ofNat 8 s.writer.size,
        s.writer.producer.extractLsb' 8 8, s.writer.producer.extractLsb' 0 8,
        s.writer.consumer.extractLsb' 8 8, s.writer.consumer.extractLsb' 0 8,
        BitVec.ofNat 8 s.writer.queue.length,
        BitVec.ofNat 8 (s.writer.gapCount.get .rp0), BitVec.ofNat 8 (s.writer.gapCount.get .rp1),
        BitVec.ofNat 8 (s.writer.gapCount.get .rp2), BitVec.ofNat 8 (s.writer.gapCount.get .rp3),
        BitVec.ofNat 8 s.sharedInUse,
        BitVec.ofNat 8 ((s.table[62]).isSome.toNat + (s.table[63]).isSome.toNat),
        BitVec.ofNat 8 s.orphanCount, s.link.timeout,
        BitVec.ofNat 8 (codeOfPortState (s.port .rp0).controller.portState),
        BitVec.ofNat 8 (codeOfPortState (s.port .rp1).controller.portState),
        BitVec.ofNat 8 (codeOfPortState (s.port .rp2).controller.portState),
        BitVec.ofNat 8 (codeOfPortState (s.port .rp3).controller.portState) ])

/-- R50, R173, R189: GET_PORT returns the 17 bytes of the port image, every field from the one moment the
command is taken, and changes nothing. Index 0xFF, source NONE and used or credit 0 stand for no profile, and
time remaining is 0 while no window runs. -/
def Obligations.GetPortReturnsThePortImage : Prop :=
  ∀ (s : State) (k : Port), s.listening = true →
    let m := (s.port k).meter
    let index : Byte := match m.installed with
      | some i => i.index
      | none => 0xFF
    let source : Nat := match m.installed with
      | some i => codeOfSource i.source
      | none => 0
    let allowance : Nat := match m.installed with
      | some i => if i.profile.mode = .cap then m.used
          else if i.profile.mode = .bucket then m.credit else 0
      | none => 0
    let remaining : Nat := if (s.port k).windowRuns then m.timeRemaining else 0
    exec (.getPort (wholeFrame [portByte k])) s = .next (s.answered (wholeFrame [portByte k]) .ok
      [ BitVec.ofNat 8 (codeOfPortState (s.port k).controller.portState), index,
        BitVec.ofNat 8 source,
        BitVec.ofNat 8 ((s.accepting k).toNat + 2 * (s.port k).resetAsserted.toNat),
        m.seqNo.extractLsb' 24 8, m.seqNo.extractLsb' 16 8, m.seqNo.extractLsb' 8 8,
        m.seqNo.extractLsb' 0 8,
        BitVec.ofNat 8 (allowance / 256), BitVec.ofNat 8 allowance,
        BitVec.ofNat 8 (remaining / 256), BitVec.ofNat 8 remaining,
        BitVec.ofNat 8 ((s.port k).controller.dwellRemaining / 256),
        BitVec.ofNat 8 (s.port k).controller.dwellRemaining,
        BitVec.ofNat 8 (s.port k).queue.length,
        BitVec.ofNat 8 ((s.port k).queue.countP fun e => e.status == .admitted),
        BitVec.ofNat 8 (s.heldCount k) ])

/-- R39, R61, R174, R175, R189: GET_WINDOW returns the 33 bytes of the last-window snapshot, GET_PROFILE the 20
bytes of the installed copy, or index 0xFF and zeros without one, and GET_POOL the level and the limit. Each
changes nothing. -/
def Obligations.GetWindowProfileAndPool : Prop :=
  ∀ (s : State) (k : Port), s.listening = true →
    let w := (s.port k).meter.snapshot
    let two (n : Nat) : List Byte := [BitVec.ofNat 8 (n / 256), BitVec.ofNat 8 n]
    let three (n : Nat) : List Byte :=
      [BitVec.ofNat 8 (n / 65536), BitVec.ofNat 8 (n / 256), BitVec.ofNat 8 n]
    exec (.getWindow (wholeFrame [portByte k])) s = .next (s.answered (wholeFrame [portByte k]) .ok
      ([w.seqNo.extractLsb' 24 8, w.seqNo.extractLsb' 16 8, w.seqNo.extractLsb' 8 8,
        w.seqNo.extractLsb' 0 8, w.index, BitVec.ofNat 8 (codeOfSource w.source),
        BitVec.ofNat 8 (codeOfMode w.mode),
        BitVec.ofNat 8 (w.flags.partialEnd.toNat + 2 * w.flags.high.toNat + 4 * w.flags.low.toNat +
          8 * w.flags.fallback.toNat)] ++
        three w.counters.meteredRead ++ three w.counters.meteredWrite ++ three w.counters.unmetered ++
        three w.counters.forced ++ three w.counters.borrowed ++ two w.counters.refused ++
        two w.counters.timeouts ++ two w.counters.errors ++ two w.counters.maxLatency ++
        two w.endAllowance)) ∧
    ((s.port k).meter.installed = none →
      exec (.getProfile (wholeFrame [portByte k])) s =
        .next (s.answered (wholeFrame [portByte k]) .ok (0xFF :: List.replicate 19 0))) ∧
    (∀ i, (s.port k).meter.installed = some i →
      exec (.getProfile (wholeFrame [portByte k])) s =
        .next (s.answered (wholeFrame [portByte k]) .ok
          ([i.index, BitVec.ofNat 8 (codeOfSource i.source), BitVec.ofNat 8 (codeOfMode i.profile.mode),
            BitVec.ofNat 8 (codeOfScope i.profile.scope)] ++
            two i.profile.windowLength ++ two i.profile.budget ++ two i.profile.ceiling ++
            two i.profile.highMark ++ two i.profile.lowMark ++ [BitVec.ofNat 8 i.profile.maxHold] ++
            two (i.profile.flags.share.toNat + 2 * i.profile.flags.borrow.toNat +
              4 * i.profile.flags.report.toNat + 8 * i.profile.flags.link.toNat +
              16 * i.profile.flags.nHigh.toNat + 32 * i.profile.flags.nLow.toNat +
              64 * i.profile.flags.nForced.toNat + 128 * i.profile.flags.nDwell.toNat +
              256 * i.profile.flags.nInstall.toNat) ++
            two i.profile.dwell ++ [i.profile.nextIndex]))) ∧
    exec (.getPool (wholeFrame [])) s = .next (s.answered (wholeFrame []) .ok
      (two s.pool.level ++ two s.pool.limit))

/-- R65: a base that is a multiple of 32 and no greater than 1,099,511,619,584 becomes the table base, whatever
the ports' states, with status OK and the base now in force; any other is refused with BAD_ARG and the base
unchanged. Loads already started keep their addresses, and a load started afterwards reads from the new base. -/
def Obligations.SetTableBaseChecksAndSets : Prop :=
  ∀ (s : State) (base : Addr), s.listening = true →
    let f := wholeFrame [base.extractLsb' 32 8, base.extractLsb' 24 8, base.extractLsb' 16 8,
      base.extractLsb' 8 8, base.extractLsb' 0 8]
    (base.toNat % 32 = 0 → base.toNat ≤ 1099511619584 →
      exec (.setTableBase f) s = .next ({ s with tableBase := base }.answered f .ok f.args) ∧
      ∀ (k : Port) (index : Byte), ((startLoad k index { s with tableBase := base }).port k).load =
        some ⟨index, base + 32 * index.zeroExtend 40⟩) ∧
    (base.toNat % 32 ≠ 0 ∨ 1099511619584 < base.toNat →
      exec (.setTableBase f) s = .next (s.answered f .badArg []))

/-- R74, R87, R88, R188: SET_FALLBACK stores the fields it carries as the port's fallback and makes it valid if
every field passes the checks, and is refused with BAD_ARG, the fallback unchanged, otherwise. CLEAR_FALLBACK
clears the valid flag, valid or not, and keeps the fields. Neither touches the port, the meter or a load. -/
def Obligations.FallbackIsSetAndCleared : Prop :=
  ∀ (s : State) (k : Port), s.listening = true →
    (∀ (mode scope maxHold next : Byte) (window budget ceiling high low flags dwell : BitVec 16),
      let f := wholeFrame ([portByte k, mode, scope, window.extractLsb' 8 8, window.extractLsb' 0 8,
        budget.extractLsb' 8 8, budget.extractLsb' 0 8, ceiling.extractLsb' 8 8,
        ceiling.extractLsb' 0 8, high.extractLsb' 8 8, high.extractLsb' 0 8, low.extractLsb' 8 8,
        low.extractLsb' 0 8, maxHold, flags.extractLsb' 8 8, flags.extractLsb' 0 8,
        dwell.extractLsb' 8 8, dwell.extractLsb' 0 8, next])
      let fails : Prop := 3 ≤ mode.toNat ∨ scope.toNat = 0 ∨ 4 ≤ scope.toNat ∨ window.toNat < 16 ∨
        ((mode = 1 ∨ mode = 2) ∧ budget = 0) ∨ (mode = 2 ∧ ceiling.toNat < budget.toNat) ∨
        16 ≤ maxHold.toNat
      (fails → exec (.setFallback f) s = .next (s.answered f .badArg [])) ∧
      (¬ fails → exec (.setFallback f) s = .next ((s.setPort k { s.port k with fallback := ⟨true,
        { mode := if mode = 0 then .observe else if mode = 1 then .cap else .bucket
          scope := if scope = 1 then .reads else if scope = 2 then .writes else .both
          windowLength := window.toNat, budget := budget.toNat, ceiling := ceiling.toNat
          highMark := high.toNat, lowMark := low.toNat, maxHold := maxHold.toNat
          flags := ⟨flags.getLsbD 0, flags.getLsbD 1, flags.getLsbD 2, flags.getLsbD 3,
            flags.getLsbD 4, flags.getLsbD 5, flags.getLsbD 6, flags.getLsbD 7, flags.getLsbD 8⟩
          dwell := dwell.toNat, nextIndex := next }⟩ }).answered f .ok []))) ∧
    exec (.clearFallback (wholeFrame [portByte k])) s =
      .next ((s.setPort k { s.port k with
        fallback := { (s.port k).fallback with valid := false } }).answered
          (wholeFrame [portByte k]) .ok [])

/-- R68, R69: LOAD of any index. In PASS and ACTIVE with no load in flight the load starts: its context holds
the index and the address from the table base, its read joins the pending list, and the port is LOADING. With
a load in flight, or in LOADING, it is refused with BUSY; in DRAINING and QUIET with BAD_STATE. A refused LOAD
changes nothing but the response. The BUSY in LOADING with the load-in-flight flag clear, which the table of R69
says cannot occur, is the model's choice (log entry 19). -/
def Obligations.LoadStartsOrIsRefused : Prop :=
  ∀ (s : State) (k : Port) (index : Byte), s.listening = true →
    let f := wholeFrame [portByte k, index]
    let state := (s.port k).controller.portState
    (state = .pass ∨ state = .active → (s.port k).controller.loadInFlight = false →
      exec (.load f) s = .next ({ s.setPort k { s.port k with
          load := some ⟨index, s.tableBase + 32 * index.zeroExtend 40⟩
          controller := { (s.port k).controller with
            portState := .loading, loadInFlight := true, cancelledLoad := false } } with
        internalList := s.internalList ++
          [InternalItem.load k (s.tableBase + 32 * index.zeroExtend 40)] }.answered f .ok [])) ∧
    (state = .loading ∨ ((state = .pass ∨ state = .active) ∧ (s.port k).controller.loadInFlight = true) →
      exec (.load f) s = .next (s.answered f .busy [])) ∧
    (state = .draining ∨ state = .quiet → exec (.load f) s = .next (s.answered f .badState []))

/-- R44, R80, R93 to R97, R100: QUIESCE in PASS, LOADING or ACTIVE ends a running window early with a PARTIAL
snapshot, and a report if the profile reports, stops the meter, cancels a load of a LOADING port, admits every
WAITING entry, and takes the port to DRAINING with the entries ADMITTED before it counted as ahead, or straight
to QUIET, with a QUIESCED notice of detail 0, where nothing is queued and nothing LIVE. In DRAINING and QUIET it
is refused with BAD_STATE and nothing else changes. -/
def Obligations.QuiesceDrainsThePort : Prop :=
  ∀ (s : State) (k : Port), s.listening = true →
    let f := wholeFrame [portByte k]
    let state := (s.port k).controller.portState
    (state = .draining ∨ state = .quiet → exec (.quiesce f) s = .next (s.answered f .badState [])) ∧
    (state = .pass ∨ state = .loading ∨ state = .active →
      ∃ (m : Meter) (reports : List Report),
        ((s.port k).windowRuns = false → reports = [] ∧
          m = { (s.port k).meter with claim := staled (s.port k).meter.claim }) ∧
        (∀ i, (s.port k).windowRuns = true → (s.port k).meter.installed = some i →
          reports = reportOf k i (snapshotAtEnd (s.port k) i true false) ∧
          m = { (s.port k).meter with
            windowRunning := false, counters := ⟨0, 0, 0, 0, 0, 0, 0, 0, 0⟩, highSeen := false
            snapshot := snapshotAtEnd (s.port k) i true false
            claim := staled (s.port k).meter.claim }) ∧
        (let b : PortBlock := { s.port k with
          queue := (s.port k).queue.map fun e => { e with status := .admitted }
          meter := m, toWriter := (s.port k).toWriter ++ reports
          controller := { (s.port k).controller with
            portState := .draining
            cancelledLoad :=
              if state = .loading then true else (s.port k).controller.cancelledLoad
            drain := some ⟨(s.port k).queue.countP fun e => e.status == .admitted, 0⟩ } }
        (¬ ((s.port k).queue = [] ∧ s.liveCount k = 0) →
          exec (.quiesce f) s = .next ((s.setPort k b).answered f .ok [])) ∧
        ((s.port k).queue = [] ∧ s.liveCount k = 0 →
          exec (.quiesce f) s = .next
            (((s.setPort k { b with
              controller := { b.controller with portState := .quiet, drain := none } }).submit
                { kind := .quiesced, port := some k, seqNo := (s.port k).meter.seqNo,
                  index := (s.port k).meter.index, detail := 0 }).answered f .ok []))))

/-- R45, R104: RESUME in QUIET, whose queue is empty, takes a port with a profile to ACTIVE with a new window and
the dwell, its freeze by a load in flight and the fallback-in-use flag as they stood, and a port without one to
PASS. In every other state it is refused with BAD_STATE and nothing else changes. The number of the new window is one
higher, as these rules say; log entry 27 names the passage that says otherwise. -/
def Obligations.ResumeReopensAQuietPort : Prop :=
  ∀ (s : State) (k : Port), s.listening = true →
    let f := wholeFrame [portByte k]
    ((s.port k).controller.portState ≠ .quiet →
      exec (.resume f) s = .next (s.answered f .badState [])) ∧
    ((s.port k).controller.portState = .quiet → (s.port k).queue = [] →
      (∀ i, (s.port k).meter.installed = some i →
        exec (.resume f) s = .next ((s.setPort k { s.port k with
          controller := { (s.port k).controller with portState := .active }
          meter := { (s.port k).meter with
            windowRunning := true, timeRemaining := i.profile.windowLength
            seqNo := (s.port k).meter.seqNo + 1, used := 0
            credit := if i.profile.mode = .bucket then i.profile.ceiling else 0
            counters := ⟨0, 0, 0, 0, 0, 0, 0, 0, 0⟩, highSeen := false } }).answered f .ok [])) ∧
      ((s.port k).meter.installed = none →
        exec (.resume f) s = .next ((s.setPort k { s.port k with
          controller := { (s.port k).controller with portState := .pass }
          meter := { (s.port k).meter with claim := staled (s.port k).meter.claim } }).answered
            f .ok [])))

/-- R58, R118, R178: SET_POOL_LIMIT sets the limit, clips the level to it, and answers with both; a limit of 0
empties the pool, loses every donation and refuses every claim. SET_TIMEOUT sets the completion-timeout setting,
any value, and answers with it; no in-flight entry and no deadline changes. -/
def Obligations.PoolLimitAndTimeoutAreSet : Prop :=
  ∀ s : State, s.listening = true →
    (∀ limit : BitVec 16,
      let f := wholeFrame [limit.extractLsb' 8 8, limit.extractLsb' 0 8]
      let level := min s.pool.level limit.toNat
      exec (.setPoolLimit f) s = .next ({ s with pool := ⟨level, limit.toNat⟩ }.answered f .ok
        [BitVec.ofNat 8 (level / 256), BitVec.ofNat 8 level, limit.extractLsb' 8 8,
          limit.extractLsb' 0 8])) ∧
    (∀ d n : Nat, 1 ≤ n → (Pool.setLimit s.pool 0).donate d = ⟨0, 0⟩ ∧
      (Pool.setLimit s.pool 0).answer n = .refusal) ∧
    (∀ setting : Byte, exec (.setTimeout (wholeFrame [setting])) s =
      .next ({ s with link := { s.link with timeout := setting } }.answered (wholeFrame [setting]) .ok
        [setting]))

/-- R158: SET_RING is refused with BUSY while the ring is RUN or a write is in flight; then with BAD_ARG for a
base that is no multiple of 64, a size that is none of the nine, or a ring past the top of memory. Otherwise, with
the report queue empty as it is outside RUN, it sets the ring and starts it empty, and answers with the ring state,
the base, the size and both indices. A refused SET_RING changes nothing but the response. -/
def Obligations.SetRingChecksAndStarts : Prop :=
  ∀ (s : State) (base : Addr) (size : BitVec 16), s.listening = true →
    let bytes := [base.extractLsb' 32 8, base.extractLsb' 24 8, base.extractLsb' 16 8,
      base.extractLsb' 8 8, base.extractLsb' 0 8, size.extractLsb' 8 8, size.extractLsb' 0 8]
    let f := wholeFrame bytes
    let good : Prop := base.toNat % 64 = 0 ∧
      size.toNat ∈ [16, 32, 64, 128, 256, 512, 1024, 2048, 4096] ∧
      base.toNat + 64 * size.toNat ≤ 1099511627776
    (s.writer.ring = .run ∨ s.writer.writeInFlight = true →
      exec (.setRing f) s = .next (s.answered f .busy [])) ∧
    (s.writer.ring ≠ .run → s.writer.writeInFlight = false →
      (¬ good → exec (.setRing f) s = .next (s.answered f .badArg [])) ∧
      (good → s.writer.queue = [] → exec (.setRing f) s = .next ({ s with writer :=
        { ring := .run, base := base, size := size.toNat, producer := 0, consumer := 0, queue := []
          writeInFlight := false, gapCount := ⟨0, 0, 0, 0⟩, fullEpisode := false } }.answered f .ok
        (1 :: bytes ++ [0, 0, 0, 0]))))

/-- R159, R160: RING_OFF stops the ring from any state, discards the queue without counting, clears the episode,
and leaves a write in flight and both indices as they are. REPORT_ACK moves the consumer index where it lies
between the present one and the producer index, ends an episode if the ring is no longer full, and lets a waiting
write start where there is room, with the data ReportIsQueuedCountedOrDropped states; anywhere else it is refused
with BAD_ARG and nothing else changes. -/
def Obligations.RingOffAndReportAck : Prop :=
  ∀ s : State, s.listening = true →
    (exec (.ringOff (wholeFrame [])) s =
      .next ({ s with writer := { s.writer with
        ring := .off, queue := [], fullEpisode := false } }.answered (wholeFrame []) .ok
        [0, s.writer.producer.extractLsb' 8 8, s.writer.producer.extractLsb' 0 8,
          s.writer.consumer.extractLsb' 8 8, s.writer.consumer.extractLsb' 0 8,
          BitVec.ofNat 8 s.writer.writeInFlight.toNat])) ∧
    (∀ c : BitVec 16,
      let f := wholeFrame [c.extractLsb' 8 8, c.extractLsb' 0 8]
      let data : List Byte := [BitVec.ofNat 8 (codeOfRing s.writer.ring),
        s.writer.producer.extractLsb' 8 8, s.writer.producer.extractLsb' 0 8,
        c.extractLsb' 8 8, c.extractLsb' 0 8]
      let full : Bool := decide (s.writer.size ≤ (s.writer.producer - c).toNat)
      let w : ReportWriter := { s.writer with
        consumer := c, fullEpisode := if full then s.writer.fullEpisode else false }
      ((s.writer.producer - s.writer.consumer).toNat < (c - s.writer.consumer).toNat →
        exec (.reportAck f) s = .next (s.answered f .badArg [])) ∧
      ((c - s.writer.consumer).toNat ≤ (s.writer.producer - s.writer.consumer).toNat →
        (s.writer.ring ≠ .run ∨ s.writer.writeInFlight = true ∨ s.writer.queue = [] ∨
            (full = true ∧ s.writer.fullEpisode = true) →
          exec (.reportAck f) s = .next ({ s with writer := w }.answered f .ok data)) ∧
        (∀ r rest, s.writer.ring = .run → s.writer.writeInFlight = false →
          s.writer.queue = r :: rest → full = false →
          exec (.reportAck f) s = .next ({ s with
            writer := { w with writeInFlight := true }
            internalList := s.internalList ++
              [InternalItem.report (s.writer.base + BitVec.ofNat 40
                (64 * (s.writer.producer.toNat % s.writer.size))) (beatsOfReport r)] }.answered
              f .ok data))))

/-- R138, R190: POP_NOTICE removes the head of the notice queue and returns it whole, with the depth after the
removal and the overflow flag; on an empty queue it answers EMPTY with depth 0 and the flag. It changes neither
the overflow flag nor the IRQ enable. -/
def Obligations.PopNoticeReturnsTheOldest : Prop :=
  ∀ s : State, s.listening = true →
    (s.notices.records = [] → exec (.popNotice (wholeFrame [])) s =
      .next (s.answered (wholeFrame []) .empty [0, BitVec.ofNat 8 s.notices.overflow.toNat])) ∧
    (∀ n rest, s.notices.records = n :: rest → exec (.popNotice (wholeFrame [])) s =
      .next ({ s with notices := { s.notices with records := rest } }.answered (wholeFrame []) .ok
        [BitVec.ofNat 8 rest.length, BitVec.ofNat 8 s.notices.overflow.toNat,
          BitVec.ofNat 8 (match n.kind with
            | .high => 1
            | .low => 2
            | .forced => 3
            | .dwellEnd => 4
            | .installed => 5
            | .profileFault => 6
            | .quiesced => 7
            | .completionTimeout => 8
            | .ringFull => 9
            | .reportFault => 10),
          (match n.port with
            | some k => portByte k
            | none => 0xFF),
          n.seqNo.extractLsb' 24 8, n.seqNo.extractLsb' 16 8, n.seqNo.extractLsb' 8 8,
          n.seqNo.extractLsb' 0 8, n.index, BitVec.ofNat 8 (n.detail / 256),
          BitVec.ofNat 8 n.detail]))

/-- R139, R140, R141: CLEAR_OVERFLOW clears the flag, set or not, answers with the depth, and touches no record; on
a full queue the next submission is lost and sets the flag again. SET_IRQ sets the enable for 1, clears it for
0, and is refused with BAD_ARG for any other value; records kept while it was clear assert IRQ_N when it is
set. -/
def Obligations.OverflowAndInterruptEnable : Prop :=
  ∀ s : State, s.listening = true →
    (∃ t, exec (.clearOverflow (wholeFrame [])) s = .next t ∧
      t = { s with notices := { s.notices with overflow := false } }.answered (wholeFrame []) .ok
        [BitVec.ofNat 8 s.notices.records.length] ∧
      (s.notices.records.length = 32 → ∀ n, (t.notices.submit n).records = s.notices.records ∧
        (t.notices.submit n).overflow = true)) ∧
    (∀ enable : Bool,
      let f := wholeFrame [if enable then 1 else 0]
      ∃ t, exec (.setIrq f) s = .next t ∧
        t = { s with notices := { s.notices with irqEnable := enable } }.answered f .ok [] ∧
        (t.notices.irqAsserted = true ↔
          enable = true ∧ (s.notices.records ≠ [] ∨ s.notices.overflow = true))) ∧
    (∀ value : Byte, value ≠ 0 → value ≠ 1 →
      exec (.setIrq (wholeFrame [value])) s = .next (s.answered (wholeFrame [value]) .badArg []))

/-- R181: SOFT_RESET, taken in every state of every block, does to each block what the table of R181 gathers. The
queues keep their entries in order, all ADMITTED; each meter, port controller and loader context takes its
power-on values, but for a claim, which stays outstanding and stale; the pool, the pending list, the notice
queue, the report writer, the round-robin pointer and the timeout setting take theirs; LIVE internal entries
become ORPHANs and every other entry stays. Messages on their way, the reset inputs, the memory port, the
timebase and the transactions of the masters stay as they are. A time remaining of 0 and reports on their way
that stay on their way are the model's choice (log entries 18 and 24). -/
def Obligations.SoftResetRestartsThePolicy : Prop :=
  ∀ s : State, s.listening = true →
    ∃ t, exec (.softReset (wholeFrame [])) s = .next t ∧
      (∀ k, t.port k =
        { queue := (s.port k).queue.map fun e => { e with status := .admitted }
          resetAsserted := (s.port k).resetAsserted
          meter := { Meter.reset with claim := staled (s.port k).meter.claim }
          controller := Controller.reset
          load := none
          fallback := ⟨false, Profile.zero⟩
          toPool := (s.port k).toPool, answers := (s.port k).answers, toWriter := (s.port k).toWriter }) ∧
      (∀ tag : Fin 64, t.table[tag.val] = (s.table[tag.val]).map fun f =>
        if f.state = .live ∧ f.owner.portOf = none then { f with state := .orphan, deadline := none }
        else f) ∧
      t = { s with
        ports := t.ports, table := t.table, tableBase := 0, pool := ⟨0, 0⟩, internalList := []
        roundRobin := .rp0, notices := ⟨[], false, false⟩, writer := ReportWriter.reset
        link := { s.link with timeout := 40, response := ⟨.ok, []⟩ }
        outputs := s.outputs ++ [.mdo (List.replicate 8 false)] }
end

