-- ==== Sys2Proof/Laws/Operands.lean ====
section
/-! SUPPORT. Byte layouts: what the byte functions of records, frames and images give, in the terms the
statements use, and how bits of a frame gather into bytes. -/

namespace Sys2Proof.Machine

open Sys2Proof

/-! ## Numbers as bytes, the most significant first -/

@[simp] theorem bytesBE_length (count n : Nat) : (bytesBE count n).length = count := by
  induction count with
  | zero => rfl
  | succ count ih => simp [bytesBE, ih]

@[simp] theorem bytesLE_length (count n : Nat) : (bytesLE count n).length = count := by
  induction count generalizing n with
  | zero => rfl
  | succ count ih => simp [bytesLE, ih]

theorem bytesBE_one (n : Nat) : bytesBE 1 n = [BitVec.ofNat 8 n] := by simp [bytesBE]

theorem bytesBE_two (n : Nat) : bytesBE 2 n = [BitVec.ofNat 8 (n / 256), BitVec.ofNat 8 n] := by
  simp [bytesBE]

theorem bytesBE_three (n : Nat) :
    bytesBE 3 n = [BitVec.ofNat 8 (n / 65536), BitVec.ofNat 8 (n / 256), BitVec.ofNat 8 n] := by
  simp [bytesBE]

/-- A byte of a word, cut out by division. -/
theorem byte_of_div {w : Nat} (x : BitVec w) {n j : Nat} (h : n = 2 ^ j) :
    BitVec.ofNat 8 (x.toNat / n) = x.extractLsb' j 8 := by
  subst h
  apply BitVec.eq_of_toNat_eq
  simp [BitVec.extractLsb'_toNat, Nat.shiftRight_eq_div_pow]

/-- The lowest byte of a word. -/
theorem byte_of_word {w : Nat} (x : BitVec w) : BitVec.ofNat 8 x.toNat = x.extractLsb' 0 8 := by
  apply BitVec.eq_of_toNat_eq
  simp [BitVec.extractLsb'_toNat]

theorem bytesBE_word16 (x : BitVec 16) : bytesBE 2 x.toNat = [x.extractLsb' 8 8, x.extractLsb' 0 8] := by
  rw [bytesBE_two, byte_of_div x (j := 8) (by norm_num), byte_of_word]

theorem bytesBE_word32 (x : BitVec 32) : bytesBE 4 x.toNat =
    [x.extractLsb' 24 8, x.extractLsb' 16 8, x.extractLsb' 8 8, x.extractLsb' 0 8] := by
  simp only [bytesBE, Nat.reducePow]
  rw [byte_of_div x (j := 24) (by norm_num), byte_of_div x (j := 16) (by norm_num),
    byte_of_div x (j := 8) (by norm_num), Nat.div_one, byte_of_word]

theorem bytesBE_addr (x : Addr) : bytesBE 5 x.toNat =
    [x.extractLsb' 32 8, x.extractLsb' 24 8, x.extractLsb' 16 8, x.extractLsb' 8 8, x.extractLsb' 0 8] := by
  simp only [bytesBE, Nat.reducePow]
  rw [byte_of_div x (j := 32) (by norm_num), byte_of_div x (j := 24) (by norm_num),
    byte_of_div x (j := 16) (by norm_num), byte_of_div x (j := 8) (by norm_num), Nat.div_one, byte_of_word]

/-! ## Arguments as numbers -/

theorem natOfBE_byte (b : Byte) : natOfBE [b] = b.toNat := by simp [natOfBE]

theorem natOfBE_word16 (x : BitVec 16) : natOfBE [x.extractLsb' 8 8, x.extractLsb' 0 8] = x.toNat := by
  simp [natOfBE, BitVec.extractLsb'_toNat, Nat.shiftRight_eq_div_pow]
  have := x.isLt
  omega

theorem natOfBE_addr (x : Addr) : natOfBE [x.extractLsb' 32 8, x.extractLsb' 24 8, x.extractLsb' 16 8,
    x.extractLsb' 8 8, x.extractLsb' 0 8] = x.toNat := by
  simp [natOfBE, BitVec.extractLsb'_toNat, Nat.shiftRight_eq_div_pow]
  have := x.isLt
  omega

@[simp] theorem portOfByte_portByte (k : Port) : portOfByte (portByte k) = some k := by
  cases k <;> decide

theorem portOfByte_eq_none (b : Byte) (h : 4 ≤ b.toNat) : portOfByte b = none := by
  unfold portOfByte
  generalize b.toNat = n at h
  match n, h with
  | _ + 4, _ => rfl

/-! ## Numbers as bytes, the least significant first -/

theorem bytesLE_one (n : Nat) : bytesLE 1 n = [BitVec.ofNat 8 n] := rfl

theorem bytesLE_two (n : Nat) : bytesLE 2 n = [BitVec.ofNat 8 n, BitVec.ofNat 8 (n / 256)] := rfl

theorem bytesLE_four (n : Nat) : bytesLE 4 n = bytesLE 2 n ++ bytesLE 2 (n / 65536) := by
  simp [bytesLE, Nat.div_div_eq_div_mul]

theorem fieldAt_one (bytes : List Byte) (n : Nat) : fieldAt bytes n 1 = [bytes.getD n 0] := rfl

theorem fieldAt_two (bytes : List Byte) (n : Nat) :
    fieldAt bytes n 2 = [bytes.getD n 0, bytes.getD (n + 1) 0] := rfl

theorem natOfLE_byte (b : Byte) : natOfLE [b] = b.toNat := by simp [natOfLE]

theorem natOfLE_pair (a b : Byte) : natOfLE [a, b] = a.toNat + 256 * b.toNat := by simp [natOfLE]

theorem natOfLE_word16 (x : BitVec 16) : natOfLE [x.extractLsb' 0 8, x.extractLsb' 8 8] = x.toNat := by
  simp [natOfLE, BitVec.extractLsb'_toNat, Nat.shiftRight_eq_div_pow]
  have := x.isLt
  omega

/-- Byte `j` of a number written with its least significant byte first. -/
theorem natOfLE_byte_at (l : List Byte) (j : Nat) : natOfLE l / 256 ^ j % 256 = (l.getD j 0).toNat := by
  induction l generalizing j with
  | nil => simp [natOfLE]
  | cons b l ih =>
    have hb := b.isLt
    cases j with
    | zero => simp [natOfLE]; omega
    | succ j =>
      have := ih j
      simp only [natOfLE, Nat.pow_succ', ← Nat.div_div_eq_div_mul, List.getD_cons_succ]
      rw [show (b.toNat + 256 * natOfLE l) / 256 = natOfLE l by omega]
      exact this

/-! ## Bits of a frame -/

@[simp] theorem bitsOfByte_length (b : Byte) : (bitsOfByte b).length = 8 := rfl

theorem bitsOfByte_getElem? (b : Byte) {j : Nat} (h : j < 8) :
    (bitsOfByte b)[j]? = some (b.getLsbD (7 - j)) := by
  unfold bitsOfByte
  interval_cases j <;> rfl

theorem flatMap_bitsOfByte_length (l : List Byte) : (l.flatMap bitsOfByte).length = 8 * l.length := by
  induction l with
  | nil => rfl
  | cons b l ih => simp [List.flatMap_cons, ih]; omega

/-- Bit `j` of byte `n` of a run of bytes. -/
theorem flatMap_bitsOfByte_getElem? (l : List Byte) (rest : List Bool) {n j : Nat} (h : j < 8)
    (hn : n < l.length) :
    (l.flatMap bitsOfByte ++ rest)[8 * n + j]? = some ((l.getD n 0).getLsbD (7 - j)) := by
  induction l generalizing n with
  | nil => simp at hn
  | cons b l ih =>
    cases n with
    | zero =>
      rw [List.flatMap_cons, List.append_assoc, List.getElem?_append_left (by simp; omega), Nat.mul_zero,
        Nat.zero_add, bitsOfByte_getElem? _ h]
      simp
    | succ n =>
      rw [List.flatMap_cons, List.append_assoc, List.getElem?_append_right (by simp; omega),
        bitsOfByte_length, show 8 * (n + 1) + j - 8 = 8 * n + j by omega, ih (by simpa using hn)]
      simp

theorem byteOfBits_bitsOfByte (b : Byte) : byteOfBits (bitsOfByte b) = b := by
  revert b; decide

/-- Gathering undoes spelling out: the bytes come back, and the bits left over are the partial byte. -/
theorem gatherBytes_flatMap (l : List Byte) (p : Fin 8) :
    gatherBytes (l.flatMap bitsOfByte ++ List.replicate p.val false) = (l, List.replicate p.val false) := by
  induction l with
  | nil => revert p; decide
  | cons b l ih =>
    simp only [List.flatMap_cons, bitsOfByte, List.cons_append, List.nil_append, gatherBytes]
    rw [ih]
    exact congrArg (fun x => (x :: l, List.replicate p.val false)) (byteOfBits_bitsOfByte b)

/-! ## Codes of a profile that has passed the checks (R74) -/

theorem modeOfCode_eq {n : Nat} (h : n < 3) :
    modeOfCode n = if n = 0 then .observe else if n = 1 then .cap else .bucket := by
  interval_cases n <;> rfl

theorem scopeOfCode_eq {n : Nat} (h0 : 1 ≤ n) (h : n < 4) :
    scopeOfCode n = if n = 1 then .reads else if n = 2 then .writes else .both := by
  interval_cases n <;> rfl

/-! ## Images and records -/

theorem bytesOfProfile_length (p : Profile) : (bytesOfProfile p).length = 18 := by
  simp [bytesOfProfile]

theorem bytesOfNotice_length (n : Notice) : (bytesOfNotice n).length = 9 := by simp [bytesOfNotice]

theorem windowImage_length (w : Snapshot) : (windowImage w).length = 33 := by simp [windowImage]

theorem profileImage_length (m : Meter) : (profileImage m).length = 20 := by
  simp [profileImage, bytesOfProfile_length]

theorem statusImage_length (s : State) : (statusImage s).length = 28 := by
  simp [statusImage, allPorts]

theorem portImage_length (s : State) (k : Port) : (portImage s k).length = 17 := by simp [portImage]

theorem bytesOfReport_length (r : Report) : (bytesOfReport r).length = 64 := by simp [bytesOfReport]

theorem ringFlagsByte_eq (w : ReportWriter) :
    ringFlagsByte w = BitVec.ofNat 8 (w.writeInFlight.toNat + 2 * w.fullEpisode.toNat) := by
  simp [ringFlagsByte, wordOfBits]

theorem noticeFlagsByte_eq (q : NoticeQueue) : noticeFlagsByte q =
    BitVec.ofNat 8 (q.overflow.toNat + 2 * q.irqEnable.toNat + 4 * q.irqAsserted.toNat) := by
  unfold noticeFlagsByte
  congr 1
  simp [wordOfBits]
  omega

theorem portFlagsByte_eq (s : State) (k : Port) : portFlagsByte s k =
    BitVec.ofNat 8 ((s.accepting k).toNat + 2 * (s.port k).resetAsserted.toNat) := by
  simp [portFlagsByte, wordOfBits]

theorem windowFlagsByte_eq (f : WindowFlags) : windowFlagsByte f =
    BitVec.ofNat 8 (f.partialEnd.toNat + 2 * f.high.toNat + 4 * f.low.toNat + 8 * f.fallback.toNat) := by
  unfold windowFlagsByte
  congr 1
  simp [wordOfBits]
  omega

/-! ## Beats -/

/-- Byte `j` of the beat that holds these bytes. -/
theorem beatOfBytes_byte (l : List Byte) {j : Nat} (h : j < 16) :
    (beatOfBytes l).extractLsb' (8 * j) 8 = l.getD j 0 := by
  apply BitVec.eq_of_toNat_eq
  rw [← natOfLE_byte_at, BitVec.extractLsb'_toNat, beatOfBytes, BitVec.toNat_ofNat,
    Nat.shiftRight_eq_div_pow, show (256 : Nat) ^ j = 2 ^ (8 * j) by rw [Nat.pow_mul]]
  interval_cases j <;> omega

theorem beatsOfReport_getElem? (r : Report) {n : Nat} (h : n < 4) :
    (beatsOfReport r)[n]? = some (fullBeat (beatOfBytes (fieldAt (bytesOfReport r) (16 * n) 16))) := by
  simp [beatsOfReport, h]

/-- R187, log entry 12: the four beats of a report write carry the record's bytes in address order, every
byte enabled. -/
theorem beatsOfReport_byte (r : Report) {n j : Nat} (hn : n < 4) (hj : j < 16) :
    ∃ beat, (beatsOfReport r)[n]? = some beat ∧ beat.enables = 0xFFFF ∧
      (bytesOfReport r)[16 * n + j]? = some (beat.data.extractLsb' (8 * j) 8) := by
  refine ⟨_, beatsOfReport_getElem? r hn, rfl, ?_⟩
  simp only [fullBeat]
  rw [beatOfBytes_byte _ hj]
  have hl : 16 * n + j < (bytesOfReport r).length := by rw [bytesOfReport_length]; omega
  simp [fieldAt, hj, List.getD_eq_getElem?_getD, hl]

theorem bytesOfBeat_getElem? (b : Beat) {n : Nat} (h : n < 16) :
    (bytesOfBeat b)[n]? = some (b.extractLsb' (8 * n) 8) := by
  simp only [bytesOfBeat, List.getElem?_map, List.getElem?_range h, Option.map_some, Option.some.injEq]
  exact byte_of_div b (by rw [Nat.pow_mul])

theorem bytesOfBeat_length (b : Beat) : (bytesOfBeat b).length = 16 := by simp [bytesOfBeat]

theorem bytesOfRecordRead_length (data : List Beat) : (bytesOfRecordRead data).length = 32 := by
  simp [bytesOfRecordRead]

/-- R186: the bytes of a record are those of its two beats, in address order. -/
theorem bytesOfRecordRead_two (first second : Beat) {n : Nat} (h : n < 16) :
    (bytesOfRecordRead [first, second])[n]? = some (first.extractLsb' (8 * n) 8) ∧
    (bytesOfRecordRead [first, second])[16 + n]? = some (second.extractLsb' (8 * n) 8) := by
  have h1 : n < 32 := by omega
  have h2 : 16 + n < 32 := by omega
  have l1 := bytesOfBeat_length first
  simp only [bytesOfRecordRead, List.getElem?_map, List.getElem?_range h1, List.getElem?_range h2,
    Option.map_some, List.flatMap_cons, List.flatMap_nil, List.append_nil, List.getD_eq_getElem?_getD]
  rw [List.getElem?_append_left (by omega), List.getElem?_append_right (by omega), l1,
    show 16 + n - 16 = n by omega, bytesOfBeat_getElem? _ h, bytesOfBeat_getElem? _ h]
  simp

end Sys2Proof.Machine
end

