-- ==== Sys2Proof/Laws/State.lean ====
section
/-! SUPPORT. What each update of the state does to each field, one lemma per field per update, so that
no later proof unfolds a record update. -/

namespace Sys2Proof.Machine

open Sys2Proof

/-! ## Values per port -/

@[simp] theorem PerPort.get_set_same {α : Type} (v : PerPort α) (k : Port) (x : α) :
    (v.set k x).get k = x := by
  cases k <;> rfl

@[simp] theorem PerPort.get_set_ne {α : Type} (v : PerPort α) {j k : Port} (h : j ≠ k) (x : α) :
    (v.set k x).get j = v.get j := by
  cases j <;> cases k <;> first | rfl | exact absurd rfl h

@[simp] theorem PerPort.get_all {α : Type} (x : α) (k : Port) : (PerPort.all x).get k = x := by
  cases k <;> rfl

@[simp] theorem PerPort.get_map {α β : Type} (f : α → β) (v : PerPort α) (k : Port) :
    (v.map f).get k = f (v.get k) := by
  cases k <;> rfl

@[simp] theorem PerPort.set_set {α : Type} (v : PerPort α) (k : Port) (x y : α) :
    (v.set k x).set k y = v.set k y := by
  cases k <;> rfl

@[simp] theorem PerPort.set_get {α : Type} (v : PerPort α) (k : Port) : v.set k (v.get k) = v := by
  cases k <;> rfl

theorem PerPort.ext_get {α : Type} {v w : PerPort α} (h : ∀ k, v.get k = w.get k) : v = w := by
  cases v; cases w
  have h0 := h .rp0; have h1 := h .rp1; have h2 := h .rp2; have h3 := h .rp3
  simp only [PerPort.get] at h0 h1 h2 h3
  subst h0 h1 h2 h3; rfl

theorem State.port_def (s : State) (k : Port) : s.port k = s.ports.get k := rfl

/-! ## Each update, field by field -/


@[simp] theorem State.setPort_ports (s : State) (k : Port) (b : PortBlock) :
    (s.setPort k b).ports = s.ports.set k b := rfl
@[simp] theorem State.setPort_tableBase (s : State) (k : Port) (b : PortBlock) :
    (s.setPort k b).tableBase = s.tableBase := rfl
@[simp] theorem State.setPort_pool (s : State) (k : Port) (b : PortBlock) :
    (s.setPort k b).pool = s.pool := rfl
@[simp] theorem State.setPort_internalList (s : State) (k : Port) (b : PortBlock) :
    (s.setPort k b).internalList = s.internalList := rfl
@[simp] theorem State.setPort_roundRobin (s : State) (k : Port) (b : PortBlock) :
    (s.setPort k b).roundRobin = s.roundRobin := rfl
@[simp] theorem State.setPort_table (s : State) (k : Port) (b : PortBlock) :
    (s.setPort k b).table = s.table := rfl
@[simp] theorem State.setPort_memoryPort (s : State) (k : Port) (b : PortBlock) :
    (s.setPort k b).memoryPort = s.memoryPort := rfl
@[simp] theorem State.setPort_notices (s : State) (k : Port) (b : PortBlock) :
    (s.setPort k b).notices = s.notices := rfl
@[simp] theorem State.setPort_writer (s : State) (k : Port) (b : PortBlock) :
    (s.setPort k b).writer = s.writer := rfl
@[simp] theorem State.setPort_link (s : State) (k : Port) (b : PortBlock) :
    (s.setPort k b).link = s.link := rfl
@[simp] theorem State.setPort_rstAsserted (s : State) (k : Port) (b : PortBlock) :
    (s.setPort k b).rstAsserted = s.rstAsserted := rfl
@[simp] theorem State.setPort_refclkRunning (s : State) (k : Port) (b : PortBlock) :
    (s.setPort k b).refclkRunning = s.refclkRunning := rfl
@[simp] theorem State.setPort_ticks (s : State) (k : Port) (b : PortBlock) :
    (s.setPort k b).ticks = s.ticks := rfl
@[simp] theorem State.setPort_outputs (s : State) (k : Port) (b : PortBlock) :
    (s.setPort k b).outputs = s.outputs := rfl
@[simp] theorem State.setPort_choices (s : State) (k : Port) (b : PortBlock) :
    (s.setPort k b).choices = s.choices := rfl
@[simp] theorem State.setPort_pending (s : State) (k : Port) (b : PortBlock) :
    (s.setPort k b).pending = s.pending := rfl

@[simp] theorem State.setMeter_ports (s : State) (k : Port) (m : Meter) :
    (s.setMeter k m).ports = s.ports.set k { s.port k with meter := m } := rfl
@[simp] theorem State.setMeter_tableBase (s : State) (k : Port) (m : Meter) :
    (s.setMeter k m).tableBase = s.tableBase := rfl
@[simp] theorem State.setMeter_pool (s : State) (k : Port) (m : Meter) :
    (s.setMeter k m).pool = s.pool := rfl
@[simp] theorem State.setMeter_internalList (s : State) (k : Port) (m : Meter) :
    (s.setMeter k m).internalList = s.internalList := rfl
@[simp] theorem State.setMeter_roundRobin (s : State) (k : Port) (m : Meter) :
    (s.setMeter k m).roundRobin = s.roundRobin := rfl
@[simp] theorem State.setMeter_table (s : State) (k : Port) (m : Meter) :
    (s.setMeter k m).table = s.table := rfl
@[simp] theorem State.setMeter_memoryPort (s : State) (k : Port) (m : Meter) :
    (s.setMeter k m).memoryPort = s.memoryPort := rfl
@[simp] theorem State.setMeter_notices (s : State) (k : Port) (m : Meter) :
    (s.setMeter k m).notices = s.notices := rfl
@[simp] theorem State.setMeter_writer (s : State) (k : Port) (m : Meter) :
    (s.setMeter k m).writer = s.writer := rfl
@[simp] theorem State.setMeter_link (s : State) (k : Port) (m : Meter) :
    (s.setMeter k m).link = s.link := rfl
@[simp] theorem State.setMeter_rstAsserted (s : State) (k : Port) (m : Meter) :
    (s.setMeter k m).rstAsserted = s.rstAsserted := rfl
@[simp] theorem State.setMeter_refclkRunning (s : State) (k : Port) (m : Meter) :
    (s.setMeter k m).refclkRunning = s.refclkRunning := rfl
@[simp] theorem State.setMeter_ticks (s : State) (k : Port) (m : Meter) :
    (s.setMeter k m).ticks = s.ticks := rfl
@[simp] theorem State.setMeter_outputs (s : State) (k : Port) (m : Meter) :
    (s.setMeter k m).outputs = s.outputs := rfl
@[simp] theorem State.setMeter_choices (s : State) (k : Port) (m : Meter) :
    (s.setMeter k m).choices = s.choices := rfl
@[simp] theorem State.setMeter_pending (s : State) (k : Port) (m : Meter) :
    (s.setMeter k m).pending = s.pending := rfl

@[simp] theorem State.setController_ports (s : State) (k : Port) (c : Controller) :
    (s.setController k c).ports = s.ports.set k { s.port k with controller := c } := rfl
@[simp] theorem State.setController_tableBase (s : State) (k : Port) (c : Controller) :
    (s.setController k c).tableBase = s.tableBase := rfl
@[simp] theorem State.setController_pool (s : State) (k : Port) (c : Controller) :
    (s.setController k c).pool = s.pool := rfl
@[simp] theorem State.setController_internalList (s : State) (k : Port) (c : Controller) :
    (s.setController k c).internalList = s.internalList := rfl
@[simp] theorem State.setController_roundRobin (s : State) (k : Port) (c : Controller) :
    (s.setController k c).roundRobin = s.roundRobin := rfl
@[simp] theorem State.setController_table (s : State) (k : Port) (c : Controller) :
    (s.setController k c).table = s.table := rfl
@[simp] theorem State.setController_memoryPort (s : State) (k : Port) (c : Controller) :
    (s.setController k c).memoryPort = s.memoryPort := rfl
@[simp] theorem State.setController_notices (s : State) (k : Port) (c : Controller) :
    (s.setController k c).notices = s.notices := rfl
@[simp] theorem State.setController_writer (s : State) (k : Port) (c : Controller) :
    (s.setController k c).writer = s.writer := rfl
@[simp] theorem State.setController_link (s : State) (k : Port) (c : Controller) :
    (s.setController k c).link = s.link := rfl
@[simp] theorem State.setController_rstAsserted (s : State) (k : Port) (c : Controller) :
    (s.setController k c).rstAsserted = s.rstAsserted := rfl
@[simp] theorem State.setController_refclkRunning (s : State) (k : Port) (c : Controller) :
    (s.setController k c).refclkRunning = s.refclkRunning := rfl
@[simp] theorem State.setController_ticks (s : State) (k : Port) (c : Controller) :
    (s.setController k c).ticks = s.ticks := rfl
@[simp] theorem State.setController_outputs (s : State) (k : Port) (c : Controller) :
    (s.setController k c).outputs = s.outputs := rfl
@[simp] theorem State.setController_choices (s : State) (k : Port) (c : Controller) :
    (s.setController k c).choices = s.choices := rfl
@[simp] theorem State.setController_pending (s : State) (k : Port) (c : Controller) :
    (s.setController k c).pending = s.pending := rfl

@[simp] theorem State.setQueue_ports (s : State) (k : Port) (q : List QueueEntry) :
    (s.setQueue k q).ports = s.ports.set k { s.port k with queue := q } := rfl
@[simp] theorem State.setQueue_tableBase (s : State) (k : Port) (q : List QueueEntry) :
    (s.setQueue k q).tableBase = s.tableBase := rfl
@[simp] theorem State.setQueue_pool (s : State) (k : Port) (q : List QueueEntry) :
    (s.setQueue k q).pool = s.pool := rfl
@[simp] theorem State.setQueue_internalList (s : State) (k : Port) (q : List QueueEntry) :
    (s.setQueue k q).internalList = s.internalList := rfl
@[simp] theorem State.setQueue_roundRobin (s : State) (k : Port) (q : List QueueEntry) :
    (s.setQueue k q).roundRobin = s.roundRobin := rfl
@[simp] theorem State.setQueue_table (s : State) (k : Port) (q : List QueueEntry) :
    (s.setQueue k q).table = s.table := rfl
@[simp] theorem State.setQueue_memoryPort (s : State) (k : Port) (q : List QueueEntry) :
    (s.setQueue k q).memoryPort = s.memoryPort := rfl
@[simp] theorem State.setQueue_notices (s : State) (k : Port) (q : List QueueEntry) :
    (s.setQueue k q).notices = s.notices := rfl
@[simp] theorem State.setQueue_writer (s : State) (k : Port) (q : List QueueEntry) :
    (s.setQueue k q).writer = s.writer := rfl
@[simp] theorem State.setQueue_link (s : State) (k : Port) (q : List QueueEntry) :
    (s.setQueue k q).link = s.link := rfl
@[simp] theorem State.setQueue_rstAsserted (s : State) (k : Port) (q : List QueueEntry) :
    (s.setQueue k q).rstAsserted = s.rstAsserted := rfl
@[simp] theorem State.setQueue_refclkRunning (s : State) (k : Port) (q : List QueueEntry) :
    (s.setQueue k q).refclkRunning = s.refclkRunning := rfl
@[simp] theorem State.setQueue_ticks (s : State) (k : Port) (q : List QueueEntry) :
    (s.setQueue k q).ticks = s.ticks := rfl
@[simp] theorem State.setQueue_outputs (s : State) (k : Port) (q : List QueueEntry) :
    (s.setQueue k q).outputs = s.outputs := rfl
@[simp] theorem State.setQueue_choices (s : State) (k : Port) (q : List QueueEntry) :
    (s.setQueue k q).choices = s.choices := rfl
@[simp] theorem State.setQueue_pending (s : State) (k : Port) (q : List QueueEntry) :
    (s.setQueue k q).pending = s.pending := rfl

@[simp] theorem State.setNotices_ports (s : State) (q : NoticeQueue) :
    (s.setNotices q).ports = s.ports := rfl
@[simp] theorem State.setNotices_tableBase (s : State) (q : NoticeQueue) :
    (s.setNotices q).tableBase = s.tableBase := rfl
@[simp] theorem State.setNotices_pool (s : State) (q : NoticeQueue) : (s.setNotices q).pool = s.pool := rfl
@[simp] theorem State.setNotices_internalList (s : State) (q : NoticeQueue) :
    (s.setNotices q).internalList = s.internalList := rfl
@[simp] theorem State.setNotices_roundRobin (s : State) (q : NoticeQueue) :
    (s.setNotices q).roundRobin = s.roundRobin := rfl
@[simp] theorem State.setNotices_table (s : State) (q : NoticeQueue) :
    (s.setNotices q).table = s.table := rfl
@[simp] theorem State.setNotices_memoryPort (s : State) (q : NoticeQueue) :
    (s.setNotices q).memoryPort = s.memoryPort := rfl
@[simp] theorem State.setNotices_notices (s : State) (q : NoticeQueue) : (s.setNotices q).notices = q := rfl
@[simp] theorem State.setNotices_writer (s : State) (q : NoticeQueue) :
    (s.setNotices q).writer = s.writer := rfl
@[simp] theorem State.setNotices_link (s : State) (q : NoticeQueue) : (s.setNotices q).link = s.link := rfl
@[simp] theorem State.setNotices_rstAsserted (s : State) (q : NoticeQueue) :
    (s.setNotices q).rstAsserted = s.rstAsserted := rfl
@[simp] theorem State.setNotices_refclkRunning (s : State) (q : NoticeQueue) :
    (s.setNotices q).refclkRunning = s.refclkRunning := rfl
@[simp] theorem State.setNotices_ticks (s : State) (q : NoticeQueue) :
    (s.setNotices q).ticks = s.ticks := rfl
@[simp] theorem State.setNotices_outputs (s : State) (q : NoticeQueue) :
    (s.setNotices q).outputs = s.outputs := rfl
@[simp] theorem State.setNotices_choices (s : State) (q : NoticeQueue) :
    (s.setNotices q).choices = s.choices := rfl
@[simp] theorem State.setNotices_pending (s : State) (q : NoticeQueue) :
    (s.setNotices q).pending = s.pending := rfl

@[simp] theorem State.setWriter_ports (s : State) (w : ReportWriter) :
    (s.setWriter w).ports = s.ports := rfl
@[simp] theorem State.setWriter_tableBase (s : State) (w : ReportWriter) :
    (s.setWriter w).tableBase = s.tableBase := rfl
@[simp] theorem State.setWriter_pool (s : State) (w : ReportWriter) : (s.setWriter w).pool = s.pool := rfl
@[simp] theorem State.setWriter_internalList (s : State) (w : ReportWriter) :
    (s.setWriter w).internalList = s.internalList := rfl
@[simp] theorem State.setWriter_roundRobin (s : State) (w : ReportWriter) :
    (s.setWriter w).roundRobin = s.roundRobin := rfl
@[simp] theorem State.setWriter_table (s : State) (w : ReportWriter) :
    (s.setWriter w).table = s.table := rfl
@[simp] theorem State.setWriter_memoryPort (s : State) (w : ReportWriter) :
    (s.setWriter w).memoryPort = s.memoryPort := rfl
@[simp] theorem State.setWriter_notices (s : State) (w : ReportWriter) :
    (s.setWriter w).notices = s.notices := rfl
@[simp] theorem State.setWriter_writer (s : State) (w : ReportWriter) : (s.setWriter w).writer = w := rfl
@[simp] theorem State.setWriter_link (s : State) (w : ReportWriter) : (s.setWriter w).link = s.link := rfl
@[simp] theorem State.setWriter_rstAsserted (s : State) (w : ReportWriter) :
    (s.setWriter w).rstAsserted = s.rstAsserted := rfl
@[simp] theorem State.setWriter_refclkRunning (s : State) (w : ReportWriter) :
    (s.setWriter w).refclkRunning = s.refclkRunning := rfl
@[simp] theorem State.setWriter_ticks (s : State) (w : ReportWriter) :
    (s.setWriter w).ticks = s.ticks := rfl
@[simp] theorem State.setWriter_outputs (s : State) (w : ReportWriter) :
    (s.setWriter w).outputs = s.outputs := rfl
@[simp] theorem State.setWriter_choices (s : State) (w : ReportWriter) :
    (s.setWriter w).choices = s.choices := rfl
@[simp] theorem State.setWriter_pending (s : State) (w : ReportWriter) :
    (s.setWriter w).pending = s.pending := rfl

@[simp] theorem State.setTable_ports (s : State) (t : Vector (Option InFlight) 64) :
    (s.setTable t).ports = s.ports := rfl
@[simp] theorem State.setTable_tableBase (s : State) (t : Vector (Option InFlight) 64) :
    (s.setTable t).tableBase = s.tableBase := rfl
@[simp] theorem State.setTable_pool (s : State) (t : Vector (Option InFlight) 64) :
    (s.setTable t).pool = s.pool := rfl
@[simp] theorem State.setTable_internalList (s : State) (t : Vector (Option InFlight) 64) :
    (s.setTable t).internalList = s.internalList := rfl
@[simp] theorem State.setTable_roundRobin (s : State) (t : Vector (Option InFlight) 64) :
    (s.setTable t).roundRobin = s.roundRobin := rfl
@[simp] theorem State.setTable_table (s : State) (t : Vector (Option InFlight) 64) :
    (s.setTable t).table = t := rfl
@[simp] theorem State.setTable_memoryPort (s : State) (t : Vector (Option InFlight) 64) :
    (s.setTable t).memoryPort = s.memoryPort := rfl
@[simp] theorem State.setTable_notices (s : State) (t : Vector (Option InFlight) 64) :
    (s.setTable t).notices = s.notices := rfl
@[simp] theorem State.setTable_writer (s : State) (t : Vector (Option InFlight) 64) :
    (s.setTable t).writer = s.writer := rfl
@[simp] theorem State.setTable_link (s : State) (t : Vector (Option InFlight) 64) :
    (s.setTable t).link = s.link := rfl
@[simp] theorem State.setTable_rstAsserted (s : State) (t : Vector (Option InFlight) 64) :
    (s.setTable t).rstAsserted = s.rstAsserted := rfl
@[simp] theorem State.setTable_refclkRunning (s : State) (t : Vector (Option InFlight) 64) :
    (s.setTable t).refclkRunning = s.refclkRunning := rfl
@[simp] theorem State.setTable_ticks (s : State) (t : Vector (Option InFlight) 64) :
    (s.setTable t).ticks = s.ticks := rfl
@[simp] theorem State.setTable_outputs (s : State) (t : Vector (Option InFlight) 64) :
    (s.setTable t).outputs = s.outputs := rfl
@[simp] theorem State.setTable_choices (s : State) (t : Vector (Option InFlight) 64) :
    (s.setTable t).choices = s.choices := rfl
@[simp] theorem State.setTable_pending (s : State) (t : Vector (Option InFlight) 64) :
    (s.setTable t).pending = s.pending := rfl

@[simp] theorem State.setEntry_ports (s : State) (tag : Fin 64) (e : Option InFlight) :
    (s.setEntry tag e).ports = s.ports := rfl
@[simp] theorem State.setEntry_tableBase (s : State) (tag : Fin 64) (e : Option InFlight) :
    (s.setEntry tag e).tableBase = s.tableBase := rfl
@[simp] theorem State.setEntry_pool (s : State) (tag : Fin 64) (e : Option InFlight) :
    (s.setEntry tag e).pool = s.pool := rfl
@[simp] theorem State.setEntry_internalList (s : State) (tag : Fin 64) (e : Option InFlight) :
    (s.setEntry tag e).internalList = s.internalList := rfl
@[simp] theorem State.setEntry_roundRobin (s : State) (tag : Fin 64) (e : Option InFlight) :
    (s.setEntry tag e).roundRobin = s.roundRobin := rfl
@[simp] theorem State.setEntry_table (s : State) (tag : Fin 64) (e : Option InFlight) :
    (s.setEntry tag e).table = s.table.set tag.val e := rfl
@[simp] theorem State.setEntry_memoryPort (s : State) (tag : Fin 64) (e : Option InFlight) :
    (s.setEntry tag e).memoryPort = s.memoryPort := rfl
@[simp] theorem State.setEntry_notices (s : State) (tag : Fin 64) (e : Option InFlight) :
    (s.setEntry tag e).notices = s.notices := rfl
@[simp] theorem State.setEntry_writer (s : State) (tag : Fin 64) (e : Option InFlight) :
    (s.setEntry tag e).writer = s.writer := rfl
@[simp] theorem State.setEntry_link (s : State) (tag : Fin 64) (e : Option InFlight) :
    (s.setEntry tag e).link = s.link := rfl
@[simp] theorem State.setEntry_rstAsserted (s : State) (tag : Fin 64) (e : Option InFlight) :
    (s.setEntry tag e).rstAsserted = s.rstAsserted := rfl
@[simp] theorem State.setEntry_refclkRunning (s : State) (tag : Fin 64) (e : Option InFlight) :
    (s.setEntry tag e).refclkRunning = s.refclkRunning := rfl
@[simp] theorem State.setEntry_ticks (s : State) (tag : Fin 64) (e : Option InFlight) :
    (s.setEntry tag e).ticks = s.ticks := rfl
@[simp] theorem State.setEntry_outputs (s : State) (tag : Fin 64) (e : Option InFlight) :
    (s.setEntry tag e).outputs = s.outputs := rfl
@[simp] theorem State.setEntry_choices (s : State) (tag : Fin 64) (e : Option InFlight) :
    (s.setEntry tag e).choices = s.choices := rfl
@[simp] theorem State.setEntry_pending (s : State) (tag : Fin 64) (e : Option InFlight) :
    (s.setEntry tag e).pending = s.pending := rfl

@[simp] theorem State.emit_ports (s : State) (o : Output) : (s.emit o).ports = s.ports := rfl
@[simp] theorem State.emit_tableBase (s : State) (o : Output) : (s.emit o).tableBase = s.tableBase := rfl
@[simp] theorem State.emit_pool (s : State) (o : Output) : (s.emit o).pool = s.pool := rfl
@[simp] theorem State.emit_internalList (s : State) (o : Output) :
    (s.emit o).internalList = s.internalList := rfl
@[simp] theorem State.emit_roundRobin (s : State) (o : Output) : (s.emit o).roundRobin = s.roundRobin := rfl
@[simp] theorem State.emit_table (s : State) (o : Output) : (s.emit o).table = s.table := rfl
@[simp] theorem State.emit_memoryPort (s : State) (o : Output) : (s.emit o).memoryPort = s.memoryPort := rfl
@[simp] theorem State.emit_notices (s : State) (o : Output) : (s.emit o).notices = s.notices := rfl
@[simp] theorem State.emit_writer (s : State) (o : Output) : (s.emit o).writer = s.writer := rfl
@[simp] theorem State.emit_link (s : State) (o : Output) : (s.emit o).link = s.link := rfl
@[simp] theorem State.emit_rstAsserted (s : State) (o : Output) :
    (s.emit o).rstAsserted = s.rstAsserted := rfl
@[simp] theorem State.emit_refclkRunning (s : State) (o : Output) :
    (s.emit o).refclkRunning = s.refclkRunning := rfl
@[simp] theorem State.emit_ticks (s : State) (o : Output) : (s.emit o).ticks = s.ticks := rfl
@[simp] theorem State.emit_outputs (s : State) (o : Output) : (s.emit o).outputs = s.outputs ++ [o] := rfl
@[simp] theorem State.emit_choices (s : State) (o : Output) : (s.emit o).choices = s.choices := rfl
@[simp] theorem State.emit_pending (s : State) (o : Output) : (s.emit o).pending = s.pending := rfl

@[simp] theorem State.joinInternal_ports (s : State) (item : InternalItem) :
    (s.joinInternal item).ports = s.ports := rfl
@[simp] theorem State.joinInternal_tableBase (s : State) (item : InternalItem) :
    (s.joinInternal item).tableBase = s.tableBase := rfl
@[simp] theorem State.joinInternal_pool (s : State) (item : InternalItem) :
    (s.joinInternal item).pool = s.pool := rfl
@[simp] theorem State.joinInternal_internalList (s : State) (item : InternalItem) :
    (s.joinInternal item).internalList = s.internalList ++ [item] := rfl
@[simp] theorem State.joinInternal_roundRobin (s : State) (item : InternalItem) :
    (s.joinInternal item).roundRobin = s.roundRobin := rfl
@[simp] theorem State.joinInternal_table (s : State) (item : InternalItem) :
    (s.joinInternal item).table = s.table := rfl
@[simp] theorem State.joinInternal_memoryPort (s : State) (item : InternalItem) :
    (s.joinInternal item).memoryPort = s.memoryPort := rfl
@[simp] theorem State.joinInternal_notices (s : State) (item : InternalItem) :
    (s.joinInternal item).notices = s.notices := rfl
@[simp] theorem State.joinInternal_writer (s : State) (item : InternalItem) :
    (s.joinInternal item).writer = s.writer := rfl
@[simp] theorem State.joinInternal_link (s : State) (item : InternalItem) :
    (s.joinInternal item).link = s.link := rfl
@[simp] theorem State.joinInternal_rstAsserted (s : State) (item : InternalItem) :
    (s.joinInternal item).rstAsserted = s.rstAsserted := rfl
@[simp] theorem State.joinInternal_refclkRunning (s : State) (item : InternalItem) :
    (s.joinInternal item).refclkRunning = s.refclkRunning := rfl
@[simp] theorem State.joinInternal_ticks (s : State) (item : InternalItem) :
    (s.joinInternal item).ticks = s.ticks := rfl
@[simp] theorem State.joinInternal_outputs (s : State) (item : InternalItem) :
    (s.joinInternal item).outputs = s.outputs := rfl
@[simp] theorem State.joinInternal_choices (s : State) (item : InternalItem) :
    (s.joinInternal item).choices = s.choices := rfl
@[simp] theorem State.joinInternal_pending (s : State) (item : InternalItem) :
    (s.joinInternal item).pending = s.pending := rfl

@[simp] theorem State.respond_ports (s : State) (st : Status) (d : List Byte) :
    (s.respond st d).ports = s.ports := rfl
@[simp] theorem State.respond_tableBase (s : State) (st : Status) (d : List Byte) :
    (s.respond st d).tableBase = s.tableBase := rfl
@[simp] theorem State.respond_pool (s : State) (st : Status) (d : List Byte) :
    (s.respond st d).pool = s.pool := rfl
@[simp] theorem State.respond_internalList (s : State) (st : Status) (d : List Byte) :
    (s.respond st d).internalList = s.internalList := rfl
@[simp] theorem State.respond_roundRobin (s : State) (st : Status) (d : List Byte) :
    (s.respond st d).roundRobin = s.roundRobin := rfl
@[simp] theorem State.respond_table (s : State) (st : Status) (d : List Byte) :
    (s.respond st d).table = s.table := rfl
@[simp] theorem State.respond_memoryPort (s : State) (st : Status) (d : List Byte) :
    (s.respond st d).memoryPort = s.memoryPort := rfl
@[simp] theorem State.respond_notices (s : State) (st : Status) (d : List Byte) :
    (s.respond st d).notices = s.notices := rfl
@[simp] theorem State.respond_writer (s : State) (st : Status) (d : List Byte) :
    (s.respond st d).writer = s.writer := rfl
@[simp] theorem State.respond_link (s : State) (st : Status) (d : List Byte) :
    (s.respond st d).link = { s.link with response := ⟨st, d⟩ } := rfl
@[simp] theorem State.respond_rstAsserted (s : State) (st : Status) (d : List Byte) :
    (s.respond st d).rstAsserted = s.rstAsserted := rfl
@[simp] theorem State.respond_refclkRunning (s : State) (st : Status) (d : List Byte) :
    (s.respond st d).refclkRunning = s.refclkRunning := rfl
@[simp] theorem State.respond_ticks (s : State) (st : Status) (d : List Byte) :
    (s.respond st d).ticks = s.ticks := rfl
@[simp] theorem State.respond_outputs (s : State) (st : Status) (d : List Byte) :
    (s.respond st d).outputs = s.outputs := rfl
@[simp] theorem State.respond_choices (s : State) (st : Status) (d : List Byte) :
    (s.respond st d).choices = s.choices := rfl
@[simp] theorem State.respond_pending (s : State) (st : Status) (d : List Byte) :
    (s.respond st d).pending = s.pending := rfl

@[simp] theorem State.submit_ports (s : State) (n : Notice) : (s.submit n).ports = s.ports := rfl
@[simp] theorem State.submit_tableBase (s : State) (n : Notice) :
    (s.submit n).tableBase = s.tableBase := rfl
@[simp] theorem State.submit_pool (s : State) (n : Notice) : (s.submit n).pool = s.pool := rfl
@[simp] theorem State.submit_internalList (s : State) (n : Notice) :
    (s.submit n).internalList = s.internalList := rfl
@[simp] theorem State.submit_roundRobin (s : State) (n : Notice) :
    (s.submit n).roundRobin = s.roundRobin := rfl
@[simp] theorem State.submit_table (s : State) (n : Notice) : (s.submit n).table = s.table := rfl
@[simp] theorem State.submit_memoryPort (s : State) (n : Notice) :
    (s.submit n).memoryPort = s.memoryPort := rfl
@[simp] theorem State.submit_notices (s : State) (n : Notice) :
    (s.submit n).notices = s.notices.submit n := rfl
@[simp] theorem State.submit_writer (s : State) (n : Notice) : (s.submit n).writer = s.writer := rfl
@[simp] theorem State.submit_link (s : State) (n : Notice) : (s.submit n).link = s.link := rfl
@[simp] theorem State.submit_rstAsserted (s : State) (n : Notice) :
    (s.submit n).rstAsserted = s.rstAsserted := rfl
@[simp] theorem State.submit_refclkRunning (s : State) (n : Notice) :
    (s.submit n).refclkRunning = s.refclkRunning := rfl
@[simp] theorem State.submit_ticks (s : State) (n : Notice) : (s.submit n).ticks = s.ticks := rfl
@[simp] theorem State.submit_outputs (s : State) (n : Notice) : (s.submit n).outputs = s.outputs := rfl
@[simp] theorem State.submit_choices (s : State) (n : Notice) : (s.submit n).choices = s.choices := rfl
@[simp] theorem State.submit_pending (s : State) (n : Notice) : (s.submit n).pending = s.pending := rfl

@[simp] theorem State.submitAll_ports (s : State) (ns : List Notice) :
    (s.submitAll ns).ports = s.ports := rfl
@[simp] theorem State.submitAll_tableBase (s : State) (ns : List Notice) :
    (s.submitAll ns).tableBase = s.tableBase := rfl
@[simp] theorem State.submitAll_pool (s : State) (ns : List Notice) : (s.submitAll ns).pool = s.pool := rfl
@[simp] theorem State.submitAll_internalList (s : State) (ns : List Notice) :
    (s.submitAll ns).internalList = s.internalList := rfl
@[simp] theorem State.submitAll_roundRobin (s : State) (ns : List Notice) :
    (s.submitAll ns).roundRobin = s.roundRobin := rfl
@[simp] theorem State.submitAll_table (s : State) (ns : List Notice) :
    (s.submitAll ns).table = s.table := rfl
@[simp] theorem State.submitAll_memoryPort (s : State) (ns : List Notice) :
    (s.submitAll ns).memoryPort = s.memoryPort := rfl
@[simp] theorem State.submitAll_notices (s : State) (ns : List Notice) :
    (s.submitAll ns).notices = ns.foldl NoticeQueue.submit s.notices := rfl
@[simp] theorem State.submitAll_writer (s : State) (ns : List Notice) :
    (s.submitAll ns).writer = s.writer := rfl
@[simp] theorem State.submitAll_link (s : State) (ns : List Notice) : (s.submitAll ns).link = s.link := rfl
@[simp] theorem State.submitAll_rstAsserted (s : State) (ns : List Notice) :
    (s.submitAll ns).rstAsserted = s.rstAsserted := rfl
@[simp] theorem State.submitAll_refclkRunning (s : State) (ns : List Notice) :
    (s.submitAll ns).refclkRunning = s.refclkRunning := rfl
@[simp] theorem State.submitAll_ticks (s : State) (ns : List Notice) :
    (s.submitAll ns).ticks = s.ticks := rfl
@[simp] theorem State.submitAll_outputs (s : State) (ns : List Notice) :
    (s.submitAll ns).outputs = s.outputs := rfl
@[simp] theorem State.submitAll_choices (s : State) (ns : List Notice) :
    (s.submitAll ns).choices = s.choices := rfl
@[simp] theorem State.submitAll_pending (s : State) (ns : List Notice) :
    (s.submitAll ns).pending = s.pending := rfl

/-! ## Each update, seen through the block of a port -/

@[simp] theorem State.setNotices_port (s : State) (q : NoticeQueue) (k : Port) :
    (s.setNotices q).port k = s.port k := rfl
@[simp] theorem State.setWriter_port (s : State) (w : ReportWriter) (k : Port) :
    (s.setWriter w).port k = s.port k := rfl
@[simp] theorem State.setTable_port (s : State) (t : Vector (Option InFlight) 64) (k : Port) :
    (s.setTable t).port k = s.port k := rfl
@[simp] theorem State.setEntry_port (s : State) (tag : Fin 64) (e : Option InFlight) (k : Port) :
    (s.setEntry tag e).port k = s.port k := rfl
@[simp] theorem State.emit_port (s : State) (o : Output) (k : Port) :
    (s.emit o).port k = s.port k := rfl
@[simp] theorem State.joinInternal_port (s : State) (item : InternalItem) (k : Port) :
    (s.joinInternal item).port k = s.port k := rfl
@[simp] theorem State.respond_port (s : State) (st : Status) (d : List Byte) (k : Port) :
    (s.respond st d).port k = s.port k := rfl
@[simp] theorem State.submit_port (s : State) (n : Notice) (k : Port) :
    (s.submit n).port k = s.port k := rfl
@[simp] theorem State.submitAll_port (s : State) (ns : List Notice) (k : Port) :
    (s.submitAll ns).port k = s.port k := rfl

@[simp] theorem State.setPort_port_same (s : State) (k : Port) (b : PortBlock) :
    (s.setPort k b).port k = b := PerPort.get_set_same _ _ _

@[simp] theorem State.setPort_port_ne (s : State) {j k : Port} (h : j ≠ k) (b : PortBlock) :
    (s.setPort k b).port j = s.port j := PerPort.get_set_ne _ h _

@[simp] theorem State.setMeter_port_same (s : State) (k : Port) (m : Meter) :
    (s.setMeter k m).port k = { s.port k with meter := m } := PerPort.get_set_same _ _ _

@[simp] theorem State.setMeter_port_ne (s : State) {j k : Port} (h : j ≠ k) (m : Meter) :
    (s.setMeter k m).port j = s.port j := PerPort.get_set_ne _ h _

@[simp] theorem State.setController_port_same (s : State) (k : Port) (c : Controller) :
    (s.setController k c).port k = { s.port k with controller := c } := PerPort.get_set_same _ _ _

@[simp] theorem State.setController_port_ne (s : State) {j k : Port} (h : j ≠ k) (c : Controller) :
    (s.setController k c).port j = s.port j := PerPort.get_set_ne _ h _

@[simp] theorem State.setQueue_port_same (s : State) (k : Port) (q : List QueueEntry) :
    (s.setQueue k q).port k = { s.port k with queue := q } := PerPort.get_set_same _ _ _

@[simp] theorem State.setQueue_port_ne (s : State) {j k : Port} (h : j ≠ k) (q : List QueueEntry) :
    (s.setQueue k q).port j = s.port j := PerPort.get_set_ne _ h _

@[simp] theorem State.setPort_setPort (s : State) (k : Port) (b c : PortBlock) :
    (s.setPort k b).setPort k c = s.setPort k c := by
  simp [State.setPort]

@[simp] theorem State.setPort_self (s : State) (k : Port) : s.setPort k (s.port k) = s := by
  simp [State.setPort, State.port]

/-! ## A write to the in-flight table, seen through one entry -/

@[simp] theorem State.setEntry_get_same (s : State) (tag : Fin 64) (e : Option InFlight) :
    (s.setEntry tag e).table[tag.val] = e := by
  simp [State.setEntry_table]

theorem State.setEntry_get_ne (s : State) {tag other : Fin 64} (h : other ≠ tag)
    (e : Option InFlight) : (s.setEntry tag e).table[other.val] = s.table[other.val] := by
  have hv : tag.val ≠ other.val := fun hv => h (Fin.ext hv.symm)
  simp [State.setEntry_table, hv]

theorem orphanWhere_get (p : Owner → Bool) (t : Vector (Option InFlight) 64) (tag : Fin 64) :
    (orphanWhere p t)[tag.val] =
      (t[tag.val]).map fun f => if f.state == .live && p f.owner then f.orphan else f := by
  simp [orphanWhere]

/-! ## Conditions that depend on few fields -/

theorem State.operating_congr {s t : State} (h : t.refclkRunning = s.refclkRunning)
    (h' : t.rstAsserted = s.rstAsserted) : t.operating = s.operating := by
  simp [State.operating, h, h']

theorem State.liveCount_congr {s t : State} (h : t.table = s.table) (k : Port) :
    t.liveCount k = s.liveCount k := by
  simp [State.liveCount, h]

theorem State.heldCount_congr {s t : State} (h : t.table = s.table) (k : Port) :
    t.heldCount k = s.heldCount k := by
  simp [State.heldCount, h]

end Sys2Proof.Machine
end

