-- ==== Sys2Proof/Laws/Frames.lean ====
section
/-! SUPPORT. Happenings and frames: what a happening answers, and what the link does with a frame before
a command reaches its owner. -/

namespace Sys2Proof.Machine

open Sys2Proof

/-! ## Happenings -/

theorem happening_taken {e : Bool} (h : e = true) (s s' : State) : happening e s s' = .next s' := by
  subst h; rfl

theorem happening_not_taken {e : Bool} (h : e = false) (s s' : State) : happening e s s' = .next s := by
  subst h; rfl

theorem State.listening_operating {s : State} (h : s.listening = true) : s.operating = true := by
  simp only [State.listening, Bool.and_eq_true] at h; exact h.1

theorem State.Accepts.accepting {s : State} {k : Port} (h : s.Accepts k) : s.accepting k = true := by
  obtain ⟨h1, ⟨h2, h3⟩, h4⟩ := h
  rcases h1 with h1 | h1 | h1 <;> simp [State.accepting, PortState.open, *]

/-! ## Frames -/

theorem answered_def (s : State) (f : Frame) (status : Status) (data : List Byte) :
    (s.emit (quietMdo f)).respond status data = s.answered f status data := rfl

/-- A frame of the right length reaches the owner (R165, R170). -/
theorem takeFrame_whole (s : State) (args : List Byte) (owner : List Byte → State → State)
    (h : s.listening = true) :
    takeFrame args.length (wholeFrame args) s owner =
      .next (owner args (s.emit (quietMdo (wholeFrame args)))) := by
  simp [takeFrame, happening, h, wholeFrame]

/-- A frame of another length is refused with BAD_FRAME (R165 step 3). -/
theorem takeFrame_bad (s : State) (count : Nat) (f : Frame) (owner : List Byte → State → State)
    (h : s.listening = true) (hf : f.partialBits ≠ 0 ∨ f.args.length ≠ count) :
    takeFrame count f s owner = .next (s.answered f .badFrame []) := by
  have hn : ¬ (f.partialBits = 0 ∧ f.args.length = count) := by
    rintro ⟨a, b⟩; exact hf.elim (· a) (· b)
  unfold takeFrame
  rw [happening_taken h, if_neg hn]
  rfl

/-- A frame of the right length that names a port reaches the owner (R165 step 4, R171). -/
theorem takePortFrame_whole (s : State) (k : Port) (args : List Byte)
    (owner : Port → List Byte → State → State) (h : s.listening = true) :
    takePortFrame (args.length + 1) (wholeFrame (portByte k :: args)) s owner =
      .next (owner k args (s.emit (quietMdo (wholeFrame (portByte k :: args))))) := by
  simp [takePortFrame, takeFrame, happening, h, wholeFrame]

/-- A frame of the right length whose port argument names none is refused with BAD_ARG (R165 step 4). -/
theorem takePortFrame_no_port (s : State) (count : Nat) (f : Frame)
    (owner : Port → List Byte → State → State) (h : s.listening = true) (hp : f.partialBits = 0)
    (hl : f.args.length = count) (hn : portOfByte (f.args.headD 0) = none) :
    takePortFrame count f s owner = .next (s.answered f .badArg []) := by
  unfold takePortFrame takeFrame
  rw [happening_taken h, if_pos ⟨hp, hl⟩]
  simp only [hn]
  rfl

/-! ## Notices -/

theorem NoticeQueue.submit_room (q : NoticeQueue) (n : Notice) (h : q.records.length < 32) :
    q.submit n = { q with records := q.records ++ [n] } := if_pos h

theorem NoticeQueue.submit_full (q : NoticeQueue) (n : Notice) (h : 32 ≤ q.records.length) :
    q.submit n = { q with overflow := true } := if_neg (Nat.not_lt.2 h)

theorem NoticeQueue.submit_bounded (q : NoticeQueue) (n : Notice) (h : q.records.length ≤ 32) :
    (q.submit n).records.length ≤ 32 := by
  unfold NoticeQueue.submit
  split
  · simp; omega
  · exact h

theorem NoticeQueue.submit_irqEnable (q : NoticeQueue) (n : Notice) :
    (q.submit n).irqEnable = q.irqEnable := by
  unfold NoticeQueue.submit; split <;> rfl

@[simp] theorem State.submitAll_nil (s : State) : s.submitAll [] = s := rfl

theorem State.submitAll_cons (s : State) (n : Notice) (ns : List Notice) :
    s.submitAll (n :: ns) = (s.submit n).submitAll ns := rfl

end Sys2Proof.Machine
end

