-- ==== Sys2Proof/Laws/Evaluation.lean ====
section
/-! SUPPORT. Evaluation: what the meter decides about an entry, what one evaluation does to the queue, the
meter and the state, and what a grant and a refusal do (R27 to R33). -/

namespace Sys2Proof.Machine

open Sys2Proof

/-! ## Queues -/

theorem waitingRest_allAdmitted {q : List QueueEntry} (h : AllAdmitted q) : waitingRest q = [] := by
  simp only [waitingRest, List.dropWhile_eq_nil_iff]
  intro e he
  simp [h e he]

theorem allAdmitted_of_waitingRest {q : List QueueEntry} (h : waitingRest q = []) : AllAdmitted q := by
  simp only [waitingRest, List.dropWhile_eq_nil_iff] at h
  intro e he
  simpa using h e he

/-- The first WAITING entry of a queue written as a run and the rest (R5). -/
theorem waitingRest_run {run : List QueueEntry} {e : QueueEntry} (rest : List QueueEntry)
    (h : AllAdmitted run) (he : e.status = .waiting) :
    waitingRest (run ++ e :: rest) = e :: rest ∧ admittedRun (run ++ e :: rest) = run := by
  induction run with
  | nil => simp [waitingRest, admittedRun, he]
  | cons x run ih =>
    have hx := h x (by simp)
    have := ih (fun y hy => h y (by simp [hy]))
    simp only [waitingRest, admittedRun] at this ⊢
    simp [hx, this]

theorem allAdmitted_append_admit {run : List QueueEntry} (h : AllAdmitted run) (e : QueueEntry) :
    AllAdmitted (run ++ [e.markAdmitted]) := by
  intro x hx
  rcases List.mem_append.1 hx with hx | hx
  · exact h x hx
  · rw [List.mem_singleton.1 hx]; rfl

/-! ## The decision about one entry -/

theorem decideEntry_out (k : Port) (i : Installed) (m : Meter) (r : Request)
    (h : inScope i.profile.scope r.kind = false) :
    decideEntry k i m r = .admission { m with counters := { m.counters with
      unmetered := min (m.counters.unmetered + r.beats) 16777215 } } [] := by
  simp [decideEntry, h, saturate, maxBeats]

/-- R28: in scope, a request that passes is admitted, debited and counted. -/
theorem decideEntry_passes (k : Port) (i : Installed) (m : Meter) (r : Request)
    (hs : inScope i.profile.scope r.kind = true) (hp : PassesTest i m r) :
    decideEntry k i m r =
      .admission (crossHighMark k i (debited i m r)).1 (crossHighMark k i (debited i m r)).2 := by
  unfold PassesTest at hp
  simp only [decideEntry, hs, if_true, debited]
  cases hm : i.profile.mode <;> simp only [hm] at hp ⊢ <;> cases hk : r.kind <;>
    simp [hp, hk, admitInScope, Counters.addMetered, saturate, maxBeats]

/-- R29, R30: in scope, a request that fails is claimed for or refused. -/
theorem decideEntry_fails (k : Port) (i : Installed) (m : Meter) (r : Request)
    (hs : inScope i.profile.scope r.kind = true) (hp : ¬ PassesTest i m r) :
    decideEntry k i m r =
      if i.profile.flags.borrow then .claim (shortfallOf i m r) else .refuse := by
  unfold PassesTest at hp
  simp only [decideEntry, hs, if_true]
  cases hm : i.profile.mode <;> simp [hm, shortfallOf] at hp ⊢ <;> omega

/-- R33: the high mark, with its one condition. -/
theorem crossHighMark_eq (k : Port) (i : Installed) (m : Meter) :
    crossHighMark k i m = if crossesHigh i m then ({ m with highSeen := true },
      if i.profile.flags.nHigh then
        [{ kind := .high, port := some k, seqNo := m.seqNo, index := i.index,
           detail := min (chargedBeats m) 65535 }]
      else []) else (m, []) := by
  by_cases h : crossesHigh i m = true
  · rw [if_pos h]
    simp only [crossesHigh, decide_eq_true_eq] at h
    exact if_pos h
  · rw [if_neg h]
    simp only [crossesHigh, decide_eq_true_eq] at h
    exact if_neg h

/-- What no decision changes of the meter. -/
theorem decideEntry_keeps {k : Port} {i : Installed} {m m' : Meter} {r : Request} {ns : List Notice}
    (h : decideEntry k i m r = .admission m' ns) :
    m'.snapshot = m.snapshot ∧ m'.seqNo = m.seqNo ∧ m'.timeRemaining = m.timeRemaining ∧
      m'.windowRunning = m.windowRunning ∧ m'.installed = m.installed ∧ m'.claim = m.claim := by
  by_cases hs : inScope i.profile.scope r.kind = true
  · by_cases hp : PassesTest i m r
    · rw [decideEntry_passes _ _ _ _ hs hp, crossHighMark_eq] at h
      injection h with h1
      subst h1
      split <;> simp [debited]
    · rw [decideEntry_fails _ _ _ _ hs hp] at h
      split at h <;> cases h
  · rw [decideEntry_out _ _ _ _ (by simpa using hs)] at h
    injection h with h1
    subst h1
    simp

/-! ## One evaluation of a queue -/

theorem evaluateQueue_run (k : Port) (i : Installed) (m : Meter) (run rest : List QueueEntry)
    (h : AllAdmitted run) : evaluateQueue k i m (run ++ rest) =
      { evaluateQueue k i m rest with queue := run ++ (evaluateQueue k i m rest).queue } := by
  induction run with
  | nil => rfl
  | cons e run ih =>
    have he : e.status = .admitted := h e (by simp)
    have := ih (fun x hx => h x (by simp [hx]))
    simp [evaluateQueue, he, this]

theorem evaluateQueue_allAdmitted (k : Port) (i : Installed) (m : Meter) {q : List QueueEntry}
    (h : AllAdmitted q) : evaluateQueue k i m q = ⟨m, q, [], []⟩ := by
  simpa [evaluateQueue] using evaluateQueue_run k i m q [] h

/-- Everything an evaluation keeps of the meter (R27). -/
theorem evaluateQueue_meter (k : Port) (i : Installed) (m : Meter) (q : List QueueEntry) :
    (evaluateQueue k i m q).meter.snapshot = m.snapshot ∧
    (evaluateQueue k i m q).meter.seqNo = m.seqNo ∧
    (evaluateQueue k i m q).meter.timeRemaining = m.timeRemaining ∧
    (evaluateQueue k i m q).meter.windowRunning = m.windowRunning ∧
    (evaluateQueue k i m q).meter.installed = m.installed := by
  induction q generalizing m with
  | nil => simp [evaluateQueue]
  | cons e rest ih =>
    cases hs : e.status with
    | admitted => simpa only [evaluateQueue, hs] using ih m
    | waiting =>
      simp only [evaluateQueue, hs]
      split
      · rename_i m' ns hd
        obtain ⟨a, b, c, d, f⟩ := ih m'
        obtain ⟨h1, h2, h3, h4, h5, -⟩ := decideEntry_keeps hd
        exact ⟨a.trans h1, b.trans h2, c.trans h3, d.trans h4, f.trans h5⟩
      · unfold Meter.refuse
        split <;> exact ⟨rfl, rfl, rfl, rfl, rfl⟩
      · exact ⟨rfl, rfl, rfl, rfl, rfl⟩

/-- Everything an evaluation can send: claims (R30). -/
theorem evaluateQueue_messages (k : Port) (i : Installed) (m : Meter) (q : List QueueEntry) :
    ∀ x ∈ (evaluateQueue k i m q).messages, ∃ n, x = .claim n := by
  induction q generalizing m with
  | nil => simp [evaluateQueue]
  | cons e rest ih =>
    cases hs : e.status with
    | admitted => simpa only [evaluateQueue, hs] using ih m
    | waiting =>
      simp only [evaluateQueue, hs]
      split
      · exact ih _
      · simp
      · simp

/-- An evaluation keeps every entry in its place, with its request and its held-closes count, and an
ADMITTED entry whole (R27). -/
theorem evaluateQueue_entries (k : Port) (i : Installed) (m : Meter) (q : List QueueEntry) :
    List.Forall₂ (fun e e' : QueueEntry => e'.request = e.request ∧ e'.heldCloses = e.heldCloses ∧
      (e.status = .admitted → e' = e)) q (evaluateQueue k i m q).queue := by
  have same : ∀ l : List QueueEntry, List.Forall₂ (fun e e' : QueueEntry =>
      e'.request = e.request ∧ e'.heldCloses = e.heldCloses ∧ (e.status = .admitted → e' = e)) l l :=
    fun l => List.forall₂_same.2 fun _ _ => ⟨rfl, rfl, fun _ => rfl⟩
  induction q generalizing m with
  | nil => exact List.Forall₂.nil
  | cons e rest ih =>
    cases hs : e.status with
    | admitted =>
      simp only [evaluateQueue, hs]
      exact List.Forall₂.cons ⟨rfl, rfl, fun _ => rfl⟩ (ih m)
    | waiting =>
      have hna : ¬ e.status = .admitted := by rw [hs]; exact EntryStatus.noConfusion
      simp only [evaluateQueue, hs]
      split
      · exact List.Forall₂.cons ⟨rfl, rfl, fun h => absurd h hna⟩ (ih _)
      · exact List.Forall₂.cons ⟨rfl, rfl, fun h => absurd h hna⟩ (same rest)
      · exact same (e :: rest)

/-! ## Evaluation of the state -/

/-- Where a window runs and no claim is outstanding, an evaluation is the evaluation of the queue. -/
theorem evaluate_eq {s : State} {k : Port} {i : Installed} (hw : (s.port k).windowRuns = true)
    (hi : (s.port k).meter.installed = some i) (hc : (s.port k).meter.claim = none) :
    evaluate k s = s.applyEvaluated k (evaluateQueue k i (s.port k).meter (s.port k).queue) := by
  simp [evaluate, hi, hw, hc]

theorem applyEvaluated_same (s : State) (k : Port) :
    s.applyEvaluated k ⟨(s.port k).meter, (s.port k).queue, [], []⟩ = s := by
  simp only [State.applyEvaluated, State.submitAll_nil, List.append_nil]
  exact State.setPort_self s k

/-- R27: when an evaluation does nothing. -/
theorem evaluate_idle {s : State} {k : Port}
    (h : (s.port k).windowRuns = false ∨ (s.port k).meter.claim.isSome = true ∨
      AllAdmitted (s.port k).queue) : evaluate k s = s := by
  unfold evaluate
  split
  · rfl
  · split
    · rename_i hc
      simp only [Bool.and_eq_true] at hc
      rcases h with h | h | h
      · simp [h] at hc
      · cases hcl : (s.port k).meter.claim <;> simp [hcl] at h hc
      · rw [evaluateQueue_allAdmitted _ _ _ h, applyEvaluated_same]
    · rfl

/-- An evaluation changes nothing but the ports and the notice queue. -/
theorem evaluate_frame (k : Port) (s : State) :
    evaluate k s = { s with ports := (evaluate k s).ports, notices := (evaluate k s).notices } := by
  unfold evaluate
  split
  · rfl
  · split <;> rfl

/-- An evaluation of port `k` leaves the other ports alone. -/
theorem evaluate_port_ne (k : Port) (s : State) {j : Port} (h : j ≠ k) :
    (evaluate k s).port j = s.port j := by
  unfold evaluate
  split
  · rfl
  · split
    · simp [State.applyEvaluated, h]
    · rfl

/-- Everything an evaluation does to its own port: the meter, the queue and the claims sent; the queue
and the meter keep what `evaluateQueue_entries` and `evaluateQueue_meter` say. -/
theorem evaluate_port_same (k : Port) (s : State) :
    ∃ (m : Meter) (q : List QueueEntry) (claims : List PoolMessage),
      (evaluate k s).port k =
        { s.port k with meter := m, queue := q, toPool := (s.port k).toPool ++ claims } ∧
      (∀ x ∈ claims, ∃ n, x = .claim n) ∧
      m.snapshot = (s.port k).meter.snapshot ∧ m.seqNo = (s.port k).meter.seqNo ∧
      m.timeRemaining = (s.port k).meter.timeRemaining ∧
      m.windowRunning = (s.port k).meter.windowRunning ∧ m.installed = (s.port k).meter.installed ∧
      List.Forall₂ (fun e e' : QueueEntry => e'.request = e.request ∧ e'.heldCloses = e.heldCloses ∧
        (e.status = .admitted → e' = e)) (s.port k).queue q := by
  have still : ∃ (m : Meter) (q : List QueueEntry) (claims : List PoolMessage),
      s.port k = { s.port k with meter := m, queue := q, toPool := (s.port k).toPool ++ claims } ∧
      (∀ x ∈ claims, ∃ n, x = .claim n) ∧
      m.snapshot = (s.port k).meter.snapshot ∧ m.seqNo = (s.port k).meter.seqNo ∧
      m.timeRemaining = (s.port k).meter.timeRemaining ∧
      m.windowRunning = (s.port k).meter.windowRunning ∧ m.installed = (s.port k).meter.installed ∧
      List.Forall₂ (fun e e' : QueueEntry => e'.request = e.request ∧ e'.heldCloses = e.heldCloses ∧
        (e.status = .admitted → e' = e)) (s.port k).queue q :=
    ⟨_, _, [], by rw [List.append_nil], by simp, rfl, rfl, rfl, rfl, rfl,
      List.forall₂_same.2 fun _ _ => ⟨rfl, rfl, fun _ => rfl⟩⟩
  unfold evaluate
  split
  · exact still
  · rename_i i _
    split
    · obtain ⟨a, b, c, d, f⟩ := evaluateQueue_meter k i (s.port k).meter (s.port k).queue
      exact ⟨(evaluateQueue k i (s.port k).meter (s.port k).queue).meter,
        (evaluateQueue k i (s.port k).meter (s.port k).queue).queue,
        (evaluateQueue k i (s.port k).meter (s.port k).queue).messages,
        by simp only [State.applyEvaluated, State.submitAll_port, State.setPort_port_same],
        evaluateQueue_messages k i _ _, a, b, c, d, f, evaluateQueue_entries k i _ _⟩
    · exact still

/-- What the controller holds beside the port state plays no part in an evaluation (R27). -/
theorem evaluate_setController (k : Port) (s : State) (c : Controller)
    (h : c.portState = (s.port k).controller.portState) :
    evaluate k (s.setController k c) = (evaluate k s).setController k c := by
  have hw : (({ s.port k with controller := c } : PortBlock)).windowRuns = (s.port k).windowRuns := by
    simp [PortBlock.windowRuns, h]
  unfold evaluate
  simp only [State.setController_port_same, hw]
  split
  · rfl
  · split
    · have hset : ∀ (t : State) (b : PortBlock) (ns : List Notice),
          (t.submitAll ns).setPort k b = (t.setPort k b).submitAll ns := fun _ _ _ => rfl
      simp only [State.applyEvaluated, State.setController, State.setPort_port_same, State.setPort_setPort,
        hset, State.submitAll_port]
    · rfl

/-! ## Grants, refusals, mass admission -/

/-- R31: a current grant, in the terms of `granted`. -/
theorem grantQueue_eq (k : Port) (i : Installed) (n : Nat) (m : Meter) {q run rest : List QueueEntry}
    {e : QueueEntry} (h1 : waitingRest q = e :: rest) (h2 : admittedRun q = run) (h3 : m.claim = none) :
    grantQueue k i n m q =
      { evaluateQueue k i (crossHighMark k i (granted i n m e.request)).1 rest with
        queue := run ++ e.markAdmitted ::
          (evaluateQueue k i (crossHighMark k i (granted i n m e.request)).1 rest).queue
        notices := (crossHighMark k i (granted i n m e.request)).2 ++
          (evaluateQueue k i (crossHighMark k i (granted i n m e.request)).1 rest).notices } := by
  have paid : ({ m with
      used := if i.profile.mode = .cap then i.profile.budget else m.used
      credit := if i.profile.mode = .bucket then 0 else m.credit
      counters := { m.counters.addMetered e.request with
        borrowed := saturate maxBeats ((m.counters.addMetered e.request).borrowed + n) } } : Meter) =
      granted i n m e.request := by
    simp only [granted, Counters.addMetered, saturate, maxBeats, h3]
    cases e.request.kind <;> rfl
  unfold grantQueue
  rw [h1, h2]
  exact congrArg (fun x => ({ evaluateQueue k i (crossHighMark k i x).1 rest with
    queue := run ++ e.markAdmitted :: (evaluateQueue k i (crossHighMark k i x).1 rest).queue
    notices := (crossHighMark k i x).2 ++
      (evaluateQueue k i (crossHighMark k i x).1 rest).notices } : Evaluated)) paid

theorem refuseQueue_eq (m : Meter) {q run rest : List QueueEntry} {e : QueueEntry}
    (h1 : waitingRest q = e :: rest) (h2 : admittedRun q = run) :
    refuseQueue m q = ⟨m.refuse e, run ++ e.markRefused :: rest, [], []⟩ := by
  simp only [refuseQueue, h1, h2]

theorem staleClaim_claim (m : Meter) : m.staleClaim = { m with claim := staled m.claim } := rfl

/-- R9: the mass admission. -/
theorem massAdmit_eq (k : Port) (s : State) : massAdmit k s = s.setPort k { s.port k with
    queue := (s.port k).queue.map fun e => { e with status := .admitted }
    meter := { (s.port k).meter with claim := staled (s.port k).meter.claim } } := rfl

end Sys2Proof.Machine
end

