-- ==== Sys2Proof/Laws/Windows.lean ====
section
/-! SUPPORT. Windows: what the steps of a close, the early end, the start of a window and an install do to
the block of their port (R36, R37, R41 to R43). -/

namespace Sys2Proof.Machine

open Sys2Proof

/-- A close that is due is the nine steps of `closeWindow`. -/
theorem windowClose_due {s : State} {k : Port} {i : Installed} (ho : s.operating = true)
    (hw : (s.port k).windowRuns = true) (ht : (s.port k).meter.timeRemaining = 0)
    (hi : (s.port k).meter.installed = some i) :
    exec (.windowClose k) s = .next (closeWindow k i s) := by
  simp [exec, execWindowClose, happening, ho, State.closeDue, hw, ht, hi]

/-! ## What stays outside the port -/

/-- Nothing but the ports, the notice queue and the internal pending list may change, and of the ports only
`k`. -/
def Confined (k : Port) (s t : State) : Prop :=
  t = { s with ports := t.ports, notices := t.notices, internalList := t.internalList } ∧
    ∀ j, j ≠ k → t.port j = s.port j

theorem Confined.refl (k : Port) (s : State) : Confined k s s := ⟨rfl, fun _ _ => rfl⟩

theorem Confined.trans {k : Port} {s t u : State} (h : Confined k s t) (h' : Confined k t u) :
    Confined k s u := by
  refine ⟨?_, fun j hj => (h'.2 j hj).trans (h.2 j hj)⟩
  rw [h'.1, h.1]

theorem Confined.setPort (k : Port) (s : State) (b : PortBlock) : Confined k s (s.setPort k b) :=
  ⟨rfl, fun j hj => by simp [hj]⟩

theorem Confined.setMeter (k : Port) (s : State) (m : Meter) : Confined k s (s.setMeter k m) :=
  Confined.setPort ..

theorem Confined.setController (k : Port) (s : State) (c : Controller) :
    Confined k s (s.setController k c) := Confined.setPort ..

theorem Confined.submit (k : Port) (s : State) (n : Notice) : Confined k s (s.submit n) :=
  ⟨rfl, fun _ _ => rfl⟩

/-- Two states confined to the same port of the same state are equal if they agree on what is left open. -/
theorem Confined.ext {k : Port} {s t u : State} (ht : Confined k s t) (hu : Confined k s u)
    (hp : t.port k = u.port k) (hn : t.notices = u.notices) (hl : t.internalList = u.internalList) :
    t = u := by
  have hports : t.ports = u.ports := by
    refine PerPort.ext_get fun j => ?_
    by_cases hj : j = k
    · subst hj; exact hp
    · exact (ht.2 j hj).trans (hu.2 j hj).symm
  rw [ht.1, hu.1, hports, hn, hl]

theorem Confined.evaluate (k : Port) (s : State) : Confined k s (evaluate k s) :=
  ⟨by rw [evaluate_frame k s], fun _ h => evaluate_port_ne k s h⟩

theorem Confined.startLoad (k : Port) (index : Byte) (s : State) : Confined k s (startLoad k index s) :=
  (Confined.setPort ..).trans ⟨rfl, fun _ _ => rfl⟩

theorem Confined.submitReport (k : Port) (i : Installed) (s : State) :
    Confined k s (submitReport k i s) := by
  unfold Machine.submitReport
  split
  · exact Confined.setPort ..
  · exact Confined.refl ..

theorem Confined.closeLowMark (k : Port) (i : Installed) (s : State) :
    Confined k s (closeLowMark k i s) := by
  unfold Machine.closeLowMark
  simp only []
  split
  · split
    · exact (Confined.setMeter ..).trans (Confined.submit ..)
    · exact Confined.setMeter ..
  · exact Confined.refl ..

theorem Confined.closeDonate (k : Port) (i : Installed) (s : State) :
    Confined k s (closeDonate k i s) := by
  unfold Machine.closeDonate
  split
  · exact Confined.refl ..
  · exact Confined.setPort ..

theorem Confined.closeRefill (k : Port) (i : Installed) (s : State) :
    Confined k s (closeRefill k i s) := by
  unfold Machine.closeRefill
  split
  · exact Confined.refl ..
  · exact Confined.setMeter ..
  · exact Confined.setMeter ..

theorem Confined.closeHold (k : Port) (i : Installed) (s : State) : Confined k s (closeHold k i s) := by
  unfold Machine.closeHold
  simp only []
  split
  · exact (Confined.setPort ..).trans (Confined.submit ..)
  · exact Confined.setPort ..

theorem Confined.closeSignal (k : Port) (i : Installed) (s : State) :
    Confined k s (closeSignal k i s) := by
  unfold Machine.closeSignal
  simp only []
  split
  · split
    · split
      · exact (Confined.setController ..).trans (Confined.startLoad ..)
      · split
        · exact (Confined.setController ..).trans (Confined.submit ..)
        · exact Confined.setController ..
    · exact Confined.setController ..
  · exact Confined.refl ..

/-- A close is confined to its port (R36). -/
theorem Confined.closeWindow (k : Port) (i : Installed) (s : State) :
    Confined k s (closeWindow k i s) :=
  (((((((((Confined.setMeter ..).trans (Confined.closeLowMark ..)).trans
    (Confined.closeDonate ..)).trans (Confined.closeRefill ..)).trans (Confined.setMeter ..)).trans
    (Confined.evaluate ..)).trans (Confined.closeHold ..)).trans (Confined.closeSignal ..)).trans
    (Confined.submitReport ..))

/-! ## The steps of a close -/

/-- The donation a close sends, from the amount of it (R36 step 3). -/
theorem donationAtClose_eq (i : Installed) (m : Meter) : donationAtClose i m =
    if donationOf i.profile m = 0 then [] else [.donation (donationOf i.profile m)] := by
  unfold donationOf donationAtClose
  cases hs : i.profile.flags.share <;> cases hm : i.profile.mode <;> simp
  · by_cases h : m.used < i.profile.budget <;> simp [h] <;> omega
  · by_cases h : i.profile.ceiling < m.credit + i.profile.budget <;> simp [h] <;> omega

/-- The state at the re-evaluation of a close: steps 1 to 5 of R36. -/
def closeUpTo5 (k : Port) (i : Installed) (s : State) : State :=
  closeNewWindow k i (closeRefill k i (closeDonate k i (closeLowMark k i (closeSnapshot k i s))))

theorem closeWindow_steps (k : Port) (i : Installed) (s : State) : closeWindow k i s =
    submitReport k i (closeSignal k i (closeHold k i (evaluate k (closeUpTo5 k i s)))) := rfl

/-- R39: the snapshot an end of a window takes. -/
theorem endSnapshot_eq (b : PortBlock) (i : Installed) (early : Bool) (hi : b.meter.installed = some i) :
    endSnapshot b i early = snapshotAtEnd b i early false := by
  cases hm : i.profile.mode <;> simp only [endSnapshot, snapshotAtEnd, Meter.allowance, hi, hm]

theorem closeSnapshot_port (k : Port) (i : Installed) (s : State)
    (hi : (s.port k).meter.installed = some i) :
    (closeSnapshot k i s).port k = { s.port k with meter := { (s.port k).meter with
      claim := staled (s.port k).meter.claim, snapshot := snapshotAtEnd (s.port k) i false false } } := by
  simp only [closeSnapshot, State.setMeter_port_same, endSnapshot_eq _ i false hi, Meter.staleClaim, staled]

theorem closeLowMark_port (k : Port) (i : Installed) (s : State)
    (hi : (s.port k).meter.installed = some i) :
    (closeLowMark k i (closeSnapshot k i s)).port k = { s.port k with meter := { (s.port k).meter with
      claim := staled (s.port k).meter.claim
      snapshot := snapshotAtEnd (s.port k) i false (missesLowMark i (s.port k).meter) } } := by
  unfold closeLowMark
  simp only [closeSnapshot_port k i s hi, Counters.metered, missesLowMark]
  split
  · rename_i h
    split
    · simp only [State.submit_port, State.setMeter_port_same, closeSnapshot_port k i s hi]
      simp [snapshotAtEnd, h]
    · simp only [State.setMeter_port_same, closeSnapshot_port k i s hi]
      simp [snapshotAtEnd, h]
  · rename_i h
    simp only [closeSnapshot_port k i s hi, snapshotAtEnd, decide_eq_false h]

/-- Steps 1 to 5 of R36: the meter at the re-evaluation, and the donation sent. -/
theorem closeUpTo5_port (k : Port) (i : Installed) (s : State)
    (hi : (s.port k).meter.installed = some i) :
    (closeUpTo5 k i s).port k =
      { s.port k with
        toPool := (s.port k).toPool ++ donationAtClose i (s.port k).meter
        meter := { (s.port k).meter with
          claim := staled (s.port k).meter.claim
          snapshot := snapshotAtEnd (s.port k) i false (missesLowMark i (s.port k).meter)
          used := if i.profile.mode = .cap then 0 else (s.port k).meter.used
          credit := if i.profile.mode = .bucket then
              min ((s.port k).meter.credit + i.profile.budget) i.profile.ceiling
            else (s.port k).meter.credit
          counters := Counters.zero, highSeen := false, seqNo := (s.port k).meter.seqNo + 1
          timeRemaining := i.profile.windowLength } } := by
  have e2 := closeLowMark_port k i s hi
  have e3 : (closeDonate k i (closeLowMark k i (closeSnapshot k i s))).port k =
      { s.port k with
        toPool := (s.port k).toPool ++ donationAtClose i (s.port k).meter
        meter := { (s.port k).meter with
          claim := staled (s.port k).meter.claim
          snapshot := snapshotAtEnd (s.port k) i false (missesLowMark i (s.port k).meter) } } := by
    have hd : donationOf i.profile ((closeLowMark k i (closeSnapshot k i s)).port k).meter =
        donationOf i.profile (s.port k).meter := by
      rw [e2]; simp [donationOf]
    unfold closeDonate
    rw [hd, donationAtClose_eq]
    split <;> simp [e2]
  simp only [closeUpTo5, closeNewWindow, State.setMeter_port_same]
  unfold closeRefill
  cases i.profile.mode <;> simp [e3]

/-- The block of the port as `State.windowRenewed` leaves it. -/
theorem windowRenewed_port (k : Port) (i : Installed) (s : State) : (s.windowRenewed k i).port k =
    { s.port k with
      toPool := (s.port k).toPool ++ donationAtClose i (s.port k).meter
      meter := { (s.port k).meter with
        snapshot := snapshotAtEnd (s.port k) i false (missesLowMark i (s.port k).meter)
        claim := staled (s.port k).meter.claim
        used := if i.profile.mode = .cap then 0 else (s.port k).meter.used
        credit := if i.profile.mode = .bucket then
            min ((s.port k).meter.credit + i.profile.budget) i.profile.ceiling
          else (s.port k).meter.credit
        counters := ⟨0, 0, 0, 0, 0, 0, 0, 0, 0⟩, highSeen := false, seqNo := (s.port k).meter.seqNo + 1
        timeRemaining := i.profile.windowLength } } := by
  unfold State.windowRenewed
  dsimp only
  split
  · rw [State.submit_port, State.setPort_port_same]
  · rw [State.setPort_port_same]

theorem Confined.windowRenewed (k : Port) (i : Installed) (s : State) :
    Confined k s (s.windowRenewed k i) := by
  unfold State.windowRenewed
  dsimp only
  split
  · exact (Confined.setPort ..).trans (Confined.submit ..)
  · exact Confined.setPort ..

/-- The notices of steps 1 to 5 of R36: LOW, where the low mark is missed and N_LOW is set. -/
theorem closeUpTo5_notices (k : Port) (i : Installed) (s : State)
    (hi : (s.port k).meter.installed = some i) :
    (closeUpTo5 k i s).notices = (s.windowRenewed k i).notices := by
  have h1 : (closeUpTo5 k i s).notices = (closeLowMark k i (closeSnapshot k i s)).notices := by
    unfold closeUpTo5 closeNewWindow closeRefill closeDonate
    cases i.profile.mode <;> simp only [State.setMeter_notices] <;> split <;> rfl
  rw [h1]
  unfold closeLowMark State.windowRenewed missesLowMark
  simp only [closeSnapshot_port k i s hi, Counters.metered]
  by_cases h : i.profile.lowMark ≠ 0 ∧
      (s.port k).meter.counters.meteredRead + (s.port k).meter.counters.meteredWrite < i.profile.lowMark
  · cases hn : i.profile.flags.nLow
    · simp [h, closeSnapshot]
    · simp [h, closeSnapshot, portNotice, Meter.index, hi, Meter.staleClaim]
  · simp [h, closeSnapshot]

/-- Steps 1 to 5 of R36, the LOW notice among them, give the state the re-evaluation is handed. -/
theorem closeUpTo5_eq (k : Port) (i : Installed) (s : State) (hi : (s.port k).meter.installed = some i) :
    closeUpTo5 k i s = s.windowRenewed k i := by
  have h1 : Confined k s (closeUpTo5 k i s) :=
    ((((Confined.setMeter ..).trans (Confined.closeLowMark ..)).trans
      (Confined.closeDonate ..)).trans (Confined.closeRefill ..)).trans (Confined.setMeter ..)
  refine h1.ext (Confined.windowRenewed k i s) ?_ (closeUpTo5_notices k i s hi) ?_
  · rw [closeUpTo5_port k i s hi, windowRenewed_port]
    rfl
  · unfold closeUpTo5 closeNewWindow closeRefill closeDonate closeLowMark State.windowRenewed
    cases i.profile.mode <;> dsimp only <;> (repeat' split) <;> rfl

/-- Step 7 of a close: the queue, and what of the meter it leaves (R37). -/
theorem closeHold_port (k : Port) (i : Installed) (s : State) :
    ∃ m : Meter, (closeHold k i s).port k = { s.port k with
        meter := m
        queue := ((s.port k).queue.map QueueEntry.age).map (QueueEntry.release i.profile.maxHold) } ∧
      m.snapshot = (s.port k).meter.snapshot ∧ m.seqNo = (s.port k).meter.seqNo ∧
      m.timeRemaining = (s.port k).meter.timeRemaining ∧
      m.windowRunning = (s.port k).meter.windowRunning ∧ m.installed = (s.port k).meter.installed ∧
      m.used = (s.port k).meter.used ∧ m.credit = (s.port k).meter.credit ∧
      m.highSeen = (s.port k).meter.highSeen := by
  unfold closeHold
  simp only []
  split <;> simp only [State.submit_port, State.setPort_port_same] <;>
    refine ⟨_, rfl, ?_, ?_, ?_, ?_, ?_, ?_, ?_, ?_⟩ <;> split <;> rfl

/-- Step 7 of a close where nothing is WAITING and the counters are 0: nothing (R37). -/
theorem closeHold_allAdmitted (k : Port) (i : Installed) (s : State)
    (h : AllAdmitted (s.port k).queue) (hc : (s.port k).meter.counters = Counters.zero) :
    (closeHold k i s).port k = s.port k := by
  have hq : (s.port k).queue.map QueueEntry.age = (s.port k).queue := by
    conv_rhs => rw [← List.map_id (s.port k).queue]
    exact List.map_congr_left fun e he => by simp [QueueEntry.age, h e he]
  have hr : (s.port k).queue.map (QueueEntry.release i.profile.maxHold) = (s.port k).queue := by
    conv_rhs => rw [← List.map_id (s.port k).queue]
    exact List.map_congr_left fun e he => by simp [QueueEntry.release, reachesHold, h e he]
  have hf : (s.port k).queue.filter (reachesHold i.profile.maxHold) = [] := by
    rw [List.filter_eq_nil_iff]
    intro e he
    simp [reachesHold, h e he]
  have hm : ∀ m : Meter, m.counters = Counters.zero →
      { m with counters := ⟨0, 0, 0, 0, 0, 0, 0, 0, 0⟩ } = m := by
    intro m hm
    cases m
    simp only [Counters.zero] at hm
    subst hm
    rfl
  unfold closeHold
  simp only [hq, hf, hr, firstReached, waitingRest_allAdmitted h]
  simp [totalBeats, hc, saturate, maxBeats, Counters.zero]
  exact congrArg (fun m => { s.port k with meter := m }) (hm _ hc)

/-- Step 8 of a close changes of its port the controller and the load context only (R85, R86). -/
theorem closeSignal_port (k : Port) (i : Installed) (s : State) :
    ∃ (c : Controller) (l : Option LoadContext),
      (closeSignal k i s).port k = { s.port k with controller := c, load := l } := by
  refine ⟨((closeSignal k i s).port k).controller, ((closeSignal k i s).port k).load, ?_⟩
  unfold closeSignal
  simp only []
  split
  · split
    · split
      · simp [startLoad]
      · split <;> simp
    · simp
  · rfl

/-- Step 9 of a close, and the report of an early end (R40). -/
theorem submitReport_port (k : Port) (i : Installed) (s : State) :
    (submitReport k i s).port k =
      { s.port k with toWriter := (s.port k).toWriter ++ reportOf k i (s.port k).meter.snapshot } := by
  unfold submitReport reportOf
  split <;> simp

/-! ## The early end and the start of a window -/

theorem earlyEnd_no_window (k : Port) (s : State) (h : (s.port k).windowRuns = false) :
    earlyEnd k s = s := by
  unfold earlyEnd
  split
  · rfl
  · simp [h]

/-- R41: the early end of a running window. -/
theorem earlyEnd_window (k : Port) (s : State) (i : Installed) (h : (s.port k).windowRuns = true)
    (hi : (s.port k).meter.installed = some i) :
    earlyEnd k s = s.setPort k { s.port k with
      meter := { (s.port k).meter with
        claim := staled (s.port k).meter.claim, snapshot := snapshotAtEnd (s.port k) i true false
        counters := Counters.zero, highSeen := false }
      toWriter := (s.port k).toWriter ++ reportOf k i (snapshotAtEnd (s.port k) i true false) } := by
  unfold earlyEnd
  rw [hi]
  simp only [h, if_true, endSnapshot_eq _ i true hi]
  unfold submitReport reportOf Meter.staleClaim staled
  split <;> simp [State.setMeter]

/-- R42, R43: an install starts a window under the new profile and evaluates. -/
theorem installProfile_eq (k : Port) (i : Installed) (s : State) :
    installProfile k i s = evaluate k (s.setPort k { s.port k with meter := { (s.port k).meter with
      installed := some i, windowRunning := true, timeRemaining := i.profile.windowLength
      seqNo := (s.port k).meter.seqNo + 1, used := 0
      credit := if i.profile.mode = .bucket then i.profile.ceiling else 0
      counters := Counters.zero, highSeen := false } }) := by
  simp [installProfile, startWindow, State.setMeter]

/-- The early end leaves the controller of its port alone (R41). -/
theorem earlyEnd_controller (k : Port) (s : State) :
    ((earlyEnd k s).port k).controller = (s.port k).controller := by
  cases hr : (s.port k).windowRuns with
  | false => rw [earlyEnd_no_window k s hr]
  | true =>
    obtain ⟨i, hi⟩ : ∃ i, (s.port k).meter.installed = some i := by
      cases hi : (s.port k).meter.installed with
      | some i => exact ⟨i, rfl⟩
      | none => simp [PortBlock.windowRuns, hi] at hr
    rw [earlyEnd_window k s i hr hi, State.setPort_port_same]

/-- `State.windowInstalled` is the early end and then the start of a window under the new profile. -/
theorem windowInstalled_eq (k : Port) (i : Installed) (s : State) :
    s.windowInstalled k i = (earlyEnd k s).setPort k { (earlyEnd k s).port k with
      meter := { ((earlyEnd k s).port k).meter with
        installed := some i, windowRunning := true, timeRemaining := i.profile.windowLength
        seqNo := ((earlyEnd k s).port k).meter.seqNo + 1, used := 0
        credit := if i.profile.mode = .bucket then i.profile.ceiling else 0
        counters := Counters.zero, highSeen := false } } := by
  unfold State.windowInstalled
  dsimp only
  cases hi : (s.port k).meter.installed with
  | none =>
    have hr : (s.port k).windowRuns = false := by simp [PortBlock.windowRuns, hi]
    simp [earlyEnd_no_window k s hr, Counters.zero]
  | some old =>
    cases hr : (s.port k).windowRuns with
    | false => simp [earlyEnd_no_window k s hr, Counters.zero]
    | true => simp [earlyEnd_window k s old hr hi, Counters.zero]

/-- R41 to R43: an install after the early end of the old window evaluates the state in which the new window
has begun; the fallback-in-use flag, set between the two, plays no part in it. -/
theorem installAfterEnd_eq (k : Port) (i : Installed) (s : State) (c : Controller)
    (h : c.portState = (s.port k).controller.portState) :
    installProfile k i ((earlyEnd k s).setController k c) =
      (evaluate k (s.windowInstalled k i)).setController k c := by
  rw [installProfile_eq, windowInstalled_eq, ← evaluate_setController]
  · simp [State.setController]
  · simp [h, earlyEnd_controller]

end Sys2Proof.Machine
end

