-- ==== Sys2Proof/Laws/Table.lean ====
section
/-! SUPPORT. The in-flight table: which tag a grant takes, what a write to one entry does to the counts, the
drain judgement, and what an answer and a deadline count at the meter (R98 to R100, R111 to R123). -/

namespace Sys2Proof.Machine

open Sys2Proof

/-! ## Counts -/

theorem countP_eq_zero_of_all {α : Type} (p : α → Bool) (l : List α) (h : ∀ x ∈ l, p x = false) :
    l.countP p = 0 := by
  rw [List.countP_eq_zero]
  intro x hx
  simp [h x hx]

theorem State.liveCount_eq_zero (s : State) (k : Port)
    (h : ∀ tag : Fin 64, liveOf k s.table[tag.val] = false) : s.liveCount k = 0 := by
  unfold State.liveCount
  apply countP_eq_zero_of_all
  intro x hx
  rw [Vector.mem_toList_iff, Vector.mem_iff_getElem] at hx
  obtain ⟨n, hn, rfl⟩ := hx
  exact h ⟨n, hn⟩

/-- Replacing an entry by one the count does not tell from it leaves the count. -/
theorem countP_set_same (p : Option InFlight → Bool) (t : Vector (Option InFlight) 64) (tag : Fin 64)
    (e : Option InFlight) (h : p t[tag.val] = p e) :
    (t.set tag.val e).toList.countP p = t.toList.countP p := by
  rw [Vector.toList_set, List.countP_set (by simp)]
  have hg : t.toList[tag.val]'(by simp) = t[tag.val] := by simp
  rw [hg, h]
  by_cases he : p e = true
  · have : 0 < t.toList.countP p := by
      rw [List.countP_pos_iff]
      exact ⟨t[tag.val], by simp, by rw [h]; exact he⟩
    rw [if_pos he]
    omega
  · rw [if_neg he]
    omega

/-! ## Tags and candidates -/

/-- R112: the lowest-numbered FREE tag of 0 to 61. -/
theorem State.freePortTag_eq (s : State) (tag : Fin 64) (h : tag.val < 62)
    (hn : s.table[tag.val] = none) (hl : ∀ lower : Fin 64, lower < tag → s.table[lower.val] ≠ none) :
    s.freePortTag = some tag := by
  unfold State.freePortTag
  rw [List.find?_eq_some_iff_append]
  refine ⟨by simp [h, hn], (List.finRange 64).take tag.val, (List.finRange 64).drop (tag.val + 1), ?_, ?_⟩
  · conv_lhs => rw [← List.take_append_drop tag.val (List.finRange 64)]
    congr 1
    rw [List.drop_eq_getElem_cons (by simp)]
    simp
  · intro a ha
    rw [List.mem_take_iff_getElem] at ha
    obtain ⟨n, hn', rfl⟩ := ha
    have hlt : (List.finRange 64)[n] < tag := by
      simp at hn' ⊢
      rw [Fin.lt_def]
      simp
      omega
    have hs : s.table[((List.finRange 64)[n]).val].isNone = false := by
      cases hh : s.table[((List.finRange 64)[n]).val] with
      | none => exact absurd hh (hl _ hlt)
      | some _ => rfl
    rw [hs]
    simp

/-- R112: the lower-numbered FREE tag of 62 and 63. -/
theorem State.freeInternalTag_eq (s : State) (h : s.table[62] = none ∨ s.table[63] = none) :
    s.freeInternalTag = some (if s.table[62] = none then 62 else 63) := by
  unfold State.freeInternalTag
  rw [List.find?_eq_some_iff_append]
  by_cases h62 : s.table[62] = none
  · refine ⟨by simp [h62], (List.finRange 64).take 62, (List.finRange 64).drop 63,
      by rw [if_pos h62]; decide, ?_⟩
    intro a ha
    have : a.val < 62 := by revert a; decide
    simp
    omega
  · have h63 : s.table[63] = none := h.resolve_left h62
    refine ⟨by simp [h62, h63], (List.finRange 64).take 63, (List.finRange 64).drop 64,
      by rw [if_neg h62]; decide, ?_⟩
    intro a ha
    have : a.val < 62 ∨ a = 62 := by revert a; decide
    rcases this with hlt | rfl
    · simp
      omega
    · have hs : s.table[62].isSome = true := Option.isSome_iff_ne_none.2 h62
      simpa using hs

/-- R12, R113, R114: when a port is a candidate. -/
theorem State.portCandidate_iff (s : State) (k : Port) : s.portCandidate k = true ↔
    (∃ e rest, (s.port k).queue = e :: rest ∧ e.status = .admitted) ∧
      (s.heldCount k < 4 ∨ s.sharedInUse < 46) := by
  unfold State.portCandidate State.portMayTake
  cases hq : (s.port k).queue with
  | nil => simp
  | cons e rest => simp

/-- R113, R114: when the internal requester is no candidate. -/
theorem State.internalCandidate_false (s : State)
    (h : s.internalList = [] ∨ (s.table[62] ≠ none ∧ s.table[63] ≠ none)) :
    s.internalCandidate = false := by
  rcases h with h | ⟨h1, h2⟩
  · simp [State.internalCandidate, h]
  · have e1 : s.table[62].isSome = true := Option.isSome_iff_ne_none.2 h1
    have e2 : s.table[63].isSome = true := Option.isSome_iff_ne_none.2 h2
    simp [State.internalCandidate, State.internalMayTake, State.internalInUse, e1, e2]

theorem mem_roundFrom (j k : Port) : j ∈ roundFrom k := by cases j <;> cases k <;> decide

/-- R115: a grant goes to the first candidate of the round. -/
theorem State.grantedPort_eq (s : State) (k : Port) (hc : s.portCandidate k = true)
    (hb : ∀ before after, roundFrom s.roundRobin = before ++ k :: after →
      ∀ j ∈ before, s.portCandidate j = false) : s.grantedPort = some k := by
  unfold State.grantedPort
  obtain ⟨a, b, hab⟩ := List.append_of_mem (mem_roundFrom k s.roundRobin)
  rw [List.find?_eq_some_iff_append]
  exact ⟨hc, a, b, hab, fun j hj => by rw [hb a b hab j hj]; rfl⟩

/-! ## Drains -/

/-- R99, R100: everything a judgement of the drain condition can do. -/
theorem judgeDrain_facts (s : State) (k : Port) :
    judgeDrain k s = { s with ports := (judgeDrain k s).ports, notices := (judgeDrain k s).notices } ∧
    (∀ j, j ≠ k → (judgeDrain k s).port j = s.port j) ∧
    (judgeDrain k s).port k =
      { s.port k with controller := ((judgeDrain k s).port k).controller } ∧
    ((s.port k).controller.portState = .draining ∧ (s.port k).queue = [] ∧ s.liveCount k = 0 →
      ((judgeDrain k s).port k).controller =
        { (s.port k).controller with portState := .quiet, drain := none } ∧
      (judgeDrain k s).notices = s.notices.submit
        { kind := .quiesced, port := some k, seqNo := (s.port k).meter.seqNo,
          index := (s.port k).meter.index
          detail := match (s.port k).controller.drain with
            | some d => min d.drained 65535
            | none => 0 }) ∧
    (¬ ((s.port k).controller.portState = .draining ∧ (s.port k).queue = [] ∧ s.liveCount k = 0) →
      judgeDrain k s = s) := by
  by_cases hc : (s.port k).controller.portState = .draining ∧ (s.port k).queue = [] ∧
      s.liveCount k = 0
  · have hj : judgeDrain k s = drainDone k s := by
      unfold judgeDrain State.drainCondition
      rw [if_pos (by simp [hc])]
    rw [hj]
    refine ⟨rfl, fun j h => by simp [drainDone, h], by simp [drainDone], fun _ => ⟨by simp [drainDone], ?_⟩,
      fun h => absurd hc h⟩
    simp only [drainDone, State.submit_notices, State.setController_notices, portNotice,
      State.drainedCount]
    cases (s.port k).controller.drain <;> simp
  · have hj : judgeDrain k s = s := by
      unfold judgeDrain State.drainCondition
      rw [if_neg]
      rintro ⟨a, b⟩
      simp at b
      exact hc ⟨a, b⟩
    rw [hj]
    exact ⟨rfl, fun _ _ => rfl, rfl, fun h => absurd h hc, fun _ => rfl⟩

/-! ## What the meter counts -/

/-- R35: a counted completion, as one write of the meter. -/
theorem countCompletion_eq (s : State) (k : Port) (status : AnswerStatus) (latency : Nat) :
    countCompletion k status latency s = s.setPort k { s.port k with
      meter := if (s.port k).windowRuns then
          { (s.port k).meter with counters := { (s.port k).meter.counters with
            maxLatency := max (s.port k).meter.counters.maxLatency (min latency 65535)
            errors := match status with
              | .ok => (s.port k).meter.counters.errors
              | .error => min ((s.port k).meter.counters.errors + 1) 65535 } }
        else (s.port k).meter } := by
  unfold countCompletion
  by_cases hw : (s.port k).windowRuns = true
  · simp only [if_pos hw]
    cases status <;> rfl
  · simp only [if_neg hw]
    exact (State.setPort_self s k).symm

/-- R35: a counted timeout, as one write of the meter. -/
theorem countTimeout_eq (s : State) (k : Port) : countTimeout k s = s.setPort k { s.port k with
    meter := if (s.port k).windowRuns then
        { (s.port k).meter with counters := { (s.port k).meter.counters with
          timeouts := min ((s.port k).meter.counters.timeouts + 1) 65535 } }
      else (s.port k).meter } := by
  unfold countTimeout
  by_cases hw : (s.port k).windowRuns = true
  · simp only [if_pos hw]
    rfl
  · simp only [if_neg hw]
    exact (State.setPort_self s k).symm

/-- R122, R185: a due deadline is that of a LIVE entry the timebase has reached. -/
theorem State.Due.reached {s : State} {tag : Fin 64} {f : InFlight} (ht : s.table[tag.val] = some f)
    (h : s.Due (.completionDeadline tag)) : f.state = .live ∧ s.deadlineReached f = true := by
  rcases h with ⟨k, hk, _⟩ | ⟨t, g, d, heq, hg, hst, hd, hle⟩
  · cases hk
  · injection heq with heq
    subst heq
    rw [ht] at hg
    injection hg with hg
    subst hg
    exact ⟨hst, by simp only [State.deadlineReached, hst, hd]; exact decide_eq_true hle⟩

end Sys2Proof.Machine
end

