-- ==== Sys2Proof/Laws/Loads.lean ====
section
/-! SUPPORT. Loads: their start, their end, and which of its cases the result of a load takes (R68 to
R82). -/

namespace Sys2Proof.Machine

open Sys2Proof

/-- R68: the start of a load. -/
theorem startLoad_eq (k : Port) (index : Byte) (s : State) :
    startLoad k index s = { s.setPort k { s.port k with
        load := some ⟨index, s.tableBase + 32 * index.zeroExtend 40⟩
        controller := { (s.port k).controller with
          portState := .loading, loadInFlight := true, cancelledLoad := false } } with
      internalList := s.internalList ++ [.load k (s.tableBase + 32 * index.zeroExtend 40)] } := rfl

/-- R75 step 3, R82: the end of a load. -/
theorem endLoad_port (k : Port) (s : State) : (endLoad k s).port k =
    { s.port k with
      load := none
      controller := { (s.port k).controller with loadInFlight := false, cancelledLoad := false } } := by
  simp [endLoad]

theorem endLoad_port_ne (k : Port) (s : State) {j : Port} (h : j ≠ k) :
    (endLoad k s).port j = s.port j := by
  simp [endLoad, h]

/-! ## The result of a load -/

/-- R75: the four things a result can come to. -/
theorem takeLoadResult_eq (k : Port) (result : LoadResult) (s : State) (ctx : LoadContext)
    (hl : (s.port k).load = some ctx) :
    ((s.port k).controller.cancelledLoad = true → takeLoadResult k result s = endLoad k s) ∧
    ((s.port k).controller.cancelledLoad = false →
      (∀ p, result.judge = .ok p → takeLoadResult k result s = installFromTable k ctx.index p s) ∧
      (∀ reason, result.judge = .error reason →
        ((s.port k).fallback.valid = true →
          takeLoadResult k result s = installFallback k ctx.index reason s) ∧
        ((s.port k).fallback.valid = false → takeLoadResult k result s = keepRegime k reason s))) := by
  unfold takeLoadResult
  simp only [hl]
  refine ⟨fun h => if_pos h, fun h => ⟨fun p hp => ?_, fun reason hr => ⟨fun hv => ?_, fun hv => ?_⟩⟩⟩
  · rw [h, hp]; rfl
  · rw [h, hr, hv]; rfl
  · rw [h, hr, hv]; rfl

/-- R72, R74: a record that is accepted has its format byte, its check sum and its fields in range. -/
theorem validateRecord_ok {bytes : List Byte} {p : Profile} (h : validateRecord bytes = .ok p) :
    bytes.getD 0 0 = 0xB6 ∧ checkSum bytes = 0 ∧ (rawOfRecord bytes).inRange = true ∧
      p = (rawOfRecord bytes).toProfile := by
  unfold validateRecord at h
  split at h
  · cases h
  · rename_i h1
    split at h
    · cases h
    · rename_i h2
      split at h
      · rename_i h3
        injection h with h
        exact ⟨not_not.1 h1, not_not.1 h2, h3, h.symm⟩
      · cases h

end Sys2Proof.Machine
end

