-- ==== Sys2Proof/Laws/Reports.lean ====
section
/-! SUPPORT. The report writer: every case of its judgement, and what the result of a write does (R149 to
R156). -/

namespace Sys2Proof.Machine

open Sys2Proof

/-! ## The judgement of R152 -/

theorem judgeWrite_still (s : State) (h : s.writer.ring ≠ .run ∨ s.writer.writeInFlight = true ∨
    s.writer.queue = []) : judgeWrite s = s := by
  unfold judgeWrite
  split
  · rfl
  · rename_i hq
    rw [if_neg]
    rintro ⟨a, b⟩
    rcases h with h | h | h
    · exact h a
    · rw [b] at h; cases h
    · rw [hq] at h; cases h

/-- R153: with room in the ring the write of the head starts. -/
theorem judgeWrite_room (s : State) (r : Report) (rest : List Report) (h1 : s.writer.ring = .run)
    (h2 : s.writer.writeInFlight = false) (h3 : s.writer.queue = r :: rest)
    (h4 : s.writer.full = false) :
    judgeWrite s = (s.setWriter { s.writer with writeInFlight := true }).joinInternal
      (.report s.writer.slotAddress (beatsOfReport r)) := by
  unfold judgeWrite
  rw [h3]
  simp only [h1, h2, h4, and_self, if_true]
  rfl

/-- R152: on a full ring the writer waits, and announces the episode once. -/
theorem judgeWrite_full (s : State) (r : Report) (rest : List Report) (h1 : s.writer.ring = .run)
    (h2 : s.writer.writeInFlight = false) (h3 : s.writer.queue = r :: rest)
    (h4 : s.writer.full = true) :
    judgeWrite s = { s with
      writer := { s.writer with fullEpisode := true }
      notices := if s.writer.fullEpisode then s.notices
        else s.notices.submit (writerNotice .ringFull s.writer.producer.toNat) } := by
  unfold judgeWrite
  rw [h3]
  simp only [h1, h2, h4, and_self, if_true]
  cases hf : s.writer.fullEpisode
  · rfl
  · simp only [if_true]
    rw [← h1, ← h2, ← hf]

/-! ## The result of a write -/

/-- R154: the OK result while the ring is RUN. -/
theorem writeSucceeded_run (s : State) (h : s.writer.ring = .run) :
    writeSucceeded s = judgeWrite (s.setWriter { s.writer with
      writeInFlight := false, producer := s.writer.producer + 1, queue := s.writer.queue.tail }) := by
  unfold writeSucceeded
  exact if_pos h

/-- R154: the OK result after a RING_OFF. -/
theorem writeSucceeded_off (s : State) (h : s.writer.ring ≠ .run) :
    writeSucceeded s = s.setWriter { s.writer with
      writeInFlight := false, producer := s.writer.producer + 1 } := by
  unfold writeSucceeded
  exact if_neg h

/-- R150, R156: the gap counts once the records of a queue are lost. -/
theorem foldl_countGap_get (q : List Report) (g : PerPort Nat) (k : Port) (h : g.get k ≤ 255) :
    (q.foldl (fun g r => countGap g r.port) g).get k =
      min (g.get k + q.countP fun r => r.port == k) 255 := by
  induction q generalizing g with
  | nil => simp; omega
  | cons r q ih =>
    by_cases hk : r.port = k
    · subst hk
      rw [List.foldl_cons, ih _ (by simp [countGap, saturate])]
      simp [countGap, saturate]
      omega
    · have hg : (countGap g r.port).get k = g.get k := by simp [countGap, Ne.symm hk]
      rw [List.foldl_cons, ih _ (by rw [hg]; exact h), hg]
      simp [hk]

end Sys2Proof.Machine
end

