-- ==== Sys2Proof/Laws/Timebase.lean ====
section
/-! SUPPORT. The timebase: what a tick does to a port, and that the happenings it finds due are those whose
moment has come, each once, in whatever order (R25, R36, R122, R185). -/

namespace Sys2Proof.Machine

open Sys2Proof

theorem PortBlock.tick_eq (b : PortBlock) : b.tick = { b with meter := { b.meter with
    timeRemaining := if b.windowRuns then b.meter.timeRemaining - 1 else b.meter.timeRemaining } } := by
  unfold PortBlock.tick
  cases b.windowRuns <;> rfl

@[simp] theorem tick_port (s : State) (k : Port) : (tick s).port k = (s.port k).tick := by
  cases k <;> rfl

/-- The free order only reorders. -/
theorem arrange_perm (l : List Instr) (n : Nat) : (arrange l n).Perm l := by
  induction l generalizing n with
  | nil => exact List.Perm.refl _
  | cons c l ih =>
    cases l with
    | nil => exact List.Perm.refl _
    | cons d rest =>
      rw [arrange]
      have h := ih (n + 1)
      have hlt : Config.dueOrder n % (rest.length + 2) < rest.length + 2 := Nat.mod_lt _ (by omega)
      refine (List.perm_insertIdx c _ ?_).trans (h.cons c)
      rw [h.length_eq]
      simp
      omega

theorem mem_dueHappenings (s : State) (c : Instr) : c ∈ s.dueHappenings ↔ s.Due c := by
  unfold State.dueHappenings State.Due
  simp only [List.mem_append, List.mem_map, List.mem_filter]
  constructor
  · rintro (⟨k, ⟨_, hk⟩, rfl⟩ | ⟨t, ⟨_, ht⟩, rfl⟩)
    · simp only [State.closeDue, Bool.and_eq_true, beq_iff_eq] at hk
      exact .inl ⟨k, rfl, hk⟩
    · right
      cases hf : s.table[t.val] with
      | none => rw [hf] at ht; cases ht
      | some f =>
        rw [hf] at ht
        simp only [State.deadlineReached] at ht
        cases hst : f.state <;> rw [hst] at ht
        · cases hd : f.deadline with
          | none => rw [hd] at ht; cases ht
          | some d => rw [hd] at ht; exact ⟨t, f, d, rfl, hf, hst, hd, of_decide_eq_true ht⟩
        · cases ht
  · rintro (⟨k, rfl, h1, h2⟩ | ⟨t, f, d, rfl, hf, hst, hd, hle⟩)
    · left
      exact ⟨k, ⟨by cases k <;> decide, by simp [State.closeDue, h1, h2]⟩, rfl⟩
    · right
      refine ⟨t, ⟨by simp, ?_⟩, rfl⟩
      rw [hf]
      simp only [State.deadlineReached, hst, hd]
      exact decide_eq_true hle

theorem nodup_dueHappenings (s : State) : s.dueHappenings.Nodup := by
  unfold State.dueHappenings
  refine List.Nodup.append ?_ ?_ ?_
  · exact List.Nodup.map (fun a b h => by injection h) (List.Nodup.filter _ (by decide))
  · exact List.Nodup.map (fun a b h => by injection h) (List.Nodup.filter _ (List.nodup_finRange 64))
  · intro c h1 h2
    simp only [List.mem_map] at h1 h2
    obtain ⟨k, _, rfl⟩ := h1
    obtain ⟨t, _, h⟩ := h2
    cases h

/-- What the part does with no command waiting. -/
theorem step_idle {s : State} (h : s.pending = []) : step s = .next (idle s) := by
  unfold step
  rw [h]

end Sys2Proof.Machine
end

