-- ==== Sys2Proof/Tests/Slice0.lean ====
section
/-! SUPPORT. Tests: ill-formed terms, frames written out from R188, single steps of the manual's worked
sequences, and a witness for the hypotheses of every statement. Expected values come from the manual. -/

namespace Sys2Proof.Tests

open Sys2Proof Sys2Proof.Machine

/-! ## Small states -/

/-- The state after one command; `s` itself where the command answers no next state. -/
def after (c : Instr) (s : State) : State :=
  match exec c s with
  | .next t => t
  | .fault _ => s
  | .refused _ => s

/-- A READ with a requester tag. -/
def readOf (beats : Nat) (tag : Fin 32) : Request := ⟨.read, 0x1000, beats, tag, []⟩

/-- A WRITE with a requester tag. -/
def writeOf (beats : Nat) (tag : Fin 32) : Request :=
  ⟨.write, 0x2000, beats, tag, List.replicate beats ⟨7, 0xFFFF⟩⟩

/-- An ADMITTED entry. -/
def admittedEntry (r : Request) : QueueEntry := ⟨r, .admitted, 0, false⟩

/-- A WAITING entry with its held-closes count and its refused-once mark. -/
def waitingEntry (r : Request) (held : Nat) (mark : Bool) : QueueEntry := ⟨r, .waiting, held, mark⟩

/-- Port `k` of `s` in ACTIVE, a window of this number running under the profile. -/
def running (k : Port) (i : Installed) (seqNo : BitVec 32) (used credit : Nat) (s : State) : State :=
  s.setPort k { s.port k with
    meter := { (s.port k).meter with
      installed := some i, windowRunning := true, timeRemaining := i.profile.windowLength, seqNo := seqNo,
      used := used, credit := credit }
    controller := { (s.port k).controller with portState := .active } }

/-- Port `k` of `s` with this queue. -/
def queued (k : Port) (q : List QueueEntry) (s : State) : State :=
  s.setPort k { s.port k with queue := q }

/-- Port `k` of `s` with these window counters. -/
def counted (k : Port) (c : Counters) (s : State) : State :=
  s.setMeter k { (s.port k).meter with counters := c }

/-- Port `k` of `s` with the end of its window reached. -/
def timeUp (k : Port) (s : State) : State := s.setMeter k { (s.port k).meter with timeRemaining := 0 }

/-- Port `k` of `s` with this claim outstanding. -/
def claiming (k : Port) (c : Claim) (s : State) : State :=
  s.setMeter k { (s.port k).meter with claim := some c }

/-- Port `k` of `s` in this port state, with a drain record where it is DRAINING. -/
def inState (k : Port) (p : PortState) (s : State) : State :=
  s.setController k { (s.port k).controller with
    portState := p, drain := if p = .draining then some ⟨0, 1⟩ else none }

/-- Port `k` of `s` LOADING, with a load of record 9 in flight. -/
def loading (k : Port) (s : State) : State :=
  s.setPort k { s.port k with
    load := some ⟨9, 0x120⟩
    controller := { (s.port k).controller with portState := .loading, loadInFlight := true } }

/-- `s` with one entry of the in-flight table. -/
def holding (tag : Fin 64) (f : InFlight) (s : State) : State := s.setEntry tag (some f)

/-- A LIVE READ of 8 beats of a port, issued at 10,000 with a deadline at 11,024 (6.9). -/
def liveRead (k : Port) (tag : Fin 32) : InFlight := ⟨.live, .port k tag, .read, 8, 10000, some 11024⟩

/-- A LIVE read of a load, issued at 10,000 with a deadline at 11,024. -/
def liveLoad (k : Port) : InFlight := ⟨.live, .load k, .read, 2, 10000, some 11024⟩

/-- The LIVE write of a report, issued at 10,000 with a deadline at 11,024. -/
def liveReport : InFlight := ⟨.live, .report, .write, 4, 10000, some 11024⟩

/-- The BUCKET profile of 2.10, at index 12: SHARE, BORROW, REPORT, N_HIGH and N_LOW. -/
def bucket : Installed := ⟨⟨.bucket, .both, 1000, 40, 60, 50, 10, 2, flagsOfWord 0x37, 0, 0⟩, 12, .table⟩

/-- A CAP profile of scope READS and budget 8, max_hold 1, N_FORCED, as that of RP3 in 2.10. -/
def cap : Installed := ⟨⟨.cap, .reads, 1000, 8, 0, 0, 0, 1, flagsOfWord 0x40, 0, 0⟩, 20, .table⟩

/-- The CAP profile of RP0 in 3.8: budget 32, BORROW and SHARE, max_hold 0. -/
def capBorrow : Installed := ⟨⟨.cap, .both, 1000, 32, 0, 0, 0, 0, flagsOfWord 3, 0, 0⟩, 1, .table⟩

/-- An OBSERVE profile. -/
def observe : Installed := ⟨⟨.observe, .both, 5000, 0, 0, 0, 0, 0, flagsOfWord 0, 0, 0⟩, 2, .table⟩

/-- A CAP profile with LINK and next index 9, as record 4 of 4.13. -/
def linked : Installed := ⟨⟨.cap, .both, 2000, 10, 0, 0, 0, 0, flagsOfWord 0x188, 2, 9⟩, 4, .table⟩

/-- A CAP profile with N_DWELL and LINK clear. -/
def unlinked : Installed := ⟨⟨.cap, .both, 2000, 10, 0, 0, 0, 0, flagsOfWord 0x80, 2, 0⟩, 4, .table⟩

/-- A report of port `k`. -/
def reportFor (k : Port) : Report := ⟨k, Snapshot.reset, 0⟩

/-- The ring of 8.8: RUN, size 16, producer 40, consumer 30. -/
def ringRunning (queue : List Report) (inFlight : Bool) (s : State) : State :=
  s.setWriter { ReportWriter.reset with
    ring := .run, base := 0x10000, size := 16, producer := 40, consumer := 30, queue := queue,
    writeInFlight := inFlight }

/-- The ring of 11.7, full: producer 16, consumer 0. -/
def ringFull (queue : List Report) (episode : Bool) (s : State) : State :=
  s.setWriter { ReportWriter.reset with
    ring := .run, base := 0x10000, size := 16, producer := 16, consumer := 0, queue := queue,
    fullEpisode := episode }

/-- The bytes of the record of 10.2: the first half, then the second. -/
def exampleBytes : List Byte :=
  [0xB6, 0x01, 0x03, 0x02, 0xE8, 0x03, 0x40, 0x00, 0x00, 0x00, 0x30, 0x00, 0x00, 0x00, 0x05, 0x01] ++
  [0x0A, 0x00, 0x00, 0x00, 0x00, 0x00, 0x00, 0x00, 0x00, 0x00, 0x00, 0x00, 0x00, 0x00, 0xE0, 0xF6]

/-- Its two beats as the memory returns them. -/
def recordBeats : List Beat := [beatOfBytes (exampleBytes.take 16), beatOfBytes (exampleBytes.drop 16)]

/-- The profile of the record of 10.2. -/
def recordProfile : Profile := ⟨.cap, .both, 1000, 64, 0, 48, 0, 2, flagsOfWord 0x0105, 10, 0⟩

/-! ## Ill-formed terms -/

theorem test_illformed_no_beats : (Instr.requestTaken .rp0 (readOf 0 1)).wellFormed = false := by decide
theorem test_illformed_17_beats : (Instr.requestTaken .rp0 (readOf 17 1)).wellFormed = false := by decide
theorem test_illformed_write_data :
    (Instr.requestTaken .rp0 ⟨.write, 0, 2, 1, [⟨7, 0xFFFF⟩]⟩).wellFormed = false := by decide
theorem test_illformed_read_data :
    (Instr.requestTaken .rp0 ⟨.read, 0, 1, 1, [⟨7, 0xFFFF⟩]⟩).wellFormed = false := by decide
theorem test_illformed_bad_command : (Instr.badCommand 0x10 ⟨[], 0⟩).wellFormed = false := by decide
theorem test_wellformed_limits :
    (Instr.requestTaken .rp0 (readOf 1 0)).wellFormed = true ∧
      (Instr.requestTaken .rp3 (writeOf 16 31)).wellFormed = true := by decide

/-! ## Frames, written out from the codes of R188 -/

theorem test_frame_getPool : decodeFrame [false, false, false, true, false, true, false, false] =
    .getPool ⟨[], 0⟩ := by decide
theorem test_frame_setTableBase : decodeFrame (bitsOfByte 0x20 ++ [false, false, false, false, true]) =
    .setTableBase ⟨[], 5⟩ := by decide
theorem test_frame_quiesce : decodeFrame
    [false, false, true, false, false, true, false, false,
     false, false, false, false, false, false, true, true] = .quiesce ⟨[3], 0⟩ := by decide
theorem test_frame_setPoolLimit : decodeFrame
    [false, false, true, true, false, false, false, false,
     false, false, false, false, false, false, false, true,
     false, false, false, false, false, false, false, false] = .setPoolLimit ⟨[1, 0], 0⟩ := by decide
theorem test_frame_ringOff : decodeFrame [false, true, false, false, false, false, false, true] =
    .ringOff ⟨[], 0⟩ := by decide
theorem test_frame_popNotice : decodeFrame [false, true, false, true, false, false, false, false] =
    .popNotice ⟨[], 0⟩ := by decide
theorem test_frame_softReset : decodeFrame [false, true, false, true, true, false, true, false] =
    .softReset ⟨[], 0⟩ := by decide
theorem test_frame_readResponse : decodeFrame
    [true, false, true, false, false, true, false, true, false, false, false, false, false, false, false,
     false] = .readResponse ⟨[0], 0⟩ := by decide
theorem test_no_word_spells_a_command : decodeTableWord 8 0x10 = none := by decide

/-! ## Records and layouts: the examples of chapter 10 -/

/-- 10.2: the record's check sum is 0, and its fields are those of the example. -/
theorem test_record_check_sum : checkSum exampleBytes = 0 := by decide
theorem test_record_fields :
    (rawOfRecord exampleBytes).toProfile = recordProfile ∧ (rawOfRecord exampleBytes).inRange = true := by
  decide
/-- 10.2: dwell 12 without a new check halfword fails the check sum. -/
theorem test_record_rewritten : checkSum (exampleBytes.set 16 12) ≠ 0 := by decide
/-- 10.6: the notice of the example. -/
theorem test_notice_bytes : bytesOfNotice ⟨.profileFault, some .rp1, 34, 9, 0x0105⟩ =
    [6, 1, 0, 0, 0, 0x22, 9, 1, 5] := by decide

/-! ## Single steps of the worked sequences -/

/-- 2.10: D, a READ of 16 with credit 12, sends a claim for 4. -/
theorem test_request_claims : ((after (.requestTaken .rp1 (readOf 16 4))
    (running .rp1 bucket 8 0 12 State.reset)).port .rp1).toPool = [.claim 4] := by decide
/-- 2.10: A, a READ of 16 with credit 60, leaves credit 44. -/
theorem test_request_debits : ((after (.requestTaken .rp1 (readOf 16 1))
    (running .rp1 bucket 8 0 60 State.reset)).port .rp1).meter.credit = 44 := by decide
/-- 2.10: the grant of 4 leaves credit 0, MR 48 and Bor 4, and raises HIGH with detail 60. -/
theorem test_grant :
    let t := after (.claimAnswerTaken .rp1)
      (((claiming .rp1 ⟨4, true⟩ (queued .rp1 [waitingEntry (readOf 16 4) 0 false]
        (counted .rp1 { Counters.zero with meteredRead := 32, meteredWrite := 16 }
          (running .rp1 bucket 8 0 12 State.reset))))).setPort .rp1
        { (claiming .rp1 ⟨4, true⟩ (queued .rp1 [waitingEntry (readOf 16 4) 0 false]
            (counted .rp1 { Counters.zero with meteredRead := 32, meteredWrite := 16 }
              (running .rp1 bucket 8 0 12 State.reset)))).port .rp1 with answers := [.grant] })
    (t.port .rp1).meter.credit = 0 ∧
      (t.port .rp1).meter.counters =
        { Counters.zero with meteredRead := 48, meteredWrite := 16, borrowed := 4 } ∧
      t.notices.records = [⟨.high, some .rp1, 8, 12, 60⟩] := by decide
/-- 2.10: the close of window 10, no traffic: LOW with detail 0, a donation of 40. -/
theorem test_close_donates :
    let t := after (.windowClose .rp1) (timeUp .rp1 (running .rp1 bucket 10 0 60 State.reset))
    (t.port .rp1).toPool = [.donation 40] ∧ (t.port .rp1).meter.seqNo = 11 ∧
      t.notices.records = [⟨.low, some .rp1, 10, 12, 0⟩] := by decide
/-- 2.10, RP3: the close admits L under the new allowance of 8 and releases two entries by the hold
limit. -/
theorem test_close_forces :
    let t := after (.windowClose .rp3) (timeUp .rp3 (queued .rp3
      [waitingEntry (readOf 8 1) 0 true, waitingEntry (readOf 2 2) 0 false,
        waitingEntry (writeOf 4 3) 0 false]
      (running .rp3 cap 20 8 0 State.reset)))
    (t.port .rp3).meter.used = 8 ∧ (t.port .rp3).meter.counters.forced = 6 ∧
      t.notices.records = [⟨.forced, some .rp3, 21, 20, 2⟩] := by decide
/-- 3.8: a claim of 5 at level 12 leaves 7; a claim of 10 is then refused. -/
theorem test_claim_granted :
    let s := { State.reset with pool := ⟨12, 24⟩ }
    let t := after (.claimTaken .rp2) (s.setPort .rp2 { s.port .rp2 with toPool := [.claim 5] })
    t.pool = ⟨7, 24⟩ ∧ (t.port .rp2).answers = [.grant] := by decide
theorem test_claim_refused :
    let s := { State.reset with pool := ⟨7, 24⟩ }
    let t := after (.claimTaken .rp0) (s.setPort .rp0 { s.port .rp0 with toPool := [.claim 10] })
    t.pool = ⟨7, 24⟩ ∧ (t.port .rp0).answers = [.refusal] := by decide
/-- 3.8: a donation of 6 at level 7 makes 13. -/
theorem test_donation :
    let s := { State.reset with pool := ⟨7, 24⟩ }
    (after (.donationTaken .rp0) (s.setPort .rp0 { s.port .rp0 with toPool := [.donation 6] })).pool =
      ⟨13, 24⟩ := by decide
/-- 3.8: SET_POOL_LIMIT 8 clips a level of 13. -/
theorem test_pool_limit : (after (.setPoolLimit ⟨[0, 8], 0⟩) { State.reset with pool := ⟨13, 24⟩ }).pool =
    ⟨8, 8⟩ := by decide
/-- 4.13: the close at dwell 1 with LINK set starts the load of record 9. -/
theorem test_chain_advance :
    let s := running .rp1 linked 31 0 0 { State.reset with tableBase := 0x4000 }
    let t := after (.windowClose .rp1) (timeUp .rp1 (s.setController .rp1
      { (s.port .rp1).controller with dwellRemaining := 1, dwellCounting := true }))
    (t.port .rp1).controller.portState = .loading ∧ t.internalList = [.load .rp1 0x4120] := by decide
/-- 4.13: LOAD in PASS takes the port to LOADING, and a second one is refused with BUSY. -/
theorem test_load : ((after (.load ⟨[0, 17], 0⟩) State.reset).port .rp0).load = some ⟨17, 0x220⟩ := by
  decide
theorem test_load_busy : (after (.load ⟨[0, 17], 0⟩) (loading .rp0 State.reset)).link.response =
    ⟨.busy, []⟩ := by decide
/-- 5.10: PRST_N3 discards D and E and drain done raises QUIESCED with the drained count of 1. -/
theorem test_port_reset :
    let t := after (.prstAsserted .rp3) (queued .rp3 [admittedEntry (readOf 1 4), admittedEntry (readOf 1 5)]
      (inState .rp3 .draining State.reset))
    (t.port .rp3).queue = [] ∧ (t.port .rp3).controller.portState = .quiet ∧
      t.notices.records = [⟨.quiesced, some .rp3, 0, 0xFF, 1⟩] := by decide
/-- 5.10: QUIESCE counts the two entries ADMITTED before it as ahead. -/
theorem test_quiesce :
    ((after (.quiesce ⟨[3], 0⟩) (queued .rp3 [admittedEntry (readOf 1 1), admittedEntry (readOf 1 2),
        waitingEntry (readOf 1 3) 0 false] (running .rp3 capBorrow 52 12 0 State.reset))).port
      .rp3).controller.drain = some ⟨2, 0⟩ := by decide
/-- 5.10: QUIESCE ended window 52 early, and RESUME starts window 53 (log entry 27). -/
theorem test_resume : ((after (.resume ⟨[3], 0⟩) (inState .rp3 .quiet
    (running .rp3 capBorrow 52 12 0 State.reset))).port .rp3).meter.seqNo = 53 := by decide
/-- 6.9: the internal requester goes first, with tag 62. -/
theorem test_internal_grant : (after .issueGrant { State.reset with
    internalList := [.load .rp0 0x4000] }).memoryPort = some ⟨.read, 0x4000, 2, [], 62⟩ := by decide
/-- 6.9: with setting 4 the deadline is 1,024 after issue. -/
theorem test_port_grant : (after .issueGrant (queued .rp2 [admittedEntry (readOf 8 5)]
    { State.reset with ticks := 10000, link := { State.reset.link with timeout := 4 } })).table[0] =
      some (liveRead .rp2 5) := by decide
/-- 6.9: an answer at 10,380 has a latency of 380. -/
theorem test_answer :
    let t := after (.memoryAnswer 17 .ok [1, 2, 3, 4, 5, 6, 7, 8]) (holding 17 (liveRead .rp2 5)
      (running .rp2 observe 3 0 0 { State.reset with ticks := 10380 }))
    (t.port .rp2).meter.counters.maxLatency = 380 ∧
      t.outputs = [.completion .rp2 5 .ok [1, 2, 3, 4, 5, 6, 7, 8]] := by decide
/-- 6.9: at 11,024 the master receives TIMEOUT with 8 beats of 0. -/
theorem test_deadline : (after (.completionDeadline 17) (holding 17 (liveRead .rp2 5)
    (running .rp2 observe 3 0 0 { State.reset with ticks := 11024 }))).outputs =
      [.completion .rp2 5 .timeout [0, 0, 0, 0, 0, 0, 0, 0]] := by decide
theorem test_port_ready : (after .memoryPortReady { State.reset with
    memoryPort := some ⟨.read, 0, 1, [], 0⟩ }).memoryPort = none := by decide
/-- 8.8: a record is taken with producer 40: its write goes to slot 8. -/
theorem test_report_write :
    let s := ringRunning [] false State.reset
    (after (.reportSubmission .rp0) (s.setPort .rp0 { s.port .rp0 with
      toWriter := [reportFor .rp0] })).internalList =
        [.report (0x10000 + 64 * 8) (beatsOfReport (reportFor .rp0))] := by decide
/-- 8.8: the deadline of the write halts the ring and counts RP0 and RP2. -/
theorem test_report_fault :
    let t := after (.completionDeadline 62) (holding 62 liveReport
      (ringRunning [reportFor .rp2, reportFor .rp0] true { State.reset with ticks := 11024 }))
    t.writer.ring = .halt ∧ t.writer.gapCount = ⟨1, 0, 1, 0⟩ := by decide
/-- 11.7: an index ahead of the producer is refused. -/
theorem test_report_ack : (after (.reportAck ⟨[0, 17], 0⟩) (ringFull [] true State.reset)).link.response =
    ⟨.badArg, []⟩ := by decide
/-- 11.7: the full ring of 16 raises RING_FULL with detail 16. -/
theorem test_ring_full :
    let s := ringFull [] false State.reset
    (after (.reportSubmission .rp0) (s.setPort .rp0 { s.port .rp0 with
      toWriter := [reportFor .rp0] })).notices.records = [⟨.ringFull, none, 0, 0xFF, 16⟩] := by decide
theorem test_ring_off : (after (.ringOff ⟨[], 0⟩) (ringRunning [reportFor .rp0] true State.reset)).writer =
    { (ringRunning [reportFor .rp0] true State.reset).writer with ring := .off, queue := [] } := by decide
/-- R158: the largest ring that ends at the top of memory is accepted. -/
theorem test_set_ring : (after (.setRing ⟨[0xFF, 0xFF, 0xFF, 0xFC, 0, 0, 16], 0⟩) State.reset).writer.base =
    0xFFFFFFFC00 := by decide
/-- R158: one slot higher it is refused. -/
theorem test_set_ring_past_top :
    (after (.setRing ⟨[0xFF, 0xFF, 0xFF, 0xFC, 0x40, 0, 16], 0⟩) State.reset).writer.ring = .off := by
  decide
/-- R65: the highest base, and one step above it. -/
theorem test_table_base : (after (.setTableBase ⟨[0xFF, 0xFF, 0xFF, 0xE0, 0], 0⟩) State.reset).tableBase =
    0xFFFFFFE000 := by decide
theorem test_table_base_past_top :
    (after (.setTableBase ⟨[0xFF, 0xFF, 0xFF, 0xE0, 0x20], 0⟩) State.reset).link.response =
      ⟨.badArg, []⟩ := by decide
/-- 10.6: the response to POP_NOTICE has 11 data bytes. -/
theorem test_pop_notice : (after (.popNotice ⟨[], 0⟩) { State.reset with
    notices := ⟨[⟨.profileFault, some .rp1, 34, 9, 0x0105⟩], false, true⟩ }).link.response =
      ⟨.ok, [0, 0, 6, 1, 0, 0, 0, 0x22, 9, 1, 5]⟩ := by decide
theorem test_clear_overflow : (after (.clearOverflow ⟨[], 0⟩) { State.reset with
    notices := ⟨[], true, true⟩ }).notices.irqAsserted = false := by decide
theorem test_set_irq : (after (.setIrq ⟨[1], 0⟩) { State.reset with
    notices := ⟨[], true, false⟩ }).notices.irqAsserted = true := by decide
theorem test_set_timeout : (after (.setTimeout ⟨[0], 0⟩) State.reset).link.timeout = 0 := by decide
/-- R167: status, length and data after a byte of 0. -/
theorem test_read_response : (after (.readResponse ⟨[0], 3⟩) { State.reset with
    link := ⟨⟨.busy, [0xFF]⟩, 40, false⟩ }).outputs =
      [.mdo (bitsOfByte 0 ++ bitsOfByte 1 ++ [false, false, false])] := by decide
theorem test_short_frame : (after (.shortFrame 7) State.reset).link = State.reset.link := by decide
theorem test_bad_command : (after (.badCommand 0x15 ⟨[1, 2], 5⟩) State.reset).link.response =
    ⟨.badCommand, []⟩ := by decide
theorem test_get_status_length : (after (.getStatus ⟨[], 0⟩) State.reset).link.response.data.length = 28 := by
  decide
theorem test_get_port_length : (after (.getPort ⟨[0], 0⟩) State.reset).link.response.data.length = 17 := by
  decide
theorem test_get_window_length :
    (after (.getWindow ⟨[0], 0⟩) State.reset).link.response.data.length = 33 := by decide
theorem test_get_profile_length :
    (after (.getProfile ⟨[0], 0⟩) State.reset).link.response.data.length = 20 := by decide
theorem test_get_pool : (after (.getPool ⟨[], 0⟩) { State.reset with pool := ⟨5, 300⟩ }).link.response =
    ⟨.ok, [0, 5, 1, 44]⟩ := by decide
theorem test_set_fallback : ((after (.setFallback ⟨[1, 1, 3, 3, 0xE8, 0, 0x40, 0, 0, 0, 0x30, 0, 0, 2, 1, 5,
    0, 10, 0], 0⟩) State.reset).port .rp1).fallback = ⟨true, recordProfile⟩ := by decide
theorem test_clear_fallback : ((after (.clearFallback ⟨[1], 0⟩) (State.reset.setPort .rp1
    { State.reset.port .rp1 with fallback := ⟨true, recordProfile⟩ })).port .rp1).fallback =
      ⟨false, recordProfile⟩ := by decide
theorem test_soft_reset : ((after (.softReset ⟨[], 0⟩) (queued .rp0 [waitingEntry (readOf 1 1) 2 true]
    State.reset)).port .rp0).queue = [⟨readOf 1 1, .admitted, 2, true⟩] := by decide
theorem test_prst_released : (after (.prstReleased .rp0) (after (.prstAsserted .rp0) State.reset)).accepting
    .rp0 = true := by decide
theorem test_rst_asserted : (after .rstAsserted (queued .rp0 [admittedEntry (readOf 1 1)]
    State.reset)).accepting .rp0 = false := by decide
theorem test_rst_released : (after (.rstReleased true) { State.reset with
    rstAsserted := true }).listening = false := by decide
theorem test_refclk_stopped : (after .refclkStopped State.reset).operating = false := by decide
theorem test_refclk_restarted : (after (.refclkRestarted false) { State.reset with
    refclkRunning := false }).listening = true := by decide
theorem test_mcs_rise : (after .mcsRiseWithoutFrame { State.reset with
    link := { State.reset.link with awaitingRise := true } }).listening = true := by decide

/-! ## Witnesses: a state and operands that meet the hypotheses of each statement

A theorem `witness_<statement>_<clause>` states the hypotheses of one clause, with the values at the edge of
their range where there is one. -/

/-- A state in which every block has something to do: RP0 with a claim on its way to the pool and a report
on its way to the writer, RP1 loading, RP2 draining behind one LIVE entry, RP3 quiet, a report write in
flight, and a command waiting. -/
def busy : State :=
  let p0 : PortBlock := { PortBlock.reset false with
    queue := [admittedEntry (readOf 16 3), waitingEntry (readOf 16 4) 1 false]
    meter := { Meter.reset with
      installed := some bucket, windowRunning := true, timeRemaining := 7, seqNo := 8, credit := 12
      claim := some ⟨4, true⟩ }
    controller := { Controller.reset with portState := .active }
    toPool := [.donation 8, .claim 4], toWriter := [reportFor .rp0] }
  let p1 : PortBlock := { PortBlock.reset false with
    controller := { Controller.reset with portState := .loading, loadInFlight := true }
    load := some ⟨9, 0x120⟩ }
  let p2 : PortBlock := { PortBlock.reset false with
    controller := { Controller.reset with portState := .draining, drain := some ⟨0, 1⟩ } }
  let p3 : PortBlock := { PortBlock.reset true with
    controller := { Controller.reset with portState := .quiet } }
  { State.reset with
    ports := ⟨p0, p1, p2, p3⟩
    pool := ⟨2, 100⟩
    internalList := [.load .rp1 0x120]
    table := ((Vector.replicate 64 none).set 17 (some (liveRead .rp2 5))).set 62 (some liveReport)
    writer := { ReportWriter.reset with
      ring := .run, base := 0x10000, size := 16, producer := 40, consumer := 30
      queue := [reportFor .rp0], writeInFlight := true, gapCount := ⟨254, 0, 0, 0⟩ }
    ticks := 10380
    pending := [.reportSubmission .rp0] }

theorem busy_table (p : Fin 64 → InFlight → Bool)
    (h : ∀ tag : Fin 64, (busy.table[tag.val]).all (p tag) = true) (tag : Fin 64) (f : InFlight)
    (hf : busy.table[tag.val] = some f) : p tag f = true := by
  have := h tag
  rw [hf] at this
  simpa using this

theorem busy_meters : MetersSound busy := by
  intro k
  have none_of {i : Installed} (h : (none : Option Installed) = some i) : False := nomatch h
  cases k
  · exact {
      fallback := fun h => nomatch h
      profile := fun i h => by
        obtain rfl : bucket = i := Option.some.inj h
        exact ⟨by decide, by decide, by decide, by decide, by decide, by decide, by decide⟩
      source := fun i h => by obtain rfl : bucket = i := Option.some.inj h; decide
      used := fun i h hm => by obtain rfl : bucket = i := Option.some.inj h; exact nomatch hm
      credit := fun i h _ => by obtain rfl : bucket = i := Option.some.inj h; decide
      remaining := by decide
      counters := by constructor <;> decide
      snapshot := by constructor <;> decide }
  all_goals exact {
      fallback := fun h => nomatch h
      profile := fun i h => (none_of h).elim
      source := fun i h => (none_of h).elim
      used := fun i h => (none_of h).elim
      credit := fun i h => (none_of h).elim
      remaining := by decide
      counters := by constructor <;> decide
      snapshot := by constructor <;> decide }

theorem busy_ports : PortsSound busy := by
  have drained (k : Port) (h : (busy.port k).controller.drain.all
      (fun d => decide (d.ahead ≤ (busy.port k).queue.length ∧
        d.drained + (busy.port k).queue.length ≤ 16 ∧ (0 < d.ahead → d.drained = 0))) = true)
      (d : Drain) (hd : (busy.port k).controller.drain = some d) :
      d.ahead ≤ (busy.port k).queue.length ∧ d.drained + (busy.port k).queue.length ≤ 16 ∧
        (0 < d.ahead → d.drained = 0) := by
    rw [hd] at h
    exact of_decide_eq_true h
  intro k
  cases k <;>
    exact ⟨⟨by decide, by decide, by decide, by decide, by decide⟩,
      ⟨by decide, by decide, by decide⟩,
      ⟨by decide, by decide, by decide, by decide, by decide, by decide, by decide, by decide, by decide,
        drained _ (by decide)⟩⟩

theorem busy_loads : LoadsAccounted busy := by
  intro k
  cases k <;> decide

theorem busy_tableSound : TableSound busy where
  layout tag f h := by
    have := busy_table (fun t f => decide (f.owner.portOf.isSome = true ↔ t.val < 62)) (by decide) tag f h
    exact of_decide_eq_true this
  shared := by decide
  orphan tag f h ho := by
    have := busy_table (fun _ f => decide (f.state = .orphan → f.deadline = none)) (by decide) tag f h
    exact of_decide_eq_true this ho

theorem busy_writer : WriterSound busy where
  queue := by decide
  size := by decide
  running := by decide
  room := by decide
  writing := by decide
  stopped := by decide
  halted := by decide
  head := by decide
  waiting := by decide
  episode := by decide
  gaps k := by cases k <;> decide
  account := by decide

theorem busy_claims : ClaimsSound busy := by
  intro k
  cases k
  · exact {
      account := by decide
      message := fun c n h hm => by
        obtain rfl : (⟨4, true⟩ : Claim) = c := Option.some.inj h
        have : n = 4 := by simpa [State.port, busy, PerPort.get] using hm
        exact this
      current := fun c h _ => by
        obtain rfl : (⟨4, true⟩ : Claim) = c := Option.some.inj h
        exact ⟨by decide, bucket, waitingEntry (readOf 16 4) 1 false, rfl, by decide, by decide, by decide,
          rfl, by decide⟩ }
  all_goals exact {
      account := by decide
      message := fun c _ h => absurd h.symm (Option.some_ne_none c)
      current := fun c h => absurd h.symm (Option.some_ne_none c) }

theorem busy_sound : Sound busy where
  notices := by unfold NoticesBounded; decide
  pool := by unfold PoolBounded; decide
  response := by unfold ResponseBounded; decide
  meters := busy_meters
  ports := busy_ports
  loads := busy_loads
  table := busy_tableSound
  writer := busy_writer
  claims := busy_claims

/-- The hypotheses of the seven statements EveryStepKeeps…, met together. -/
theorem witness_everyStepKeeps : Sound busy ∧ ∃ t, step busy = .next t := ⟨busy_sound, _, rfl⟩

/-- The bounds at their edges. -/
def brimming : State :=
  { State.reset with
    pool := ⟨65535, 65535⟩
    notices := ⟨List.replicate 32 ⟨.low, some .rp0, 1, 2, 3⟩, false, true⟩
    link := ⟨⟨.ok, List.replicate 48 0⟩, 40, false⟩
    pending := [.requestTaken .rp0 (readOf 16 31)] }

theorem witness_everyStepKeepsTheBounds : NoticesBounded brimming ∧ PoolBounded brimming ∧
    ResponseBounded brimming ∧ ∃ t, step brimming = .next t :=
  ⟨by unfold NoticesBounded; decide, by unfold PoolBounded; decide, by unfold ResponseBounded; decide, _, rfl⟩

/-! ### The machine -/

theorem witness_idle_noTime : { State.reset with refclkRunning := false }.pending = [] ∧
    { State.reset with refclkRunning := false }.operating = false := by decide

theorem reset_nothing_due (c : Instr) : ¬ State.reset.Due c := by
  have free : ∀ tag : Fin 64, State.reset.table[tag.val] = none := by decide
  rintro (⟨k, rfl, h, -⟩ | ⟨tag, f, d, rfl, h, -⟩)
  · cases k <;> exact absurd h (by decide)
  · rw [free tag] at h
    exact nomatch h

theorem witness_idle_tick : State.reset.pending = [] ∧ State.reset.operating = true ∧
    ∀ c, ¬ State.reset.Due c := ⟨rfl, rfl, reset_nothing_due⟩

/-- A window at its last moment and a deadline reached to the microsecond. -/
def dueState : State :=
  timeUp .rp1 (running .rp1 bucket 8 0 60 (holding 17 (liveRead .rp2 5) { State.reset with ticks := 11024 }))

theorem dueState_deadline : dueState.Due (.completionDeadline 17) :=
  .inr ⟨17, liveRead .rp2 5, 11024, rfl, by decide, rfl, rfl, by decide⟩

theorem witness_idle_due : dueState.pending = [] ∧ dueState.operating = true ∧
    dueState.Due (.windowClose .rp1) ∧ dueState.Due (.completionDeadline 17) :=
  ⟨rfl, rfl, .inl ⟨.rp1, rfl, by decide, by decide⟩, dueState_deadline⟩

theorem witness_frameDecodes : (Instr.load ⟨[2, 9], 7⟩).wellFormed = true ∧
    frameOf (.load ⟨[2, 9], 7⟩) = some (0x23, ⟨[2, 9], 7⟩) ∧
    (Instr.badCommand 0x15 ⟨[], 0⟩).wellFormed = true ∧
    frameOf (.badCommand 0x15 ⟨[], 0⟩) = some (0x15, ⟨[], 0⟩) := by decide

theorem witness_onlyTheNamedPort : Port.rp1 ≠ Port.rp0 ∧
    (∃ t, exec (.requestTaken .rp0 (readOf 1 0)) busy = .next t) ∧
    (∃ t, exec (.prstAsserted .rp0) busy = .next t) ∧ (∃ t, exec (.prstReleased .rp0) busy = .next t) ∧
    (∃ t, exec (.windowClose .rp0) busy = .next t) ∧ (∃ t, exec (.donationTaken .rp0) busy = .next t) ∧
    (∃ t, exec (.claimTaken .rp0) busy = .next t) ∧ (∃ t, exec (.claimAnswerTaken .rp0) busy = .next t) ∧
    (∃ t, exec (.reportSubmission .rp0) busy = .next t) ∧
    (∃ t, exec (.setFallback ⟨portByte .rp0 :: [1], 0⟩) busy = .next t) ∧
    (∃ t, exec (.clearFallback ⟨portByte .rp0 :: [], 0⟩) busy = .next t) ∧
    (∃ t, exec (.load ⟨portByte .rp0 :: [9], 0⟩) busy = .next t) ∧
    (∃ t, exec (.quiesce ⟨portByte .rp0 :: [], 0⟩) busy = .next t) ∧
    ∃ t, exec (.resume ⟨portByte .rp0 :: [], 7⟩) busy = .next t :=
  ⟨by decide, ⟨_, rfl⟩, ⟨_, rfl⟩, ⟨_, rfl⟩, ⟨_, rfl⟩, ⟨_, rfl⟩, ⟨_, rfl⟩, ⟨_, rfl⟩, ⟨_, rfl⟩, ⟨_, rfl⟩,
    ⟨_, rfl⟩, ⟨_, rfl⟩, ⟨_, rfl⟩, ⟨_, rfl⟩⟩

theorem witness_completesAtMostOnce : Output.completion .rp2 5 .ok [0, 0, 0, 0, 0, 0, 0, 0] ∈
    (after (.memoryAnswer 17 .ok [0, 0, 0, 0, 0, 0, 0, 0]) busy).outputs := by decide

theorem witness_orphanStays :
    let s := holding 17 (liveRead .rp2 5).orphan (queued .rp2 [admittedEntry (readOf 8 6)] State.reset)
    s.table[17] = some (liveRead .rp2 5).orphan ∧ (liveRead .rp2 5).orphan.state = .orphan ∧
      (after .issueGrant s).table[17] = some (liveRead .rp2 5).orphan ∧
      (after .issueGrant s).table[0].isSome = true := by decide

theorem witness_everyReportTaken : WriterSound busy ∧
    (∃ t, exec (.reportSubmission .rp0) busy = .next t ∧ t.writer.ring = .run) ∧
    busy.writer.ring = .run ∧ busy.writer.gapCount.get .rp0 < 255 ∧ busy.operating = true :=
  ⟨busy_writer, ⟨_, rfl, rfl⟩, by decide, by decide, by decide⟩

theorem witness_everyReportTaken_written : WriterSound busy ∧
    (∃ t, exec (.memoryAnswer 62 .ok []) busy = .next t ∧ t.writer.ring = .run ∧
      t.writer.producer ≠ busy.writer.producer) ∧ busy.writer.gapCount.get .rp0 < 255 :=
  ⟨busy_writer, ⟨_, rfl, rfl, by decide⟩, by decide⟩

theorem witness_nothingIsTaken : { State.reset with refclkRunning := false }.refclkRunning = false ∧
    { State.reset with rstAsserted := true }.rstAsserted = true ∧
    { State.reset with link := ⟨⟨.ok, []⟩, 40, true⟩ }.link.awaitingRise = true ∧
    frameOf (.getPool (wholeFrame [])) ≠ none := by decide

/-! ### Requester ports -/

theorem witness_requestJoins_pass :
    let s := queued .rp0 (List.replicate 15 (admittedEntry (readOf 1 0))) State.reset
    s.operating = true ∧ s.Accepts .rp0 ∧ (readOf 16 31).wellFormed = true ∧
      (s.port .rp0).controller.portState = .pass := by unfold State.Accepts; decide

theorem witness_requestJoins_waiting :
    let s := queued .rp0 [waitingEntry (readOf 16 1) 0 true] (running .rp0 cap 1 8 0 State.reset)
    s.operating = true ∧ s.Accepts .rp0 ∧ (writeOf 16 0).wellFormed = true ∧
      (s.port .rp0).controller.portState ≠ .pass ∧ ∃ e ∈ (s.port .rp0).queue, e.status = .waiting := by
  unfold State.Accepts; decide

theorem witness_requestJoins_noWindow :
    let s := loading .rp0 State.reset
    s.operating = true ∧ s.Accepts .rp0 ∧ (readOf 1 0).wellFormed = true ∧
      (s.port .rp0).controller.portState ≠ .pass ∧ (s.port .rp0).windowRuns = false := by
  unfold State.Accepts; decide

theorem witness_requestJoins_claim :
    let s := claiming .rp0 ⟨4, false⟩ (running .rp0 bucket 1 0 60 State.reset)
    s.operating = true ∧ s.Accepts .rp0 ∧ (readOf 1 0).wellFormed = true ∧
      (s.port .rp0).controller.portState ≠ .pass ∧ (s.port .rp0).meter.claim.isSome = true := by
  unfold State.Accepts; decide

theorem witness_requestIsHeldOff : ¬ (inState .rp0 .draining State.reset).Accepts .rp0 ∧
    ¬ (after (.prstAsserted .rp0) State.reset).Accepts .rp0 ∧
    ¬ (queued .rp0 (List.replicate 16 (admittedEntry (readOf 1 0))) State.reset).Accepts .rp0 := by
  unfold State.Accepts; decide

theorem witness_requestIsAdmitted_outOfScope :
    let s := running .rp3 cap 1 8 0 State.reset
    s.operating = true ∧ s.Accepts .rp3 ∧ (writeOf 16 0).wellFormed = true ∧
      (s.port .rp3).windowRuns = true ∧ (s.port .rp3).meter.installed = some cap ∧
      (s.port .rp3).meter.claim = none ∧ AllAdmitted (s.port .rp3).queue ∧
      inScope cap.profile.scope (writeOf 16 0).kind = false := by
  unfold State.Accepts AllAdmitted; decide

theorem witness_requestIsAdmitted_inScope :
    let s := queued .rp1 [admittedEntry (readOf 1 1)] (running .rp1 bucket 8 0 16 State.reset)
    s.operating = true ∧ s.Accepts .rp1 ∧ (readOf 16 4).wellFormed = true ∧
      (s.port .rp1).windowRuns = true ∧ (s.port .rp1).meter.installed = some bucket ∧
      (s.port .rp1).meter.claim = none ∧ AllAdmitted (s.port .rp1).queue ∧
      inScope bucket.profile.scope (readOf 16 4).kind = true := by
  unfold State.Accepts AllAdmitted; decide

/-- The tests of R28 at their edges: exactly the credit left, exactly up to the budget, and OBSERVE. -/
theorem witness_passesTest :
    PassesTest bucket { Meter.reset with credit := 16 } (readOf 16 4) ∧
      PassesTest capBorrow { Meter.reset with used := 16 } (readOf 16 4) ∧
      PassesTest observe Meter.reset (readOf 16 4) :=
  ⟨show 16 ≤ 16 by decide, show 16 + 16 ≤ 32 by decide, trivial⟩

/-- One beat short in each mode. -/
theorem witness_failsTest :
    ¬ PassesTest bucket { Meter.reset with credit := 15 } (readOf 16 4) ∧
      ¬ PassesTest capBorrow { Meter.reset with used := 17 } (readOf 16 4) ∧
      ¬ PassesTest cap { Meter.reset with used := 8 } (readOf 1 4) :=
  ⟨show ¬ 16 ≤ 15 by decide, show ¬ 17 + 16 ≤ 32 by decide, show ¬ 8 + 1 ≤ 8 by decide⟩

theorem witness_requestIsClaimedFor :
    let s := running .rp0 capBorrow 1 32 0 State.reset
    s.operating = true ∧ s.Accepts .rp0 ∧ (readOf 16 4).wellFormed = true ∧
      (s.port .rp0).windowRuns = true ∧ (s.port .rp0).meter.installed = some capBorrow ∧
      (s.port .rp0).meter.claim = none ∧ AllAdmitted (s.port .rp0).queue ∧
      inScope capBorrow.profile.scope (readOf 16 4).kind = true ∧
      ¬ PassesTest capBorrow (s.port .rp0).meter (readOf 16 4) ∧ capBorrow.profile.flags.borrow = true ∧
      (s.port .rp0).meter.used ≤ capBorrow.profile.budget := by
  unfold State.Accepts AllAdmitted
  exact ⟨by decide, by decide, by decide, by decide, by decide, by decide, by decide, by decide,
    show ¬ 32 + 16 ≤ 32 by decide, by decide, by decide⟩

theorem witness_requestIsRefused :
    let s := running .rp3 cap 1 8 0 State.reset
    s.operating = true ∧ s.Accepts .rp3 ∧ (readOf 1 4).wellFormed = true ∧
      (s.port .rp3).windowRuns = true ∧ (s.port .rp3).meter.installed = some cap ∧
      (s.port .rp3).meter.claim = none ∧ AllAdmitted (s.port .rp3).queue ∧
      inScope cap.profile.scope (readOf 1 4).kind = true ∧
      ¬ PassesTest cap (s.port .rp3).meter (readOf 1 4) ∧ cap.profile.flags.borrow = false := by
  unfold State.Accepts AllAdmitted
  exact ⟨by decide, by decide, by decide, by decide, by decide, by decide, by decide, by decide,
    show ¬ 8 + 1 ≤ 8 by decide, by decide⟩

theorem witness_evaluation_nothing : (State.reset.port .rp0).windowRuns = false ∧
    (busy.port .rp0).meter.claim.isSome = true ∧
    AllAdmitted ((running .rp0 cap 1 0 0 State.reset).port .rp0).queue := by unfold AllAdmitted; decide

theorem witness_evaluation_entry (e : QueueEntry) (i : Installed) (used credit : Nat) :
    let s := queued .rp1 [admittedEntry (readOf 1 1), e, waitingEntry (writeOf 1 2) 0 false]
      (running .rp1 i 8 used credit State.reset)
    (s.port .rp1).windowRuns = true ∧ (s.port .rp1).meter.installed = some i ∧
      (s.port .rp1).meter.claim = none ∧
      (s.port .rp1).queue = [admittedEntry (readOf 1 1)] ++ e :: [waitingEntry (writeOf 1 2) 0 false] ∧
      AllAdmitted [admittedEntry (readOf 1 1)] := by
  refine ⟨rfl, rfl, rfl, rfl, ?_⟩
  unfold AllAdmitted; decide

/-- The four verdicts, each on the meter of a state of `witness_evaluation_entry`. -/
theorem witness_evaluation_verdicts :
    inScope cap.profile.scope (writeOf 4 1).kind = false ∧
      PassesTest bucket ((running .rp1 bucket 8 0 16 State.reset).port .rp1).meter (readOf 16 1) ∧
      ¬ PassesTest capBorrow ((running .rp1 capBorrow 8 17 0 State.reset).port .rp1).meter (readOf 16 1) ∧
      capBorrow.profile.flags.borrow = true ∧
      ¬ PassesTest cap ((running .rp1 cap 8 8 0 State.reset).port .rp1).meter (readOf 1 1) ∧
      cap.profile.flags.borrow = false :=
  ⟨by decide, show 16 ≤ 16 by decide, show ¬ 17 + 16 ≤ 32 by decide, by decide, show ¬ 8 + 1 ≤ 8 by decide,
    by decide⟩

theorem witness_portReset_quietens :
    let s := queued .rp3 [admittedEntry (readOf 1 4)] (inState .rp3 .draining State.reset)
    s.refclkRunning = true ∧ s.rstAsserted = false ∧ (s.port .rp3).resetAsserted = false ∧
      (s.port .rp3).controller.drain.isSome = true ∧ (s.port .rp3).controller.portState = .draining ∧
      (s.port .rp3).controller.drain = some ⟨0, 1⟩ := by decide

theorem witness_portReset_other : busy.refclkRunning = true ∧ busy.rstAsserted = false ∧
    (busy.port .rp0).resetAsserted = false ∧ (busy.port .rp0).controller.drain = none ∧
    (busy.port .rp0).controller.portState ≠ .draining := by decide

theorem witness_portReset_underRst :
    let s := { State.reset with rstAsserted := true }
    s.refclkRunning = true ∧ s.rstAsserted = true ∧
      ((after (.prstAsserted .rp1) s).port .rp1).resetAsserted = true := by decide

theorem witness_powerOnReset : busy.refclkRunning = true ∧ busy.rstAsserted = false ∧
    { busy with rstAsserted := true }.refclkRunning = true ∧
    { busy with rstAsserted := true }.rstAsserted = true := by decide

theorem witness_clockAndPins : busy.refclkRunning = true ∧
    { busy with refclkRunning := false }.refclkRunning = false ∧ busy.operating = true ∧
    { busy with link := ⟨⟨.ok, []⟩, 40, true⟩ }.operating = true ∧
    { busy with link := ⟨⟨.ok, []⟩, 40, true⟩ }.link.awaitingRise = true := by decide

/-- Causes that do not stand: nothing due, nothing on its way, and no pin to follow. -/
theorem witness_withoutItsCause : ¬ State.reset.Due (.windowClose .rp0) ∧
    ¬ State.reset.Due (.completionDeadline 17) ∧ (State.reset.port .rp0).answers = [] ∧
    (State.reset.port .rp0).toWriter = [] ∧ State.reset.rstAsserted = false ∧
    State.reset.refclkRunning = true ∧ State.reset.link.awaitingRise = false ∧
    (busy.port .rp3).resetAsserted = true ∧ { busy with rstAsserted := true }.rstAsserted = true ∧
    { busy with memoryPort := some ⟨.read, 0, 1, [], 0⟩ }.memoryPort ≠ none :=
  ⟨reset_nothing_due _, reset_nothing_due _, by decide, by decide, by decide, by decide, by decide,
    by decide, by decide, by decide⟩

theorem witness_withoutItsCause_message :
    (∀ n rest, (busy.port .rp0).toPool ≠ .claim n :: rest) ∧
      ∀ d rest, (State.reset.port .rp0).toPool ≠ .donation d :: rest :=
  ⟨fun n rest h => by simp [State.port, busy, PerPort.get] at h,
    fun d rest h => by simp [State.port, State.reset, PerPort.get, PerPort.all, PortBlock.reset] at h⟩

/-- One microsecond before the close and before the deadline. -/
theorem witness_withoutItsCause_early :
    ¬ (running .rp0 cap 1 0 0 State.reset).Due (.windowClose .rp0) ∧
      ¬ { dueState with ticks := 11023 }.Due (.completionDeadline 17) := by
  constructor
  · rintro (⟨k, hk, -, h⟩ | ⟨_, _, _, h, -⟩)
    · cases hk
      exact absurd h (by decide)
    · exact nomatch h
  · rintro (⟨_, h, -⟩ | ⟨tag, f, d, ht, hf, -, hd, h⟩)
    · exact nomatch h
    · cases ht
      obtain rfl : liveRead .rp2 5 = f := Option.some.inj hf
      obtain rfl : (11024 : BitVec 32) = d := Option.some.inj hd
      exact absurd h (by decide)

/-! ### Windows and claims -/

theorem witness_windowClose (i : Installed) (used credit : Nat) :
    let s := timeUp .rp1 (running .rp1 i 10 used credit State.reset)
    s.operating = true ∧ (s.port .rp1).windowRuns = true ∧ (s.port .rp1).meter.timeRemaining = 0 ∧
      (s.port .rp1).meter.installed = some i ∧ AllAdmitted (s.port .rp1).queue := by
  refine ⟨rfl, rfl, rfl, rfl, ?_⟩
  intro e h
  exact nomatch h

theorem witness_windowClose_modes : cap.profile.mode = .cap ∧ bucket.profile.mode = .bucket := by decide

/-- A CAP profile no READ of 16 fits in, with max_hold 2. -/
def patient : Installed := { cap with profile := { cap.profile with maxHold := 2 } }

/-- Entries on either side of the hold limit of 2: one reaches it, one is one close below it. -/
theorem witness_holdLimit :
    let s := timeUp .rp1 (queued .rp1 [admittedEntry (readOf 1 1), waitingEntry (readOf 16 2) 1 true,
      waitingEntry (readOf 16 3) 0 false] (running .rp1 patient 10 0 0 State.reset))
    s.operating = true ∧ (s.port .rp1).windowRuns = true ∧ (s.port .rp1).meter.timeRemaining = 0 ∧
      (s.port .rp1).meter.installed = some patient ∧ patient.profile.maxHold ≠ 0 ∧
      ((after (.windowClose .rp1) s).port .rp1).queue =
        [admittedEntry (readOf 1 1), ⟨readOf 16 2, .admitted, 2, true⟩,
          waitingEntry (readOf 16 3) 1 false] := by decide

/-- The re-evaluation sends a claim for the third READ, and the hold limit of 1 then reaches it. -/
theorem witness_holdLimit_claim :
    let i : Installed := { capBorrow with profile := { capBorrow.profile with maxHold := 1 } }
    let s := timeUp .rp1 (queued .rp1 [waitingEntry (readOf 16 1) 0 false,
      waitingEntry (readOf 16 2) 0 false, waitingEntry (readOf 16 3) 0 false]
      (running .rp1 i 10 32 0 State.reset))
    let u := evaluate .rp1 (s.windowRenewed .rp1 i)
    s.operating = true ∧ (s.port .rp1).windowRuns = true ∧ (s.port .rp1).meter.timeRemaining = 0 ∧
      (s.port .rp1).meter.installed = some i ∧ (u.port .rp1).meter.claim = some ⟨16, true⟩ ∧
      (u.port .rp1).queue = [admittedEntry (readOf 16 1), admittedEntry (readOf 16 2),
        waitingEntry (readOf 16 3) 0 false] ∧
      ((after (.windowClose .rp1) s).port .rp1).meter.claim = some ⟨16, false⟩ := by decide

/-- With max_hold 0 no limit applies: the entry stays WAITING at its highest count. -/
theorem witness_holdLimit_none :
    let s := timeUp .rp1 (queued .rp1 [waitingEntry (readOf 16 1) 14 false]
      (running .rp1 { cap with profile := { cap.profile with maxHold := 0 } } 10 0 0 State.reset))
    s.operating = true ∧ (s.port .rp1).windowRuns = true ∧ (s.port .rp1).meter.timeRemaining = 0 ∧
      ((after (.windowClose .rp1) s).port .rp1).queue = [waitingEntry (readOf 16 1) 15 true] := by decide

/-- Port RP1 at a close, with its dwell. -/
def dwelling (i : Installed) (remaining : Nat) (counting loadInFlight : Bool) : State :=
  let s := timeUp .rp1 (running .rp1 i 31 0 0 State.reset)
  s.setController .rp1 { (s.port .rp1).controller with
    dwellRemaining := remaining, dwellCounting := counting, loadInFlight := loadInFlight }

theorem witness_dwell (i : Installed) (remaining : Nat) (counting loadInFlight : Bool) :
    let s := dwelling i remaining counting loadInFlight
    s.operating = true ∧ (s.port .rp1).windowRuns = true ∧ (s.port .rp1).meter.timeRemaining = 0 ∧
      (s.port .rp1).meter.installed = some i ∧ (s.port .rp1).controller.portState = .active ∧
      (s.port .rp1).controller.loadInFlight = loadInFlight ∧
      (s.port .rp1).controller.dwellCounting = counting ∧
      (s.port .rp1).controller.dwellRemaining = remaining := ⟨rfl, rfl, rfl, rfl, rfl, rfl, rfl, rfl⟩

theorem witness_dwell_flags : linked.profile.flags.link = true ∧ unlinked.profile.flags.link = false ∧
    unlinked.profile.flags.nDwell = true := by decide

theorem witness_dwell_ends :
    let s := dwelling unlinked 1 true false
    s.operating = true ∧ (s.port .rp1).meter.installed = some unlinked ∧
      (s.port .rp1).controller.portState = .active ∧ (s.port .rp1).controller.dwellRemaining = 1 ∧
      (after (.windowClose .rp1) s).notices.records = [⟨.dwellEnd, some .rp1, 32, 4, 0⟩] := by decide

/-- Port RP1 under a claim, with the answer on its way. -/
def answered (c : Claim) (a : ClaimAnswer) : State :=
  let s := claiming .rp1 c (queued .rp1 [admittedEntry (readOf 1 1), waitingEntry (readOf 16 4) 0 false]
    (running .rp1 bucket 8 0 12 State.reset))
  s.setPort .rp1 { s.port .rp1 with answers := [a] }

theorem witness_claimAnswer (c : Claim) (a : ClaimAnswer) :
    let s := answered c a
    s.operating = true ∧ (s.port .rp1).windowRuns = true ∧ (s.port .rp1).meter.installed = some bucket ∧
      (s.port .rp1).meter.claim = some c ∧ (s.port .rp1).answers = a :: [] ∧
      (s.port .rp1).queue = [admittedEntry (readOf 1 1)] ++ waitingEntry (readOf 16 4) 0 false :: [] ∧
      AllAdmitted [admittedEntry (readOf 1 1)] ∧ (waitingEntry (readOf 16 4) 0 false).status = .waiting := by
  refine ⟨rfl, rfl, rfl, rfl, rfl, rfl, ?_, rfl⟩
  unfold AllAdmitted; decide

theorem witness_staleAnswer : ∀ c, ((answered ⟨4, false⟩ .grant).port .rp1).meter.claim = some c →
    c.current = false := by
  intro c h
  obtain rfl : (⟨4, false⟩ : Claim) = c := Option.some.inj h
  rfl

/-! ### Credit pool, report writer -/

theorem witness_donation : busy.operating = true ∧
    (busy.port .rp0).toPool = .donation 8 :: [.claim 4] := by decide

/-- A claim of exactly the level, and of one beat more. -/
theorem witness_claim :
    let s := { State.reset with pool := ⟨4, 100⟩ }
    let t := s.setPort .rp0 { s.port .rp0 with toPool := [.claim 4] }
    let u := s.setPort .rp0 { s.port .rp0 with toPool := [.claim 5] }
    t.operating = true ∧ (t.port .rp0).toPool = .claim 4 :: [] ∧ 4 ≤ t.pool.level ∧
      u.operating = true ∧ (u.port .rp0).toPool = .claim 5 :: [] ∧ u.pool.level < 5 := by decide

/-- `s` with a report of RP0 on its way to the writer. -/
def submitting (s : State) : State := s.setPort .rp0 { s.port .rp0 with toWriter := [reportFor .rp0] }

theorem witness_report_stopped : (submitting State.reset).operating = true ∧
    ((submitting State.reset).port .rp0).toWriter = reportFor .rp0 :: [] ∧
    (submitting State.reset).writer.ring ≠ .run := by decide

theorem witness_report_dropped :
    let s := submitting (ringRunning (List.replicate 8 (reportFor .rp1)) true State.reset)
    s.operating = true ∧ (s.port .rp0).toWriter = reportFor .rp0 :: [] ∧ s.writer.ring = .run ∧
      8 ≤ s.writer.queue.length := by decide

theorem witness_report_queued :
    let s := submitting (ringRunning (List.replicate 7 (reportFor .rp1)) true State.reset)
    s.operating = true ∧ (s.port .rp0).toWriter = reportFor .rp0 :: [] ∧ s.writer.ring = .run ∧
      s.writer.queue.length < 8 ∧ s.writer.queue ≠ [] := by decide

theorem witness_report_written :
    let s := submitting (ringRunning [] false State.reset)
    s.operating = true ∧ (s.port .rp0).toWriter = reportFor .rp0 :: [] ∧ s.writer.ring = .run ∧
      s.writer.queue = [] ∧ s.writer.writeInFlight = false ∧
      (s.writer.producer - s.writer.consumer).toNat < s.writer.size := by decide

theorem witness_report_full :
    let s := submitting (ringFull [] false State.reset)
    s.operating = true ∧ (s.port .rp0).toWriter = reportFor .rp0 :: [] ∧ s.writer.ring = .run ∧
      s.writer.queue = [] ∧ s.writer.writeInFlight = false ∧
      s.writer.size ≤ (s.writer.producer - s.writer.consumer).toNat := by decide

/-- The last byte of the last beat, and byte 4 of the first, the lowest of the sequence number (R187). -/
theorem witness_report_bytes :
    let beats := beatsOfReport ⟨.rp2, { Snapshot.reset with seqNo := 0x01020304 }, 3⟩
    (3 < 4 ∧ 15 < 16) ∧ beats.map (fun b => b.data.extractLsb' 120 8) = [0, 0, 0, 0] ∧
      beats.map (fun b => b.data.extractLsb' 32 8) = [4, 0, 0, 0] ∧
      beats.map (fun b => b.enables) = [0xFFFF, 0xFFFF, 0xFFFF, 0xFFFF] := by decide

/-! ### Issue and the in-flight table -/

theorem witness_internalGrant :
    let s := { State.reset with internalList := [.load .rp0 0x4000, .report 0x10200 []] }
    let t := holding 62 (liveLoad .rp1) s
    s.operating = true ∧ s.memoryPort = none ∧ s.internalList ≠ [] ∧ s.table[62] = none ∧
      t.operating = true ∧ t.memoryPort = none ∧ t.internalList ≠ [] ∧ t.table[62] ≠ none ∧
      t.table[63] = none := by decide

/-- RP3 with an ADMITTED head, the pointer at RP1, and tag 0 held. -/
def portTurn : State :=
  { queued .rp3 [admittedEntry (writeOf 4 2)] (holding 0 (liveRead .rp3 5) State.reset) with
    roundRobin := .rp1 }

theorem witness_portGrant : portTurn.operating = true ∧ portTurn.memoryPort = none ∧
    portTurn.internalList = [] ∧ (portTurn.port .rp3).queue = admittedEntry (writeOf 4 2) :: [] ∧
    portTurn.heldCount .rp3 < 4 ∧ portTurn.table[1] = none ∧
    (∀ lower : Fin 64, lower < 1 → portTurn.table[lower.val] ≠ none) ∧
    roundFrom portTurn.roundRobin = [.rp1, .rp2] ++ .rp3 :: [.rp0] ∧
    (portTurn.port .rp1).queue = [] ∧ (portTurn.port .rp2).queue = [] := by decide

theorem witness_portGrant_turn : ∀ before after, roundFrom portTurn.roundRobin = before ++ .rp3 :: after →
    ∀ j ∈ before, (portTurn.port j).queue = [] := by
  intro before after h j hj
  have distinct : (before ++ .rp3 :: after).Nodup := h ▸ (by decide : (roundFrom portTurn.roundRobin).Nodup)
  have differs : j ≠ .rp3 := (List.nodup_append.mp distinct).2.2 j hj .rp3 List.mem_cons_self
  cases j
  · decide
  · decide
  · decide
  · exact absurd rfl differs

theorem witness_noGrant : State.reset.operating = true ∧ State.reset.memoryPort = none ∧
    State.reset.internalList = [] ∧ ∀ k, (State.reset.port k).queue = [] :=
  ⟨rfl, rfl, rfl, fun k => by cases k <;> rfl⟩

theorem witness_answer_drains :
    busy.operating = true ∧ busy.table[17] = some (liveRead .rp2 5) ∧ (liveRead .rp2 5).state = .live ∧
      (liveRead .rp2 5).owner = .port .rp2 5 ∧ (busy.port .rp2).controller.portState = .draining ∧
      (busy.port .rp2).queue = [] ∧ (after (.memoryAnswer 17 .ok []) busy).liveCount .rp2 = 0 := by decide

theorem witness_answer_stays :
    let s := holding 17 (liveRead .rp2 5) (running .rp2 observe 3 0 0 State.reset)
    s.operating = true ∧ s.table[17] = some (liveRead .rp2 5) ∧
      (s.port .rp2).controller.portState ≠ .draining := by decide

theorem witness_discarded : State.reset.operating = true ∧ State.reset.table[63] = none ∧
    (holding 63 (liveLoad .rp0).orphan State.reset).table[63] = some (liveLoad .rp0).orphan ∧
    (liveLoad .rp0).orphan.state = .orphan ∧ (liveLoad .rp0).orphan.owner.portOf = none ∧
    (holding 5 (liveRead .rp0 1).orphan State.reset).table[5] = some (liveRead .rp0 1).orphan ∧
    ((holding 5 (liveRead .rp0 1).orphan State.reset).port .rp0).controller.portState ≠ .draining := by
  decide

/-- RP1 with a load in flight that QUIESCE cancelled. -/
def cancelled : State :=
  let s := holding 62 (liveLoad .rp1) (loading .rp1 State.reset)
  s.setController .rp1 { (s.port .rp1).controller with
    portState := .quiet, loadInFlight := true, cancelledLoad := true }

theorem witness_discarded_load : cancelled.operating = true ∧
    cancelled.table[62] = some (liveLoad .rp1) ∧ (liveLoad .rp1).state = .live ∧
    (liveLoad .rp1).owner = .load .rp1 ∧ (cancelled.port .rp1).load.isSome = true ∧
    (cancelled.port .rp1).controller.cancelledLoad = true := by decide

theorem witness_discarded_deadline :
    let s := { cancelled with ticks := 11024 }
    s.operating = true ∧ s.table[62] = some (liveLoad .rp1) ∧ (s.port .rp1).load.isSome = true ∧
      (s.port .rp1).controller.cancelledLoad = true ∧ s.Due (.completionDeadline 62) :=
  ⟨by decide, by decide, by decide, by decide,
    .inr ⟨62, liveLoad .rp1, 11024, rfl, by decide, rfl, rfl, by decide⟩⟩

/-- RP1 LOADING with its read in flight, over the port state `s` gives it. -/
def reading (s : State) : State := holding 62 (liveLoad .rp1) (loading .rp1 { s with ticks := 11024 })

theorem witness_load (s : State) (hs : s.operating = true) :
    (reading s).operating = true ∧ (reading s).table[62] = some (liveLoad .rp1) ∧
      (liveLoad .rp1).state = .live ∧ (liveLoad .rp1).owner = .load .rp1 ∧
      ((reading s).port .rp1).load = some ⟨9, 0x120⟩ ∧
      ((reading s).port .rp1).controller.portState = .loading :=
  ⟨hs, by simp [reading, holding, State.setEntry, State.setTable], rfl, rfl, rfl, rfl⟩

theorem witness_load_running :
    let s := reading (running .rp1 linked 33 0 0 State.reset)
    (s.port .rp1).controller.cancelledLoad = false ∧ (s.port .rp1).meter.installed = some linked ∧
      (s.port .rp1).windowRuns = true ∧ AllAdmitted (s.port .rp1).queue ∧
      (s.port .rp1).fallback.valid = false := by unfold AllAdmitted; decide

theorem witness_load_first :
    let s := reading State.reset
    (s.port .rp1).controller.cancelledLoad = false ∧ (s.port .rp1).meter.installed = none ∧
      (s.port .rp1).windowRuns = false ∧ (s.port .rp1).fallback.valid = false := by decide

theorem witness_load_fallback :
    let s := reading (State.reset.setPort .rp1
      { State.reset.port .rp1 with fallback := ⟨true, observe.profile⟩ })
    (s.port .rp1).controller.cancelledLoad = false ∧ (s.port .rp1).fallback.valid = true := by decide

theorem witness_load_fallback_running :
    let s := reading (running .rp1 linked 33 0 0 (State.reset.setPort .rp1
      { State.reset.port .rp1 with fallback := ⟨true, observe.profile⟩ }))
    (s.port .rp1).controller.cancelledLoad = false ∧ (s.port .rp1).fallback.valid = true ∧
      (s.port .rp1).meter.installed = some linked ∧ (s.port .rp1).windowRuns = true ∧
      AllAdmitted (s.port .rp1).queue := by unfold AllAdmitted; decide

/-- The bytes of 10.2 in the order the statement names them: format 0xB6, CAP, BOTH, max_hold 2, the halfwords,
next index 0, eleven unused bytes, check 0xF6E0. Each failure has its bytes: another format, another check,
CAP with budget 0. -/
theorem witness_record_bytes : exampleBytes =
    [0xB6, 1, 3, 2] ++ [0xE8, 3] ++ [64, 0] ++ [0, 0] ++ [48, 0] ++ [0, 0] ++ [5, 1] ++ [10, 0] ++ [0] ++
      List.replicate 11 0 ++ [0xE0, 0xF6] ∧ (List.replicate 11 (0 : Byte)).length = 11 ∧
    validateRecord (exampleBytes.set 0 0xB7) = .error .badFormat ∧
    validateRecord (exampleBytes.set 30 0xE1) = .error .badCheck ∧
    validateRecord ((exampleBytes.set 6 0).set 30 0x20 |>.set 31 0xF7) = .error .badField :=
  ⟨rfl, rfl, rfl, rfl, rfl⟩

/-- 10.2: the record is accepted; with the format tag alone it fails its check sum. -/
theorem witness_record_accepted :
    validateRecord (bytesOfRecordRead recordBeats) = .ok recordProfile ∧
      recordProfile.flags.nInstall = true := ⟨rfl, by decide⟩
theorem witness_record_faulty :
    validateRecord (bytesOfRecordRead [beatOfBytes [0xB6], 0]) = .error .badCheck ∧
      validateRecord (bytesOfRecordRead [0, 0]) = .error .badFormat := ⟨rfl, rfl⟩

theorem witness_load_deadline : (reading State.reset).Due (.completionDeadline 62) :=
  .inr ⟨62, liveLoad .rp1, 11024, rfl, by decide, rfl, rfl, by decide⟩

/-- A report write in flight at tag 62. -/
def writing (s : State) : State := holding 62 liveReport { s with ticks := 11024 }

theorem witness_writeResult_entry : (writing (ringRunning [reportFor .rp0] true State.reset)).operating = true ∧
    (writing (ringRunning [reportFor .rp0] true State.reset)).table[62] = some liveReport ∧
    liveReport.state = .live ∧ liveReport.owner = .report ∧
    (writing (ringRunning [reportFor .rp0] true State.reset)).writer.queue.length ≤ 1 ∧
    (writing State.reset).table[62] = some liveReport ∧ (writing State.reset).writer.ring ≠ .run := by
  decide

theorem witness_writeResult_next :
    let s := writing (ringRunning [reportFor .rp0, reportFor .rp2] true State.reset)
    s.operating = true ∧ s.table[62] = some liveReport ∧ s.writer.ring = .run ∧
      s.writer.queue = reportFor .rp0 :: reportFor .rp2 :: [] ∧
      (s.writer.producer + 1 - s.writer.consumer).toNat < s.writer.size := by decide

/-- The ring with one slot left when the write ends. -/
theorem witness_writeResult_full :
    let s := writing ((ringRunning [] true State.reset).setWriter { ReportWriter.reset with
      ring := .run, base := 0x10000, size := 16, producer := 15, consumer := 0
      queue := [reportFor .rp0, reportFor .rp2], writeInFlight := true })
    s.operating = true ∧ s.table[62] = some liveReport ∧ s.writer.ring = .run ∧
      s.writer.queue = reportFor .rp0 :: reportFor .rp2 :: [] ∧
      s.writer.size ≤ (s.writer.producer + 1 - s.writer.consumer).toNat := by decide

theorem witness_writeResult_deadline : (writing State.reset).Due (.completionDeadline 62) ∧
    ∀ k, (writing State.reset).writer.gapCount.get k ≤ 255 :=
  ⟨.inr ⟨62, liveReport, 11024, rfl, by decide, rfl, rfl, by decide⟩, fun k => by cases k <;> decide⟩

theorem witness_deadline : dueState.operating = true ∧ dueState.table[17] = some (liveRead .rp2 5) ∧
    dueState.Due (.completionDeadline 17) ∧ (liveRead .rp2 5).owner = .port .rp2 5 ∧
    (dueState.port .rp2).controller.portState ≠ .draining :=
  ⟨by decide, by decide, dueState_deadline, by decide, by decide⟩

theorem witness_deadline_drains :
    let s := { busy with ticks := 11024 }
    s.operating = true ∧ s.table[17] = some (liveRead .rp2 5) ∧ s.Due (.completionDeadline 17) ∧
      (s.port .rp2).controller.portState = .draining ∧ (s.port .rp2).queue = [] ∧
      (after (.completionDeadline 17) s).liveCount .rp2 = 0 :=
  ⟨by decide, by decide, .inr ⟨17, liveRead .rp2 5, 11024, rfl, by decide, rfl, rfl, by decide⟩, by decide,
    by decide, by decide⟩

/-! ### Management link -/

/-- The link of a busy part takes frames: the one hypothesis of every statement about a command. -/
theorem witness_listening : busy.listening = true ∧ State.reset.listening = true := by decide

theorem witness_unknownCode : commandOf 0x15 = none ∧ commandOf 0 = none ∧ commandOf 0xFF = none := by
  decide

/-- A frame of one whole byte and three bits: the last bit of the partial byte lies within it. -/
theorem witness_readResponse : 7 < 8 ∧ 8 + 8 * 0 + 7 < 8 * (1 + 1) + 3 ∧ 8 + 8 * 1 + 2 < 8 * (1 + 1) + 3 := by
  decide

theorem witness_wrongLength : commandOf 0x23 = some .load ∧ ((0x23 : Byte).toNat, 2) ∈ argumentBytes ∧
    (⟨[2], 0⟩ : Frame).args.length ≠ 2 ∧ (⟨[2, 9], 1⟩ : Frame).partialBits ≠ 0 := ⟨rfl, by decide⟩

theorem witness_wrongPort : (0x23 : Byte).toNat ∈ portCodes ∧ (⟨[4, 9], 0⟩ : Frame).partialBits = 0 ∧
    (⟨[4, 9], 0⟩ : Frame).args.length = 2 ∧ (⟨[4, 9], 0⟩ : Frame).args = 4 :: [9] ∧
    4 ≤ (4 : Byte).toNat := by decide

theorem witness_getProfile : (State.reset.port .rp0).meter.installed = none ∧
    (busy.port .rp0).meter.installed = some bucket := by decide

/-- The highest base, a base that is no multiple of 32, and the first base past the highest. -/
theorem witness_tableBase : (0xFFFFFFE000 : Addr).toNat % 32 = 0 ∧
    (0xFFFFFFE000 : Addr).toNat ≤ 1099511619584 ∧ (0x10 : Addr).toNat % 32 ≠ 0 ∧
    1099511619584 < (0xFFFFFFE020 : Addr).toNat := by decide

/-- The range checks of R74 at their edges: the smallest window and the largest max_hold pass, and one below
or above fails. -/
theorem witness_fallback_fails : (15 : BitVec 16).toNat < 16 ∧ 16 ≤ (16 : Byte).toNat ∧ 3 ≤ (3 : Byte).toNat ∧
    4 ≤ (4 : Byte).toNat ∧ (59 : BitVec 16).toNat < (60 : BitVec 16).toNat := by decide

theorem witness_fallback_passes : ¬ (3 ≤ (2 : Byte).toNat ∨ (3 : Byte).toNat = 0 ∨ 4 ≤ (3 : Byte).toNat ∨
    (16 : BitVec 16).toNat < 16 ∨ (((2 : Byte) = 1 ∨ (2 : Byte) = 2) ∧ (60 : BitVec 16) = 0) ∨
    ((2 : Byte) = 2 ∧ (60 : BitVec 16).toNat < (60 : BitVec 16).toNat) ∨ 16 ≤ (15 : Byte).toNat) := by decide

theorem witness_loadCommand : (State.reset.port .rp0).controller.portState = .pass ∧
    (State.reset.port .rp0).controller.loadInFlight = false ∧
    (busy.port .rp0).controller.portState = .active ∧ (busy.port .rp0).controller.loadInFlight = false ∧
    (busy.port .rp1).controller.portState = .loading ∧ (busy.port .rp2).controller.portState = .draining ∧
    (busy.port .rp3).controller.portState = .quiet ∧
    ((inState .rp1 .pass cancelled).port .rp1).controller.portState = .pass ∧
    ((inState .rp1 .pass cancelled).port .rp1).controller.loadInFlight = true := by decide

theorem witness_quiesce_stops : (busy.port .rp0).windowRuns = true ∧
    (busy.port .rp0).meter.installed = some bucket ∧ (busy.port .rp1).windowRuns = false ∧
    (busy.port .rp0).queue ≠ [] ∧ (State.reset.port .rp0).queue = [] ∧
    State.reset.liveCount .rp0 = 0 := by decide

theorem witness_resume : (busy.port .rp3).controller.portState = .quiet ∧ (busy.port .rp3).queue = [] ∧
    (busy.port .rp3).meter.installed = none ∧ (busy.port .rp0).controller.portState ≠ .quiet ∧
    ((inState .rp3 .quiet (running .rp3 capBorrow 52 12 0 State.reset)).port .rp3).meter.installed =
      some capBorrow := by decide

/-- The highest ring, one slot higher, a base off its alignment and a size that is none of the nine. -/
theorem witness_setRing : (0xFFFFFFFC00 : Addr).toNat % 64 = 0 ∧
    (16 : BitVec 16).toNat ∈ [16, 32, 64, 128, 256, 512, 1024, 2048, 4096] ∧
    (0xFFFFFFFC00 : Addr).toNat + 64 * 16 ≤ 1099511627776 ∧
    ¬ (0xFFFFFFFC40 : Addr).toNat + 64 * 16 ≤ 1099511627776 ∧ ¬ (0x20 : Addr).toNat % 64 = 0 ∧
    (17 : BitVec 16).toNat ∉ [16, 32, 64, 128, 256, 512, 1024, 2048, 4096] ∧
    State.reset.writer.ring ≠ .run ∧ State.reset.writer.writeInFlight = false ∧
    State.reset.writer.queue = [] ∧ busy.writer.ring = .run := by decide

/-- An index at the producer, and one past it. -/
theorem witness_reportAck :
    let w := (ringFull [reportFor .rp0] true State.reset).writer
    ((16 : BitVec 16) - w.consumer).toNat ≤ (w.producer - w.consumer).toNat ∧
      (w.producer - w.consumer).toNat < ((17 : BitVec 16) - w.consumer).toNat ∧ w.ring = .run ∧
      w.writeInFlight = false ∧ w.queue = reportFor .rp0 :: [] ∧
      decide (w.size ≤ (w.producer - 1).toNat) = false ∧
      decide (w.size ≤ (w.producer - 0).toNat) = true ∧ w.fullEpisode = true := by decide

theorem witness_popNotice : State.reset.notices.records = [] ∧
    brimming.notices.records =
      ⟨.low, some .rp0, 1, 2, 3⟩ :: List.replicate 31 ⟨.low, some .rp0, 1, 2, 3⟩ ∧
    brimming.notices.records.length = 32 ∧ brimming.listening = true := by decide

theorem witness_setIrq : (2 : Byte) ≠ 0 ∧ (2 : Byte) ≠ 1 := by decide

end Sys2Proof.Tests
end

