-- ==== Sys2Proof/Proofs/CreditPoolSettings.lean ====
section
/-! PROOF. The two settings of chapter 03 and of the completion timeout: SET_POOL_LIMIT (R58) and SET_TIMEOUT
(R118, R178). -/

namespace Sys2Proof.Machine

open Sys2Proof

/-! ## The credit pool with a new limit -/

/-- A limit of 0 leaves no beats, whatever the level was. -/
theorem Pool.setLimit_zero (p : Pool) : p.setLimit 0 = ⟨0, 0⟩ := by
  simp [Pool.setLimit]

/-- With the limit 0 every beat of a donation is excess (R53). -/
theorem Pool.donate_empty (d : Nat) : (⟨0, 0⟩ : Pool).donate d = ⟨0, 0⟩ := by
  simp [Pool.donate]

/-- A claim asks for at least one beat, which an empty pool does not hold (R54). -/
theorem Pool.answer_empty (limit : Nat) {n : Nat} (h : 1 ≤ n) : (⟨0, limit⟩ : Pool).answer n = .refusal :=
  if_neg (Nat.not_le.2 h)

/-- The image of a pool whose limit is the word `limit`, in the bytes the command carried. -/
theorem poolImage_word16 (level : Nat) (limit : BitVec 16) : poolImage ⟨level, limit.toNat⟩ =
    [BitVec.ofNat 8 (level / 256), BitVec.ofNat 8 level,
      limit.extractLsb' 8 8, limit.extractLsb' 0 8] := by
  unfold poolImage
  rw [bytesBE_two, bytesBE_word16]
  rfl

/-! ## The two commands, taken with a whole frame -/

theorem exec_setPoolLimit (f : Frame) (s : State) : exec (.setPoolLimit f) s = execSetPoolLimit f s := by
  rfl

theorem exec_setTimeout (f : Frame) (s : State) : exec (.setTimeout f) s = execSetTimeout f s := by
  rfl

theorem exec_setPoolLimit_whole {s : State} (h : s.listening = true) (args : List Byte)
    (hl : args.length = 2) :
    exec (.setPoolLimit (wholeFrame args)) s =
      .next ({ s with pool := s.pool.setLimit (natOfBE args) }.answered (wholeFrame args) .ok
        (poolImage (s.pool.setLimit (natOfBE args)))) := by
  rw [exec_setPoolLimit, execSetPoolLimit, ← hl, takeFrame_whole s args _ h]
  rfl

theorem exec_setTimeout_whole {s : State} (h : s.listening = true) (setting : Byte) :
    exec (.setTimeout (wholeFrame [setting])) s =
      .next ({ s with link := { s.link with timeout := setting } }.answered (wholeFrame [setting]) .ok
        [setting]) := by
  rw [exec_setTimeout, execSetTimeout]
  exact takeFrame_whole s [setting] _ h

/-- Settles O55: both commands from their equations on a whole frame, the limit read back from its two bytes;
with the limit 0 the pool is the empty one. -/
theorem poolLimitAndTimeoutAreSet : Obligations.PoolLimitAndTimeoutAreSet := by
  intro s h
  refine ⟨fun limit => ?setPoolLimit, fun d n hn => ?limitZero, exec_setTimeout_whole h⟩
  case setPoolLimit =>
    have taken := exec_setPoolLimit_whole h [limit.extractLsb' 8 8, limit.extractLsb' 0 8] rfl
    rw [natOfBE_word16] at taken
    exact taken.trans (by rw [Pool.setLimit, poolImage_word16])
  case limitZero =>
    rw [Pool.setLimit_zero]
    exact ⟨Pool.donate_empty d, Pool.answer_empty 0 hn⟩

end Sys2Proof.Machine
end

