-- ==== Sys2Proof/Proofs/TableBase.lean ====
section
/-! PROOF. SET_TABLE_BASE (R65): the range check on the base, and the record address of a load started under
the new base (R64, R68). -/

namespace Sys2Proof.Machine

open Sys2Proof

/-! ## The base in a command's arguments -/

/-- Five argument bytes name the address they spell, first byte most significant (R176). -/
theorem baseOfArgs_addr (base : Addr) : baseOfArgs (bytesBE 5 base.toNat) = base.toNat := by
  rw [bytesBE_addr]
  exact natOfBE_addr base

/-! ## The command, taken with a whole frame -/

theorem exec_setTableBase (f : Frame) (s : State) : exec (.setTableBase f) s = execSetTableBase f s := by
  rfl

theorem exec_setTableBase_whole {s : State} (h : s.listening = true) (base : Addr) :
    exec (.setTableBase (wholeFrame (bytesBE 5 base.toNat))) s =
      .next (if base.toNat % 32 = 0 ∧ base.toNat ≤ maxTableBase then
          { s with tableBase := base }.answered (wholeFrame (bytesBE 5 base.toNat)) .ok
            (bytesBE 5 base.toNat)
        else s.answered (wholeFrame (bytesBE 5 base.toNat)) .badArg []) := by
  have taken := takeFrame_whole s (bytesBE 5 base.toNat)
  rw [bytesBE_length] at taken
  rw [exec_setTableBase, execSetTableBase, taken _ h]
  simp only [baseOfArgs_addr, BitVec.ofNat_toNat, BitVec.setWidth_eq]
  rfl

/-! ## A load started afterwards -/

/-- R64, R68: the context of a new load holds the record's address under the base now in force. -/
theorem startLoad_load (k : Port) (index : Byte) (s : State) :
    ((startLoad k index s).port k).load = some ⟨index, s.tableBase + 32 * index.zeroExtend 40⟩ := by
  simp [startLoad_eq, State.port_def]

/-- Settles O50: the command's equation on a whole frame, its check decided each way; the address of a later
load is `startLoad_load` at the new base. -/
theorem setTableBaseChecksAndSets : Obligations.SetTableBaseChecksAndSets := by
  intro s base h
  have taken := exec_setTableBase_whole h base
  rw [bytesBE_addr] at taken
  refine ⟨fun aligned below => ⟨?accepted, fun k index => startLoad_load k index _⟩, fun outside => ?refused⟩
  case accepted =>
    rw [taken, if_pos ⟨aligned, below⟩]
    rfl
  case refused =>
    rw [taken, if_neg]
    rintro ⟨aligned, below⟩
    exact outside.elim (· aligned) (Nat.not_lt.2 below)

end Sys2Proof.Machine
end

