-- ==== Sys2Proof/Proofs/NoticeCommands.lean ====
section
/-! PROOF. The three commands of the notice queue (chapter 07): POP_NOTICE (R138), CLEAR_OVERFLOW (R139) and
SET_IRQ (R140), with the level of IRQ_N (R141). -/

namespace Sys2Proof.Machine

open Sys2Proof

/-! ## The bytes of a notice record (R190) -/

theorem codeOfNoticePort_some_byte (k : Port) : BitVec.ofNat 8 (codeOfNoticePort (some k)) = portByte k := by
  rfl

theorem codeOfNoticePort_none_byte : BitVec.ofNat 8 (codeOfNoticePort none) = 0xFF := by
  rfl

/-- The record byte by byte, each number with its most significant byte first. -/
theorem bytesOfNotice_eq (n : Notice) : bytesOfNotice n =
    [BitVec.ofNat 8 (codeOfNotice n.kind), BitVec.ofNat 8 (codeOfNoticePort n.port),
      n.seqNo.extractLsb' 24 8, n.seqNo.extractLsb' 16 8, n.seqNo.extractLsb' 8 8, n.seqNo.extractLsb' 0 8,
      n.index, BitVec.ofNat 8 (n.detail / 256), BitVec.ofNat 8 n.detail] := by
  unfold bytesOfNotice
  rw [bytesBE_one, bytesBE_one, bytesBE_word32, bytesBE_two]
  rfl

theorem popHeader_eq (depth : Nat) (overflow : Bool) :
    popHeader depth overflow = [BitVec.ofNat 8 depth, BitVec.ofNat 8 overflow.toNat] := by
  rw [popHeader, bytesBE_one]
  rfl

/-! ## The owner's part -/

theorem takePopNotice_nil {s : State} (f : Frame) (h : s.notices.records = []) :
    takePopNotice (s.emit (quietMdo f)) = s.answered f .empty (popHeader 0 s.notices.overflow) := by
  simp only [takePopNotice, State.emit_notices, h, answered_def]

theorem takePopNotice_cons {s : State} (f : Frame) {n : Notice} {rest : List Notice}
    (h : s.notices.records = n :: rest) :
    takePopNotice (s.emit (quietMdo f)) =
      { s with notices := { s.notices with records := rest } }.answered f .ok
        (popHeader rest.length s.notices.overflow ++ bytesOfNotice n) := by
  simp only [takePopNotice, State.emit_notices, h]
  rfl

theorem answered_notices (s : State) (f : Frame) (status : Status) (data : List Byte) :
    (s.answered f status data).notices = s.notices := by
  rfl

/-- R141: IRQ_N is asserted while the enable is set and a record or the overflow flag stands. -/
theorem NoticeQueue.irqAsserted_iff (q : NoticeQueue) :
    q.irqAsserted = true ↔ q.irqEnable = true ∧ (q.records ≠ [] ∨ q.overflow = true) := by
  simp [NoticeQueue.irqAsserted]

/-! ## The three commands, taken with a whole frame -/

theorem exec_popNotice (f : Frame) (s : State) : exec (.popNotice f) s = execPopNotice f s := by
  rfl

theorem exec_clearOverflow (f : Frame) (s : State) : exec (.clearOverflow f) s = execClearOverflow f s := by
  rfl

theorem exec_setIrq (f : Frame) (s : State) : exec (.setIrq f) s = execSetIrq f s := by
  rfl

theorem exec_popNotice_whole {s : State} (h : s.listening = true) :
    exec (.popNotice (wholeFrame [])) s = .next (takePopNotice (s.emit (quietMdo (wholeFrame [])))) := by
  rw [exec_popNotice, execPopNotice]
  exact takeFrame_whole s [] _ h

theorem exec_clearOverflow_whole {s : State} (h : s.listening = true) :
    exec (.clearOverflow (wholeFrame [])) s =
      .next ({ s with notices := { s.notices with overflow := false } }.answered (wholeFrame []) .ok
        [BitVec.ofNat 8 s.notices.records.length]) := by
  rw [exec_clearOverflow, execClearOverflow, ← bytesBE_one]
  exact takeFrame_whole s [] _ h

theorem exec_setIrq_whole {s : State} (h : s.listening = true) (value : Byte) :
    exec (.setIrq (wholeFrame [value])) s =
      .next (if value = 0 ∨ value = 1 then
          { s with notices := { s.notices with irqEnable := decide (value = 1) } }.answered
            (wholeFrame [value]) .ok []
        else s.answered (wholeFrame [value]) .badArg []) := by
  rw [exec_setIrq, execSetIrq]
  exact takeFrame_whole s [value] _ h

/-- The argument that spells the enable sets it to just that. -/
theorem exec_setIrq_enable {s : State} (h : s.listening = true) (enable : Bool) :
    exec (.setIrq (wholeFrame [if enable then 1 else 0])) s =
      .next ({ s with notices := { s.notices with irqEnable := enable } }.answered
        (wholeFrame [if enable then 1 else 0]) .ok []) := by
  rw [exec_setIrq_whole h]
  cases enable <;> rfl

/-- Settles O58: the head of the queue is there or not; with a head, the response is the header and the record's
nine bytes, and the two cases of the record's port give its port byte. -/
theorem popNoticeReturnsTheOldest : Obligations.PopNoticeReturnsTheOldest := by
  intro s h
  refine ⟨fun empty => ?empty, fun n rest head => ?head⟩
  case empty =>
    rw [exec_popNotice_whole h, takePopNotice_nil _ empty, popHeader_eq]
    rfl
  case head =>
    rw [exec_popNotice_whole h, takePopNotice_cons _ head, popHeader_eq, bytesOfNotice_eq]
    obtain ⟨kind, port, seqNo, index, detail⟩ := n
    cases port with
    | none => rw [codeOfNoticePort_none_byte]; rfl
    | some k => rw [codeOfNoticePort_some_byte]; rfl

/-- Settles O59: each command from its equation on a whole frame; a full queue loses the next notice
(`submit_full`), and IRQ_N follows the enable (`irqAsserted_iff`). -/
theorem overflowAndInterruptEnable : Obligations.OverflowAndInterruptEnable := by
  intro s h
  refine ⟨⟨_, exec_clearOverflow_whole h, rfl, fun full n => ?lost⟩,
    fun enable => ⟨_, exec_setIrq_enable h enable, rfl, ?level⟩, fun value not0 not1 => ?refused⟩
  case lost =>
    simp [answered_notices, NoticeQueue.submit_full, full]
  case level =>
    rw [answered_notices]
    exact NoticeQueue.irqAsserted_iff _
  case refused =>
    rw [exec_setIrq_whole h, if_neg (not_or.2 ⟨not0, not1⟩)]

end Sys2Proof.Machine
end

