-- ==== Sys2Proof/Proofs/ReportRing.lean ====
section
/-! PROOF. The report ring (chapter 08): the result of a report write (R154, R156), and the commands SET_RING
(R158), RING_OFF (R159) and REPORT_ACK (R160). -/

namespace Sys2Proof.Machine

open Sys2Proof

/-! ## The judgement of R152 on a full ring -/

/-- R152: an episode that has been announced already is not announced again. -/
theorem judgeWrite_announced (s : State) (hfull : s.writer.full = true)
    (hepisode : s.writer.fullEpisode = true) : judgeWrite s = s := by
  unfold judgeWrite
  simp only [hfull, hepisode, if_true, ite_self]
  split <;> rfl

/-! ## The OK result of a write (R154) -/

/-- With no record behind the one written, or in a ring that runs no more, no write starts. -/
theorem writeSucceeded_still (s : State) (h : s.writer.ring ≠ .run ∨ s.writer.queue.length ≤ 1) :
    writeSucceeded s = s.setWriter { s.writer with
      writeInFlight := false, producer := s.writer.producer + 1
      queue := if s.writer.ring = .run then [] else s.writer.queue } := by
  by_cases running : s.writer.ring = .run
  · have last : s.writer.queue.tail = [] := by
      have short := h.resolve_left (not_not.2 running)
      rw [← List.length_eq_zero_iff, List.length_tail]
      omega
    rw [writeSucceeded_run s running, last, judgeWrite_still _ (.inr (.inr rfl)), if_pos running]
  · rw [writeSucceeded_off s running, if_neg running]

/-- The writer that has taken the OK result of a write with `queue` behind the record written. -/
def ReportWriter.advanced (w : ReportWriter) (queue : List Report) : ReportWriter :=
  { w with writeInFlight := false, producer := w.producer + 1, queue := queue }

theorem writeSucceeded_cons (s : State) {written : Report} {behind : List Report}
    (running : s.writer.ring = .run) (hq : s.writer.queue = written :: behind) :
    writeSucceeded s = judgeWrite (s.setWriter (s.writer.advanced behind)) := by
  rw [writeSucceeded_run s running, hq]
  rfl

theorem writeSucceeded_next (s : State) {written r : Report} {rest : List Report}
    (running : s.writer.ring = .run) (hq : s.writer.queue = written :: r :: rest)
    (room : (s.writer.advanced (r :: rest)).full = false) :
    writeSucceeded s =
      (s.setWriter { s.writer.advanced (r :: rest) with writeInFlight := true }).joinInternal
        (.report (s.writer.advanced (r :: rest)).slotAddress (beatsOfReport r)) := by
  rw [writeSucceeded_cons s running hq]
  exact judgeWrite_room _ r rest running rfl rfl room

theorem writeSucceeded_full (s : State) {written r : Report} {rest : List Report}
    (running : s.writer.ring = .run) (hq : s.writer.queue = written :: r :: rest)
    (full : (s.writer.advanced (r :: rest)).full = true) :
    writeSucceeded s = { s with
      writer := { s.writer.advanced (r :: rest) with fullEpisode := true }
      notices := if s.writer.fullEpisode then s.notices
        else s.notices.submit (writerNotice .ringFull (s.writer.producer + 1).toNat) } := by
  rw [writeSucceeded_cons s running hq]
  exact judgeWrite_full _ r rest running rfl rfl full

/-! ## The fault of a write (R156) -/

@[simp] theorem writeFailed_gapCount (cause : FaultReason) (s : State) :
    (writeFailed cause s).writer.gapCount =
      s.writer.queue.foldl (fun g r => countGap g r.port) s.writer.gapCount := by
  rfl

theorem writeFailed_eq (cause : FaultReason) (s : State) : writeFailed cause s = { s with
    writer := { s.writer with
      writeInFlight := false, ring := .halt, queue := []
      gapCount := (writeFailed cause s).writer.gapCount, fullEpisode := false }
    notices := s.notices.submit (writerNotice .reportFault (codeOfReason cause)) } := by
  rfl

/-! ## The happenings that bring the result (R121, R123) -/

theorem exec_memoryAnswer_report {s : State} {tag : Fin 64} {f : InFlight} (operating : s.operating = true)
    (entry : s.table[tag.val] = some f) (live : f.state = .live) (owner : f.owner = .report)
    (status : AnswerStatus) (data : List Beat) :
    exec (.memoryAnswer tag status data) s = .next (takeWriteResult status (s.setEntry tag none)) := by
  have taken : exec (.memoryAnswer tag status data) s = .next (takeMemoryAnswer tag status data s) :=
    happening_taken operating s _
  rw [taken, takeMemoryAnswer, entry]
  simp only [live, owner]

theorem exec_completionDeadline_report {s : State} {tag : Fin 64} {f : InFlight}
    (operating : s.operating = true) (entry : s.table[tag.val] = some f)
    (owner : f.owner = .report) (due : s.Due (.completionDeadline tag)) :
    exec (.completionDeadline tag) s = .next (writeFailed .timeout (s.setEntry tag (some f.orphan))) := by
  obtain ⟨_, reached⟩ := State.Due.reached entry due
  have taken : exec (.completionDeadline tag) s = execCompletionDeadline tag s := by rfl
  rw [taken, execCompletionDeadline, entry]
  simp only [happening, operating, reached, Bool.and_self, if_true, passDeadline, owner]

/-- Settles O42: an answer or a deadline frees or orphans the entry and hands the writer its result; the OK
result has nothing behind it, room for the next record, or a full ring, and a fault halts the ring. -/
theorem writeResultAdvancesOrHaltsTheRing : Obligations.WriteResultAdvancesOrHaltsTheRing := by
  intro s tag f operating entry live owner
  have answered := exec_memoryAnswer_report operating entry live owner
  refine ⟨fun data still => ?still, fun data written r rest running hq => ⟨fun room => ?next, fun full => ?full⟩,
    fun c cause left result => ?fault⟩
  case still =>
    exact (answered .ok data).trans (congrArg _ (writeSucceeded_still (s.setEntry tag none) still))
  case next =>
    exact (answered .ok data).trans (congrArg _ (writeSucceeded_next (s.setEntry tag none) running hq
      (decide_eq_false (Nat.not_le.2 room))))
  case full =>
    exact (answered .ok data).trans (congrArg _ (writeSucceeded_full (s.setEntry tag none) running hq
      (decide_eq_true full)))
  case fault =>
    have failed : exec c s = .next (writeFailed cause (s.setEntry tag left)) := by
      rcases result with ⟨data, rfl, rfl, rfl⟩ | ⟨rfl, due, rfl, rfl⟩
      · exact answered .error data
      · exact exec_completionDeadline_report operating entry owner due
    refine ⟨_, failed, writeFailed_eq cause _, fun k bounded => ?_⟩
    rw [writeFailed_gapCount]
    exact foldl_countGap_get _ _ k bounded

/-! ## SET_RING (R158) -/

theorem ringArgsOk_iff (base size : Nat) : ringArgsOk base size = true ↔
    base % 64 = 0 ∧ size ∈ ringSizes ∧ base + 64 * size ≤ 1099511627776 := by
  simp [ringArgsOk, and_assoc]

/-- The argument bytes of SET_RING (R179). -/
def setRingArgs (base : Addr) (size : BitVec 16) : List Byte := bytesBE 5 base.toNat ++ bytesBE 2 size.toNat

theorem setRingArgs_eq (base : Addr) (size : BitVec 16) : setRingArgs base size =
    [base.extractLsb' 32 8, base.extractLsb' 24 8, base.extractLsb' 16 8, base.extractLsb' 8 8,
      base.extractLsb' 0 8, size.extractLsb' 8 8, size.extractLsb' 0 8] := by
  rw [setRingArgs, bytesBE_addr, bytesBE_word16]
  rfl

/-- The writer of a ring that has just started: RUN, empty, and nothing lost. -/
def ReportWriter.started (base : Addr) (size : BitVec 16) : ReportWriter :=
  { ring := .run, base := base, size := size.toNat, producer := 0, consumer := 0, queue := []
    writeInFlight := false, gapCount := ⟨0, 0, 0, 0⟩, fullEpisode := false }

theorem ringImage_started (base : Addr) (size : BitVec 16) :
    ringImage (ReportWriter.started base size) = 1 :: setRingArgs base size ++ [0, 0, 0, 0] := by
  simp only [ringImage, ReportWriter.started, codeOfRing, bytesBE_one, setRingArgs, List.append_assoc]
  rfl

/-- R158: with no record queued and no write in flight, the ring starts empty, and no write starts. -/
theorem startRing_idle (base : Addr) (size : BitVec 16) (s : State) (idle : s.writer.writeInFlight = false)
    (empty : s.writer.queue = []) :
    startRing base.toNat size.toNat s = s.setWriter (ReportWriter.started base size) := by
  have started : startRing base.toNat size.toNat s =
      judgeWrite (s.setWriter (ReportWriter.started base size)) := by
    simp only [startRing, ReportWriter.started, idle, empty, BitVec.ofNat_toNat, BitVec.setWidth_eq,
      PerPort.all]
  rw [started]
  exact judgeWrite_still _ (.inr (.inr rfl))

theorem takeSetRing_busy (base size : Nat) (s : State)
    (busy : s.writer.ring = .run ∨ s.writer.writeInFlight = true) :
    takeSetRing base size s = s.respond .busy [] :=
  if_pos busy

theorem takeSetRing_free (base size : Nat) (s : State) (stopped : s.writer.ring ≠ .run)
    (idle : s.writer.writeInFlight = false) :
    takeSetRing base size s =
      if ringArgsOk base size then
        (startRing base size s).respond .ok (ringImage (startRing base size s).writer)
      else s.respond .badArg [] :=
  if_neg (not_or.2 ⟨stopped, ne_true_of_eq_false idle⟩)

theorem takeSetRing_refused (base size : Nat) (s : State) (stopped : s.writer.ring ≠ .run)
    (idle : s.writer.writeInFlight = false) (bad : ¬ ringArgsOk base size = true) :
    takeSetRing base size s = s.respond .badArg [] := by
  rw [takeSetRing_free base size s stopped idle, if_neg bad]

theorem takeSetRing_accepted (base : Addr) (size : BitVec 16) (s : State) (stopped : s.writer.ring ≠ .run)
    (idle : s.writer.writeInFlight = false) (empty : s.writer.queue = [])
    (good : ringArgsOk base.toNat size.toNat = true) :
    takeSetRing base.toNat size.toNat s = (s.setWriter (ReportWriter.started base size)).respond .ok
      (1 :: setRingArgs base size ++ [0, 0, 0, 0]) := by
  rw [takeSetRing_free _ _ s stopped idle, if_pos good, startRing_idle base size s idle empty,
    State.setWriter_writer, ringImage_started]

theorem exec_setRing_whole {s : State} (h : s.listening = true) (base : Addr) (size : BitVec 16) :
    exec (.setRing (wholeFrame (setRingArgs base size))) s =
      .next (takeSetRing base.toNat size.toNat (s.emit (quietMdo (wholeFrame (setRingArgs base size))))) := by
  have hbase : baseOfArgs (setRingArgs base size) = base.toNat := by
    rw [setRingArgs_eq]
    exact natOfBE_addr base
  have hsize : natOfBE ((setRingArgs base size).drop 5) = size.toNat := by
    rw [setRingArgs_eq]
    exact natOfBE_word16 size
  have taken := takeFrame_whole s (setRingArgs base size)
    (fun args s' => takeSetRing (baseOfArgs args) (natOfBE (args.drop 5)) s') h
  rw [hbase, hsize] at taken
  exact taken

/-- Settles O56: the three answers of `takeSetRing`, its check read as the condition on base and size. -/
theorem setRingChecksAndStarts : Obligations.SetRingChecksAndStarts := by
  intro s base size h
  have taken := exec_setRing_whole h base size
  refine ⟨fun busy => ?busy, fun stopped idle => ⟨fun bad => ?refused, fun good empty => ?accepted⟩⟩
  case busy =>
    rw [setRingArgs_eq] at taken
    exact taken.trans (congrArg _ (takeSetRing_busy _ _ (s.emit _) busy))
  case refused =>
    have wrong := mt (ringArgsOk_iff base.toNat size.toNat).1 bad
    rw [setRingArgs_eq] at taken
    exact taken.trans (congrArg _ (takeSetRing_refused _ _ (s.emit _) stopped idle wrong))
  case accepted =>
    have right := (ringArgsOk_iff base.toNat size.toNat).2 good
    rw [takeSetRing_accepted base size (s.emit _) stopped idle empty right, setRingArgs_eq] at taken
    exact taken

/-! ## RING_OFF (R159) -/

/-- The ring state and both indices, byte by byte. -/
theorem indexImage_eq (w : ReportWriter) : indexImage w =
    [BitVec.ofNat 8 (codeOfRing w.ring), w.producer.extractLsb' 8 8, w.producer.extractLsb' 0 8,
      w.consumer.extractLsb' 8 8, w.consumer.extractLsb' 0 8] := by
  rw [indexImage, bytesBE_one, bytesBE_word16, bytesBE_word16]
  rfl

/-- The writer after RING_OFF. -/
def ReportWriter.stopped (w : ReportWriter) : ReportWriter :=
  { w with ring := .off, queue := [], fullEpisode := false }

theorem exec_ringOff_whole {s : State} (h : s.listening = true) :
    exec (.ringOff (wholeFrame [])) s =
      .next ({ s with writer := s.writer.stopped }.answered (wholeFrame []) .ok
        (indexImage s.writer.stopped ++ [ringFlagsByte s.writer.stopped])) := by
  have called : ∀ f, exec (.ringOff f) s = execRingOff f s := fun _ => by rfl
  rw [called, execRingOff]
  exact takeFrame_whole s [] _ h

/-! ## REPORT_ACK (R160) -/

/-- The writer whose consumer index has moved to `c`: an episode lasts only while the ring stays full. -/
def ReportWriter.acked (w : ReportWriter) (c : BitVec 16) : ReportWriter :=
  { w with
    consumer := c
    fullEpisode := if decide (w.size ≤ (w.producer - c).toNat) then w.fullEpisode else false }

theorem acknowledge_eq (c : BitVec 16) (s : State) :
    acknowledge c s = judgeWrite (s.setWriter (s.writer.acked c)) := by
  simp only [acknowledge, ReportWriter.acked, ReportWriter.full, ReportWriter.occupancy]
  by_cases full : s.writer.size ≤ (s.writer.producer - c).toNat
  · simp only [full, decide_true, if_true]
  · simp only [full, decide_false, Bool.false_eq_true, if_false]

/-- No write starts if the writer has none to start, or still waits on a full ring. -/
theorem acknowledge_still (c : BitVec 16) (s : State)
    (h : s.writer.ring ≠ .run ∨ s.writer.writeInFlight = true ∨ s.writer.queue = [] ∨
      ((s.writer.acked c).full = true ∧ s.writer.fullEpisode = true)) :
    acknowledge c s = s.setWriter (s.writer.acked c) := by
  rw [acknowledge_eq]
  rcases h with stopped | writing | empty | ⟨full, episode⟩
  · exact judgeWrite_still _ (.inl stopped)
  · exact judgeWrite_still _ (.inr (.inl writing))
  · exact judgeWrite_still _ (.inr (.inr empty))
  · exact judgeWrite_announced _ full ((if_pos full).trans episode)

/-- The write of the head starts once the acknowledgement has made room. -/
theorem acknowledge_room (c : BitVec 16) (s : State) {r : Report} {rest : List Report}
    (running : s.writer.ring = .run) (idle : s.writer.writeInFlight = false)
    (hq : s.writer.queue = r :: rest) (room : (s.writer.acked c).full = false) :
    acknowledge c s = (s.setWriter { s.writer.acked c with writeInFlight := true }).joinInternal
      (.report s.writer.slotAddress (beatsOfReport r)) := by
  rw [acknowledge_eq]
  exact judgeWrite_room _ r rest running idle hq room

theorem ReportWriter.ackOk_iff (w : ReportWriter) (c : BitVec 16) :
    w.ackOk c = true ↔ (c - w.consumer).toNat ≤ (w.producer - w.consumer).toNat :=
  decide_eq_true_iff

/-- The owner decides by `ackOk` and, taking the index, works on the state with MDO's bits put out. -/
theorem exec_reportAck_whole {s : State} (h : s.listening = true) (c : BitVec 16) :
    let f := wholeFrame [c.extractLsb' 8 8, c.extractLsb' 0 8]
    exec (.reportAck f) s =
      .next (if s.writer.ackOk c then (acknowledge c (s.emit (quietMdo f))).respond .ok
          (indexImage (acknowledge c (s.emit (quietMdo f))).writer)
        else s.answered f .badArg []) := by
  intro f
  have called : exec (.reportAck f) s = execReportAck f s := by rfl
  rw [called, execReportAck]
  refine (takeFrame_whole s [c.extractLsb' 8 8, c.extractLsb' 0 8] _ h).trans ?_
  simp only [natOfBE_word16, BitVec.ofNat_toNat, BitVec.setWidth_eq, State.emit_writer, answered_def, f]

/-- Settles O57: RING_OFF from its equation on a whole frame; REPORT_ACK refused or taken as `ackOk` decides,
and, once taken, with no write to start (`acknowledge_still`) or with room for one (`acknowledge_room`). -/
theorem ringOffAndReportAck : Obligations.RingOffAndReportAck := by
  intro s h
  refine ⟨?ringOff, fun c => ⟨fun outside => ?refused, fun inside => ⟨fun still => ?still,
    fun r rest running idle hq room => ?room⟩⟩⟩
  case ringOff =>
    rw [exec_ringOff_whole h, indexImage_eq, ringFlagsByte_eq]
    rfl
  case refused =>
    rw [exec_reportAck_whole h, if_neg (mt (ReportWriter.ackOk_iff _ _).1 (Nat.not_le.2 outside))]
  case still =>
    rw [exec_reportAck_whole h, if_pos ((ReportWriter.ackOk_iff _ _).2 inside),
      acknowledge_still c (s.emit _) still, indexImage_eq]
    rfl
  case room =>
    rw [exec_reportAck_whole h, if_pos ((ReportWriter.ackOk_iff _ _).2 inside),
      acknowledge_room c (s.emit _) running idle hq room, indexImage_eq]
    rfl

end Sys2Proof.Machine
end

