-- ==== Sys2Proof/Proofs/ResponseRead.lean ====
section
/-! PROOF. READ_RESPONSE (R167): the bits MDO carries during a frame of any length, bit by bit. -/

namespace Sys2Proof.Machine

open Sys2Proof

/-! ## A run of bytes followed by bits of 0 -/

/-- Past the bytes of the run the bits of 0 stand for bytes of 0, as far as they reach. -/
theorem paddedBytes_getElem? (l : List Byte) {m n j : Nat} (hj : j < 8) (hm : 8 * n + j < m) :
    (l.flatMap bitsOfByte ++ List.replicate m false)[8 * n + j]? =
      some ((l.getD n 0).getLsbD (7 - j)) := by
  rcases Nat.lt_or_ge n l.length with inside | past
  · exact flatMap_bitsOfByte_getElem? l _ hj inside
  · have passed : 8 * l.length ≤ 8 * n + j := by omega
    have left : 8 * n + j - 8 * l.length < m := by omega
    rw [List.getElem?_append_right (by rwa [flatMap_bitsOfByte_length]), flatMap_bitsOfByte_length,
      List.getElem?_replicate_of_lt left, List.getD_eq_default _ _ past]
    exact congrArg some BitVec.getLsbD_zero.symm

/-! ## The bits on MDO -/

/-- The bits of a frame after byte 0. -/
def tailBits (f : Frame) : Nat := 8 * f.args.length + f.partialBits.val

theorem responseMdo_eq (f : Frame) (r : Response) : responseMdo f r = List.replicate 8 false ++
    ((responseImage r).flatMap bitsOfByte ++ List.replicate (tailBits f) false).take (tailBits f) := by
  rfl

theorem responseMdo_length (f : Frame) (r : Response) : (responseMdo f r).length = 8 + tailBits f := by
  rw [responseMdo_eq, List.length_append, List.length_replicate, List.length_take, List.length_append,
    List.length_replicate]
  omega

/-- R168: during byte 0 MDO carries bits of 0. -/
theorem responseMdo_byte0 (f : Frame) (r : Response) {n : Nat} (h : n < 8) :
    (responseMdo f r)[n]? = some false := by
  rw [responseMdo_eq, List.getElem?_append_left (by rwa [List.length_replicate]),
    List.getElem?_replicate_of_lt h]

/-- R167: after byte 0 MDO carries the response image, bytes of 0 behind it. -/
theorem responseMdo_image (f : Frame) (r : Response) {n j : Nat} (hj : j < 8)
    (h : 8 * n + j < tailBits f) :
    (responseMdo f r)[8 + 8 * n + j]? = some (((responseImage r).getD n 0).getLsbD (7 - j)) := by
  have after : 8 + 8 * n + j - 8 = 8 * n + j := by omega
  rw [responseMdo_eq, List.getElem?_append_right (by rw [List.length_replicate]; omega),
    List.length_replicate, after, List.getElem?_take_of_lt h, paddedBytes_getElem? _ hj h]

/-- The response image byte by byte: the status byte, the data length, and the data. -/
theorem responseImage_getD (r : Response) (n : Nat) : (responseImage r).getD n 0 =
    match n with
    | 0 => BitVec.ofNat 8 (codeOfStatus r.status)
    | 1 => BitVec.ofNat 8 r.data.length
    | n + 2 => r.data.getD n 0 := by
  match n with
  | 0 => rfl
  | 1 => rfl
  | _ + 2 => rfl

theorem exec_readResponse_taken {s : State} (h : s.listening = true) (f : Frame) :
    exec (.readResponse f) s = .next (s.emit (.mdo (responseMdo f s.link.response))) :=
  happening_taken h s _

/-- Settles O45: the bits of `responseMdo`, those of byte 0 and those of the image behind it. -/
theorem readResponseShiftsOutTheImage : Obligations.ReadResponseShiftsOutTheImage := by
  intro s f h
  have tail : 8 * (1 + f.args.length) + f.partialBits.val = 8 + tailBits f := by
    rw [tailBits]
    omega
  rw [tail]
  refine ⟨responseMdo f s.link.response, exec_readResponse_taken h f, responseMdo_length f _,
    fun n => responseMdo_byte0 f _, fun n j hj inside => ?image⟩
  case image =>
    have carried := responseMdo_image f s.link.response hj (show 8 * n + j < tailBits f by omega)
    rw [responseImage_getD] at carried
    exact carried

end Sys2Proof.Machine
end

