-- ==== Sys2Proof/Proofs/Queries.lean ====
section
/-! PROOF. The commands that return an image and change nothing: GET_STATUS (R172), GET_PORT (R173), GET_WINDOW
(R174), GET_PROFILE and GET_POOL (R175). -/

namespace Sys2Proof.Machine

open Sys2Proof

/-! ## A command that only reads -/

/-- A command without arguments that returns an image of the state. What MDO carried is no part of the image. -/
theorem takeFrame_query {s : State} (h : s.listening = true) (image : State → List Byte)
    (unread : ∀ o, image (s.emit o) = image s) :
    takeFrame 0 (wholeFrame []) s (fun _ s' => s'.respond .ok (image s')) =
      .next (s.answered (wholeFrame []) .ok (image s)) := by
  rw [← unread (quietMdo (wholeFrame []))]
  exact takeFrame_whole s [] _ h

/-- A command that names a port and returns an image of the state for it. -/
theorem takePortFrame_query {s : State} (h : s.listening = true) (k : Port) (image : State → Port → List Byte)
    (unread : ∀ o, image (s.emit o) k = image s k) :
    takePortFrame 1 (wholeFrame [portByte k]) s (fun k _ s' => s'.respond .ok (image s' k)) =
      .next (s.answered (wholeFrame [portByte k]) .ok (image s k)) := by
  rw [← unread (quietMdo (wholeFrame [portByte k]))]
  exact takePortFrame_whole s k [] _ h

theorem exec_getStatus_whole {s : State} (h : s.listening = true) :
    exec (.getStatus (wholeFrame [])) s = .next (s.answered (wholeFrame []) .ok (statusImage s)) :=
  takeFrame_query h statusImage fun _ => by rfl

theorem exec_getPort_whole {s : State} (h : s.listening = true) (k : Port) :
    exec (.getPort (wholeFrame [portByte k])) s =
      .next (s.answered (wholeFrame [portByte k]) .ok (portImage s k)) :=
  takePortFrame_query h k portImage fun _ => by rfl

theorem exec_getWindow_whole {s : State} (h : s.listening = true) (k : Port) :
    exec (.getWindow (wholeFrame [portByte k])) s =
      .next (s.answered (wholeFrame [portByte k]) .ok (windowImage (s.port k).meter.snapshot)) :=
  takePortFrame_query h k (fun s' j => windowImage (s'.port j).meter.snapshot) fun _ => by rfl

theorem exec_getProfile_whole {s : State} (h : s.listening = true) (k : Port) :
    exec (.getProfile (wholeFrame [portByte k])) s =
      .next (s.answered (wholeFrame [portByte k]) .ok (profileImage (s.port k).meter)) :=
  takePortFrame_query h k (fun s' j => profileImage (s'.port j).meter) fun _ => by rfl

theorem exec_getPool_whole {s : State} (h : s.listening = true) :
    exec (.getPool (wholeFrame [])) s = .next (s.answered (wholeFrame []) .ok (poolImage s.pool)) :=
  takeFrame_query h (fun s' => poolImage s'.pool) fun _ => by rfl

/-! ## The status image (R189) -/

theorem State.internalInUse_eq (s : State) :
    s.internalInUse = (s.table[62]).isSome.toNat + (s.table[63]).isSome.toNat := by
  simp only [State.internalInUse, Bool.toNat, Bool.cond_eq_ite]

/-- One byte per port, in the order of their numbers. -/
theorem allPorts_flatMap_byte (value : Port → Nat) : (allPorts.flatMap fun k => bytesBE 1 (value k)) =
    [BitVec.ofNat 8 (value .rp0), BitVec.ofNat 8 (value .rp1), BitVec.ofNat 8 (value .rp2),
      BitVec.ofNat 8 (value .rp3)] := by
  simp only [bytesBE_one]
  rfl

/-- Settles O47: the answer of `exec_getStatus_whole`, its image spelled out byte by byte. -/
theorem getStatusReturnsTheStatusImage : Obligations.GetStatusReturnsTheStatusImage := by
  intro s h
  rw [exec_getStatus_whole h, statusImage, noticeFlagsByte_eq, ringFlagsByte_eq, bytesBE_addr,
    bytesBE_word16, bytesBE_word16, allPorts_flatMap_byte, allPorts_flatMap_byte, State.internalInUse_eq]
  simp only [bytesBE_one, bytesBE_two]
  rfl

/-! ## The port image (R189) -/

/-- R50: what a port reports as its source, NONE being code 0. -/
theorem Meter.codeOfSource_source (m : Meter) : codeOfSource m.source =
    match m.installed with
    | some i => codeOfSource i.source
    | none => 0 := by
  unfold Meter.source
  cases m.installed <;> rfl

/-- R50: used in CAP, credit in BUCKET, and 0 otherwise. -/
theorem Meter.allowance_eq (m : Meter) : m.allowance =
    match m.installed with
    | some i => if i.profile.mode = .cap then m.used else if i.profile.mode = .bucket then m.credit else 0
    | none => 0 := by
  unfold Meter.allowance
  cases m.installed with
  | none => rfl
  | some i => cases hm : i.profile.mode <;> simp [hm]

/-- Settles O48: the answer of `exec_getPort_whole`, its image spelled out byte by byte. -/
theorem getPortReturnsThePortImage : Obligations.GetPortReturnsThePortImage := by
  intro s k h
  rw [exec_getPort_whole h, portImage, Meter.codeOfSource_source, portFlagsByte_eq, bytesBE_word32,
    Meter.allowance_eq]
  simp only [bytesBE_one, bytesBE_two]
  rfl

/-! ## The window, profile and pool images (R189) -/

theorem windowImage_eq (w : Snapshot) : windowImage w =
    [w.seqNo.extractLsb' 24 8, w.seqNo.extractLsb' 16 8, w.seqNo.extractLsb' 8 8, w.seqNo.extractLsb' 0 8,
      w.index, BitVec.ofNat 8 (codeOfSource w.source), BitVec.ofNat 8 (codeOfMode w.mode),
      BitVec.ofNat 8 (w.flags.partialEnd.toNat + 2 * w.flags.high.toNat + 4 * w.flags.low.toNat +
        8 * w.flags.fallback.toNat)] ++
    bytesBE 3 w.counters.meteredRead ++ bytesBE 3 w.counters.meteredWrite ++
    bytesBE 3 w.counters.unmetered ++ bytesBE 3 w.counters.forced ++ bytesBE 3 w.counters.borrowed ++
    bytesBE 2 w.counters.refused ++ bytesBE 2 w.counters.timeouts ++ bytesBE 2 w.counters.errors ++
    bytesBE 2 w.counters.maxLatency ++ bytesBE 2 w.endAllowance := by
  rw [windowImage, bytesBE_word32, bytesBE_one, bytesBE_one, windowFlagsByte_eq]
  rfl

/-- R186: the profile flag word, bit 0 first. -/
theorem wordOfFlags_eq (f : ProfileFlags) : wordOfFlags f =
    f.share.toNat + 2 * f.borrow.toNat + 4 * f.report.toNat + 8 * f.link.toNat + 16 * f.nHigh.toNat +
      32 * f.nLow.toNat + 64 * f.nForced.toNat + 128 * f.nDwell.toNat + 256 * f.nInstall.toNat := by
  simp only [wordOfFlags, wordOfBits]
  omega

/-- R175: with no profile installed, index 0xFF, source NONE, and 0 in every other field. -/
theorem profileImage_none {m : Meter} (h : m.installed = none) :
    profileImage m = 0xFF :: List.replicate 19 0 := by
  simp only [profileImage, Meter.index, Meter.source, h]
  decide

theorem profileImage_some {m : Meter} {i : Installed} (h : m.installed = some i) :
    profileImage m = [i.index, BitVec.ofNat 8 (codeOfSource i.source)] ++ bytesOfProfile i.profile := by
  simp only [profileImage, Meter.index, Meter.source, h, bytesBE_one]
  rfl

theorem bytesOfProfile_eq (p : Profile) : bytesOfProfile p =
    [BitVec.ofNat 8 (codeOfMode p.mode), BitVec.ofNat 8 (codeOfScope p.scope)] ++
    bytesBE 2 p.windowLength ++ bytesBE 2 p.budget ++ bytesBE 2 p.ceiling ++ bytesBE 2 p.highMark ++
    bytesBE 2 p.lowMark ++ [BitVec.ofNat 8 p.maxHold] ++
    bytesBE 2 (p.flags.share.toNat + 2 * p.flags.borrow.toNat + 4 * p.flags.report.toNat +
      8 * p.flags.link.toNat + 16 * p.flags.nHigh.toNat + 32 * p.flags.nLow.toNat +
      64 * p.flags.nForced.toNat + 128 * p.flags.nDwell.toNat + 256 * p.flags.nInstall.toNat) ++
    bytesBE 2 p.dwell ++ [p.nextIndex] := by
  rw [bytesOfProfile, bytesBE_one, bytesBE_one, bytesBE_one, wordOfFlags_eq]
  rfl

/-- Settles O49: each command's answer on a whole frame, its image spelled out in the bytes of its fields. -/
theorem getWindowProfileAndPool : Obligations.GetWindowProfileAndPool := by
  intro s k h w two three
  refine ⟨?window, fun absent => ?noProfile, fun i present => ?profile, ?pool⟩
  case window =>
    rw [exec_getWindow_whole h, windowImage_eq]
    simp only [bytesBE_two, bytesBE_three]
    rfl
  case noProfile =>
    rw [exec_getProfile_whole h, profileImage_none absent]
  case profile =>
    rw [exec_getProfile_whole h, profileImage_some present, bytesOfProfile_eq]
    simp only [bytesBE_two]
    rfl
  case pool =>
    rw [exec_getPool_whole h, poolImage, bytesBE_two, bytesBE_two]

end Sys2Proof.Machine
end

