-- ==== Sys2Proof/Proofs/Effects.lean ====
section
/-! PROOF. Everything a command can do, said once: the effects a management command has at its owner, and the
effects a happening has on the part. Each invariant is then one case per effect. -/

namespace Sys2Proof.Machine

open Sys2Proof

/-! ## Fields that have passed the checks of R74 -/

theorem natOfBE_fieldAt_two_le (bytes : List Byte) (n : Nat) : natOfBE (fieldAt bytes n 2) ≤ 65535 := by
  simp only [fieldAt_two, natOfBE, List.foldl_cons, List.foldl_nil]
  omega

theorem natOfLE_fieldAt_two_le (bytes : List Byte) (n : Nat) : natOfLE (fieldAt bytes n 2) ≤ 65535 := by
  rw [fieldAt_two, natOfLE_pair]
  omega

/-- The numbers of raw fields that take two bytes. -/
structure RawProfile.Words (r : RawProfile) : Prop where
  windowLength : r.windowLength ≤ 65535
  budget       : r.budget ≤ 65535
  ceiling      : r.ceiling ≤ 65535
  highMark     : r.highMark ≤ 65535
  lowMark      : r.lowMark ≤ 65535
  dwell        : r.dwell ≤ 65535

theorem rawOfFrame_words (bytes : List Byte) : (rawOfFrame bytes).Words :=
  ⟨natOfBE_fieldAt_two_le _ _, natOfBE_fieldAt_two_le _ _, natOfBE_fieldAt_two_le _ _,
    natOfBE_fieldAt_two_le _ _, natOfBE_fieldAt_two_le _ _, natOfBE_fieldAt_two_le _ _⟩

theorem rawOfRecord_words (bytes : List Byte) : (rawOfRecord bytes).Words :=
  ⟨natOfLE_fieldAt_two_le _ _, natOfLE_fieldAt_two_le _ _, natOfLE_fieldAt_two_le _ _,
    natOfLE_fieldAt_two_le _ _, natOfLE_fieldAt_two_le _ _, natOfLE_fieldAt_two_le _ _⟩

/-- The checks of R74, one condition per field. -/
theorem RawProfile.inRange_iff (r : RawProfile) : r.inRange = true ↔
    r.mode < 3 ∧ (1 ≤ r.scope ∧ r.scope < 4) ∧ 16 ≤ r.windowLength ∧
      ((r.mode = 1 ∨ r.mode = 2) → r.budget ≠ 0) ∧ (r.mode = 2 → r.budget ≤ r.ceiling) ∧
      r.maxHold < 16 := by
  simp only [RawProfile.inRange, Bool.and_eq_true, decide_eq_true_eq, Bool.not_eq_true', Bool.and_eq_false_iff,
    Bool.or_eq_false_iff, beq_eq_false_iff_ne, decide_eq_false_iff_not]
  omega

/-- R62, R74: fields that pass the checks make up a profile in range. -/
theorem RawProfile.toProfile_inRange {r : RawProfile} (checked : r.inRange = true) (words : r.Words) :
    ProfileInRange r.toProfile := by
  obtain ⟨mode, ⟨scope, scope'⟩, window, budget, ceiling, hold⟩ := r.inRange_iff.1 checked
  refine ⟨?scope, ⟨window, words.windowLength⟩, ⟨words.budget, fun metered => ?budget⟩,
    ⟨words.ceiling, fun bucket => ?ceiling⟩, ⟨words.highMark, words.lowMark⟩, Nat.le_of_lt_succ hold,
    words.dwell⟩
  case scope =>
    simp only [RawProfile.toProfile, scopeOfCode_eq scope scope']
    split_ifs <;> simp
  case budget =>
    have : r.mode = 1 ∨ r.mode = 2 := by
      simp only [RawProfile.toProfile, modeOfCode_eq mode] at metered
      by_contra other
      exact metered (if_pos (by omega))
    exact Nat.pos_of_ne_zero (budget this)
  case ceiling =>
    refine ceiling ?_
    simp only [RawProfile.toProfile, modeOfCode_eq mode] at bucket
    split_ifs at bucket
    omega

theorem validateRecord_inRange {bytes : List Byte} {p : Profile} (accepted : validateRecord bytes = .ok p) :
    ProfileInRange p := by
  obtain ⟨-, -, checked, rfl⟩ := validateRecord_ok accepted
  exact RawProfile.toProfile_inRange checked (rawOfRecord_words bytes)

/-! ## What a management command does at its owner -/

/-- What the owner of a management command does to the part beside its response (R170). -/
inductive CommandEffect (s : State) : State → Prop
  | unchanged : CommandEffect s s
  | poolLimit (limit : Nat) (word : limit ≤ 65535) :
      CommandEffect s { s with pool := s.pool.setLimit limit }
  | timeout (setting : Byte) : CommandEffect s { s with link := { s.link with timeout := setting } }
  | tableBase (base : Addr) : CommandEffect s { s with tableBase := base }
  | fallbackSet (k : Port) (p : Profile) (inRange : ProfileInRange p) :
      CommandEffect s (s.setPort k { s.port k with fallback := ⟨true, p⟩ })
  | fallbackCleared (k : Port) :
      CommandEffect s (s.setPort k { s.port k with fallback := { (s.port k).fallback with valid := false } })
  | loadStarted (k : Port) (index : Byte)
      (idle : (s.port k).controller.portState = .pass ∨ (s.port k).controller.portState = .active)
      (free : (s.port k).controller.loadInFlight = false) : CommandEffect s (startLoad k index s)
  | quiesced (k : Port)
      (opened : (s.port k).controller.portState = .pass ∨ (s.port k).controller.portState = .loading ∨
        (s.port k).controller.portState = .active) : CommandEffect s (quiescePort k s)
  | resumed (k : Port) (quiet : (s.port k).controller.portState = .quiet) : CommandEffect s (resumePort k s)
  | ringStarted (base size : Nat) (stopped : s.writer.ring ≠ .run) (idle : s.writer.writeInFlight = false)
      (checked : ringArgsOk base size = true) : CommandEffect s (startRing base size s)
  | ringStopped : CommandEffect s (s.setWriter { s.writer with ring := .off, queue := [], fullEpisode := false })
  | acknowledged (c : BitVec 16) (checked : s.writer.ackOk c = true) : CommandEffect s (acknowledge c s)
  | noticePopped (n : Notice) (rest : List Notice) (oldest : s.notices.records = n :: rest) :
      CommandEffect s (s.setNotices { s.notices with records := rest })
  | overflowCleared : CommandEffect s (s.setNotices { s.notices with overflow := false })
  | irqSet (enable : Bool) : CommandEffect s (s.setNotices { s.notices with irqEnable := enable })

/-- The owner's part of a command: an effect, and a response of at most 48 bytes (R166). -/
def CommandAnswers (s t : State) : Prop :=
  ∃ (u : State) (status : Status) (data : List Byte),
    t = u.respond status data ∧ data.length ≤ 48 ∧ CommandEffect s u

theorem CommandEffect.answers {s u : State} (effect : CommandEffect s u) (status : Status) (data : List Byte)
    (short : data.length ≤ 48) : CommandAnswers s (u.respond status data) :=
  ⟨u, status, data, rfl, short, effect⟩

theorem CommandAnswers.refused (s : State) (status : Status) : CommandAnswers s (s.respond status []) :=
  CommandEffect.unchanged.answers status [] (by simp)

theorem takePopNotice_answers (s : State) : CommandAnswers s (takePopNotice s) := by
  unfold takePopNotice
  split
  · exact CommandEffect.unchanged.answers _ _ (by simp [popHeader])
  · next n rest oldest =>
    exact (CommandEffect.noticePopped n rest oldest).answers _ _
      (by simp [popHeader, bytesOfNotice_length])

theorem takeLoad_answers (k : Port) (index : Byte) (s : State) : CommandAnswers s (takeLoad k index s) := by
  unfold takeLoad
  split
  case h_1 state =>
    split
    · exact CommandAnswers.refused ..
    · next free =>
      exact (CommandEffect.loadStarted k index (.inl state) (by simpa using free)).answers _ _ (by simp)
  case h_2 state =>
    split
    · exact CommandAnswers.refused ..
    · next free =>
      exact (CommandEffect.loadStarted k index (.inr state) (by simpa using free)).answers _ _ (by simp)
  all_goals exact CommandAnswers.refused ..

theorem takeQuiesce_answers (k : Port) (s : State) : CommandAnswers s (takeQuiesce k s) := by
  unfold takeQuiesce
  split
  case h_1 state => exact (CommandEffect.quiesced k (.inl state)).answers _ _ (by simp)
  case h_2 state => exact (CommandEffect.quiesced k (.inr (.inl state))).answers _ _ (by simp)
  case h_3 state => exact (CommandEffect.quiesced k (.inr (.inr state))).answers _ _ (by simp)
  all_goals exact CommandAnswers.refused ..

theorem takeSetRing_answers (base size : Nat) (s : State) : CommandAnswers s (takeSetRing base size s) := by
  unfold takeSetRing
  split
  · exact CommandAnswers.refused ..
  · next free =>
    obtain ⟨stopped, idle⟩ := not_or.1 free
    split
    · next checked =>
      exact (CommandEffect.ringStarted base size stopped (by simpa using idle) checked).answers _ _
        (by simp [ringImage])
    · exact CommandAnswers.refused ..

/-! ## What a happening does -/

/-- What the part does when the command `c` is taken: every way `exec` can change a state. -/
inductive Effect (c : Instr) (s : State) : State → Prop
  | nothing : Effect c s s
  | request (k : Port) (r : Request) (accepting : s.accepting k = true) (wellFormed : r.wellFormed = true) :
      Effect c s (takeRequest k r s)
  | portReset (k : Port) : Effect c s (portReset k s)
  | inputFollowed (k : Port) (power : s.rstAsserted = true) :
      Effect c s (s.setPort k { s.port k with resetAsserted := true })
  | portReleased (k : Port) : Effect c s (s.setPort k { s.port k with resetAsserted := false })
  | powerReset (mcsLow asserted : Bool) (cause : c = .rstAsserted ∨ ∃ b, c = .rstReleased b) :
      Effect c s { powerOn mcsLow s with rstAsserted := asserted }
  | clock (running awaiting : Bool) :
      Effect c s { s with refclkRunning := running, link := { s.link with awaitingRise := awaiting } }
  | windowClosed (k : Port) (i : Installed) (runs : (s.port k).windowRuns = true)
      (installed : (s.port k).meter.installed = some i) : Effect c s (closeWindow k i s)
  | donationTaken (k : Port) (d : Nat) (rest : List PoolMessage)
      (oldest : (s.port k).toPool = .donation d :: rest) :
      Effect c s { s.setPort k { s.port k with toPool := rest } with pool := s.pool.donate d }
  | claimTaken (k : Port) (n : Nat) (rest : List PoolMessage)
      (oldest : (s.port k).toPool = .claim n :: rest) :
      Effect c s
        { s.setPort k { s.port k with
            toPool := rest, answers := (s.port k).answers ++ [s.pool.answer n] } with
          pool := s.pool.afterClaim n }
  | answerTaken (k : Port) (answer : ClaimAnswer) (rest : List ClaimAnswer)
      (oldest : (s.port k).answers = answer :: rest) :
      Effect c s (takeAnswer k answer (s.setPort k { s.port k with answers := rest }))
  | reportTaken (k : Port) (r : Report) (rest : List Report) (cause : c = .reportSubmission k)
      (oldest : (s.port k).toWriter = r :: rest) :
      Effect c s (takeReport r (s.setPort k { s.port k with toWriter := rest }))
  | internalGranted (item : InternalItem) (rest : List InternalItem) (tag : Fin 64)
      (oldest : s.internalList = item :: rest) (free : s.freeInternalTag = some tag) :
      Effect c s (grantInternal s)
  | portGranted (k : Port) (e : QueueEntry) (rest : List QueueEntry) (tag : Fin 64)
      (queue : (s.port k).queue = e :: rest) (admitted : e.status = .admitted)
      (quota : s.heldCount k < 4 ∨ s.sharedInUse < 46) (free : s.freePortTag = some tag) :
      Effect c s (grantPort k s)
  | memoryPortReady : Effect c s { s with memoryPort := none }
  | orphanFreed (tag : Fin 64) (f : InFlight) (entry : s.table[tag.val] = some f) (orphan : f.state = .orphan) :
      Effect c s (s.setEntry tag none)
  | portOrphanFreed (tag : Fin 64) (f : InFlight) (k : Port) (entry : s.table[tag.val] = some f)
      (orphan : f.state = .orphan) (owner : f.owner.portOf = some k) :
      Effect c s (judgeDrain k (s.setEntry tag none))
  | answered (tag : Fin 64) (f : InFlight) (k : Port) (rtag : Fin 32) (status : AnswerStatus)
      (data : List Beat) (entry : s.table[tag.val] = some f) (live : f.state = .live)
      (owner : f.owner = .port k rtag) : Effect c s (answerPort k rtag tag f status data s)
  | timedOut (tag : Fin 64) (f : InFlight) (k : Port) (rtag : Fin 32) (entry : s.table[tag.val] = some f)
      (live : f.state = .live) (owner : f.owner = .port k rtag) : Effect c s (deadlinePort k rtag tag f s)
  | loadEnded (tag : Fin 64) (f : InFlight) (k : Port) (e : Option InFlight) (result : LoadResult)
      (entry : s.table[tag.val] = some f) (live : f.state = .live) (owner : f.owner = .load k)
      (left : e = none ∨ e = some f.orphan) : Effect c s (takeLoadResult k result (s.setEntry tag e))
  | written (tag : Fin 64) (f : InFlight) (entry : s.table[tag.val] = some f) (live : f.state = .live)
      (owner : f.owner = .report) : Effect c s (writeSucceeded (s.setEntry tag none))
  | writeFaulted (tag : Fin 64) (f : InFlight) (e : Option InFlight) (reason : FaultReason)
      (entry : s.table[tag.val] = some f) (live : f.state = .live) (owner : f.owner = .report)
      (left : e = none ∨ e = some f.orphan) : Effect c s (writeFailed reason (s.setEntry tag e))
  | shifted (bits : List Bool) : Effect c s (s.emit (.mdo bits))
  | commanded (bits : List Bool) (status : Status) (data : List Byte) {u : State}
      (owner : CommandEffect (s.emit (.mdo bits)) u) (short : data.length ≤ 48) :
      Effect c s (u.respond status data)
  | softReset (bits : List Bool) (cause : ∃ f, c = .softReset f) : Effect c s (softReset (s.emit (.mdo bits)))

/-- `exec` answers a next state, the work of one effect. -/
def Effective (c : Instr) (s : State) (o : Host.Outcome State Fault Refusal) : Prop :=
  ∃ t, o = .next t ∧ Effect c s t

theorem Effective.still (c : Instr) (s : State) : Effective c s (.next s) := ⟨s, rfl, .nothing⟩

theorem happening_effective {c : Instr} {s t : State} {enabled : Bool} (effect : enabled = true → Effect c s t) :
    Effective c s (happening enabled s t) := by
  cases enabled with
  | false => exact ⟨s, rfl, .nothing⟩
  | true => exact ⟨t, rfl, effect rfl⟩

/-- A frame has an effect only at the owner, and is otherwise refused (R165). -/
theorem takeFrame_effective {c : Instr} {s : State} {count : Nat} {f : Frame} {owner : List Byte → State → State}
    (answers : ∀ s', f.args.length = count → CommandAnswers s' (owner f.args s')) :
    Effective c s (takeFrame count f s owner) := by
  refine happening_effective fun _ => ?_
  split
  · next whole =>
    obtain ⟨u, status, data, answer, short, effect⟩ := answers (s.emit (quietMdo f)) whole.2
    rw [answer]
    exact .commanded _ status data effect short
  · exact .commanded _ _ _ .unchanged (by simp)

theorem takePortFrame_effective {c : Instr} {s : State} {count : Nat} {f : Frame}
    {owner : Port → List Byte → State → State}
    (answers : ∀ s' k, f.args.length = count → CommandAnswers s' (owner k f.args.tail s')) :
    Effective c s (takePortFrame count f s owner) := by
  refine takeFrame_effective fun s' whole => ?_
  split
  · exact CommandAnswers.refused ..
  · exact answers s' _ whole

theorem grant_effective {c : Instr} {s : State} : Effect c s (grant s) := by
  unfold grant
  split
  · next candidate =>
    cases hl : s.internalList with
    | nil => simp [State.internalCandidate, hl] at candidate
    | cons item rest =>
      cases hf : s.freeInternalTag with
      | none => simp only [grantInternal, hl, hf]; exact .nothing
      | some tag => exact .internalGranted item rest tag hl hf
  · split
    · next k granted =>
      obtain ⟨⟨e, rest, queue, admitted⟩, quota⟩ := (s.portCandidate_iff k).1 (List.find?_some granted)
      cases hf : s.freePortTag with
      | none => simp only [grantPort, queue, hf]; exact .nothing
      | some tag => exact .portGranted k e rest tag queue admitted quota hf
    · exact .nothing

theorem takeMemoryAnswer_effective {c : Instr} {s : State} (tag : Fin 64) (status : AnswerStatus)
    (data : List Beat) : Effect c s (takeMemoryAnswer tag status data s) := by
  unfold takeMemoryAnswer
  split
  · exact .nothing
  · next f entry =>
    split
    case h_1 k _ orphan owner => exact .portOrphanFreed tag f k entry orphan (by rw [owner]; rfl)
    case h_2 k orphan owner => exact .orphanFreed tag f entry orphan
    case h_3 orphan owner => exact .orphanFreed tag f entry orphan
    case h_4 k rtag live owner => exact .answered tag f k rtag status data entry live owner
    case h_5 k live owner => exact .loadEnded tag f k none _ entry live owner (.inl rfl)
    case h_6 live owner =>
      cases status with
      | ok => exact .written tag f entry live owner
      | error => exact .writeFaulted tag f none _ entry live owner (.inl rfl)

theorem State.deadlineReached_live {s : State} {f : InFlight} (h : s.deadlineReached f = true) :
    f.state = .live := by
  cases state : f.state with
  | live => rfl
  | orphan => simp [State.deadlineReached, state] at h

theorem passDeadline_effective {c : Instr} {s : State} {tag : Fin 64} {f : InFlight}
    (entry : s.table[tag.val] = some f) (live : f.state = .live) : Effect c s (passDeadline tag f s) := by
  unfold passDeadline
  split
  case h_1 k rtag owner => exact .timedOut tag f k rtag entry live owner
  case h_2 k owner => exact .loadEnded tag f k _ _ entry live owner (.inr rfl)
  case h_3 owner => exact .writeFaulted tag f _ _ entry live owner (.inr rfl)

/-- Every command answers a next state, and what it has done is one of the effects. -/
theorem exec_effective (c : Instr) (s : State) : Effective c s (exec c s) := by
  cases c with
  | requestTaken k r =>
    refine happening_effective fun h => ?_
    simp only [Bool.and_eq_true] at h
    exact .request k r h.1.2 h.2
  | prstAsserted k =>
    refine happening_effective fun _ => ?_
    split
    · next power => exact .inputFollowed k power
    · exact .portReset k
  | prstReleased k => exact happening_effective fun _ => .portReleased k
  | rstAsserted => exact happening_effective fun _ => .powerReset false true (.inl rfl)
  | rstReleased mcsLow => exact happening_effective fun _ => .powerReset mcsLow false (.inr ⟨_, rfl⟩)
  | refclkStopped => exact happening_effective fun _ => .clock false s.link.awaitingRise
  | refclkRestarted mcsLow => exact happening_effective fun _ => .clock true mcsLow
  | mcsRiseWithoutFrame => exact happening_effective fun _ => .clock s.refclkRunning false
  | windowClose k =>
    refine happening_effective fun h => ?_
    simp only [State.closeDue, Bool.and_eq_true] at h
    split
    · next i installed => exact .windowClosed k i h.2.1 installed
    · exact .nothing
  | donationTaken k =>
    simp only [exec, execDonationTaken]
    split
    · next d rest oldest => exact happening_effective fun _ => .donationTaken k d rest oldest
    all_goals exact Effective.still ..
  | claimTaken k =>
    simp only [exec, execClaimTaken]
    split
    · next n rest oldest => exact happening_effective fun _ => .claimTaken k n rest oldest
    all_goals exact Effective.still ..
  | claimAnswerTaken k =>
    simp only [exec, execClaimAnswerTaken]
    split
    · exact Effective.still ..
    · next answer rest oldest => exact happening_effective fun _ => .answerTaken k answer rest oldest
  | reportSubmission k =>
    simp only [exec, execReportSubmission]
    split
    · exact Effective.still ..
    · next r rest oldest => exact happening_effective fun _ => .reportTaken k r rest rfl oldest
  | issueGrant => exact happening_effective fun _ => grant_effective
  | memoryPortReady => exact happening_effective fun _ => .memoryPortReady
  | memoryAnswer tag status data => exact happening_effective fun _ => takeMemoryAnswer_effective tag status data
  | completionDeadline tag =>
    simp only [exec, execCompletionDeadline]
    split
    · exact Effective.still ..
    · next f entry =>
      refine happening_effective fun h => ?_
      simp only [Bool.and_eq_true] at h
      exact passDeadline_effective entry (State.deadlineReached_live h.2)
  | shortFrame bits => exact happening_effective fun _ => .shifted _
  | badCommand code f => exact happening_effective fun _ => .commanded _ _ _ .unchanged (by simp)
  | readResponse f => exact happening_effective fun _ => .shifted _
  | getStatus f =>
    show Effective _ s (execGetStatus f s)
    exact takeFrame_effective fun s' _ =>
      CommandEffect.unchanged.answers _ _ ((statusImage_length _).trans_le (by decide))
  | getPort f =>
    show Effective _ s (execGetPort f s)
    exact takePortFrame_effective fun s' k _ =>
      CommandEffect.unchanged.answers _ _ ((portImage_length _ _).trans_le (by decide))
  | getWindow f =>
    show Effective _ s (execGetWindow f s)
    exact takePortFrame_effective fun s' k _ =>
      CommandEffect.unchanged.answers _ _ ((windowImage_length _).trans_le (by decide))
  | getProfile f =>
    show Effective _ s (execGetProfile f s)
    exact takePortFrame_effective fun s' k _ =>
      CommandEffect.unchanged.answers _ _ ((profileImage_length _).trans_le (by decide))
  | getPool f =>
    show Effective _ s (execGetPool f s)
    exact takeFrame_effective fun s' _ => CommandEffect.unchanged.answers _ _ (by simp [poolImage])
  | setTableBase f =>
    show Effective _ s (execSetTableBase f s)
    refine takeFrame_effective fun s' _ => ?_
    dsimp only
    split
    · exact (CommandEffect.tableBase _).answers _ _ (by simp)
    · exact CommandAnswers.refused ..
  | setFallback f =>
    show Effective _ s (execSetFallback f s)
    refine takePortFrame_effective fun s' k _ => ?_
    split
    · next checked =>
      exact (CommandEffect.fallbackSet k _ (RawProfile.toProfile_inRange checked (rawOfFrame_words _))).answers
        _ _ (by simp)
    · exact CommandAnswers.refused ..
  | clearFallback f =>
    show Effective _ s (execClearFallback f s)
    exact takePortFrame_effective fun s' k _ => (CommandEffect.fallbackCleared k).answers _ _ (by simp)
  | load f =>
    show Effective _ s (execLoad f s)
    exact takePortFrame_effective fun s' k _ => takeLoad_answers k _ s'
  | quiesce f =>
    show Effective _ s (execQuiesce f s)
    exact takePortFrame_effective fun s' k _ => takeQuiesce_answers k s'
  | resume f =>
    show Effective _ s (execResume f s)
    refine takePortFrame_effective fun s' k _ => ?_
    split
    · next quiet => exact (CommandEffect.resumed k quiet).answers _ _ (by simp)
    · exact CommandAnswers.refused ..
  | setPoolLimit f =>
    show Effective _ s (execSetPoolLimit f s)
    refine takeFrame_effective fun s' two => (CommandEffect.poolLimit _ ?_).answers _ _ (by simp [poolImage])
    obtain ⟨a, b, two⟩ := List.length_eq_two.1 two
    simp only [two, natOfBE, List.foldl_cons, List.foldl_nil]
    omega
  | setTimeout f =>
    show Effective _ s (execSetTimeout f s)
    exact takeFrame_effective fun s' _ => (CommandEffect.timeout _).answers _ _ (by simp)
  | setRing f =>
    show Effective _ s (execSetRing f s)
    exact takeFrame_effective fun s' _ => takeSetRing_answers _ _ s'
  | ringOff f =>
    show Effective _ s (execRingOff f s)
    exact takeFrame_effective fun s' _ => CommandEffect.ringStopped.answers _ _ (by simp [indexImage])
  | reportAck f =>
    show Effective _ s (execReportAck f s)
    refine takeFrame_effective fun s' _ => ?_
    dsimp only
    split
    · next checked => exact (CommandEffect.acknowledged _ checked).answers _ _ (by simp [indexImage])
    · exact CommandAnswers.refused ..
  | popNotice f =>
    show Effective _ s (execPopNotice f s)
    exact takeFrame_effective fun s' _ => takePopNotice_answers s'
  | clearOverflow f =>
    show Effective _ s (execClearOverflow f s)
    exact takeFrame_effective fun s' _ => CommandEffect.overflowCleared.answers _ _ (by simp)
  | setIrq f =>
    show Effective _ s (execSetIrq f s)
    refine takeFrame_effective fun s' _ => ?_
    split
    · exact (CommandEffect.irqSet _).answers _ _ (by simp)
    · exact CommandAnswers.refused ..
  | softReset f =>
    show Effective _ s (execSoftReset f s)
    refine happening_effective fun _ => ?_
    split
    · exact .softReset _ ⟨f, rfl⟩
    · exact .commanded _ _ _ .unchanged (by simp)

theorem exec_effect {c : Instr} {s t : State} (h : exec c s = .next t) : Effect c s t := by
  obtain ⟨u, taken, effect⟩ := exec_effective c s
  rw [h] at taken
  injection taken with taken
  rwa [taken]

/-! ## What a step does -/

/-- A property that the timebase, the command queue and every effect keep is kept by every step. -/
theorem step_keeps {P : State → Prop} (onTick : ∀ s, P s → P (tick s))
    (onQueue : ∀ s pending choices, P s → P { s with pending := pending, choices := choices })
    (onEffect : ∀ c s t, Effect c s t → P s → P t) {s t : State} (hs : P s) (h : step s = .next t) : P t := by
  cases hq : s.pending with
  | nil =>
    rw [step_idle hq] at h
    injection h with h
    subst h
    unfold idle
    split
    · split
      · exact onTick s hs
      · exact onQueue s _ _ hs
    · exact hs
  | cons c rest =>
    unfold step at h
    rw [hq] at h
    exact onEffect c _ t (exec_effect h) (onQueue s rest s.choices hs)

end Sys2Proof.Machine
end

