-- ==== Sys2Proof/Proofs/Containment.lean ====
section
/-! PROOF. What each operation leaves alone: the operations of a port reach their port, the notice queue and the
tail of the pending list, those of the report writer the writer, the notice queue and that tail. -/

namespace Sys2Proof.Machine

open Sys2Proof

/-! ## Operations of a port -/

/-- Of the part an operation of port `k` changes that port, submits notices, and adds loads of `k` to the
pending list. -/
structure Contained (k : Port) (s t : State) : Prop where
  confined : Confined k s t
  notices  : ∃ ns : List Notice, t.notices = ns.foldl NoticeQueue.submit s.notices
  loads    : ∃ addresses : List Addr, t.internalList = s.internalList ++ addresses.map (.load k)

theorem Confined.rest {k : Port} {s t : State} (h : Confined k s t) :
    t.table = s.table ∧ t.writer = s.writer ∧ t.link = s.link ∧ t.pool = s.pool ∧
      t.rstAsserted = s.rstAsserted ∧ t.outputs = s.outputs ∧ t.tableBase = s.tableBase := by
  rw [h.1]
  exact ⟨rfl, rfl, rfl, rfl, rfl, rfl, rfl⟩

theorem Confined.table {k : Port} {s t : State} (h : Confined k s t) : t.table = s.table := h.rest.1

theorem Confined.writer {k : Port} {s t : State} (h : Confined k s t) : t.writer = s.writer := h.rest.2.1

theorem Confined.link {k : Port} {s t : State} (h : Confined k s t) : t.link = s.link := h.rest.2.2.1

theorem Confined.pool {k : Port} {s t : State} (h : Confined k s t) : t.pool = s.pool := h.rest.2.2.2.1

theorem Confined.rstAsserted {k : Port} {s t : State} (h : Confined k s t) :
    t.rstAsserted = s.rstAsserted := h.rest.2.2.2.2.1

theorem Confined.outputs {k : Port} {s t : State} (h : Confined k s t) : t.outputs = s.outputs :=
  h.rest.2.2.2.2.2.1

namespace Contained

theorem refl (k : Port) (s : State) : Contained k s s := ⟨.refl k s, ⟨[], rfl⟩, ⟨[], by simp⟩⟩

theorem trans {k : Port} {s t u : State} (h : Contained k s t) (h' : Contained k t u) : Contained k s u := by
  obtain ⟨ns, hn⟩ := h.notices
  obtain ⟨ns', hn'⟩ := h'.notices
  obtain ⟨as, hl⟩ := h.loads
  obtain ⟨as', hl'⟩ := h'.loads
  exact ⟨h.confined.trans h'.confined, ⟨ns ++ ns', by rw [hn', hn, List.foldl_append]⟩,
    ⟨as ++ as', by rw [hl', hl, List.map_append, List.append_assoc]⟩⟩

theorem setPort (k : Port) (s : State) (b : PortBlock) : Contained k s (s.setPort k b) :=
  ⟨.setPort .., ⟨[], rfl⟩, ⟨[], by simp⟩⟩

theorem setMeter (k : Port) (s : State) (m : Meter) : Contained k s (s.setMeter k m) := setPort ..

theorem setController (k : Port) (s : State) (c : Controller) : Contained k s (s.setController k c) := setPort ..

theorem submitAll (k : Port) (s : State) (ns : List Notice) : Contained k s (s.submitAll ns) :=
  ⟨⟨rfl, fun _ _ => rfl⟩, ⟨ns, rfl⟩, ⟨[], by simp⟩⟩

theorem submit (k : Port) (s : State) (n : Notice) : Contained k s (s.submit n) := submitAll k s [n]

theorem of_ite {k : Port} {s t u : State} {p : Prop} [Decidable p] (ht : Contained k s t)
    (hu : Contained k s u) : Contained k s (if p then t else u) := by
  split <;> assumption

theorem applyEvaluated (k : Port) (s : State) (r : Evaluated) : Contained k s (s.applyEvaluated k r) :=
  (setPort ..).trans (submitAll ..)

theorem evaluate (k : Port) (s : State) : Contained k s (evaluate k s) := by
  unfold Machine.evaluate
  split
  · exact refl ..
  · exact of_ite (applyEvaluated ..) (refl ..)

theorem massAdmit (k : Port) (s : State) : Contained k s (massAdmit k s) := setPort ..

/-! ### Windows (2.6, 2.8) -/

theorem submitReport (k : Port) (i : Installed) (s : State) : Contained k s (submitReport k i s) :=
  of_ite (setPort ..) (refl ..)

theorem earlyEnd (k : Port) (s : State) : Contained k s (earlyEnd k s) := by
  unfold Machine.earlyEnd
  split
  · exact refl ..
  · exact of_ite ((setMeter ..).trans (submitReport ..)) (refl ..)

theorem startWindow (k : Port) (i : Installed) (s : State) : Contained k s (startWindow k i s) := setMeter ..

theorem installProfile (k : Port) (i : Installed) (s : State) : Contained k s (installProfile k i s) :=
  ((setMeter ..).trans (startWindow ..)).trans (evaluate ..)

theorem closeLowMark (k : Port) (i : Installed) (s : State) : Contained k s (closeLowMark k i s) :=
  of_ite (of_ite ((setMeter ..).trans (submit ..)) (setMeter ..)) (refl ..)

theorem closeDonate (k : Port) (i : Installed) (s : State) : Contained k s (closeDonate k i s) :=
  of_ite (refl ..) (setPort ..)

theorem closeRefill (k : Port) (i : Installed) (s : State) : Contained k s (closeRefill k i s) := by
  unfold Machine.closeRefill
  split
  · exact refl ..
  · exact setMeter ..
  · exact setMeter ..

theorem closeHold (k : Port) (i : Installed) (s : State) : Contained k s (closeHold k i s) :=
  of_ite ((setPort ..).trans (submit ..)) (setPort ..)

theorem closeUpTo5 (k : Port) (i : Installed) (s : State) : Contained k s (closeUpTo5 k i s) :=
  ((((setMeter ..).trans (closeLowMark ..)).trans (closeDonate ..)).trans (closeRefill ..)).trans (setMeter ..)

/-- Steps 1 to 7 of a close, before the close signal (R36). -/
theorem closeUpTo7 (k : Port) (i : Installed) (s : State) :
    Contained k s (Machine.closeHold k i (Machine.evaluate k (Machine.closeUpTo5 k i s))) :=
  ((closeUpTo5 ..).trans (evaluate ..)).trans (closeHold ..)

theorem startLoad (k : Port) (index : Byte) (s : State) : Contained k s (startLoad k index s) :=
  ⟨.startLoad .., ⟨[], rfl⟩, ⟨[recordAddress s.tableBase index], rfl⟩⟩

theorem closeSignal (k : Port) (i : Installed) (s : State) : Contained k s (closeSignal k i s) :=
  of_ite (of_ite (of_ite ((setController ..).trans (startLoad ..))
    (of_ite ((setController ..).trans (submit ..)) (setController ..))) (setController ..)) (refl ..)

/-- R36: what a close reaches beside its port. -/
theorem closeWindow (k : Port) (i : Installed) (s : State) : Contained k s (closeWindow k i s) :=
  ((closeUpTo7 ..).trans (closeSignal ..)).trans (submitReport ..)

/-! ### Requests and answers of the pool (01, 2.3) -/

theorem takeRequest (k : Port) (r : Request) (s : State) : Contained k s (takeRequest k r s) :=
  of_ite ((setPort ..).trans (evaluate ..)) (setPort ..)

theorem takeAnswer (k : Port) (a : ClaimAnswer) (s : State) : Contained k s (takeAnswer k a s) := by
  unfold Machine.takeAnswer
  dsimp only
  split
  · split
    · split <;> exact (setMeter ..).trans (applyEvaluated ..)
    · exact (setMeter ..).trans (evaluate ..)
  · exact (setMeter ..).trans (evaluate ..)

/-! ### Loads (04) -/

theorem endLoad (k : Port) (s : State) : Contained k s (endLoad k s) := setPort ..

theorem installFromTable (k : Port) (index : Byte) (p : Profile) (s : State) :
    Contained k s (installFromTable k index p s) :=
  have installed := ((((earlyEnd k s).trans (setController ..)).trans (installProfile ..)).trans
    (setController ..)).trans (endLoad ..)
  of_ite (installed.trans (submit ..)) installed

theorem installFallback (k : Port) (index : Byte) (reason : FaultReason) (s : State) :
    Contained k s (installFallback k index reason s) :=
  (((((earlyEnd k s).trans (setController ..)).trans (installProfile ..)).trans (setController ..)).trans
    (endLoad ..)).trans (submit ..)

theorem keepRegime (k : Port) (reason : FaultReason) (s : State) : Contained k s (keepRegime k reason s) :=
  ((endLoad ..).trans (of_ite (setController ..) ((setController ..).trans (massAdmit ..)))).trans (submit ..)

theorem takeLoadResult (k : Port) (result : LoadResult) (s : State) :
    Contained k s (takeLoadResult k result s) := by
  unfold Machine.takeLoadResult
  split
  · exact refl ..
  · refine of_ite (endLoad ..) ?_
    split
    · exact installFromTable ..
    · exact of_ite (installFallback ..) (keepRegime ..)

/-! ### Drains and port states (05) -/

theorem judgeDrain (k : Port) (s : State) : Contained k s (judgeDrain k s) :=
  of_ite ((setController ..).trans (submit ..)) (refl ..)

theorem stopMeter (k : Port) (s : State) : Contained k s (stopMeter k s) :=
  of_ite ((earlyEnd ..).trans (setMeter ..)) (refl ..)

theorem quiescePort (k : Port) (s : State) : Contained k s (quiescePort k s) :=
  (((stopMeter ..).trans (setController ..)).trans (massAdmit ..)).trans (judgeDrain ..)

theorem resumePort (k : Port) (s : State) : Contained k s (resumePort k s) := by
  unfold Machine.resumePort
  split
  · exact ((setController ..).trans (startWindow ..)).trans (evaluate ..)
  · exact (setController ..).trans (massAdmit ..)

theorem countCompletion (k : Port) (status : AnswerStatus) (latency : Nat) (s : State) :
    Contained k s (countCompletion k status latency s) :=
  of_ite (setMeter ..) (refl ..)

theorem countTimeout (k : Port) (s : State) : Contained k s (countTimeout k s) := of_ite (setMeter ..) (refl ..)

end Contained

/-! ## Answers and deadlines of port transactions -/

/-- What an answer counts does not depend on the table, so the entry may be freed first (R120). -/
theorem answerPort_eq (k : Port) (rtag : Fin 32) (tag : Fin 64) (f : InFlight) (status : AnswerStatus)
    (data : List Beat) (s : State) : answerPort k rtag tag f status data s =
      judgeDrain k (countCompletion k status (s.latency f) ((s.emit (.completion k rtag
        (completionStatus status) (if f.kind = .read then data else []))).setEntry tag none)) := by
  unfold answerPort
  simp only [countCompletion_eq]
  rfl

/-- R120: an answer puts out the completion, frees the entry, and leaves the rest to its port. -/
theorem answerPort_contained (k : Port) (rtag : Fin 32) (tag : Fin 64) (f : InFlight) (status : AnswerStatus)
    (data : List Beat) (s : State) :
    Contained k ((s.emit (.completion k rtag (completionStatus status) (if f.kind = .read then data else
      []))).setEntry tag none) (answerPort k rtag tag f status data s) := by
  rw [answerPort_eq]
  exact (Contained.countCompletion ..).trans (Contained.judgeDrain ..)

/-- R122: a deadline leaves an ORPHAN, puts out the completion, and leaves the rest to its port. -/
theorem deadlinePort_contained (k : Port) (rtag : Fin 32) (tag : Fin 64) (f : InFlight) (s : State) :
    Contained k ((s.setEntry tag (some f.orphan)).emit (.completion k rtag .timeout
      (if f.kind = .read then List.replicate f.beats 0 else []))) (deadlinePort k rtag tag f s) :=
  ((Contained.countTimeout k _).trans (Contained.submit k _ _)).trans (Contained.judgeDrain k _)

/-- R17, R126: a port reset orphans the LIVE entries of its port, and leaves the rest to the port. -/
theorem portReset_contained (k : Port) (s : State) :
    Contained k (s.setTable (orphanWhere (fun o => o.portOf == some k) s.table)) (portReset k s) :=
  (Contained.setPort k _ _).trans (Contained.judgeDrain k _)

/-! ## Operations of the report writer -/

/-- Of the part an operation of the report writer changes the writer, submits notices, and adds report writes
to the pending list. -/
structure WriterContained (s t : State) : Prop where
  rest    : t = { s with writer := t.writer, notices := t.notices, internalList := t.internalList }
  notices : ∃ ns : List Notice, t.notices = ns.foldl NoticeQueue.submit s.notices
  reports : ∃ writes : List (Addr × List WriteBeat),
    t.internalList = s.internalList ++ writes.map fun w => .report w.1 w.2

namespace WriterContained

theorem table {s t : State} (h : WriterContained s t) : t.table = s.table := by rw [h.rest]

theorem ports {s t : State} (h : WriterContained s t) : t.ports = s.ports := by rw [h.rest]

theorem port {s t : State} (h : WriterContained s t) (k : Port) : t.port k = s.port k := by
  rw [State.port_def, h.ports, State.port_def]

theorem pool {s t : State} (h : WriterContained s t) : t.pool = s.pool := by rw [h.rest]

theorem link {s t : State} (h : WriterContained s t) : t.link = s.link := by rw [h.rest]

theorem rstAsserted {s t : State} (h : WriterContained s t) : t.rstAsserted = s.rstAsserted := by rw [h.rest]

theorem outputs {s t : State} (h : WriterContained s t) : t.outputs = s.outputs := by rw [h.rest]

theorem refl (s : State) : WriterContained s s := ⟨rfl, ⟨[], rfl⟩, ⟨[], by simp⟩⟩

theorem trans {s t u : State} (h : WriterContained s t) (h' : WriterContained t u) : WriterContained s u := by
  obtain ⟨ns, hn⟩ := h.notices
  obtain ⟨ns', hn'⟩ := h'.notices
  obtain ⟨ws, hl⟩ := h.reports
  obtain ⟨ws', hl'⟩ := h'.reports
  exact ⟨by rw [h'.rest, h.rest], ⟨ns ++ ns', by rw [hn', hn, List.foldl_append]⟩,
    ⟨ws ++ ws', by rw [hl', hl, List.map_append, List.append_assoc]⟩⟩

theorem setWriter (s : State) (w : ReportWriter) : WriterContained s (s.setWriter w) :=
  ⟨rfl, ⟨[], rfl⟩, ⟨[], by simp⟩⟩

theorem submit (s : State) (n : Notice) : WriterContained s (s.submit n) := ⟨rfl, ⟨[n], rfl⟩, ⟨[], by simp⟩⟩

theorem judgeWrite (s : State) : WriterContained s (judgeWrite s) := by
  unfold Machine.judgeWrite
  split
  · exact refl s
  · next head _ _ =>
    split
    · split
      · split
        · exact refl s
        · exact (setWriter ..).trans (submit ..)
      · exact ⟨rfl, ⟨[], rfl⟩, ⟨[(s.writer.slotAddress, beatsOfReport head)], rfl⟩⟩
    · exact refl s

theorem takeReport (r : Report) (s : State) : WriterContained s (takeReport r s) := by
  unfold Machine.takeReport
  dsimp only
  split
  · exact refl s
  · exact refl s
  · split
    · split
      · exact (setWriter ..).trans (judgeWrite ..)
      · exact setWriter ..
    · exact setWriter ..

theorem writeSucceeded (s : State) : WriterContained s (writeSucceeded s) := by
  unfold Machine.writeSucceeded
  dsimp only
  split
  · exact (setWriter ..).trans (judgeWrite ..)
  · exact setWriter ..

theorem writeFailed (cause : FaultReason) (s : State) : WriterContained s (writeFailed cause s) :=
  (setWriter ..).trans (submit ..)

theorem startRing (base size : Nat) (s : State) : WriterContained s (startRing base size s) :=
  (setWriter ..).trans (judgeWrite ..)

theorem acknowledge (c : BitVec 16) (s : State) : WriterContained s (acknowledge c s) := by
  rw [acknowledge_eq]
  exact (setWriter ..).trans (judgeWrite ..)

end WriterContained

/-! ## Grants -/

theorem State.freeTag_free {s : State} {p : Fin 64 → Bool} {tag : Fin 64}
    (h : (List.finRange 64).find? (fun t => p t && s.table[t.val].isNone) = some tag) :
    p tag = true ∧ s.table[tag.val] = none := by
  have found := List.find?_some h
  simp only [Bool.and_eq_true, Option.isNone_iff_eq_none] at found
  exact found

/-- R112: the tag a port takes is FREE and lies below 62. -/
theorem State.freePortTag_free {s : State} {tag : Fin 64} (h : s.freePortTag = some tag) :
    tag.val < 62 ∧ s.table[tag.val] = none := by
  obtain ⟨low, free⟩ := State.freeTag_free h
  exact ⟨of_decide_eq_true low, free⟩

/-- R112: the tag the internal requester takes is FREE and is 62 or 63. -/
theorem State.freeInternalTag_free {s : State} {tag : Fin 64} (h : s.freeInternalTag = some tag) :
    62 ≤ tag.val ∧ s.table[tag.val] = none := by
  obtain ⟨high, free⟩ := State.freeTag_free h
  exact ⟨of_decide_eq_true high, free⟩

/-- R115, R116: the grant of the head of the pending list. -/
theorem grantInternal_eq {s : State} {item : InternalItem} {rest : List InternalItem} {tag : Fin 64}
    (oldest : s.internalList = item :: rest) (free : s.freeInternalTag = some tag) :
    grantInternal s = { s with
      internalList := rest
      table := s.table.set tag.val (some (liveEntry s item.owner (item.transaction tag).kind
        (item.transaction tag).beats))
      memoryPort := some (item.transaction tag)
      outputs := s.outputs ++ [.sent (item.transaction tag)] } := by
  unfold grantInternal
  rw [oldest, free]
  rfl

/-- The transaction of a queue entry (R116). -/
def QueueEntry.transaction (e : QueueEntry) (tag : Fin 64) : Transaction :=
  ⟨e.request.kind, e.request.address, e.request.beats, e.request.data, tag⟩

/-- The block of a port once the head of its queue has left (R98). -/
def PortBlock.departed (b : PortBlock) : PortBlock :=
  { b with queue := b.queue.tail
           controller := { b.controller with drain := b.controller.drain.map Drain.depart } }

/-- R12, R98, R115, R116: the grant of the head of a port queue. -/
theorem grantPort_eq {s : State} {k : Port} {e : QueueEntry} {rest : List QueueEntry} {tag : Fin 64}
    (queue : (s.port k).queue = e :: rest) (free : s.freePortTag = some tag) :
    grantPort k s = { s.setPort k (s.port k).departed with
      table := s.table.set tag.val (some (liveEntry s (.port k e.request.tag) e.request.kind e.request.beats))
      roundRobin := nextPort k
      memoryPort := some (e.transaction tag)
      outputs := s.outputs ++ [.sent (e.transaction tag)] } := by
  unfold grantPort PortBlock.departed
  rw [queue, free]
  rfl

end Sys2Proof.Machine
end

