-- ==== Sys2Proof/Proofs/Bounds.lean ====
section
/-! PROOF. The bounds of the notice queue (R135), the pool level (R51) and the response buffer (R166), kept by
every step. -/

namespace Sys2Proof.Machine

open Sys2Proof

/-! ## The notice queue -/

theorem NoticesBounded.submissions {s t : State} (hs : NoticesBounded s)
    (h : ∃ ns : List Notice, t.notices = ns.foldl NoticeQueue.submit s.notices) : NoticesBounded t := by
  obtain ⟨ns, h⟩ := h
  unfold NoticesBounded at hs ⊢
  rw [h]
  clear h
  generalize s.notices = q at hs
  induction ns generalizing q with
  | nil => exact hs
  | cons n ns ih => exact ih (q.submit n) (q.submit_bounded n hs)

theorem CommandEffect.keeps_noticesBounded {s t : State} (h : CommandEffect s t) (hs : NoticesBounded s) :
    NoticesBounded t := by
  cases h with
  | unchanged | poolLimit | timeout | tableBase | fallbackSet | fallbackCleared | ringStopped
  | overflowCleared | irqSet => exact hs
  | loadStarted k index => exact hs.submissions (Contained.startLoad k index s).notices
  | quiesced k => exact hs.submissions (Contained.quiescePort k s).notices
  | resumed k => exact hs.submissions (Contained.resumePort k s).notices
  | ringStarted base size => exact hs.submissions (WriterContained.startRing base size s).notices
  | acknowledged c => exact hs.submissions (WriterContained.acknowledge c s).notices
  | noticePopped n rest oldest =>
    unfold NoticesBounded at hs
    rw [oldest] at hs
    exact Nat.le_of_succ_le hs

theorem Effect.keeps_noticesBounded {c : Instr} {s t : State} (h : Effect c s t) (hs : NoticesBounded s) :
    NoticesBounded t := by
  cases h with
  | nothing | inputFollowed | portReleased | clock | donationTaken | claimTaken | memoryPortReady
  | orphanFreed | shifted => exact hs
  | powerReset | softReset => exact Nat.zero_le 32
  | request k r => exact hs.submissions (Contained.takeRequest k r s).notices
  | portReset k => exact hs.submissions (by simpa using (portReset_contained k s).notices)
  | windowClosed k i => exact hs.submissions (Contained.closeWindow k i s).notices
  | answerTaken k answer => exact NoticesBounded.submissions hs (Contained.takeAnswer k answer _).notices
  | reportTaken k r => exact NoticesBounded.submissions hs (WriterContained.takeReport r _).notices
  | internalGranted item rest tag oldest free =>
    rw [grantInternal_eq oldest free]
    exact hs
  | portGranted k e rest tag queue _ _ free =>
    rw [grantPort_eq queue free]
    exact hs
  | portOrphanFreed tag f k => exact NoticesBounded.submissions hs (Contained.judgeDrain k _).notices
  | answered tag f k rtag status data =>
    exact NoticesBounded.submissions hs (answerPort_contained k rtag tag f status data s).notices
  | timedOut tag f k rtag =>
    exact NoticesBounded.submissions hs (deadlinePort_contained k rtag tag f s).notices
  | loadEnded tag f k e result =>
    exact NoticesBounded.submissions hs (Contained.takeLoadResult k result _).notices
  | written tag f => exact NoticesBounded.submissions hs (WriterContained.writeSucceeded _).notices
  | writeFaulted tag f e reason => exact NoticesBounded.submissions hs (WriterContained.writeFailed reason _).notices
  | commanded bits status data owner =>
    have kept : NoticesBounded _ := owner.keeps_noticesBounded hs
    exact kept

/-! ## The pool -/

theorem PoolBounded.congr {s t : State} (hs : PoolBounded s) (h : t.pool = s.pool) : PoolBounded t := by
  unfold PoolBounded
  rw [h]
  exact hs

theorem Pool.donate_bounded (p : Pool) (d : Nat) (h : p.limit ≤ 65535) :
    (p.donate d).level ≤ (p.donate d).limit ∧ (p.donate d).limit ≤ 65535 :=
  ⟨Nat.min_le_right _ _, h⟩

theorem Pool.afterClaim_bounded (p : Pool) (n : Nat) (h : p.level ≤ p.limit ∧ p.limit ≤ 65535) :
    (p.afterClaim n).level ≤ (p.afterClaim n).limit ∧ (p.afterClaim n).limit ≤ 65535 := by
  unfold Pool.afterClaim
  split
  · exact ⟨(Nat.sub_le _ _).trans h.1, h.2⟩
  · exact h

theorem CommandEffect.keeps_poolBounded {s t : State} (h : CommandEffect s t) (hs : PoolBounded s) :
    PoolBounded t := by
  cases h with
  | unchanged | timeout | tableBase | fallbackSet | fallbackCleared | ringStopped | noticePopped
  | overflowCleared | irqSet => exact hs
  | poolLimit limit word => exact ⟨Nat.min_le_right _ _, word⟩
  | loadStarted k index => exact hs.congr (Contained.startLoad k index s).confined.pool
  | quiesced k => exact hs.congr (Contained.quiescePort k s).confined.pool
  | resumed k => exact hs.congr (Contained.resumePort k s).confined.pool
  | ringStarted base size => exact hs.congr (WriterContained.startRing base size s).pool
  | acknowledged c => exact hs.congr (WriterContained.acknowledge c s).pool

theorem Effect.keeps_poolBounded {c : Instr} {s t : State} (h : Effect c s t) (hs : PoolBounded s) :
    PoolBounded t := by
  cases h with
  | nothing | inputFollowed | portReleased | clock | memoryPortReady | orphanFreed | shifted => exact hs
  | powerReset | softReset => exact ⟨Nat.le_refl 0, Nat.zero_le _⟩
  | donationTaken k d => exact s.pool.donate_bounded d hs.2
  | claimTaken k n => exact s.pool.afterClaim_bounded n hs
  | request k r => exact hs.congr (Contained.takeRequest k r s).confined.pool
  | portReset k => exact hs.congr ((portReset_contained k s).confined.pool.trans (State.setTable_pool ..))
  | windowClosed k i => exact hs.congr (Contained.closeWindow k i s).confined.pool
  | answerTaken k answer => exact hs.congr (Contained.takeAnswer k answer _).confined.pool
  | reportTaken k r => exact hs.congr (WriterContained.takeReport r _).pool
  | internalGranted item rest tag oldest free =>
    rw [grantInternal_eq oldest free]
    exact hs
  | portGranted k e rest tag queue _ _ free =>
    rw [grantPort_eq queue free]
    exact hs
  | portOrphanFreed tag f k => exact hs.congr (Contained.judgeDrain k _).confined.pool
  | answered tag f k rtag status data => exact hs.congr (answerPort_contained k rtag tag f status data s).confined.pool
  | timedOut tag f k rtag => exact hs.congr (deadlinePort_contained k rtag tag f s).confined.pool
  | loadEnded tag f k e result => exact hs.congr (Contained.takeLoadResult k result _).confined.pool
  | written tag f => exact hs.congr (WriterContained.writeSucceeded _).pool
  | writeFaulted tag f e reason => exact hs.congr (WriterContained.writeFailed reason _).pool
  | commanded bits status data owner =>
    have kept : PoolBounded _ := owner.keeps_poolBounded hs
    exact kept

/-! ## The response buffer -/

theorem ResponseBounded.congr {s t : State} (hs : ResponseBounded s) (h : t.link = s.link) :
    ResponseBounded t := by
  unfold ResponseBounded
  rw [h]
  exact hs

/-- R166: whatever its owner does, a command leaves a response of at most 48 bytes; nothing else writes the
buffer but a reset. -/
theorem Effect.keeps_responseBounded {c : Instr} {s t : State} (h : Effect c s t) (hs : ResponseBounded s) :
    ResponseBounded t := by
  cases h with
  | nothing | inputFollowed | portReleased | clock | donationTaken | claimTaken | memoryPortReady
  | orphanFreed | shifted => exact hs
  | powerReset | softReset => exact Nat.zero_le 48
  | request k r => exact hs.congr (Contained.takeRequest k r s).confined.link
  | portReset k => exact hs.congr ((portReset_contained k s).confined.link.trans (State.setTable_link ..))
  | windowClosed k i => exact hs.congr (Contained.closeWindow k i s).confined.link
  | answerTaken k answer => exact hs.congr (Contained.takeAnswer k answer _).confined.link
  | reportTaken k r => exact hs.congr (WriterContained.takeReport r _).link
  | internalGranted item rest tag oldest free =>
    rw [grantInternal_eq oldest free]
    exact hs
  | portGranted k e rest tag queue _ _ free =>
    rw [grantPort_eq queue free]
    exact hs
  | portOrphanFreed tag f k => exact hs.congr (Contained.judgeDrain k _).confined.link
  | answered tag f k rtag status data => exact hs.congr (answerPort_contained k rtag tag f status data s).confined.link
  | timedOut tag f k rtag => exact hs.congr (deadlinePort_contained k rtag tag f s).confined.link
  | loadEnded tag f k e result => exact hs.congr (Contained.takeLoadResult k result _).confined.link
  | written tag f => exact hs.congr (WriterContained.writeSucceeded _).link
  | writeFaulted tag f e reason => exact hs.congr (WriterContained.writeFailed reason _).link
  | commanded bits status data owner short => exact short

/-- Settles O7: no effect breaks one of the bounds, and a tick or a queued happening touches none. -/
theorem everyStepKeepsTheBounds : Obligations.EveryStepKeepsTheBounds := by
  intro s t h
  refine ⟨fun hs => ?notices, fun hs => ?pool, fun hs => ?response⟩
  case notices =>
    exact step_keeps (fun _ hs => hs) (fun _ _ _ hs => hs) (fun _ _ _ e hs => e.keeps_noticesBounded hs) hs h
  case pool =>
    exact step_keeps (fun _ hs => hs) (fun _ _ _ hs => hs) (fun _ _ _ e hs => e.keeps_poolBounded hs) hs h
  case response =>
    exact step_keeps (fun _ hs => hs) (fun _ _ _ hs => hs) (fun _ _ _ e hs => e.keeps_responseBounded hs) hs h

end Sys2Proof.Machine
end

