-- ==== Sys2Proof/Proofs/TableInvariant.lean ====
section
/-! PROOF. The in-flight table: what a write to one entry and an orphaning do to the counts, and the layout and
quotas of R111 to R113, kept by every step. -/

namespace Sys2Proof.Machine

open Sys2Proof

/-! ## Counts after a write and after an orphaning -/

/-- A write to one entry takes the old entry out of a count and puts the new one in. -/
theorem countP_set_add (p : Option InFlight → Bool) (t : Vector (Option InFlight) 64) (tag : Fin 64)
    (e : Option InFlight) :
    (t.set tag.val e).toList.countP p + (if p t[tag.val] then 1 else 0) =
      t.toList.countP p + (if p e then 1 else 0) := by
  have old : t.toList[tag.val]'(by simp) = t[tag.val] := by simp
  rw [Vector.toList_set, List.countP_set (by simp), old]
  split
  · next counted =>
    have : 0 < t.toList.countP p := List.countP_pos_iff.2 ⟨t[tag.val], by simp, counted⟩
    omega
  · omega

/-- An entry as an orphaning leaves it: an ORPHAN if it is LIVE and its owner meets `p` (R126, R127). -/
def orphaned (p : Owner → Bool) (e : Option InFlight) : Option InFlight :=
  e.map fun f => if f.state == .live && p f.owner then f.orphan else f

theorem orphanWhere_toList (p : Owner → Bool) (t : Vector (Option InFlight) 64) :
    (orphanWhere p t).toList = t.toList.map (orphaned p) := by
  refine List.ext_getElem (by simp) fun n h h' => ?_
  have : n < 64 := by simpa using h
  simpa [orphaned] using orphanWhere_get p t ⟨n, this⟩

theorem orphanWhere_countP (p : Owner → Bool) (t : Vector (Option InFlight) 64) (q : Option InFlight → Bool) :
    (orphanWhere p t).toList.countP q = t.toList.countP fun e => q (orphaned p e) := by
  rw [orphanWhere_toList, List.countP_map]
  rfl

theorem heldBy_orphan (k : Port) (f : InFlight) : heldBy k (some f.orphan) = heldBy k (some f) := rfl

theorem heldBy_orphaned (k : Port) (p : Owner → Bool) (e : Option InFlight) :
    heldBy k (orphaned p e) = heldBy k e := by
  cases e with
  | none => rfl
  | some f => simp only [orphaned, Option.map_some]; split <;> rfl

theorem liveOf_none (k : Port) : liveOf k none = false := rfl

theorem liveOf_orphan (k : Port) (f : InFlight) (h : f.state = .orphan) : liveOf k (some f) = false := by
  simp [liveOf, h]

theorem liveOf_orphaned (k : Port) (p : Owner → Bool) (e : Option InFlight) :
    liveOf k (orphaned p e) = true →
      liveOf k e = true ∧ ∀ f, e = some f → p f.owner = false := by
  cases e with
  | none => exact fun h => absurd h (by simp [orphaned, liveOf_none])
  | some f =>
    simp only [orphaned, Option.map_some]
    split
    · exact fun h => absurd h (by rw [liveOf_orphan k _ rfl]; simp)
    · next other =>
      intro h
      refine ⟨h, fun g hg => ?_⟩
      cases hg
      simp only [liveOf, Bool.and_eq_true] at h
      simpa [h.2] using other

/-! ## The table invariant (R111 to R113) -/

theorem TableSound.congr {s t : State} (hs : TableSound s) (h : t.table = s.table) : TableSound t := by
  obtain ⟨layout, shared, orphan⟩ := hs
  have counts := State.heldCount_congr h
  refine ⟨fun tag f => ?_, ?_, fun tag f => ?_⟩
  · rw [h]
    exact layout tag f
  · rw [State.sharedInUse, counts, counts, counts, counts]
    exact shared
  · rw [h]
    exact orphan tag f

/-- The pool's use does not rise if no port holds more (R112). -/
theorem State.sharedInUse_mono {s t : State} (h : ∀ k, t.heldCount k ≤ s.heldCount k) :
    t.sharedInUse ≤ s.sharedInUse := by
  have h0 := h .rp0
  have h1 := h .rp1
  have h2 := h .rp2
  have h3 := h .rp3
  unfold State.sharedInUse
  omega

/-- R112: one more entry of a port, within its quota, keeps the pool's use within 46. -/
theorem State.sharedInUse_grant {s t : State} {k : Port} (same : t.heldCount k ≤ s.heldCount k + 1)
    (others : ∀ j, j ≠ k → t.heldCount j ≤ s.heldCount j) (shared : s.sharedInUse ≤ 46)
    (quota : s.heldCount k < 4 ∨ s.sharedInUse < 46) : t.sharedInUse ≤ 46 := by
  have h0 := others .rp0
  have h1 := others .rp1
  have h2 := others .rp2
  have h3 := others .rp3
  unfold State.sharedInUse at shared quota ⊢
  cases k <;> simp only [ne_eq, reduceCtorEq, not_true_eq_false, not_false_eq_true, forall_const,
    false_implies] at h0 h1 h2 h3 <;> omega

theorem State.heldCount_setEntry (s : State) (tag : Fin 64) (e : Option InFlight) (k : Port) :
    (s.setEntry tag e).heldCount k + (if heldBy k s.table[tag.val] then 1 else 0) =
      s.heldCount k + (if heldBy k e then 1 else 0) :=
  countP_set_add (heldBy k) s.table tag e

/-- An entry of the table after a write to one of its tags. -/
theorem State.setEntry_get (s : State) (tag other : Fin 64) (e : Option InFlight) :
    (s.setEntry tag e).table[other.val] = if other = tag then e else s.table[other.val] := by
  split
  · next same => rw [same, State.setEntry_get_same]
  · next distinct => exact State.setEntry_get_ne s distinct e

theorem TableSound.setEntry {s : State} (hs : TableSound s) (tag : Fin 64) (e : Option InFlight)
    (layout : ∀ f, e = some f → (f.owner.portOf.isSome = true ↔ tag.val < 62))
    (orphan : ∀ f, e = some f → f.state = .orphan → f.deadline = none)
    (shared : (s.setEntry tag e).sharedInUse ≤ 46) : TableSound (s.setEntry tag e) := by
  refine ⟨fun other f => ?_, shared, fun other f => ?_⟩
  · rw [State.setEntry_get]
    split
    · next same => rw [same]; exact layout f
    · exact hs.layout other f
  · rw [State.setEntry_get]
    split
    · exact orphan f
    · exact hs.orphan other f

/-- An entry freed, or left as an ORPHAN, keeps the table sound (R119, R122). -/
theorem TableSound.leave {s : State} (hs : TableSound s) {tag : Fin 64} {f : InFlight}
    (entry : s.table[tag.val] = some f) {e : Option InFlight} (left : e = none ∨ e = some f.orphan) :
    TableSound (s.setEntry tag e) := by
  refine hs.setEntry tag e (fun g hg => ?_) (fun g hg _ => ?_)
    ((State.sharedInUse_mono fun k => ?_).trans hs.shared)
  · rcases left with rfl | rfl
    · cases hg
    · cases hg
      exact hs.layout tag f entry
  · rcases left with rfl | rfl
    · cases hg
    · cases hg
      rfl
  · have counted := s.heldCount_setEntry tag e k
    rcases left with rfl | rfl
    · rw [show heldBy k none = false from rfl] at counted
      simp only [Bool.false_eq_true, if_false] at counted
      omega
    · rw [entry, heldBy_orphan] at counted
      omega

theorem TableSound.orphanWhere {s : State} (hs : TableSound s) (p : Owner → Bool) :
    TableSound (s.setTable (orphanWhere p s.table)) := by
  have held : ∀ k, (s.setTable (Machine.orphanWhere p s.table)).heldCount k = s.heldCount k := fun k => by
    simp only [State.heldCount, State.setTable_table, orphanWhere_countP, heldBy_orphaned]
  refine ⟨fun tag f => ?_, (State.sharedInUse_mono fun k => (held k).le).trans hs.shared, fun tag f => ?_⟩
  all_goals
    rw [State.setTable_table, orphanWhere_get]
    intro h
    obtain ⟨g, entry, rfl⟩ := Option.map_eq_some_iff.1 h
    split
  · exact hs.layout tag g entry
  · exact hs.layout tag g entry
  · exact fun _ => rfl
  · exact hs.orphan tag g entry

theorem TableSound.empty {s : State} (h : s.table = Vector.replicate 64 none) : TableSound s := by
  have held : ∀ k, s.heldCount k = 0 := fun k => by
    rw [State.heldCount, h, Vector.toList_replicate, List.countP_replicate]
    rfl
  refine ⟨fun tag f entry => ?_, ?_, fun tag f entry => ?_⟩
  · simp [h] at entry
  · simp [State.sharedInUse, held]
  · simp [h] at entry

/-- R113, R116: a grant to the internal requester. -/
theorem TableSound.internalGrant {s : State} (hs : TableSound s) {tag : Fin 64}
    (free : s.freeInternalTag = some tag) (item : InternalItem) (kind : Kind) (beats : Nat) :
    TableSound (s.setEntry tag (some (liveEntry s item.owner kind beats))) := by
  obtain ⟨high, vacant⟩ := State.freeInternalTag_free free
  have internal : item.owner.portOf = none := by cases item <;> rfl
  refine hs.setEntry tag _ (fun f hf => ?_) (fun f hf => ?_)
    ((State.sharedInUse_mono fun k => ?_).trans hs.shared)
  · cases hf
    simp only [liveEntry, internal, Option.isSome_none, Bool.false_eq_true, false_iff]
    omega
  · cases hf
    simp [liveEntry]
  · have counted := s.heldCount_setEntry tag (some (liveEntry s item.owner kind beats)) k
    have other : heldBy k (some (liveEntry s item.owner kind beats)) = false := by
      simp [heldBy, liveEntry, internal]
    rw [other] at counted
    simp only [Bool.false_eq_true, if_false] at counted
    omega

/-- R113, R116: a grant to a port within its quota. -/
theorem TableSound.portGrant {s : State} (hs : TableSound s) {tag : Fin 64} {k : Port}
    (free : s.freePortTag = some tag) (quota : s.heldCount k < 4 ∨ s.sharedInUse < 46) (rtag : Fin 32)
    (kind : Kind) (beats : Nat) : TableSound (s.setEntry tag (some (liveEntry s (.port k rtag) kind beats))) := by
  obtain ⟨low, vacant⟩ := State.freePortTag_free free
  have counted := fun j => s.heldCount_setEntry tag (some (liveEntry s (.port k rtag) kind beats)) j
  simp only [vacant, show ∀ j, heldBy j none = false from fun _ => rfl] at counted
  refine hs.setEntry tag _ (fun f hf => ?_) (fun f hf => ?_)
    (State.sharedInUse_grant (k := k) ?_ (fun j distinct => ?_) hs.shared quota)
  · cases hf
    simp [liveEntry, Owner.portOf, low]
  · cases hf
    simp [liveEntry]
  · have := counted k
    split_ifs at this <;> omega
  · have := counted j
    have other : heldBy j (some (liveEntry s (.port k rtag) kind beats)) = false := by
      simp [heldBy, liveEntry, Owner.portOf, distinct.symm]
    simp only [other, Bool.false_eq_true, if_false] at this
    omega

theorem CommandEffect.keeps_table {s t : State} (h : CommandEffect s t) : t.table = s.table := by
  cases h with
  | unchanged | poolLimit | timeout | tableBase | fallbackSet | fallbackCleared | ringStopped | noticePopped
  | overflowCleared | irqSet => rfl
  | loadStarted k index => exact (Contained.startLoad k index s).confined.table
  | quiesced k => exact (Contained.quiescePort k s).confined.table
  | resumed k => exact (Contained.resumePort k s).confined.table
  | ringStarted base size => exact (WriterContained.startRing base size s).table
  | acknowledged c => exact (WriterContained.acknowledge c s).table

/-- R111 to R113: an effect frees entries, orphans them, or takes a FREE tag of the right kind. -/
theorem Effect.keeps_tableSound {c : Instr} {s t : State} (h : Effect c s t) (hs : TableSound s) :
    TableSound t := by
  cases h with
  | nothing | inputFollowed | portReleased | clock | donationTaken | claimTaken | memoryPortReady
  | shifted => exact hs.congr rfl
  | powerReset => exact TableSound.empty rfl
  | softReset => exact (hs.orphanWhere fun o => o.portOf.isNone).congr rfl
  | request k r => exact hs.congr (Contained.takeRequest k r s).confined.table
  | portReset k => exact (hs.orphanWhere _).congr (portReset_contained k s).confined.table
  | windowClosed k i => exact hs.congr (Contained.closeWindow k i s).confined.table
  | answerTaken k answer => exact hs.congr (Contained.takeAnswer k answer _).confined.table
  | reportTaken k r => exact hs.congr (WriterContained.takeReport r _).table
  | internalGranted item rest tag oldest free =>
    rw [grantInternal_eq oldest free]
    exact (hs.internalGrant free item _ _).congr rfl
  | portGranted k e rest tag queue _ quota free =>
    rw [grantPort_eq queue free]
    exact (hs.portGrant free quota e.request.tag _ _).congr rfl
  | orphanFreed tag f entry => exact hs.leave entry (.inl rfl)
  | portOrphanFreed tag f k entry =>
    exact (hs.leave entry (.inl rfl)).congr (Contained.judgeDrain k _).confined.table
  | answered tag f k rtag status data entry =>
    exact (hs.leave entry (.inl rfl)).congr (answerPort_contained k rtag tag f status data s).confined.table
  | timedOut tag f k rtag entry =>
    exact (hs.leave entry (.inr rfl)).congr (deadlinePort_contained k rtag tag f s).confined.table
  | loadEnded tag f k e result entry _ _ left =>
    exact (hs.leave entry left).congr (Contained.takeLoadResult k result _).confined.table
  | written tag f entry => exact (hs.leave entry (.inl rfl)).congr (WriterContained.writeSucceeded _).table
  | writeFaulted tag f e reason entry _ _ left =>
    exact (hs.leave entry left).congr (WriterContained.writeFailed reason _).table
  | commanded bits status data owner => exact hs.congr owner.keeps_table

/-- Settles O11: each effect keeps the table sound, and the timebase leaves it alone. -/
theorem everyStepKeepsTheTableSound : Obligations.EveryStepKeepsTheTableSound := fun _ _ =>
  step_keeps (fun _ hs => hs.congr rfl) (fun _ _ _ hs => hs.congr rfl) fun _ _ _ e hs => e.keeps_tableSound hs

end Sys2Proof.Machine
end

