-- ==== Sys2Proof/Proofs/InternalWork.lean ====
section
/-! PROOF. The work of the internal requester: an item is on the pending list or LIVE in the in-flight table
(R109, R111), and what each operation does to the number of items with a given owner. -/

namespace Sys2Proof.Machine

open Sys2Proof

/-! ## LIVE entries with a given owner -/

/-- A LIVE entry with this owner. -/
def liveOwnedBy (o : Owner) (e : Option InFlight) : Bool :=
  e.any fun f => decide (f.state = .live ∧ f.owner = o)

theorem State.liveOwned_eq (s : State) (o : Owner) : s.liveOwned o = s.table.toList.countP (liveOwnedBy o) := by
  unfold State.liveOwned
  refine List.countP_congr fun e _ => ?_
  cases e <;> simp [liveOwnedBy]

theorem liveOwnedBy_live (o : Owner) {f : InFlight} (live : f.state = .live) :
    liveOwnedBy o (some f) = decide (f.owner = o) := by
  simp [liveOwnedBy, live]

theorem liveOwnedBy_orphan (o : Owner) {f : InFlight} (orphan : f.state = .orphan) :
    liveOwnedBy o (some f) = false := by
  simp [liveOwnedBy, orphan]

theorem State.liveOwned_congr {s t : State} (h : t.table = s.table) (o : Owner) :
    t.liveOwned o = s.liveOwned o := by
  rw [State.liveOwned_eq, h, State.liveOwned_eq]

theorem State.liveOwned_setEntry (s : State) (tag : Fin 64) (e : Option InFlight) (o : Owner) :
    (s.setEntry tag e).liveOwned o + (if liveOwnedBy o s.table[tag.val] then 1 else 0) =
      s.liveOwned o + (if liveOwnedBy o e then 1 else 0) := by
  rw [State.liveOwned_eq, State.liveOwned_eq]
  exact countP_set_add (liveOwnedBy o) s.table tag e

@[simp] theorem liveEntry_state (s : State) (o : Owner) (kind : Kind) (beats : Nat) :
    (liveEntry s o kind beats).state = .live := rfl

@[simp] theorem liveEntry_owner (s : State) (o : Owner) (kind : Kind) (beats : Nat) :
    (liveEntry s o kind beats).owner = o := rfl

/-- A LIVE entry freed, or left as an ORPHAN, is one LIVE entry of its owner less. -/
theorem State.liveOwned_leave {s : State} {tag : Fin 64} {f : InFlight} (entry : s.table[tag.val] = some f)
    (live : f.state = .live) {e : Option InFlight} (left : e = none ∨ e = some f.orphan) (o : Owner) :
    (s.setEntry tag e).liveOwned o + (if f.owner = o then 1 else 0) = s.liveOwned o := by
  have counted := s.liveOwned_setEntry tag e o
  have gone : liveOwnedBy o e = false := by
    rcases left with rfl | rfl
    · rfl
    · exact liveOwnedBy_orphan o rfl
  rw [entry, liveOwnedBy_live o live, gone] at counted
  simpa using counted

/-- An ORPHAN freed leaves the LIVE entries as they were. -/
theorem State.liveOwned_freeOrphan {s : State} {tag : Fin 64} {f : InFlight}
    (entry : s.table[tag.val] = some f) (orphan : f.state = .orphan) (o : Owner) :
    (s.setEntry tag none).liveOwned o = s.liveOwned o := by
  have counted := s.liveOwned_setEntry tag none o
  rw [entry, liveOwnedBy_orphan o orphan] at counted
  exact counted

/-- A grant is one LIVE entry of its owner more. -/
theorem State.liveOwned_grant {s : State} {tag : Fin 64} (vacant : s.table[tag.val] = none) (owner : Owner)
    (kind : Kind) (beats : Nat) (o : Owner) :
    (s.setEntry tag (some (liveEntry s owner kind beats))).liveOwned o =
      s.liveOwned o + (if owner = o then 1 else 0) := by
  have counted := s.liveOwned_setEntry tag (some (liveEntry s owner kind beats)) o
  rw [vacant, liveOwnedBy_live o (liveEntry_state ..), liveEntry_owner] at counted
  by_cases same : owner = o
  · simpa [same, liveOwnedBy] using counted
  · simpa [same, liveOwnedBy] using counted

theorem liveOwnedBy_orphaned_kept {p : Owner → Bool} {o : Owner} (spared : p o = false) (e : Option InFlight) :
    liveOwnedBy o (orphaned p e) = liveOwnedBy o e := by
  cases e with
  | none => rfl
  | some f =>
    simp only [orphaned, Option.map_some]
    split
    · next hit =>
      simp only [Bool.and_eq_true, beq_iff_eq] at hit
      obtain ⟨live, met⟩ := hit
      have other : f.owner ≠ o := fun same => by rw [same, spared] at met; cases met
      rw [liveOwnedBy_orphan o (by rfl), liveOwnedBy_live o live]
      exact (decide_eq_false other).symm
    · rfl

theorem liveOwnedBy_orphaned_gone {p : Owner → Bool} {o : Owner} (met : p o = true) (e : Option InFlight) :
    liveOwnedBy o (orphaned p e) = false := by
  cases e with
  | none => rfl
  | some f =>
    simp only [orphaned, Option.map_some]
    split
    · exact liveOwnedBy_orphan o (by rfl)
    · next miss =>
      simp only [liveOwnedBy, Option.any_some, decide_eq_false_iff_not, not_and]
      rintro live rfl
      exact miss (by simp [live, met])

/-- An orphaning that spares an owner leaves its LIVE entries. -/
theorem State.liveOwned_orphanWhere_kept (s : State) {p : Owner → Bool} {o : Owner} (spared : p o = false) :
    (s.setTable (orphanWhere p s.table)).liveOwned o = s.liveOwned o := by
  rw [State.liveOwned_eq, State.liveOwned_eq, State.setTable_table, orphanWhere_countP]
  simp only [liveOwnedBy_orphaned_kept spared]

/-- An orphaning leaves no LIVE entry of the owners it meets. -/
theorem State.liveOwned_orphanWhere_gone (s : State) {p : Owner → Bool} {o : Owner} (met : p o = true) :
    (s.setTable (orphanWhere p s.table)).liveOwned o = 0 := by
  rw [State.liveOwned_eq, State.setTable_table, orphanWhere_countP]
  simp only [liveOwnedBy_orphaned_gone met]
  simp

/-! ## Items on the list and in the table -/

/-- The items of the internal requester with this owner that have not ended: those on the pending list and
those LIVE in the table. -/
def State.work (s : State) (o : Owner) : Nat :=
  (s.internalList.countP fun item => decide (item.owner = o)) + s.liveOwned o

theorem State.work_load (s : State) (k : Port) : s.listedLoads k + s.liveOwned (.load k) = s.work (.load k) := by
  unfold State.work State.listedLoads
  congr 1
  refine List.countP_congr fun item _ => ?_
  cases item <;> simp [InternalItem.owner]

theorem State.work_report (s : State) : s.listedReports + s.liveOwned .report = s.work .report := by
  unfold State.work State.listedReports
  congr 1
  refine List.countP_congr fun item _ => ?_
  cases item <;> simp [InternalItem.owner]

theorem State.work_congr {s t : State} (list : t.internalList = s.internalList) (table : t.table = s.table)
    (o : Owner) : t.work o = s.work o := by
  rw [State.work, list, State.liveOwned_congr table, State.work]

/-- Items joining the tail of the list. -/
theorem State.work_join {s t : State} {items : List InternalItem}
    (list : t.internalList = s.internalList ++ items) (table : t.table = s.table) (o : Owner) :
    t.work o = s.work o + items.countP fun item => decide (item.owner = o) := by
  rw [State.work, list, State.liveOwned_congr table, List.countP_append, State.work]
  omega

theorem State.work_leave {s : State} {tag : Fin 64} {f : InFlight} (entry : s.table[tag.val] = some f)
    (live : f.state = .live) {e : Option InFlight} (left : e = none ∨ e = some f.orphan) (o : Owner) :
    (s.setEntry tag e).work o + (if f.owner = o then 1 else 0) = s.work o := by
  have counted := State.liveOwned_leave entry live left o
  simp only [State.work, State.setEntry_internalList]
  omega

theorem State.work_freeOrphan {s : State} {tag : Fin 64} {f : InFlight} (entry : s.table[tag.val] = some f)
    (orphan : f.state = .orphan) (o : Owner) : (s.setEntry tag none).work o = s.work o := by
  simp only [State.work, State.setEntry_internalList, State.liveOwned_freeOrphan entry orphan]

theorem State.work_orphanWhere_kept (s : State) {p : Owner → Bool} {o : Owner} (spared : p o = false) :
    (s.setTable (orphanWhere p s.table)).work o = s.work o := by
  simp only [State.work, State.setTable_internalList, State.liveOwned_orphanWhere_kept s spared]

theorem State.work_empty {s : State} (list : s.internalList = []) {o : Owner} (owned : s.liveOwned o = 0) :
    s.work o = 0 := by
  rw [State.work, list, owned]
  rfl

theorem State.liveOwned_empty {s : State} (table : s.table = Vector.replicate 64 none) (o : Owner) :
    s.liveOwned o = 0 := by
  rw [State.liveOwned_eq, table, Vector.toList_replicate, List.countP_replicate]
  rfl

/-- R116: a grant takes an item from the list to the table. -/
theorem State.work_grantInternal {s : State} {item : InternalItem} {rest : List InternalItem} {tag : Fin 64}
    (oldest : s.internalList = item :: rest) (free : s.freeInternalTag = some tag) (o : Owner) :
    (grantInternal s).work o = s.work o := by
  have granted := State.liveOwned_grant (State.freeInternalTag_free free).2 item.owner
    (item.transaction tag).kind (item.transaction tag).beats o
  have table : (grantInternal s).table = (s.setEntry tag (some (liveEntry s item.owner
      (item.transaction tag).kind (item.transaction tag).beats))).table := by
    rw [grantInternal_eq oldest free]
    rfl
  have list : (grantInternal s).internalList = rest := by rw [grantInternal_eq oldest free]
  rw [State.work, State.liveOwned_congr table, granted, list, State.work, oldest, List.countP_cons]
  simp only [decide_eq_true_eq]
  omega

/-- A grant to a port is none of the internal requester's work. -/
theorem State.work_grantPort {s : State} {k : Port} {e : QueueEntry} {rest : List QueueEntry} {tag : Fin 64}
    (queue : (s.port k).queue = e :: rest) (free : s.freePortTag = some tag) {o : Owner}
    (internal : o.portOf = none) : (grantPort k s).work o = s.work o := by
  have granted := State.liveOwned_grant (State.freePortTag_free free).2 (.port k e.request.tag)
    e.request.kind e.request.beats o
  have other : Owner.port k e.request.tag ≠ o := by
    rintro rfl
    cases internal
  have table : (grantPort k s).table = (s.setEntry tag (some (liveEntry s (.port k e.request.tag)
      e.request.kind e.request.beats))).table := by
    rw [grantPort_eq queue free]
    rfl
  have list : (grantPort k s).internalList = s.internalList := by
    rw [grantPort_eq queue free]
    rfl
  rw [State.work, State.liveOwned_congr table, granted, list, if_neg other]
  rfl

/-- No operation of a port adds a report write. -/
theorem Contained.work_report {k : Port} {s t : State} (h : Contained k s t) : t.work .report = s.work .report := by
  obtain ⟨as, list⟩ := h.loads
  rw [State.work_join list h.confined.table, List.countP_map]
  simp only [Function.comp_def, InternalItem.owner]
  simp

/-- No operation of the report writer adds a load. -/
theorem WriterContained.work_load {s t : State} (h : WriterContained s t) (k : Port) :
    t.work (.load k) = s.work (.load k) := by
  obtain ⟨ws, list⟩ := h.reports
  rw [State.work_join list h.table, List.countP_map]
  simp only [Function.comp_def, InternalItem.owner]
  simp

/-- A load in the work is one of the port whose operation it was. -/
theorem Contained.work_load_ne {j k : Port} {s t : State} (h : Contained k s t) (distinct : j ≠ k) :
    t.work (.load j) = s.work (.load j) := by
  obtain ⟨as, list⟩ := h.loads
  rw [State.work_join list h.confined.table, List.countP_map]
  simp only [Function.comp_def, InternalItem.owner]
  simp [distinct.symm]

end Sys2Proof.Machine
end

