-- ==== Sys2Proof/Proofs/LoadInvariant.lean ====
section
/-! PROOF. Operations of the meter, which leave the controller and the load context of their port alone, and each
load that has not ended, accounted for once (R68, R109) and kept so by every step. -/

namespace Sys2Proof.Machine

open Sys2Proof

/-! ## Operations of the meter -/

/-- Of port `k` an operation of the meter changes the meter, the queue, and the messages and reports sent; the
pending list stays. -/
structure MeterOnly (k : Port) (s t : State) : Prop where
  port : t.port k = { s.port k with
    meter := (t.port k).meter, queue := (t.port k).queue, toPool := (t.port k).toPool
    toWriter := (t.port k).toWriter }
  list : t.internalList = s.internalList

namespace MeterOnly

theorem refl (k : Port) (s : State) : MeterOnly k s s := ⟨rfl, rfl⟩

theorem trans {k : Port} {s t u : State} (h : MeterOnly k s t) (h' : MeterOnly k t u) : MeterOnly k s u :=
  ⟨by rw [h'.port, h.port], h'.list.trans h.list⟩

theorem controller {k : Port} {s t : State} (h : MeterOnly k s t) :
    (t.port k).controller = (s.port k).controller := by rw [h.port]

theorem load {k : Port} {s t : State} (h : MeterOnly k s t) : (t.port k).load = (s.port k).load := by
  rw [h.port]

theorem resetAsserted {k : Port} {s t : State} (h : MeterOnly k s t) :
    (t.port k).resetAsserted = (s.port k).resetAsserted := by rw [h.port]

theorem fallback {k : Port} {s t : State} (h : MeterOnly k s t) :
    (t.port k).fallback = (s.port k).fallback := by rw [h.port]

theorem answers {k : Port} {s t : State} (h : MeterOnly k s t) : (t.port k).answers = (s.port k).answers := by
  rw [h.port]

theorem setPort (k : Port) (s : State) (m : Meter) (q : List QueueEntry) (messages : List PoolMessage)
    (reports : List Report) : MeterOnly k s (s.setPort k { s.port k with
      meter := m, queue := q, toPool := messages, toWriter := reports }) :=
  ⟨by rw [State.setPort_port_same], rfl⟩

theorem setMeter (k : Port) (s : State) (m : Meter) : MeterOnly k s (s.setMeter k m) := setPort ..

theorem submitAll (k : Port) (s : State) (ns : List Notice) : MeterOnly k s (s.submitAll ns) := ⟨rfl, rfl⟩

theorem submit (k : Port) (s : State) (n : Notice) : MeterOnly k s (s.submit n) := ⟨rfl, rfl⟩

theorem of_ite {k : Port} {s t u : State} {p : Prop} [Decidable p] (ht : MeterOnly k s t)
    (hu : MeterOnly k s u) : MeterOnly k s (if p then t else u) := by
  split <;> assumption

theorem applyEvaluated (k : Port) (s : State) (r : Evaluated) : MeterOnly k s (s.applyEvaluated k r) :=
  (setPort ..).trans (submitAll ..)

theorem evaluate (k : Port) (s : State) : MeterOnly k s (evaluate k s) := by
  unfold Machine.evaluate
  split
  · exact refl ..
  · exact of_ite (applyEvaluated ..) (refl ..)

theorem massAdmit (k : Port) (s : State) : MeterOnly k s (massAdmit k s) := setPort ..

theorem submitReport (k : Port) (i : Installed) (s : State) : MeterOnly k s (submitReport k i s) :=
  of_ite (setPort ..) (refl ..)

theorem earlyEnd (k : Port) (s : State) : MeterOnly k s (earlyEnd k s) := by
  unfold Machine.earlyEnd
  split
  · exact refl ..
  · exact of_ite ((setMeter ..).trans (submitReport ..)) (refl ..)

theorem stopMeter (k : Port) (s : State) : MeterOnly k s (stopMeter k s) :=
  of_ite ((earlyEnd ..).trans (setMeter ..)) (refl ..)

theorem startWindow (k : Port) (i : Installed) (s : State) : MeterOnly k s (startWindow k i s) := setMeter ..

theorem installProfile (k : Port) (i : Installed) (s : State) : MeterOnly k s (installProfile k i s) :=
  ((setMeter ..).trans (startWindow ..)).trans (evaluate ..)

theorem closeLowMark (k : Port) (i : Installed) (s : State) : MeterOnly k s (closeLowMark k i s) :=
  of_ite (of_ite ((setMeter ..).trans (submit ..)) (setMeter ..)) (refl ..)

theorem closeDonate (k : Port) (i : Installed) (s : State) : MeterOnly k s (closeDonate k i s) :=
  of_ite (refl ..) (setPort ..)

theorem closeRefill (k : Port) (i : Installed) (s : State) : MeterOnly k s (closeRefill k i s) := by
  unfold Machine.closeRefill
  split
  · exact refl ..
  · exact setMeter ..
  · exact setMeter ..

theorem closeUpTo5 (k : Port) (i : Installed) (s : State) : MeterOnly k s (closeUpTo5 k i s) :=
  ((((setMeter ..).trans (closeLowMark ..)).trans (closeDonate ..)).trans (closeRefill ..)).trans (setMeter ..)

theorem closeHold (k : Port) (i : Installed) (s : State) : MeterOnly k s (closeHold k i s) :=
  of_ite ((setPort ..).trans (submit ..)) (setPort ..)

/-- Steps 1 to 7 of a close, before the close signal (R36). -/
theorem closeUpTo7 (k : Port) (i : Installed) (s : State) :
    MeterOnly k s (Machine.closeHold k i (Machine.evaluate k (Machine.closeUpTo5 k i s))) :=
  ((closeUpTo5 ..).trans (evaluate ..)).trans (closeHold ..)

theorem takeRequest (k : Port) (r : Request) (s : State) : MeterOnly k s (takeRequest k r s) :=
  of_ite ((setPort ..).trans (evaluate ..)) (setPort ..)

theorem takeAnswer (k : Port) (a : ClaimAnswer) (s : State) : MeterOnly k s (takeAnswer k a s) := by
  unfold Machine.takeAnswer
  dsimp only
  split
  · split
    · split <;> exact (setMeter ..).trans (applyEvaluated ..)
    · exact (setMeter ..).trans (evaluate ..)
  · exact (setMeter ..).trans (evaluate ..)

theorem countCompletion (k : Port) (status : AnswerStatus) (latency : Nat) (s : State) :
    MeterOnly k s (countCompletion k status latency s) :=
  of_ite (setMeter ..) (refl ..)

theorem countTimeout (k : Port) (s : State) : MeterOnly k s (countTimeout k s) := of_ite (setMeter ..) (refl ..)

end MeterOnly

/-! ## The load of a port -/

/-- An operation leaves the load of port `k`, its flag and the pending list. -/
structure LoadKept (k : Port) (s t : State) : Prop where
  load : (t.port k).load = (s.port k).load
  flag : (t.port k).controller.loadInFlight = (s.port k).controller.loadInFlight
  list : t.internalList = s.internalList

theorem LoadKept.refl (k : Port) (s : State) : LoadKept k s s := ⟨rfl, rfl, rfl⟩

theorem LoadKept.trans {k : Port} {s t u : State} (h : LoadKept k s t) (h' : LoadKept k t u) : LoadKept k s u :=
  ⟨h'.load.trans h.load, h'.flag.trans h.flag, h'.list.trans h.list⟩

theorem MeterOnly.loadKept {k : Port} {s t : State} (h : MeterOnly k s t) : LoadKept k s t :=
  ⟨h.load, by rw [h.controller], h.list⟩

theorem LoadKept.setController (k : Port) (s : State) (c : Controller)
    (h : c.loadInFlight = (s.port k).controller.loadInFlight) : LoadKept k s (s.setController k c) :=
  ⟨by rw [State.setController_port_same], by rw [State.setController_port_same]; exact h, rfl⟩

theorem LoadKept.judgeDrain (k : Port) (s : State) : LoadKept k s (judgeDrain k s) := by
  unfold Machine.judgeDrain
  split
  · exact ⟨by simp [drainDone], by simp [drainDone], rfl⟩
  · exact refl ..

theorem LoadKept.portReset (k : Port) (s : State) :
    LoadKept k (s.setTable (orphanWhere (fun o => o.portOf == some k) s.table)) (portReset k s) := by
  refine LoadKept.trans ⟨?_, ?_, ?_⟩ (judgeDrain k _)
  · simp
  · simp
  · simp

theorem LoadKept.quiescePort (k : Port) (s : State) : LoadKept k s (quiescePort k s) :=
  (((MeterOnly.stopMeter k s).loadKept.trans (setController _ _ _ (by rfl))).trans
    (MeterOnly.massAdmit ..).loadKept).trans (judgeDrain ..)

theorem LoadKept.resumePort (k : Port) (s : State) : LoadKept k s (resumePort k s) := by
  unfold Machine.resumePort
  split
  · exact (setController k s _ (by rfl)).trans ((MeterOnly.startWindow ..).trans (MeterOnly.evaluate ..)).loadKept
  · exact (setController k s _ (by rfl)).trans (MeterOnly.massAdmit ..).loadKept

/-- An operation of port `k` after which that port has no load. -/
structure LoadOver (k : Port) (s t : State) : Prop where
  load : (t.port k).load = none
  flag : (t.port k).controller.loadInFlight = false
  list : t.internalList = s.internalList

theorem LoadOver.endLoad (k : Port) (s : State) : LoadOver k s (endLoad k s) :=
  ⟨by rw [endLoad_port], by rw [endLoad_port], rfl⟩

theorem LoadKept.ended {k : Port} {s t u : State} (h : LoadKept k s t) (h' : LoadOver k t u) : LoadOver k s u :=
  ⟨h'.load, h'.flag, h'.list.trans h.list⟩

theorem LoadOver.kept {k : Port} {s t u : State} (h : LoadOver k s t) (h' : LoadKept k t u) : LoadOver k s u :=
  ⟨h'.load.trans h.load, h'.flag.trans h.flag, h'.list.trans h.list⟩

theorem LoadKept.submit (k : Port) (s : State) (n : Notice) : LoadKept k s (s.submit n) := ⟨rfl, rfl, rfl⟩

/-- The early end and the install that follows, up to the end of the load. -/
theorem LoadKept.install (k : Port) (i : Installed) (c c' : Controller) (s : State)
    (h : c.loadInFlight = ((earlyEnd k s).port k).controller.loadInFlight)
    (h' : c'.loadInFlight = c.loadInFlight) :
    LoadKept k s ((installProfile k i ((earlyEnd k s).setController k c)).setController k c') := by
  have installed := MeterOnly.installProfile k i ((earlyEnd k s).setController k c)
  refine (((MeterOnly.earlyEnd k s).loadKept.trans (setController k _ c h)).trans installed.loadKept).trans
    (setController k _ c' ?_)
  rw [h', installed.controller, State.setController_port_same]

theorem LoadOver.installFromTable (k : Port) (index : Byte) (p : Profile) (s : State) :
    LoadOver k s (installFromTable k index p s) := by
  have kept (c : Controller) (h : c = ((earlyEnd k s).port k).controller) :=
    LoadKept.install k ⟨p, index, .table⟩ { c with fallbackInUse := false }
      { (((installProfile k ⟨p, index, .table⟩ ((earlyEnd k s).setController k { c with
        fallbackInUse := false })).port k).controller.loadDwell p.dwell) with portState := .active } s
      (by rw [h]) (by
        rw [(MeterOnly.installProfile ..).controller, State.setController_port_same]
        rfl)
  have ended := (kept _ rfl).ended (LoadOver.endLoad ..)
  unfold Machine.installFromTable
  dsimp only
  split
  · exact ended.kept (LoadKept.submit ..)
  · exact ended

theorem LoadOver.installFallback (k : Port) (index : Byte) (reason : FaultReason) (s : State) :
    LoadOver k s (installFallback k index reason s) := by
  refine (LoadKept.ended ?_ (LoadOver.endLoad ..)).kept (LoadKept.submit ..)
  refine LoadKept.install k _ _ _ s rfl ?_
  rw [(MeterOnly.installProfile ..).controller, State.setController_port_same]

theorem LoadOver.keepRegime (k : Port) (reason : FaultReason) (s : State) :
    LoadOver k s (keepRegime k reason s) := by
  unfold Machine.keepRegime
  dsimp only
  refine LoadOver.kept ?_ (LoadKept.submit ..)
  split
  · exact (endLoad k s).kept (LoadKept.setController _ _ _ (by rfl))
  · exact ((endLoad k s).kept (LoadKept.setController _ _ _ (by rfl))).kept (MeterOnly.massAdmit ..).loadKept

/-- R75, R82: the result of a load ends it, whatever it comes to. -/
theorem LoadOver.takeLoadResult {k : Port} {s : State} (result : LoadResult)
    (present : (s.port k).load.isSome = true) : LoadOver k s (takeLoadResult k result s) := by
  obtain ⟨ctx, present⟩ := Option.isSome_iff_exists.1 present
  unfold Machine.takeLoadResult
  rw [present]
  dsimp only
  split
  · exact endLoad ..
  · split
    · exact installFromTable ..
    · split
      · exact installFallback ..
      · exact keepRegime ..

/-! ## Loads accounted for -/

theorem loadsAccounted_iff (s : State) : LoadsAccounted s ↔ ∀ k,
    (s.port k).controller.loadInFlight = (s.port k).load.isSome ∧
      s.work (.load k) = if (s.port k).load.isSome then 1 else 0 := by
  simp only [LoadsAccounted, State.work_load]

theorem LoadsAccounted.congr {s t : State} (hs : LoadsAccounted s)
    (port : ∀ k, (t.port k).load = (s.port k).load ∧
      (t.port k).controller.loadInFlight = (s.port k).controller.loadInFlight)
    (work : ∀ k, t.work (.load k) = s.work (.load k)) : LoadsAccounted t := by
  rw [loadsAccounted_iff] at hs ⊢
  intro k
  rw [(port k).1, (port k).2, work k]
  exact hs k

/-- A change of the ports that keeps their loads. -/
theorem LoadsAccounted.ports {s t : State} (hs : LoadsAccounted s)
    (port : ∀ k, (t.port k).load = (s.port k).load ∧
      (t.port k).controller.loadInFlight = (s.port k).controller.loadInFlight)
    (list : t.internalList = s.internalList) (table : t.table = s.table) : LoadsAccounted t :=
  hs.congr port fun k => State.work_congr list table (.load k)

/-- A change of one port that keeps its load. -/
theorem LoadsAccounted.setPort {s : State} (hs : LoadsAccounted s) (k : Port) (b : PortBlock)
    (load : b.load = (s.port k).load) (flag : b.controller.loadInFlight = (s.port k).controller.loadInFlight) :
    LoadsAccounted (s.setPort k b) := by
  refine hs.ports (fun j => ?_) rfl rfl
  by_cases same : j = k
  · subst same
    rw [State.setPort_port_same]
    exact ⟨load, flag⟩
  · rw [State.setPort_port_ne _ same]
    exact ⟨rfl, rfl⟩

/-- An operation of a port that keeps its load. -/
theorem LoadsAccounted.kept {k : Port} {s t : State} (hs : LoadsAccounted s) (contained : Contained k s t)
    (kept : LoadKept k s t) : LoadsAccounted t := by
  refine hs.ports (fun j => ?_) kept.list contained.confined.table
  by_cases same : j = k
  · subst same
    exact ⟨kept.load, kept.flag⟩
  · rw [contained.confined.2 j same]
    exact ⟨rfl, rfl⟩

theorem LoadsAccounted.writer {s t : State} (hs : LoadsAccounted s) (h : WriterContained s t) :
    LoadsAccounted t :=
  hs.congr (fun k => by rw [h.port]; exact ⟨rfl, rfl⟩) h.work_load

theorem startLoad_work (k : Port) (index : Byte) (s : State) :
    (startLoad k index s).work (.load k) = s.work (.load k) + 1 := by
  have list : (startLoad k index s).internalList =
      s.internalList ++ [.load k (recordAddress s.tableBase index)] := rfl
  rw [State.work_join list rfl]
  simp [InternalItem.owner]

/-- R68: a load starts where none is in flight. -/
theorem LoadsAccounted.startLoad {s : State} (hs : LoadsAccounted s) (k : Port) (index : Byte)
    (free : (s.port k).controller.loadInFlight = false) : LoadsAccounted (startLoad k index s) := by
  rw [loadsAccounted_iff] at hs ⊢
  have contained := Contained.startLoad k index s
  intro j
  by_cases same : j = k
  · subst same
    have none_yet : s.work (.load j) = 0 := by
      rw [(hs j).2, ← (hs j).1, free]
      rfl
    rw [startLoad_work, none_yet]
    simp [Machine.startLoad]
  · rw [contained.confined.2 j same, contained.work_load_ne same]
    exact hs j

/-- A write to the table that leaves the work of every load. -/
theorem LoadsAccounted.table {s t : State} (hs : LoadsAccounted s) (ports : t.ports = s.ports)
    (work : ∀ k, t.work (.load k) = s.work (.load k)) : LoadsAccounted t :=
  hs.congr (fun k => by rw [State.port_def, ports, ← State.port_def]; exact ⟨rfl, rfl⟩) work

/-- A LIVE entry that is none of a load may go. -/
theorem LoadsAccounted.leave {s : State} (hs : LoadsAccounted s) {tag : Fin 64} {f : InFlight}
    (entry : s.table[tag.val] = some f) (live : f.state = .live) (other : ∀ k, f.owner ≠ .load k)
    {e : Option InFlight} (left : e = none ∨ e = some f.orphan) : LoadsAccounted (s.setEntry tag e) :=
  hs.table rfl fun k => by
    have counted := State.work_leave entry live left (.load k)
    rwa [if_neg (other k)] at counted

theorem LoadsAccounted.freeOrphan {s : State} (hs : LoadsAccounted s) {tag : Fin 64} {f : InFlight}
    (entry : s.table[tag.val] = some f) (orphan : f.state = .orphan) : LoadsAccounted (s.setEntry tag none) :=
  hs.table rfl fun k => State.work_freeOrphan entry orphan (.load k)

/-- R71: the entry of a load goes with its context. -/
theorem LoadsAccounted.endLoad {s : State} (hs : LoadsAccounted s) {tag : Fin 64} {f : InFlight} {k : Port}
    (entry : s.table[tag.val] = some f) (live : f.state = .live) (owner : f.owner = .load k)
    {e : Option InFlight} (left : e = none ∨ e = some f.orphan) (result : LoadResult) :
    LoadsAccounted (takeLoadResult k result (s.setEntry tag e)) := by
  rw [loadsAccounted_iff] at hs ⊢
  have counted := State.work_leave entry live left
  have contained := Contained.takeLoadResult k result (s.setEntry tag e)
  have present : (s.port k).load.isSome = true := by
    have one := counted (.load k)
    rw [if_pos owner, (hs k).2] at one
    by_contra absent
    rw [if_neg absent] at one
    omega
  have finished : LoadOver k (s.setEntry tag e) (takeLoadResult k result (s.setEntry tag e)) :=
    LoadOver.takeLoadResult result present
  intro j
  by_cases same : j = k
  · subst same
    have ended := counted (.load j)
    rw [if_pos owner, (hs j).2, if_pos present] at ended
    rw [finished.load, finished.flag, State.work_congr finished.list contained.confined.table]
    exact ⟨rfl, by simpa using ended⟩
  · have others := counted (.load j)
    rw [if_neg (by rw [owner]; simpa using Ne.symm same)] at others
    rw [contained.confined.2 j same, contained.work_load_ne same]
    exact ⟨(hs j).1, others.trans (hs j).2⟩

/-- R36, R85: a close starts a load only where none is in flight. -/
theorem LoadsAccounted.closeWindow {s : State} (hs : LoadsAccounted s) (k : Port) (i : Installed) :
    LoadsAccounted (closeWindow k i s) := by
  rw [closeWindow_steps]
  have upTo7 := hs.kept (Contained.closeUpTo7 k i s) (MeterOnly.closeUpTo7 k i s).loadKept
  refine LoadsAccounted.kept ?_ (Contained.submitReport ..) (MeterOnly.submitReport ..).loadKept
  generalize Machine.closeHold k i (evaluate k (closeUpTo5 k i s)) = u at upTo7
  unfold closeSignal
  dsimp only
  split
  · next signal =>
    have stopped := upTo7.kept (Contained.setController k u { (u.port k).controller with
      dwellRemaining := 0, dwellCounting := false }) (LoadKept.setController _ _ _ (by rfl))
    split
    · split
      · exact stopped.startLoad k _ (by rw [State.setController_port_same]; exact signal.2.1)
      · split
        · exact stopped.kept (Contained.submit k _ _) (LoadKept.submit ..)
        · exact stopped
    · exact upTo7.kept (Contained.setController ..) (LoadKept.setController _ _ _ (by rfl))
  · exact upTo7

theorem LoadsAccounted.empty {s : State} (port : ∀ k, (s.port k).load = none ∧
    (s.port k).controller.loadInFlight = false) (work : ∀ k, s.work (.load k) = 0) : LoadsAccounted s := by
  rw [loadsAccounted_iff]
  intro k
  rw [(port k).1, (port k).2, work k]
  exact ⟨rfl, rfl⟩

theorem softReset_port (s : State) (k : Port) : (softReset s).port k = softResetPort (s.port k) :=
  PerPort.get_map ..

theorem powerOn_port (mcsLow asserted : Bool) (s : State) (k : Port) :
    ({ powerOn mcsLow s with rstAsserted := asserted } : State).port k =
      PortBlock.reset (s.port k).resetAsserted :=
  PerPort.get_map ..

theorem CommandEffect.keeps_loadsAccounted {s t : State} (h : CommandEffect s t) (hs : LoadsAccounted s) :
    LoadsAccounted t := by
  cases h with
  | unchanged | poolLimit | timeout | tableBase | ringStopped | noticePopped | overflowCleared | irqSet =>
    exact hs.table rfl fun _ => rfl
  | fallbackSet k | fallbackCleared k => exact hs.setPort k _ rfl rfl
  | loadStarted k index _ free => exact hs.startLoad k index free
  | quiesced k => exact hs.kept (Contained.quiescePort k s) (LoadKept.quiescePort k s)
  | resumed k => exact hs.kept (Contained.resumePort k s) (LoadKept.resumePort k s)
  | ringStarted base size => exact hs.writer (WriterContained.startRing base size s)
  | acknowledged c => exact hs.writer (WriterContained.acknowledge c s)

/-- R68, R71, R109: an effect starts a load where none is in flight, moves it to the table, or ends it. -/
theorem Effect.keeps_loadsAccounted {c : Instr} {s t : State} (h : Effect c s t) (hs : LoadsAccounted s) :
    LoadsAccounted t := by
  cases h with
  | nothing | clock | memoryPortReady | shifted => exact hs.table rfl fun _ => rfl
  | inputFollowed k | portReleased k | donationTaken k | claimTaken k => exact hs.setPort k _ rfl rfl
  | powerReset mcsLow asserted =>
    refine LoadsAccounted.empty (fun k => ?_) fun k => State.work_empty rfl (State.liveOwned_empty rfl _)
    rw [powerOn_port]
    exact ⟨rfl, rfl⟩
  | softReset bits =>
    refine LoadsAccounted.empty (fun k => ?_) fun k => State.work_empty rfl ?_
    · rw [softReset_port]
      exact ⟨rfl, rfl⟩
    · have gone := s.liveOwned_orphanWhere_gone (p := fun o => o.portOf.isNone) (o := .load k) rfl
      exact (State.liveOwned_congr rfl _).trans gone
  | request k r => exact hs.kept (Contained.takeRequest k r s) (MeterOnly.takeRequest k r s).loadKept
  | portReset k =>
    have orphaned := hs.table (State.setTable_ports s _) fun j =>
      s.work_orphanWhere_kept (p := fun o => o.portOf == some k) (o := .load j) rfl
    exact orphaned.kept (portReset_contained k s) (LoadKept.portReset k s)
  | windowClosed k i => exact hs.closeWindow k i
  | answerTaken k answer rest =>
    have taken := hs.setPort k { s.port k with answers := rest } rfl rfl
    exact taken.kept (Contained.takeAnswer k answer _) (MeterOnly.takeAnswer ..).loadKept
  | reportTaken k r rest =>
    have taken := hs.setPort k { s.port k with toWriter := rest } rfl rfl
    exact taken.writer (WriterContained.takeReport r _)
  | internalGranted item rest tag oldest free =>
    exact hs.table (by rw [grantInternal_eq oldest free]) fun k => State.work_grantInternal oldest free _
  | portGranted k e rest tag queue _ _ free =>
    have departed := hs.setPort k (s.port k).departed rfl rfl
    refine departed.table (by rw [grantPort_eq queue free]) fun j => ?_
    rw [State.work_grantPort queue free rfl]
    exact State.work_congr rfl rfl _
  | orphanFreed tag f entry orphan => exact hs.freeOrphan entry orphan
  | portOrphanFreed tag f k entry orphan =>
    exact (hs.freeOrphan entry orphan).kept (Contained.judgeDrain k _) (LoadKept.judgeDrain k _)
  | answered tag f k rtag status data entry live owner =>
    have freed := (hs.leave entry live (by simp [owner]) (.inl rfl)).table
      (t := (s.emit (.completion k rtag (completionStatus status) (if f.kind = .read then data else
        []))).setEntry tag none) rfl fun _ => rfl
    rw [answerPort_eq]
    exact (freed.kept (Contained.countCompletion ..) (MeterOnly.countCompletion ..).loadKept).kept
      (Contained.judgeDrain k _) (LoadKept.judgeDrain k _)
  | timedOut tag f k rtag entry live owner =>
    have left := (hs.leave entry live (by simp [owner]) (.inr rfl)).table
      (t := (s.setEntry tag (some f.orphan)).emit (.completion k rtag .timeout
        (if f.kind = .read then List.replicate f.beats 0 else []))) rfl fun _ => rfl
    exact ((left.kept (Contained.countTimeout ..) (MeterOnly.countTimeout ..).loadKept).kept
      (Contained.submit k _ _) (LoadKept.submit ..)).kept (Contained.judgeDrain k _) (LoadKept.judgeDrain k _)
  | loadEnded tag f k e result entry live owner left => exact hs.endLoad entry live owner left result
  | written tag f entry live owner =>
    exact (hs.leave entry live (by simp [owner]) (.inl rfl)).writer (WriterContained.writeSucceeded _)
  | writeFaulted tag f e reason entry live owner left =>
    exact (hs.leave entry live (by simp [owner]) left).writer (WriterContained.writeFailed reason _)
  | commanded bits status data owner =>
    exact (owner.keeps_loadsAccounted (hs.table rfl fun _ => rfl)).table rfl fun _ => rfl

theorem LoadsAccounted.tick {s : State} (hs : LoadsAccounted s) : LoadsAccounted (tick s) := by
  refine hs.ports (fun k => ?_) rfl rfl
  rw [tick_port, PortBlock.tick_eq]
  exact ⟨rfl, rfl⟩

/-- Settles O10: each effect keeps every load accounted for, and the timebase touches none. -/
theorem everyStepKeepsTheLoadsAccounted : Obligations.EveryStepKeepsTheLoadsAccounted := fun _ _ =>
  step_keeps (fun _ hs => hs.tick) (fun _ _ _ hs => hs.table rfl fun _ => rfl) fun _ _ _ e hs =>
    e.keeps_loadsAccounted hs

end Sys2Proof.Machine
end

