-- ==== Sys2Proof/Proofs/WriterInvariant.lean ====
section
/-! PROOF. The report writer: its queue, indices and flags, and the one write it may have in flight (R147 to
R156), kept by every step. -/

namespace Sys2Proof.Machine

open Sys2Proof

/-! ## Occupancy (R147) -/

theorem ringSize_le {n : Nat} (h : n = 0 ∨ n ∈ ringSizes) : n ≤ 4096 := by
  rcases h with rfl | h
  · exact Nat.zero_le _
  · revert n
    decide

/-- The producer index raised by one, below the size of the ring. -/
theorem occupancy_succ (producer consumer : BitVec 16) {n : Nat} (small : n ≤ 4096)
    (room : (producer - consumer).toNat < n) :
    (producer + 1 - consumer).toNat = (producer - consumer).toNat + 1 := by
  bv_omega

/-- R160: an acknowledgement within the occupancy does not raise it. -/
theorem occupancy_ack (producer consumer c : BitVec 16)
    (inside : (c - consumer).toNat ≤ (producer - consumer).toNat) :
    (producer - c).toNat ≤ (producer - consumer).toNat := by
  bv_omega

theorem ReportWriter.full_iff (w : ReportWriter) : w.full = true ↔ w.size ≤ w.occupancy := decide_eq_true_iff

/-! ## A writer whose parts agree -/

/-- The agreements of the writer's own fields, but for those of a record that waits (R147 to R156). -/
structure ReportWriter.Steady (w : ReportWriter) : Prop where
  queue   : w.queue.length ≤ 8
  size    : w.size = 0 ∨ w.size ∈ ringSizes
  running : w.ring = .run → w.size ≠ 0
  room    : w.occupancy ≤ w.size
  writing : w.writeInFlight = true → w.occupancy < w.size
  stopped : w.ring ≠ .run → w.queue = []
  halted  : w.ring = .halt → w.writeInFlight = false
  head    : w.ring = .run → w.writeInFlight = true → w.queue ≠ []
  episode : w.fullEpisode = true → w.full = true ∧ w.ring = .run ∧ w.writeInFlight = false
  gaps    : ∀ k, w.gapCount.get k ≤ 255

/-- A record that waits does so on a full ring whose episode is announced (R152). -/
def ReportWriter.Waits (w : ReportWriter) : Prop :=
  w.ring = .run → w.writeInFlight = false → w.queue ≠ [] → w.full = true ∧ w.fullEpisode = true

/-- A write in flight is the one report item of the internal requester (R109). -/
def WriteAccounted (s : State) : Prop := s.work .report = if s.writer.writeInFlight then 1 else 0

theorem writerSound_iff (s : State) : WriterSound s ↔ s.writer.Steady ∧ s.writer.Waits ∧ WriteAccounted s := by
  unfold WriteAccounted
  rw [← State.work_report]
  constructor
  · intro h
    exact ⟨⟨h.queue, h.size, h.running, h.room, h.writing, h.stopped, h.halted, h.head, h.episode, h.gaps⟩,
      h.waiting, h.account⟩
  · rintro ⟨h, waiting, account⟩
    exact ⟨h.queue, h.size, h.running, h.room, h.writing, h.stopped, h.halted, h.head, waiting, h.episode,
      h.gaps, account⟩

theorem WriterSound.congr {s t : State} (hs : WriterSound s) (writer : t.writer = s.writer)
    (work : t.work .report = s.work .report) : WriterSound t := by
  rw [writerSound_iff] at hs ⊢
  unfold WriteAccounted at hs ⊢
  rw [writer, work]
  exact hs

theorem ReportWriter.reset_steady : ReportWriter.reset.Steady where
  queue := Nat.zero_le _
  size := .inl rfl
  running := fun h => by cases h
  room := Nat.le_refl 0
  writing := fun h => by cases h
  stopped := fun _ => rfl
  halted := fun _ => rfl
  head := fun h => by cases h
  episode := fun h => by cases h
  gaps := fun k => by simp [ReportWriter.reset]

theorem WriterSound.reset {s : State} (writer : s.writer = ReportWriter.reset) (work : s.work .report = 0) :
    WriterSound s := by
  rw [writerSound_iff]
  unfold WriteAccounted
  rw [writer, work]
  exact ⟨ReportWriter.reset_steady, fun running => (by cases running), rfl⟩

/-! ## The judgement of R152 -/

theorem ReportWriter.Steady.starting {w : ReportWriter} (h : w.Steady) (running : w.ring = .run)
    (room : w.full = false) (waiting : w.queue ≠ []) : { w with writeInFlight := true }.Steady where
  queue := h.queue
  size := h.size
  running := h.running
  room := h.room
  writing := fun _ => Nat.lt_of_not_le fun full => by
    rw [(w.full_iff).2 full] at room
    cases room
  stopped := h.stopped
  halted := fun halted => by rw [show _ = _ from halted] at running; cases running
  head := fun _ _ => waiting
  episode := fun episode => by
    have full := (h.episode episode).1
    rw [room] at full
    cases full
  gaps := h.gaps

theorem ReportWriter.Steady.announced {w : ReportWriter} (h : w.Steady) (running : w.ring = .run)
    (full : w.full = true) (idle : w.writeInFlight = false) : { w with fullEpisode := true }.Steady :=
  { h with episode := fun _ => ⟨full, running, idle⟩ }

/-- R152, R153: a judgement leaves the writer sound, whatever waited before it. -/
theorem judgeWrite_sound {s : State} (steady : s.writer.Steady) (account : WriteAccounted s) :
    WriterSound (judgeWrite s) := by
  rw [writerSound_iff]
  by_cases still : s.writer.ring ≠ .run ∨ s.writer.writeInFlight = true ∨ s.writer.queue = []
  · rw [judgeWrite_still s still]
    refine ⟨steady, fun running idle waiting => ?_, account⟩
    rcases still with other | writing | empty
    · exact absurd running other
    · rw [idle] at writing
      cases writing
    · exact absurd empty waiting
  · obtain ⟨running, idle, waiting⟩ : s.writer.ring = .run ∧ s.writer.writeInFlight = false ∧
        s.writer.queue ≠ [] := by simpa using still
    obtain ⟨r, rest, queue⟩ := List.exists_cons_of_ne_nil waiting
    cases full : s.writer.full with
    | true =>
      rw [judgeWrite_full s r rest running idle queue full]
      exact ⟨steady.announced running full idle, fun _ _ _ => ⟨full, rfl⟩, account⟩
    | false =>
      rw [judgeWrite_room s r rest running idle queue full]
      refine ⟨steady.starting running full waiting, fun _ writing => (by cases writing), ?_⟩
      have none_yet : s.work .report = 0 := by
        rw [account, idle]
        rfl
      have list : ((s.setWriter { s.writer with writeInFlight := true }).joinInternal
          (.report s.writer.slotAddress (beatsOfReport r))).internalList =
          s.internalList ++ [.report s.writer.slotAddress (beatsOfReport r)] := rfl
      rw [WriteAccounted, State.work_join list rfl, none_yet]
      simp [InternalItem.owner]

/-! ## Submissions (R149, R150) -/

theorem gapCount_set_le {g : PerPort Nat} (h : ∀ k, g.get k ≤ 255) (j : Port) {n : Nat} (small : n ≤ 255)
    (k : Port) : (g.set j n).get k ≤ 255 := by
  by_cases same : k = j
  · rw [same, PerPort.get_set_same]
    exact small
  · rw [PerPort.get_set_ne _ same]
    exact h k

theorem countGap_le {g : PerPort Nat} (h : ∀ k, g.get k ≤ 255) (j k : Port) : (countGap g j).get k ≤ 255 :=
  gapCount_set_le h j (Nat.min_le_right _ _) k

/-- The writer with a submission queued, the gap count of its port carried away (R149). -/
def ReportWriter.queued (w : ReportWriter) (r : Report) : ReportWriter :=
  { w with
    queue := w.queue ++ [{ r with gapCount := w.gapCount.get r.port }]
    gapCount := w.gapCount.set r.port 0 }

theorem takeReport_stopped (r : Report) {s : State} (stopped : s.writer.ring ≠ .run) : takeReport r s = s := by
  unfold takeReport
  cases ring : s.writer.ring with
  | run => exact absurd ring stopped
  | off => simp only [ring]
  | halt => simp only [ring]

theorem takeReport_lost (r : Report) {s : State} (running : s.writer.ring = .run)
    (full : 8 ≤ s.writer.queue.length) :
    takeReport r s = s.setWriter { s.writer with gapCount := countGap s.writer.gapCount r.port } := by
  unfold takeReport
  simp only [running]
  rw [if_neg (by omega)]

theorem takeReport_queued (r : Report) {s : State} (running : s.writer.ring = .run)
    (room : s.writer.queue.length < 8) :
    takeReport r s = if s.writer.queue = [] then judgeWrite (s.setWriter (s.writer.queued r))
      else s.setWriter (s.writer.queued r) := by
  unfold takeReport ReportWriter.queued
  simp only [running]
  rw [if_pos room]

theorem ReportWriter.Steady.queued {w : ReportWriter} (h : w.Steady) (running : w.ring = .run)
    (room : w.queue.length < 8) (r : Report) : (w.queued r).Steady where
  queue := by
    simp only [ReportWriter.queued, List.length_append, List.length_singleton]
    omega
  size := h.size
  running := h.running
  room := h.room
  writing := h.writing
  stopped := fun other => absurd running other
  halted := h.halted
  head := fun _ _ => by simp [ReportWriter.queued]
  episode := h.episode
  gaps := gapCount_set_le h.gaps r.port (Nat.zero_le _)

theorem ReportWriter.Steady.lost {w : ReportWriter} (h : w.Steady) (r : Report) :
    { w with gapCount := countGap w.gapCount r.port }.Steady :=
  { h with gaps := countGap_le h.gaps r.port }

theorem WriterSound.takeReport {s : State} (hs : WriterSound s) (r : Report) : WriterSound (takeReport r s) := by
  obtain ⟨steady, waits, account⟩ := (writerSound_iff s).1 hs
  by_cases running : s.writer.ring = .run
  · rcases Nat.lt_or_ge s.writer.queue.length 8 with room | full
    · rw [takeReport_queued r running room]
      split
      · exact judgeWrite_sound (steady.queued running room r) account
      · next waiting =>
        rw [writerSound_iff]
        exact ⟨steady.queued running room r, fun running idle _ => waits running idle waiting, account⟩
    · rw [takeReport_lost r running full, writerSound_iff]
      exact ⟨steady.lost r, waits, account⟩
  · rw [takeReport_stopped r running]
    exact hs

/-! ## The result of a write (R154, R156) -/

/-- A LIVE entry of a report is that of the write in flight, and with it the work is gone. -/
theorem WriterSound.leave {s : State} (hs : WriterSound s) {tag : Fin 64} {f : InFlight}
    (entry : s.table[tag.val] = some f) (live : f.state = .live) (owner : f.owner = .report)
    {e : Option InFlight} (left : e = none ∨ e = some f.orphan) :
    s.writer.writeInFlight = true ∧ (s.setEntry tag e).work .report = 0 := by
  obtain ⟨-, -, account⟩ := (writerSound_iff s).1 hs
  have counted := State.work_leave entry live left .report
  rw [if_pos owner, account] at counted
  cases writing : s.writer.writeInFlight with
  | true =>
    rw [writing] at counted
    exact ⟨rfl, by simpa using counted⟩
  | false =>
    rw [writing] at counted
    simp at counted

theorem ReportWriter.Steady.advanced {w : ReportWriter} (h : w.Steady) (writing : w.writeInFlight = true)
    (queue : List Report) (short : queue.length ≤ 8) (stopped : w.ring ≠ .run → queue = []) :
    (w.advanced queue).Steady where
  queue := short
  size := h.size
  running := h.running
  room := by
    have room := h.writing writing
    have next := occupancy_succ w.producer w.consumer (ringSize_le h.size) room
    unfold ReportWriter.occupancy at room
    show (w.producer + 1 - w.consumer).toNat ≤ w.size
    omega
  writing := fun idle => by cases idle
  stopped := stopped
  halted := fun _ => rfl
  head := fun _ idle => by cases idle
  episode := fun episode => by
    have idle := (h.episode episode).2.2
    rw [writing] at idle
    cases idle
  gaps := h.gaps

/-- R154: the OK result of the write in flight. -/
theorem WriterSound.writeSucceeded {s : State} (hs : WriterSound s) {tag : Fin 64} {f : InFlight}
    (entry : s.table[tag.val] = some f) (live : f.state = .live) (owner : f.owner = .report) :
    WriterSound (writeSucceeded (s.setEntry tag none)) := by
  obtain ⟨steady, -, -⟩ := (writerSound_iff s).1 hs
  obtain ⟨writing, work⟩ := hs.leave entry live owner (.inl rfl)
  by_cases running : s.writer.ring = .run
  · rw [writeSucceeded_run (s.setEntry tag none) running]
    have short : s.writer.queue.tail.length ≤ 8 := by
      have := steady.queue
      rw [List.length_tail]
      omega
    exact judgeWrite_sound (steady.advanced writing s.writer.queue.tail short fun other => absurd running other)
      work
  · rw [writeSucceeded_off (s.setEntry tag none) running, writerSound_iff]
    exact ⟨steady.advanced writing s.writer.queue steady.queue steady.stopped,
      fun other => absurd other running, work⟩

/-- R156: a fault of the write in flight halts the ring and empties the queue into the gap counts. -/
theorem WriterSound.writeFailed {s : State} (hs : WriterSound s) {tag : Fin 64} {f : InFlight}
    (entry : s.table[tag.val] = some f) (live : f.state = .live) (owner : f.owner = .report)
    {e : Option InFlight} (left : e = none ∨ e = some f.orphan) (cause : FaultReason) :
    WriterSound (writeFailed cause (s.setEntry tag e)) := by
  obtain ⟨steady, -, -⟩ := (writerSound_iff s).1 hs
  obtain ⟨-, work⟩ := hs.leave entry live owner left
  rw [writerSound_iff]
  refine ⟨?_, fun running => (by cases running), work⟩
  exact
    { queue := Nat.zero_le _
      size := steady.size
      running := fun running => by cases running
      room := steady.room
      writing := fun writing => by cases writing
      stopped := fun _ => rfl
      halted := fun _ => rfl
      head := fun running => by cases running
      episode := fun episode => by cases episode
      gaps := fun k => by
        rw [writeFailed_gapCount, State.setEntry_writer, foldl_countGap_get _ _ k (steady.gaps k)]
        exact Nat.min_le_right _ _ }

/-! ## The commands of the ring (R158 to R160) -/

theorem WriterSound.startRing {s : State} (hs : WriterSound s) {base size : Nat}
    (idle : s.writer.writeInFlight = false) (checked : ringArgsOk base size = true) :
    WriterSound (startRing base size s) := by
  obtain ⟨steady, -, account⟩ := (writerSound_iff s).1 hs
  obtain ⟨-, listed, -⟩ := (ringArgsOk_iff base size).1 checked
  refine judgeWrite_sound ?_ account
  exact
    { queue := steady.queue
      size := .inr listed
      running := fun _ none => by
        have none : size = 0 := none
        rw [none] at listed
        revert listed
        decide
      room := by
        show ((0 : BitVec 16) - 0).toNat ≤ size
        simp
      writing := fun writing => by
        have writing : s.writer.writeInFlight = true := writing
        rw [idle] at writing
        cases writing
      stopped := fun other => absurd rfl other
      halted := fun _ => idle
      head := fun _ writing => by
        have writing : s.writer.writeInFlight = true := writing
        rw [idle] at writing
        cases writing
      episode := fun episode => by cases episode
      gaps := fun k => by simp }

theorem ReportWriter.Steady.ringOff {w : ReportWriter} (h : w.Steady) :
    { w with ring := .off, queue := [], fullEpisode := false }.Steady where
  queue := Nat.zero_le _
  size := h.size
  running := fun running => by cases running
  room := h.room
  writing := h.writing
  stopped := fun _ => rfl
  halted := fun halted => by cases halted
  head := fun running => by cases running
  episode := fun episode => by cases episode
  gaps := h.gaps

theorem ReportWriter.Steady.acked {w : ReportWriter} (h : w.Steady) {c : BitVec 16} (checked : w.ackOk c = true) :
    (w.acked c).Steady := by
  have lower : (w.acked c).occupancy ≤ w.occupancy :=
    occupancy_ack w.producer w.consumer c ((w.ackOk_iff c).1 checked)
  refine ⟨h.queue, h.size, h.running, lower.trans h.room, fun writing => lower.trans_lt (h.writing writing),
    h.stopped, h.halted, h.head, fun episode => ?_, h.gaps⟩
  simp only [ReportWriter.acked] at episode
  split at episode
  · next full =>
    obtain ⟨-, running, idle⟩ := h.episode episode
    exact ⟨full, running, idle⟩
  · cases episode

theorem WriterSound.acknowledge {s : State} (hs : WriterSound s) {c : BitVec 16}
    (checked : s.writer.ackOk c = true) : WriterSound (acknowledge c s) := by
  obtain ⟨steady, -, account⟩ := (writerSound_iff s).1 hs
  rw [acknowledge_eq]
  exact judgeWrite_sound (steady.acked checked) account

/-! ## Every effect -/

theorem WriterSound.contained {k : Port} {s t : State} (hs : WriterSound s) (h : Contained k s t) :
    WriterSound t :=
  hs.congr h.confined.writer h.work_report

/-- A LIVE entry that is none of a report may go. -/
theorem WriterSound.leave_other {s : State} (hs : WriterSound s) {tag : Fin 64} {f : InFlight}
    (entry : s.table[tag.val] = some f) (live : f.state = .live) (other : f.owner ≠ .report)
    {e : Option InFlight} (left : e = none ∨ e = some f.orphan) : WriterSound (s.setEntry tag e) := by
  have counted := State.work_leave entry live left .report
  rw [if_neg other] at counted
  exact hs.congr rfl counted

theorem WriterSound.freeOrphan {s : State} (hs : WriterSound s) {tag : Fin 64} {f : InFlight}
    (entry : s.table[tag.val] = some f) (orphan : f.state = .orphan) : WriterSound (s.setEntry tag none) :=
  hs.congr rfl (State.work_freeOrphan entry orphan .report)

theorem CommandEffect.keeps_writerSound {s t : State} (h : CommandEffect s t) (hs : WriterSound s) :
    WriterSound t := by
  cases h with
  | unchanged | poolLimit | timeout | tableBase | fallbackSet | fallbackCleared | noticePopped
  | overflowCleared | irqSet => exact hs.congr rfl rfl
  | loadStarted k index => exact hs.contained (Contained.startLoad k index s)
  | quiesced k => exact hs.contained (Contained.quiescePort k s)
  | resumed k => exact hs.contained (Contained.resumePort k s)
  | ringStarted base size _ idle checked => exact hs.startRing idle checked
  | ringStopped =>
    obtain ⟨steady, -, account⟩ := (writerSound_iff s).1 hs
    rw [writerSound_iff]
    exact ⟨steady.ringOff, fun running => (by cases running), account⟩
  | acknowledged c checked => exact hs.acknowledge checked

/-- R147 to R156: an effect of a port leaves the writer alone; the writer's own keep it sound. -/
theorem Effect.keeps_writerSound {c : Instr} {s t : State} (h : Effect c s t) (hs : WriterSound s) :
    WriterSound t := by
  cases h with
  | nothing | inputFollowed | portReleased | clock | donationTaken | claimTaken | memoryPortReady
  | shifted => exact hs.congr rfl rfl
  | powerReset => exact WriterSound.reset rfl (State.work_empty rfl (State.liveOwned_empty rfl _))
  | softReset bits =>
    have gone := s.liveOwned_orphanWhere_gone (p := fun o => o.portOf.isNone) (o := .report) rfl
    exact WriterSound.reset rfl (State.work_empty rfl ((State.liveOwned_congr rfl _).trans gone))
  | request k r => exact hs.contained (Contained.takeRequest k r s)
  | portReset k =>
    have orphaned := hs.congr (State.setTable_writer s _)
      (s.work_orphanWhere_kept (p := fun o => o.portOf == some k) (o := .report) rfl)
    exact orphaned.contained (portReset_contained k s)
  | windowClosed k i => exact hs.contained (Contained.closeWindow k i s)
  | answerTaken k answer rest =>
    have taken := hs.contained (Contained.setPort k s { s.port k with answers := rest })
    exact taken.contained (Contained.takeAnswer k answer _)
  | reportTaken k r rest =>
    have taken := hs.contained (Contained.setPort k s { s.port k with toWriter := rest })
    exact taken.takeReport r
  | internalGranted item rest tag oldest free =>
    exact hs.congr (by rw [grantInternal_eq oldest free]) (State.work_grantInternal oldest free _)
  | portGranted k e rest tag queue _ _ free =>
    exact hs.congr (by rw [grantPort_eq queue free]; rfl) (State.work_grantPort queue free rfl)
  | orphanFreed tag f entry orphan => exact hs.freeOrphan entry orphan
  | portOrphanFreed tag f k entry orphan =>
    exact (hs.freeOrphan entry orphan).contained (Contained.judgeDrain k _)
  | answered tag f k rtag status data entry live owner =>
    have freed := hs.leave_other entry live (by simp [owner]) (.inl rfl)
    have emitted := freed.congr (t := (s.emit (.completion k rtag (completionStatus status)
      (if f.kind = .read then data else []))).setEntry tag none) rfl rfl
    exact emitted.contained (answerPort_contained k rtag tag f status data s)
  | timedOut tag f k rtag entry live owner =>
    have orphaned := hs.leave_other entry live (by simp [owner]) (.inr rfl)
    have emitted := orphaned.congr (t := (s.setEntry tag (some f.orphan)).emit (.completion k rtag .timeout
      (if f.kind = .read then List.replicate f.beats 0 else []))) rfl rfl
    exact emitted.contained (deadlinePort_contained k rtag tag f s)
  | loadEnded tag f k e result entry live owner left =>
    exact (hs.leave_other entry live (by simp [owner]) left).contained (Contained.takeLoadResult k result _)
  | written tag f entry live owner => exact hs.writeSucceeded entry live owner
  | writeFaulted tag f e reason entry live owner left => exact hs.writeFailed entry live owner left reason
  | commanded bits status data owner =>
    have kept := owner.keeps_writerSound (hs.congr rfl rfl)
    exact kept.congr rfl rfl

/-- Settles O12: each effect keeps the writer sound, and the timebase leaves it alone. -/
theorem everyStepKeepsTheWriterSound : Obligations.EveryStepKeepsTheWriterSound := fun _ _ =>
  step_keeps (fun _ hs => hs.congr rfl rfl) (fun _ _ _ hs => hs.congr rfl rfl) fun _ _ _ e hs =>
    e.keeps_writerSound hs

end Sys2Proof.Machine
end

