-- ==== Sys2Proof/Proofs/MeterInvariant.lean ====
section
/-! PROOF. The meters: profiles in range, allowances within their profiles and counters within their maxima (R23,
R34, R62), kept by every step. -/

namespace Sys2Proof.Machine

open Sys2Proof

/-! ## The meter of a sound port -/

/-- R23, R34, R62: the ranges of one meter. -/
structure Meter.Fits (m : Meter) : Prop where
  profile   : ∀ i, m.installed = some i → ProfileInRange i.profile
  source    : ∀ i, m.installed = some i → i.source ≠ .noSource
  used      : ∀ i, m.installed = some i → i.profile.mode = .cap → m.used ≤ i.profile.budget
  credit    : ∀ i, m.installed = some i → i.profile.mode = .bucket → m.credit ≤ i.profile.ceiling
  remaining : m.timeRemaining ≤ 65535
  counters  : CountersBounded m.counters
  snapshot  : CountersBounded m.snapshot.counters

/-- A valid fallback is in range (R74). -/
def Fallback.Fits (f : Fallback) : Prop := f.valid = true → ProfileInRange f.fields

theorem meterSound_iff (b : PortBlock) : MeterSound b ↔ b.fallback.Fits ∧ b.meter.Fits := by
  constructor
  · intro h
    exact ⟨h.fallback, h.profile, h.source, h.used, h.credit, h.remaining, h.counters, h.snapshot⟩
  · rintro ⟨fallback, h⟩
    exact ⟨fallback, h.profile, h.source, h.used, h.credit, h.remaining, h.counters, h.snapshot⟩

/-- The ranges speak of six fields of the meter. -/
theorem Meter.Fits.congr {m n : Meter} (h : m.Fits) (installed : n.installed = m.installed)
    (used : n.used = m.used) (credit : n.credit = m.credit) (remaining : n.timeRemaining = m.timeRemaining)
    (counters : n.counters = m.counters) (snapshot : n.snapshot = m.snapshot) : n.Fits := by
  obtain ⟨h1, h2, h3, h4, h5, h6, h7⟩ := h
  refine ⟨?_, ?_, ?_, ?_, ?_, ?_, ?_⟩
  · rwa [installed]
  · rwa [installed]
  · rwa [installed, used]
  · rwa [installed, credit]
  · rwa [remaining]
  · rwa [counters]
  · rwa [snapshot]

theorem Meter.Fits.staleClaim {m : Meter} (h : m.Fits) : m.staleClaim.Fits := h.congr rfl rfl rfl rfl rfl rfl

theorem Meter.Fits.withCounters {m : Meter} (h : m.Fits) {c : Counters} (bounded : CountersBounded c) :
    { m with counters := c }.Fits := { h with counters := bounded }

theorem countersBounded_zero : CountersBounded Counters.zero := by
  constructor <;> exact Nat.zero_le _

theorem Meter.reset_fits : Meter.reset.Fits where
  profile := fun _ none => by cases none
  source := fun _ none => by cases none
  used := fun _ none => by cases none
  credit := fun _ none => by cases none
  remaining := Nat.zero_le _
  counters := countersBounded_zero
  snapshot := countersBounded_zero

/-! ## Evaluation (2.3) -/

theorem CountersBounded.withUnmetered {c : Counters} (h : CountersBounded c) (n : Nat) :
    CountersBounded { c with unmetered := min n 16777215 } :=
  { h with unmetered := Nat.min_le_right _ _ }

/-- A meter within its ranges, debited for a request that passes the test of R28. -/
theorem Meter.Fits.debited {m : Meter} (h : m.Fits) {i : Installed} (installed : m.installed = some i)
    {r : Request} (passes : PassesTest i m r) : (debited i m r).Fits where
  profile := h.profile
  source := h.source
  used := fun j same cap => by
    obtain rfl : i = j := Option.some.inj (installed.symm.trans same)
    simp only [PassesTest, cap] at passes
    simpa only [Machine.debited, cap, if_true] using passes
  credit := fun j same bucket => by
    obtain rfl : i = j := Option.some.inj (installed.symm.trans same)
    simp only [Machine.debited, bucket, if_true]
    exact (Nat.sub_le _ _).trans (h.credit _ installed bucket)
  remaining := h.remaining
  counters := by
    unfold Machine.debited
    cases r.kind with
    | read => exact { h.counters with meteredRead := Nat.min_le_right _ _ }
    | write => exact { h.counters with meteredWrite := Nat.min_le_right _ _ }
  snapshot := h.snapshot

/-- A meter whose allowance a grant has exhausted (R31). -/
theorem Meter.Fits.granted {m : Meter} (h : m.Fits) {i : Installed} (installed : m.installed = some i) (n : Nat)
    (r : Request) : (granted i n m r).Fits where
  profile := h.profile
  source := h.source
  used := fun j same cap => by
    obtain rfl : i = j := Option.some.inj (installed.symm.trans same)
    simp [Machine.granted, cap]
  credit := fun j same bucket => by
    obtain rfl : i = j := Option.some.inj (installed.symm.trans same)
    simp [Machine.granted, bucket]
  remaining := h.remaining
  counters := by
    unfold Machine.granted
    cases r.kind with
    | read => exact { h.counters with meteredRead := Nat.min_le_right _ _, borrowed := Nat.min_le_right _ _ }
    | write => exact { h.counters with meteredWrite := Nat.min_le_right _ _, borrowed := Nat.min_le_right _ _ }
  snapshot := h.snapshot

theorem crossHighMark_installed (k : Port) (i : Installed) (m : Meter) :
    (crossHighMark k i m).1.installed = m.installed := by
  rw [crossHighMark_eq]
  split <;> rfl

theorem Meter.Fits.crossHighMark {m : Meter} (h : m.Fits) (k : Port) (i : Installed) :
    (crossHighMark k i m).1.Fits := by
  rw [crossHighMark_eq]
  split
  · exact h.congr rfl rfl rfl rfl rfl rfl
  · exact h

theorem Meter.Fits.refuse {m : Meter} (h : m.Fits) (e : QueueEntry) : (m.refuse e).Fits := by
  unfold Meter.refuse
  split
  · exact h
  · exact h.withCounters { h.counters with refused := Nat.min_le_right _ _ }

theorem Meter.Fits.decideEntry {m m' : Meter} (h : m.Fits) {k : Port} {i : Installed}
    (installed : m.installed = some i) {r : Request} {ns : List Notice}
    (decided : decideEntry k i m r = .admission m' ns) : m'.Fits := by
  cases scope : inScope i.profile.scope r.kind with
  | false =>
    rw [decideEntry_out k i m r scope] at decided
    injection decided with decided
    rw [← decided]
    exact h.withCounters (h.counters.withUnmetered _)
  | true =>
    by_cases passes : PassesTest i m r
    · rw [decideEntry_passes k i m r scope passes] at decided
      injection decided with decided
      rw [← decided]
      exact (h.debited installed passes).crossHighMark k i
    · rw [decideEntry_fails k i m r scope passes] at decided
      split at decided <;> cases decided

theorem Meter.Fits.evaluateQueue {m : Meter} (h : m.Fits) (k : Port) {i : Installed}
    (installed : m.installed = some i) (q : List QueueEntry) : (evaluateQueue k i m q).meter.Fits := by
  induction q generalizing m with
  | nil => exact h
  | cons e rest ih =>
    cases status : e.status with
    | admitted => simpa only [Machine.evaluateQueue, status] using ih h installed
    | waiting =>
      simp only [Machine.evaluateQueue, status]
      split
      · next m' ns decided =>
        obtain ⟨-, -, -, -, same, -⟩ := decideEntry_keeps decided
        exact ih (h.decideEntry installed decided) (same.trans installed)
      · exact h.refuse e
      · exact h.congr rfl rfl rfl rfl rfl rfl

/-! ## Operations -/

theorem MetersSound.congr {s t : State} (hs : MetersSound s)
    (same : ∀ k, (t.port k).meter = (s.port k).meter ∧ (t.port k).fallback = (s.port k).fallback) :
    MetersSound t := by
  intro k
  have h := (meterSound_iff _).1 (hs k)
  rw [meterSound_iff, (same k).1, (same k).2]
  exact h

theorem MetersSound.ports {s t : State} (hs : MetersSound s) (same : t.ports = s.ports) : MetersSound t :=
  hs.congr fun k => by rw [State.port_def, same, State.port_def]; exact ⟨rfl, rfl⟩

theorem MetersSound.fits {s : State} (hs : MetersSound s) (k : Port) : (s.port k).meter.Fits :=
  ((meterSound_iff _).1 (hs k)).2

theorem MetersSound.fallback {s : State} (hs : MetersSound s) (k : Port) : (s.port k).fallback.Fits :=
  ((meterSound_iff _).1 (hs k)).1

theorem MetersSound.setPort {s : State} (hs : MetersSound s) (k : Port) {b : PortBlock} (fallback : b.fallback.Fits)
    (meter : b.meter.Fits) : MetersSound (s.setPort k b) := by
  intro j
  by_cases same : j = k
  · subst same
    rw [State.setPort_port_same, meterSound_iff]
    exact ⟨fallback, meter⟩
  · rw [State.setPort_port_ne _ same]
    exact hs j

/-- A change of the port that leaves meter and fallback. -/
theorem MetersSound.keep {s : State} (hs : MetersSound s) (k : Port) {b : PortBlock}
    (fallback : b.fallback = (s.port k).fallback) (meter : b.meter = (s.port k).meter) :
    MetersSound (s.setPort k b) :=
  hs.setPort k (by rw [fallback]; exact hs.fallback k) (by rw [meter]; exact hs.fits k)

theorem MetersSound.setMeter {s : State} (hs : MetersSound s) (k : Port) {m : Meter} (fits : m.Fits) :
    MetersSound (s.setMeter k m) := hs.setPort k (hs.fallback k) fits

theorem MetersSound.setController {s : State} (hs : MetersSound s) (k : Port) (c : Controller) :
    MetersSound (s.setController k c) := hs.keep k rfl rfl

theorem MetersSound.submit {s : State} (hs : MetersSound s) (n : Notice) : MetersSound (s.submit n) :=
  hs.ports rfl

theorem MetersSound.setEntry {s : State} (hs : MetersSound s) (tag : Fin 64) (e : Option InFlight) :
    MetersSound (s.setEntry tag e) := hs.ports rfl

theorem MetersSound.emit {s : State} (hs : MetersSound s) (o : Output) : MetersSound (s.emit o) := hs.ports rfl

theorem MetersSound.applyEvaluated {s : State} (hs : MetersSound s) (k : Port) {r : Evaluated}
    (fits : r.meter.Fits) : MetersSound (s.applyEvaluated k r) :=
  MetersSound.ports (hs.setPort k (b := { s.port k with
    meter := r.meter, queue := r.queue, toPool := (s.port k).toPool ++ r.messages }) (hs.fallback k) fits) rfl

theorem MetersSound.evaluate {s : State} (hs : MetersSound s) (k : Port) : MetersSound (evaluate k s) := by
  unfold Machine.evaluate
  split
  · exact hs
  · next i installed =>
    split
    · exact hs.applyEvaluated k ((hs.fits k).evaluateQueue k installed _)
    · exact hs

theorem MetersSound.massAdmit {s : State} (hs : MetersSound s) (k : Port) : MetersSound (massAdmit k s) :=
  hs.setPort k (hs.fallback k) (hs.fits k).staleClaim

theorem MetersSound.submitReport {s : State} (hs : MetersSound s) (k : Port) (i : Installed) :
    MetersSound (submitReport k i s) := by
  unfold Machine.submitReport
  split
  · exact hs.keep k rfl rfl
  · exact hs

/-! ### Windows (2.6, 2.8) -/

theorem MetersSound.earlyEnd {s : State} (hs : MetersSound s) (k : Port) : MetersSound (earlyEnd k s) := by
  cases runs : (s.port k).windowRuns with
  | false => rwa [earlyEnd_no_window k s runs]
  | true =>
    obtain ⟨i, installed⟩ : ∃ i, (s.port k).meter.installed = some i := by
      rw [← Option.isSome_iff_exists]
      simp only [PortBlock.windowRuns, Bool.and_eq_true] at runs
      exact runs.1.1
    rw [earlyEnd_window k s i runs installed]
    have fits := hs.fits k
    exact hs.setPort k (hs.fallback k)
      { fits with counters := countersBounded_zero, snapshot := fits.counters }

/-- A window begun under a profile in range (R42). -/
theorem Meter.Fits.started {m n : Meter} (h : m.Fits) {i : Installed} (range : ProfileInRange i.profile)
    (source : i.source ≠ .noSource) (installed : n.installed = some i) (used : n.used = 0)
    (credit : n.credit = if i.profile.mode = .bucket then i.profile.ceiling else 0)
    (remaining : n.timeRemaining = i.profile.windowLength) (counters : n.counters = Counters.zero)
    (snapshot : n.snapshot = m.snapshot) : n.Fits where
  profile := fun j same => by
    obtain rfl : i = j := Option.some.inj (installed.symm.trans same)
    exact range
  source := fun j same => by
    obtain rfl : i = j := Option.some.inj (installed.symm.trans same)
    exact source
  used := fun _ _ _ => used.trans_le (Nat.zero_le _)
  credit := fun j same bucket => by
    obtain rfl : i = j := Option.some.inj (installed.symm.trans same)
    rw [credit, if_pos bucket]
  remaining := remaining.trans_le range.window.2
  counters := by rw [counters]; exact countersBounded_zero
  snapshot := by rw [snapshot]; exact h.snapshot

theorem MetersSound.startWindow {s : State} (hs : MetersSound s) (k : Port) {i : Installed}
    (installed : (s.port k).meter.installed = some i) : MetersSound (startWindow k i s) :=
  have fits := hs.fits k
  hs.setMeter k (fits.started (fits.profile i installed) (fits.source i installed) installed rfl rfl rfl rfl rfl)

theorem MetersSound.installProfile {s : State} (hs : MetersSound s) (k : Port) {i : Installed}
    (range : ProfileInRange i.profile) (source : i.source ≠ .noSource) : MetersSound (installProfile k i s) := by
  rw [installProfile_eq]
  refine MetersSound.evaluate ?_ k
  exact hs.setPort k (hs.fallback k) ((hs.fits k).started range source rfl rfl rfl rfl rfl rfl)

theorem MetersSound.closeUpTo5 {s : State} (hs : MetersSound s) (k : Port) {i : Installed}
    (installed : (s.port k).meter.installed = some i) : MetersSound (closeUpTo5 k i s) := by
  have fits := hs.fits k
  have range := fits.profile i installed
  intro j
  by_cases same : j = k
  · subst same
    rw [closeUpTo5_port j i s installed, meterSound_iff]
    refine ⟨hs.fallback j, fits.profile, fits.source, fun i' same cap => ?_, fun i' same bucket => ?_,
      range.window.2, countersBounded_zero, fits.counters⟩
    · obtain rfl : i = i' := Option.some.inj (installed.symm.trans same)
      simp [cap]
    · obtain rfl : i = i' := Option.some.inj (installed.symm.trans same)
      simp only [bucket, if_true]
      exact Nat.min_le_right _ _
  · rw [(Contained.closeUpTo5 k i s).confined.2 j same]
    exact hs j

/-- Step 7 of a close: what it does to the meter (R37). -/
theorem closeHold_meter (k : Port) (i : Installed) (s : State) :
    let aged := (s.port k).queue.map QueueEntry.age
    let m := if firstReached i.profile.maxHold aged then (s.port k).meter.staleClaim else (s.port k).meter
    ((closeHold k i s).port k).meter = { m with counters := { m.counters with
      forced := saturate maxBeats (m.counters.forced +
        totalBeats (aged.filter (reachesHold i.profile.maxHold))) } } := by
  unfold closeHold
  dsimp only
  split <;> simp only [State.submit_port, State.setPort_port_same]

theorem MetersSound.closeHold {s : State} (hs : MetersSound s) (k : Port) (i : Installed) :
    MetersSound (closeHold k i s) := by
  intro j
  by_cases same : j = k
  · subst same
    rw [meterSound_iff, (MeterOnly.closeHold j i s).fallback, closeHold_meter]
    have fits : (if firstReached i.profile.maxHold ((s.port j).queue.map QueueEntry.age)
        then (s.port j).meter.staleClaim else (s.port j).meter).Fits := by
      split
      · exact (hs.fits j).staleClaim
      · exact hs.fits j
    exact ⟨hs.fallback j, fits.withCounters { fits.counters with forced := Nat.min_le_right _ _ }⟩
  · rw [(Contained.closeHold k i s).confined.2 j same]
    exact hs j

theorem MetersSound.startLoad {s : State} (hs : MetersSound s) (k : Port) (index : Byte) :
    MetersSound (startLoad k index s) :=
  MetersSound.ports (hs.keep k (b := { s.port k with
    load := some ⟨index, recordAddress s.tableBase index⟩
    controller := { (s.port k).controller with
      loadInFlight := true, cancelledLoad := false, portState := .loading } }) rfl rfl) rfl

theorem MetersSound.closeWindow {s : State} (hs : MetersSound s) (k : Port) {i : Installed}
    (installed : (s.port k).meter.installed = some i) : MetersSound (closeWindow k i s) := by
  rw [closeWindow_steps]
  have upTo7 := ((hs.closeUpTo5 k installed).evaluate k).closeHold k i
  refine MetersSound.submitReport ?_ k i
  unfold closeSignal
  dsimp only
  split
  · split
    · split
      · exact (upTo7.setController k _).startLoad k _
      · split
        · exact (upTo7.setController k _).submit _
        · exact upTo7.setController k _
    · exact upTo7.setController k _
  · exact upTo7

theorem MetersSound.stopMeter {s : State} (hs : MetersSound s) (k : Port) : MetersSound (stopMeter k s) := by
  unfold Machine.stopMeter
  dsimp only
  split
  · exact (hs.earlyEnd k).setMeter k (((hs.earlyEnd k).fits k).congr rfl rfl rfl rfl rfl rfl)
  · exact hs

/-! ### Requests and answers of the pool (01, 2.3) -/

theorem MetersSound.takeRequest {s : State} (hs : MetersSound s) (k : Port) (r : Request) :
    MetersSound (takeRequest k r s) := by
  have joined : ∀ q, MetersSound (s.setQueue k q) := fun q => hs.keep k rfl rfl
  unfold Machine.takeRequest
  dsimp only
  split
  · exact (joined _).evaluate k
  · exact joined _

theorem Meter.Fits.grantQueue {m : Meter} (h : m.Fits) (k : Port) {i : Installed}
    (installed : m.installed = some i) (unclaimed : m.claim = none) (n : Nat) (q : List QueueEntry) :
    (grantQueue k i n m q).meter.Fits := by
  cases waiting : waitingRest q with
  | nil => simpa only [Machine.grantQueue, waiting] using h
  | cons e rest =>
    rw [grantQueue_eq k i n m waiting rfl unclaimed]
    exact ((h.granted installed n e.request).crossHighMark k i).evaluateQueue k
      ((crossHighMark_installed k i _).trans installed) rest

theorem Meter.Fits.refuseQueue {m : Meter} (h : m.Fits) (q : List QueueEntry) :
    (refuseQueue m q).meter.Fits := by
  unfold Machine.refuseQueue
  split
  · exact h
  · exact h.refuse _

theorem MetersSound.takeAnswer {s : State} (hs : MetersSound s) (k : Port) (a : ClaimAnswer) :
    MetersSound (takeAnswer k a s) := by
  have unclaimed : { (s.port k).meter with claim := none }.Fits := (hs.fits k).congr rfl rfl rfl rfl rfl rfl
  have cleared := hs.setMeter k unclaimed
  unfold Machine.takeAnswer
  dsimp only
  split
  · next i claim installed _ =>
    split
    · split
      · exact cleared.applyEvaluated k (unclaimed.grantQueue k installed rfl _ _)
      · exact cleared.applyEvaluated k (unclaimed.refuseQueue _)
    · exact cleared.evaluate k
  · exact cleared.evaluate k

/-! ### Loads, drains and counts -/

theorem MetersSound.endLoad {s : State} (hs : MetersSound s) (k : Port) : MetersSound (endLoad k s) :=
  hs.keep k rfl rfl

theorem MetersSound.installFromTable {s : State} (hs : MetersSound s) (k : Port) (index : Byte) {p : Profile}
    (range : ProfileInRange p) : MetersSound (installFromTable k index p s) := by
  have begun := ((hs.earlyEnd k).setController k { ((Machine.earlyEnd k s).port k).controller with
    fallbackInUse := false }).installProfile k (i := ⟨p, index, .table⟩) range (by simp)
  unfold Machine.installFromTable
  dsimp only
  split
  · exact ((begun.setController k _).endLoad k).submit _
  · exact (begun.setController k _).endLoad k

theorem ProfileInRange.noDwell {p : Profile} (h : ProfileInRange p) : ProfileInRange { p with dwell := 0 } :=
  { h with dwell := Nat.zero_le _ }

theorem MetersSound.installFallback {s : State} (hs : MetersSound s) (k : Port) (index : Byte)
    (reason : FaultReason) (valid : (s.port k).fallback.valid = true) :
    MetersSound (installFallback k index reason s) := by
  have ended := (hs.earlyEnd k).setController k { ((Machine.earlyEnd k s).port k).controller with
    fallbackInUse := true }
  have stored : (((Machine.earlyEnd k s).setController k { ((Machine.earlyEnd k s).port k).controller with
      fallbackInUse := true }).port k).fallback = (s.port k).fallback := by
    rw [State.setController_port_same]
    exact (MeterOnly.earlyEnd k s).fallback
  have range := ended.fallback k
  rw [stored] at range
  have begun := ended.installProfile k (i := ⟨{ (s.port k).fallback.fields with dwell := 0 }, index, .fallback⟩)
    (range valid).noDwell (by simp)
  unfold Machine.installFallback
  dsimp only
  rw [stored]
  exact ((begun.setController k _).endLoad k).submit _

theorem MetersSound.keepRegime {s : State} (hs : MetersSound s) (k : Port) (reason : FaultReason) :
    MetersSound (keepRegime k reason s) := by
  unfold Machine.keepRegime
  dsimp only
  refine MetersSound.submit ?_ _
  split
  · exact (hs.endLoad k).setController k _
  · exact ((hs.endLoad k).setController k _).massAdmit k

theorem LoadResult.judge_inRange {result : LoadResult} {p : Profile} (accepted : result.judge = .ok p) :
    ProfileInRange p := by
  cases result with
  | data bytes => exact validateRecord_inRange accepted
  | fault reason => cases accepted

theorem MetersSound.takeLoadResult {s : State} (hs : MetersSound s) (k : Port) (result : LoadResult) :
    MetersSound (takeLoadResult k result s) := by
  unfold Machine.takeLoadResult
  split
  · exact hs
  · split
    · exact hs.endLoad k
    · split
      · next p accepted => exact hs.installFromTable k _ (LoadResult.judge_inRange accepted)
      · split
        · next valid => exact hs.installFallback k _ _ valid
        · exact hs.keepRegime k _

theorem MetersSound.judgeDrain {s : State} (hs : MetersSound s) (k : Port) : MetersSound (judgeDrain k s) := by
  unfold Machine.judgeDrain
  split
  · exact (hs.setController k _).submit _
  · exact hs

theorem MetersSound.countCompletion {s : State} (hs : MetersSound s) (k : Port) (status : AnswerStatus)
    (latency : Nat) : MetersSound (countCompletion k status latency s) := by
  have fits := hs.fits k
  unfold Machine.countCompletion
  dsimp only
  split
  · refine hs.setMeter k (fits.withCounters { fits.counters with maxLatency := ?_, errors := ?_ })
    · exact max_le fits.counters.maxLatency (Nat.min_le_right _ _)
    · dsimp only
      split
      · exact Nat.min_le_right _ _
      · exact fits.counters.errors
  · exact hs

theorem MetersSound.countTimeout {s : State} (hs : MetersSound s) (k : Port) :
    MetersSound (countTimeout k s) := by
  have fits := hs.fits k
  unfold Machine.countTimeout
  dsimp only
  split
  · exact hs.setMeter k (fits.withCounters { fits.counters with timeouts := Nat.min_le_right _ _ })
  · exact hs

theorem MetersSound.resumePort {s : State} (hs : MetersSound s) (k : Port) : MetersSound (resumePort k s) := by
  have resumed := fun state => hs.setController k { (s.port k).controller with portState := state }
  unfold Machine.resumePort
  split
  · next i installed =>
    exact ((resumed .active).startWindow k (by rw [State.setController_port_same]; exact installed)).evaluate k
  · exact (resumed .pass).massAdmit k

theorem MetersSound.writer {s t : State} (hs : MetersSound s) (h : WriterContained s t) : MetersSound t :=
  hs.ports h.ports

/-! ## Every effect -/

theorem CommandEffect.keeps_metersSound {s t : State} (h : CommandEffect s t) (hs : MetersSound s) :
    MetersSound t := by
  cases h with
  | unchanged | poolLimit | timeout | tableBase | ringStopped | noticePopped | overflowCleared | irqSet =>
    exact hs.ports rfl
  | fallbackSet k p range => exact hs.setPort k (fun _ => range) (hs.fits k)
  | fallbackCleared k => exact hs.setPort k (fun valid => by cases valid) (hs.fits k)
  | loadStarted k index => exact hs.startLoad k index
  | quiesced k => exact (((hs.stopMeter k).setController k _).massAdmit k).judgeDrain k
  | resumed k => exact hs.resumePort k
  | ringStarted base size => exact hs.writer (WriterContained.startRing base size s)
  | acknowledged c => exact hs.writer (WriterContained.acknowledge c s)

/-- R23, R34, R62: an effect debits within the allowance, counts up to the maxima, and installs profiles that
have passed the checks. -/
theorem Effect.keeps_metersSound {c : Instr} {s t : State} (h : Effect c s t) (hs : MetersSound s) :
    MetersSound t := by
  cases h with
  | nothing | clock | memoryPortReady | orphanFreed | shifted => exact hs.ports rfl
  | inputFollowed k | portReleased k | donationTaken k | claimTaken k => exact hs.keep k rfl rfl
  | powerReset mcsLow asserted =>
    intro k
    rw [powerOn_port, meterSound_iff]
    exact ⟨fun valid => (by cases valid), Meter.reset_fits⟩
  | softReset bits =>
    intro k
    rw [softReset_port, meterSound_iff]
    exact ⟨fun valid => (by cases valid), Meter.reset_fits.congr rfl rfl rfl rfl rfl rfl⟩
  | request k r => exact hs.takeRequest k r
  | portReset k =>
    have discarded := hs.setPort k (b := { s.port k with
      resetAsserted := true, queue := [], meter := (s.port k).meter.staleClaim
      controller := { (s.port k).controller with
        drain := (s.port k).controller.drain.map fun d => { d with ahead := 0 } } })
      (hs.fallback k) (hs.fits k).staleClaim
    exact (discarded.ports (State.setTable_ports _ _)).judgeDrain k
  | windowClosed k i _ installed => exact hs.closeWindow k installed
  | answerTaken k answer rest =>
    have taken := hs.keep k (b := { s.port k with answers := rest }) rfl rfl
    exact taken.takeAnswer k answer
  | reportTaken k r rest =>
    have taken := hs.keep k (b := { s.port k with toWriter := rest }) rfl rfl
    exact taken.writer (WriterContained.takeReport r _)
  | internalGranted item rest tag oldest free =>
    rw [grantInternal_eq oldest free]
    exact hs.ports rfl
  | portGranted k e rest tag queue _ _ free =>
    rw [grantPort_eq queue free]
    have departed := hs.keep k (b := (s.port k).departed) rfl rfl
    exact departed.ports rfl
  | portOrphanFreed tag f k => exact (hs.setEntry tag none).judgeDrain k
  | answered tag f k rtag status data =>
    rw [answerPort_eq]
    exact (((hs.emit _).setEntry tag none).countCompletion k status _).judgeDrain k
  | timedOut tag f k rtag =>
    exact ((((hs.setEntry tag (some f.orphan)).emit _).countTimeout k).submit _).judgeDrain k
  | loadEnded tag f k e result => exact (hs.setEntry tag e).takeLoadResult k result
  | written tag f => exact (hs.setEntry tag none).writer (WriterContained.writeSucceeded _)
  | writeFaulted tag f e reason => exact (hs.setEntry tag e).writer (WriterContained.writeFailed reason _)
  | commanded bits status data owner =>
    have kept := owner.keeps_metersSound (hs.ports rfl)
    exact kept.ports rfl

theorem MetersSound.tick {s : State} (hs : MetersSound s) : MetersSound (tick s) := by
  intro k
  have fits := hs.fits k
  rw [tick_port, PortBlock.tick_eq, meterSound_iff]
  refine ⟨hs.fallback k, { fits with remaining := ?_ }⟩
  dsimp only
  split
  · exact (Nat.sub_le _ _).trans fits.remaining
  · exact fits.remaining

/-- Settles O8: each effect and each tick keeps every meter within its ranges. -/
theorem everyStepKeepsTheMetersSound : Obligations.EveryStepKeepsTheMetersSound := fun _ _ =>
  step_keeps (fun _ hs => hs.tick) (fun _ _ _ hs => hs.ports rfl) fun _ _ _ e hs => e.keeps_metersSound hs

end Sys2Proof.Machine
end

