-- ==== Sys2Proof/Proofs/ClaimInvariant.lean ====
section
/-! PROOF. The claims: each one message or one answer on its way, and a current one's shortfall exact (R30, R55),
kept by every step. -/

namespace Sys2Proof.Machine

open Sys2Proof

/-! ## Queues and windows -/

theorem waitingRest_append {q : List QueueEntry} (h : waitingRest q ≠ []) (l : List QueueEntry) :
    waitingRest (q ++ l) = waitingRest q ++ l := by
  induction q with
  | nil => exact absurd rfl h
  | cons e q ih =>
    cases status : e.status with
    | waiting => simp [waitingRest, status]
    | admitted =>
      have skip : ∀ l, waitingRest (e :: l) = waitingRest l := fun l => by simp [waitingRest, status]
      rw [skip] at h
      rw [List.cons_append, skip, skip, ih h]

theorem waitingRest_cons_admitted {e : QueueEntry} (h : e.status = .admitted) (q : List QueueEntry) :
    waitingRest (e :: q) = waitingRest q := by
  simp [waitingRest, h]

theorem waitingRest_admitted_append {run : List QueueEntry} (h : AllAdmitted run) (q : List QueueEntry) :
    waitingRest (run ++ q) = waitingRest q := by
  induction run with
  | nil => rfl
  | cons e run ih =>
    rw [List.cons_append, waitingRest_cons_admitted (h e (by simp)), ih fun x hx => h x (by simp [hx])]

theorem admittedRun_allAdmitted (q : List QueueEntry) : AllAdmitted (admittedRun q) := by
  intro e he
  simpa using List.mem_takeWhile_imp he

theorem admittedRun_append_waitingRest (q : List QueueEntry) : admittedRun q ++ waitingRest q = q :=
  List.takeWhile_append_dropWhile

/-- The first entry of the rest is WAITING (R5). -/
theorem waitingRest_head {q rest : List QueueEntry} {e : QueueEntry} (h : waitingRest q = e :: rest) :
    e.status = .waiting := by
  have first : (waitingRest q).head? = some e := by rw [h]; rfl
  have := List.head?_dropWhile_not (fun e : QueueEntry => e.status == .admitted) q
  rw [show (List.dropWhile (fun e : QueueEntry => e.status == .admitted) q).head? = some e from first] at this
  cases status : e.status with
  | waiting => rfl
  | admitted => simp [status] at this

theorem waitingRest_all_marked (q : List QueueEntry) : waitingRest (q.map QueueEntry.markAdmitted) = [] := by
  apply waitingRest_allAdmitted
  intro e he
  obtain ⟨x, -, rfl⟩ := List.mem_map.1 he
  rfl

/-- R25: a window runs. -/
theorem PortBlock.windowRuns_iff (b : PortBlock) : b.windowRuns = true ↔ b.meter.installed.isSome = true ∧
    (b.controller.portState = .active ∨ b.controller.portState = .loading) ∧ b.meter.windowRunning = true := by
  unfold PortBlock.windowRuns
  cases b.controller.portState <;> simp

/-! ## One claim -/

/-- The entry a current claim is for, and its shortfall (R30). -/
def ClaimExact (b : PortBlock) (n : Nat) : Prop :=
  b.windowRuns = true ∧ ∃ i e, b.meter.installed = some i ∧ (waitingRest b.queue).head? = some e ∧
    i.profile.flags.borrow = true ∧ inScope i.profile.scope e.request.kind = true ∧
    n = shortfallOf i b.meter e.request ∧ 1 ≤ n

/-- What a current claim speaks of stays as it is. -/
structure ClaimGround (b b' : PortBlock) : Prop where
  runs      : b'.windowRuns = true
  installed : b'.meter.installed = b.meter.installed
  used      : b'.meter.used = b.meter.used
  credit    : b'.meter.credit = b.meter.credit
  first     : (waitingRest b'.queue).head?.map QueueEntry.request =
                (waitingRest b.queue).head?.map QueueEntry.request

theorem ClaimExact.ground {b b' : PortBlock} {n : Nat} (h : ClaimExact b n) (same : ClaimGround b b') :
    ClaimExact b' n := by
  obtain ⟨-, i, e, installed, first, borrow, scope, exactly, one⟩ := h
  have first' := same.first
  rw [first] at first'
  obtain ⟨e', found, request⟩ := Option.map_eq_some_iff.1 first'
  refine ⟨same.runs, i, e', same.installed.trans installed, found, borrow, by rw [request]; exact scope, ?_, one⟩
  rw [request, exactly]
  simp only [shortfallOf, same.used, same.credit]

/-- A change that leaves the claim, its message and its answer, and what it speaks of while it is current. -/
theorem ClaimSound.keep {b b' : PortBlock} (h : ClaimSound b) (claim : b'.meter.claim = b.meter.claim)
    (toPool : b'.toPool = b.toPool) (answers : b'.answers = b.answers)
    (ground : b.windowRuns = true → waitingRest b.queue ≠ [] → ClaimGround b b') : ClaimSound b' := by
  refine ⟨?_, ?_, ?_⟩
  · rw [claim, answers, PortBlock.claimsSent, toPool]
    exact h.account
  · rw [claim, toPool]
    exact h.message
  · rw [claim]
    intro c hc current
    have now := h.current c hc current
    refine ClaimExact.ground now (ground now.1 fun none => ?_)
    obtain ⟨-, _, _, -, first, -⟩ := now
    rw [none] at first
    cases first

theorem staled_isSome (c : Option Claim) : (staled c).isSome = c.isSome := by cases c <;> rfl

theorem staled_some {c : Option Claim} {x : Claim} (h : staled c = some x) :
    x.current = false ∧ ∃ y, c = some y ∧ x.shortfall = y.shortfall := by
  obtain ⟨y, hy, rfl⟩ := Option.map_eq_some_iff.1 h
  exact ⟨rfl, y, hy, rfl⟩

theorem staled_of_not_current {c : Option Claim} (h : ∀ x, c = some x → x.current = false) : staled c = c := by
  cases c with
  | none => rfl
  | some x =>
    have := h x rfl
    obtain ⟨n, current⟩ := x
    simp only at this
    subst this
    rfl

/-- A stale claim speaks of nothing but its message and its answer (R32). -/
theorem ClaimSound.stale {b b' : PortBlock} (h : ClaimSound b) (claim : b'.meter.claim = staled b.meter.claim)
    (sent : b'.claimsSent = b.claimsSent) (messages : ∀ n, .claim n ∈ b'.toPool → PoolMessage.claim n ∈ b.toPool)
    (answers : b'.answers = b.answers) : ClaimSound b' := by
  refine ⟨?_, fun c n hc hn => ?_, fun c hc current => ?_⟩
  · rw [claim, staled_isSome, sent, answers]
    exact h.account
  · rw [claim] at hc
    obtain ⟨-, y, hy, shortfall⟩ := staled_some hc
    rw [shortfall]
    exact h.message y n hy (messages n hn)
  · rw [claim] at hc
    rw [(staled_some hc).1] at current
    cases current

/-- While no window runs a claim is not current. -/
theorem ClaimSound.not_current {b : PortBlock} (h : ClaimSound b) (still : b.windowRuns = false) :
    staled b.meter.claim = b.meter.claim := by
  refine staled_of_not_current fun c hc => ?_
  cases current : c.current with
  | false => rfl
  | true =>
    have runs := (h.current c hc current).1
    rw [still] at runs
    cases runs

/-- No claim, and none on its way. -/
theorem ClaimSound.unclaimed {b : PortBlock} (claim : b.meter.claim = none) (sent : b.claimsSent = 0)
    (answers : b.answers = []) : ClaimSound b := by
  refine ⟨?_, fun c n hc => ?_, fun c hc => ?_⟩
  · rw [claim, sent, answers]
    rfl
  · rw [claim] at hc
    cases hc
  · rw [claim] at hc
    cases hc

/-- Without a claim nothing is on its way. -/
theorem ClaimSound.none_sent {b : PortBlock} (h : ClaimSound b) (claim : b.meter.claim = none) :
    b.claimsSent = 0 ∧ b.answers = [] := by
  have account := h.account
  rw [claim, Option.isSome_none] at account
  simp only [Bool.false_eq_true, if_false, Nat.add_eq_zero_iff, List.length_eq_zero_iff] at account
  exact account

theorem claimsSent_append (b : PortBlock) (messages : List PoolMessage) :
    ({ b with toPool := b.toPool ++ messages } : PortBlock).claimsSent =
      b.claimsSent + ({ b with toPool := messages } : PortBlock).claimsSent :=
  List.countP_append

/-- A list without claims counts none. -/
theorem claimsSent_zero {b : PortBlock} (h : ∀ n, PoolMessage.claim n ∉ b.toPool) : b.claimsSent = 0 := by
  unfold PortBlock.claimsSent
  rw [List.countP_eq_zero]
  intro m hm
  cases m with
  | donation _ => simp
  | claim n => exact absurd hm (h n)

theorem claimsSent_zero_not_mem {b : PortBlock} (h : b.claimsSent = 0) (n : Nat) :
    PoolMessage.claim n ∉ b.toPool := by
  intro hm
  unfold PortBlock.claimsSent at h
  rw [List.countP_eq_zero] at h
  exact h _ hm rfl

/-! ## The claims of an evaluation (R27, R30) -/

/-- What an evaluation leaves of claims: none, or one, sent and exact for the entry it ended at. -/
def Evaluated.ClaimsExactly (i : Installed) (r : Evaluated) : Prop :=
  (r.meter.claim = none ∧ r.messages = []) ∨
    ∃ n e, r.meter.claim = some ⟨n, true⟩ ∧ r.messages = [.claim n] ∧
      (waitingRest r.queue).head? = some e ∧ i.profile.flags.borrow = true ∧
      inScope i.profile.scope e.request.kind = true ∧ n = shortfallOf i r.meter e.request ∧ 1 ≤ n

theorem shortfallOf_pos {i : Installed} {m : Meter} {r : Request} (fails : ¬ PassesTest i m r) :
    1 ≤ shortfallOf i m r := by
  unfold PassesTest at fails
  unfold shortfallOf
  split <;> simp_all <;> omega

/-- R30: a claim is made in scope, where the test fails, with BORROW set. -/
theorem decideEntry_claim {k : Port} {i : Installed} {m : Meter} {r : Request} {n : Nat}
    (h : decideEntry k i m r = .claim n) : i.profile.flags.borrow = true ∧
      inScope i.profile.scope r.kind = true ∧ n = shortfallOf i m r ∧ 1 ≤ n := by
  cases scope : inScope i.profile.scope r.kind with
  | false =>
    rw [decideEntry_out k i m r scope] at h
    cases h
  | true =>
    by_cases passes : PassesTest i m r
    · rw [decideEntry_passes k i m r scope passes] at h
      cases h
    · rw [decideEntry_fails k i m r scope passes] at h
      split at h
      · next borrow =>
        injection h with h
        exact ⟨borrow, rfl, h.symm, h ▸ shortfallOf_pos passes⟩
      · cases h

/-- An ADMITTED entry in front changes nothing of the claims. -/
theorem Evaluated.ClaimsExactly.behind {i : Installed} {r r' : Evaluated} (h : r.ClaimsExactly i)
    (meter : r'.meter = r.meter) (messages : r'.messages = r.messages)
    (queue : waitingRest r'.queue = waitingRest r.queue) : r'.ClaimsExactly i := by
  unfold Evaluated.ClaimsExactly
  rw [meter, messages, queue]
  exact h

theorem refuse_claim (m : Meter) (e : QueueEntry) : (m.refuse e).claim = m.claim := by
  unfold Meter.refuse
  split <;> rfl

theorem evaluateQueue_claimsExactly (k : Port) (i : Installed) (m : Meter) (q : List QueueEntry)
    (unclaimed : m.claim = none) : (evaluateQueue k i m q).ClaimsExactly i := by
  induction q generalizing m with
  | nil => exact .inl ⟨unclaimed, rfl⟩
  | cons e rest ih =>
    cases status : e.status with
    | admitted =>
      refine (ih m unclaimed).behind ?_ ?_ ?_ <;> simp only [evaluateQueue, status]
      exact waitingRest_cons_admitted status _
    | waiting =>
      cases decided : decideEntry k i m e.request with
      | admission m' ns =>
        obtain ⟨-, -, -, -, -, claim⟩ := decideEntry_keeps decided
        refine (ih m' (claim.trans unclaimed)).behind ?_ ?_ ?_ <;> simp only [evaluateQueue, status, decided]
        exact waitingRest_cons_admitted rfl _
      | refuse =>
        left
        simp only [evaluateQueue, status, decided]
        exact ⟨(refuse_claim m e).trans unclaimed, trivial⟩
      | claim n =>
        right
        obtain ⟨borrow, scope, exactly, one⟩ := decideEntry_claim decided
        simp only [evaluateQueue, status, decided]
        exact ⟨n, e, rfl, rfl, by simp [waitingRest, status], borrow, scope, exactly, one⟩

theorem crossHighMark_claim (k : Port) (i : Installed) (m : Meter) :
    (crossHighMark k i m).1.claim = m.claim := by
  rw [crossHighMark_eq]
  split <;> rfl

theorem crossHighMark_running (k : Port) (i : Installed) (m : Meter) :
    (crossHighMark k i m).1.windowRunning = m.windowRunning := by
  rw [crossHighMark_eq]
  split <;> rfl

/-- R31: a grant admits the entry under claim, and the evaluation behind it may claim again. -/
theorem grantQueue_claimsExactly (k : Port) (i : Installed) (n : Nat) (m : Meter) (q : List QueueEntry)
    (unclaimed : m.claim = none) : (grantQueue k i n m q).ClaimsExactly i := by
  cases waiting : waitingRest q with
  | nil =>
    simp only [grantQueue, waiting]
    exact .inl ⟨unclaimed, rfl⟩
  | cons e rest =>
    rw [grantQueue_eq k i n m waiting rfl unclaimed]
    refine (evaluateQueue_claimsExactly k i _ rest ?_).behind rfl rfl ?_
    · rw [crossHighMark_claim]
      rfl
    · rw [waitingRest_admitted_append (admittedRun_allAdmitted q)]
      exact waitingRest_cons_admitted rfl _

theorem refuseQueue_claimsExactly (i : Installed) (m : Meter) (q : List QueueEntry)
    (unclaimed : m.claim = none) : (refuseQueue m q).ClaimsExactly i := by
  unfold refuseQueue
  split
  · exact .inl ⟨unclaimed, rfl⟩
  · exact .inl ⟨(refuse_claim m _).trans unclaimed, rfl⟩

/-- What an evaluation, a grant or a refusal keeps of the window (R27, R31). -/
def Evaluated.KeepsWindow (m : Meter) (r : Evaluated) : Prop :=
  r.meter.installed = m.installed ∧ r.meter.windowRunning = m.windowRunning

theorem evaluateQueue_keepsWindow (k : Port) (i : Installed) (m : Meter) (q : List QueueEntry) :
    (evaluateQueue k i m q).KeepsWindow m := by
  obtain ⟨-, -, -, running, installed⟩ := evaluateQueue_meter k i m q
  exact ⟨installed, running⟩

theorem grantQueue_keepsWindow (k : Port) (i : Installed) (n : Nat) (m : Meter) (q : List QueueEntry)
    (unclaimed : m.claim = none) : (grantQueue k i n m q).KeepsWindow m := by
  cases waiting : waitingRest q with
  | nil =>
    simp only [grantQueue, waiting]
    exact ⟨rfl, rfl⟩
  | cons e rest =>
    rw [grantQueue_eq k i n m waiting rfl unclaimed]
    obtain ⟨installed, running⟩ := evaluateQueue_keepsWindow k i
      (crossHighMark k i (granted i n m e.request)).1 rest
    exact ⟨installed.trans (crossHighMark_installed k i _), running.trans (crossHighMark_running k i _)⟩

theorem refuseQueue_keepsWindow (m : Meter) (q : List QueueEntry) : (refuseQueue m q).KeepsWindow m := by
  unfold refuseQueue
  split
  · exact ⟨rfl, rfl⟩
  · unfold Meter.refuse
    split <;> exact ⟨rfl, rfl⟩

/-- An evaluation where nothing is claimed leaves the claim sound (R27, R30). -/
theorem ClaimSound.evaluated {b : PortBlock} {i : Installed} {r : Evaluated} (sent : b.claimsSent = 0)
    (answers : b.answers = []) (installed : b.meter.installed = some i) (runs : b.windowRuns = true)
    (claims : r.ClaimsExactly i) (window : r.KeepsWindow b.meter) :
    ClaimSound { b with meter := r.meter, queue := r.queue, toPool := b.toPool ++ r.messages } := by
  obtain ⟨installed', running⟩ := window
  rcases claims with ⟨claim, messages⟩ | ⟨n, e, claim, messages, first, borrow, scope, exactly, one⟩
  · refine ClaimSound.unclaimed claim ?_ answers
    rw [messages, List.append_nil]
    exact sent
  · refine ⟨?_, fun c n' hc hn => ?_, fun c hc _ => ?_⟩
    · have total := claimsSent_append b r.messages
      rw [sent, messages] at total
      simp only [claim, answers, Option.isSome_some, if_true, messages]
      exact total
    · obtain rfl := Option.some.inj (claim.symm.trans hc)
      rw [messages] at hn
      rcases List.mem_append.1 hn with old | new
      · exact absurd old (claimsSent_zero_not_mem sent n')
      · simpa using new
    · obtain rfl := Option.some.inj (claim.symm.trans hc)
      refine ⟨?_, i, e, installed'.trans installed, first, borrow, scope, exactly, one⟩
      rw [PortBlock.windowRuns_iff] at runs ⊢
      obtain ⟨some, state, run⟩ := runs
      exact ⟨by rw [installed']; exact some, state, by rw [running]; exact run⟩

/-! ## Operations -/

theorem ClaimsSound.congr {s t : State} (hs : ClaimsSound s) (same : t.ports = s.ports) : ClaimsSound t := by
  intro k
  rw [State.port_def, same, ← State.port_def]
  exact hs k

theorem ClaimsSound.setPort {s : State} (hs : ClaimsSound s) (k : Port) {b : PortBlock} (sound : ClaimSound b) :
    ClaimsSound (s.setPort k b) := by
  intro j
  by_cases same : j = k
  · subst same
    rwa [State.setPort_port_same]
  · rw [State.setPort_port_ne _ same]
    exact hs j

/-- A change of the port beside the claim and what it speaks of. -/
theorem ClaimsSound.keep {s : State} (hs : ClaimsSound s) (k : Port) {b : PortBlock}
    (claim : b.meter.claim = (s.port k).meter.claim) (toPool : b.toPool = (s.port k).toPool)
    (answers : b.answers = (s.port k).answers)
    (ground : (s.port k).windowRuns = true → waitingRest (s.port k).queue ≠ [] → ClaimGround (s.port k) b) :
    ClaimsSound (s.setPort k b) := hs.setPort k ((hs k).keep claim toPool answers ground)

/-- A change of the port that makes the claim stale. -/
theorem ClaimsSound.stale {s : State} (hs : ClaimsSound s) (k : Port) {b : PortBlock}
    (claim : b.meter.claim = staled (s.port k).meter.claim) (toPool : b.toPool = (s.port k).toPool)
    (answers : b.answers = (s.port k).answers) : ClaimsSound (s.setPort k b) :=
  hs.setPort k ((hs k).stale claim (by rw [PortBlock.claimsSent, toPool]; rfl) (by rw [toPool]; exact fun _ => id)
    answers)

/-- A change of the controller under which a running window runs on. -/
theorem ClaimsSound.setController {s : State} (hs : ClaimsSound s) (k : Port) (c : Controller)
    (runs : (s.port k).windowRuns = true → ({ s.port k with controller := c } : PortBlock).windowRuns = true) :
    ClaimsSound (s.setController k c) :=
  hs.keep k rfl rfl rfl fun running _ => ⟨runs running, rfl, rfl, rfl, rfl⟩

theorem ClaimsSound.submit {s : State} (hs : ClaimsSound s) (n : Notice) : ClaimsSound (s.submit n) :=
  hs.congr rfl

theorem ClaimsSound.setEntry {s : State} (hs : ClaimsSound s) (tag : Fin 64) (e : Option InFlight) :
    ClaimsSound (s.setEntry tag e) := hs.congr rfl

theorem ClaimsSound.applyEvaluated {s : State} (hs : ClaimsSound s) {k : Port} {i : Installed} {r : Evaluated}
    (sent : (s.port k).claimsSent = 0) (answers : (s.port k).answers = [])
    (installed : (s.port k).meter.installed = some i) (runs : (s.port k).windowRuns = true)
    (claims : r.ClaimsExactly i) (window : r.KeepsWindow (s.port k).meter) :
    ClaimsSound (s.applyEvaluated k r) :=
  ClaimsSound.congr (hs.setPort k (ClaimSound.evaluated sent answers installed runs claims window)) rfl

theorem ClaimsSound.evaluate {s : State} (hs : ClaimsSound s) (k : Port) : ClaimsSound (evaluate k s) := by
  unfold Machine.evaluate
  split
  · exact hs
  · next i installed =>
    split
    · next free =>
      simp only [Bool.and_eq_true, Option.isNone_iff_eq_none] at free
      obtain ⟨runs, unclaimed⟩ := free
      obtain ⟨sent, answers⟩ := (hs k).none_sent unclaimed
      exact hs.applyEvaluated sent answers installed runs (evaluateQueue_claimsExactly k i _ _ unclaimed)
        (evaluateQueue_keepsWindow k i _ _)
    · exact hs

/-- The mass admission under a new controller makes the claim stale (R9). -/
theorem ClaimsSound.massAdmit {s : State} (hs : ClaimsSound s) (k : Port) (c : Controller) :
    ClaimsSound (massAdmit k (s.setController k c)) := by
  rw [massAdmit_eq, State.setController_port_same, State.setController, State.setPort_setPort]
  exact hs.stale k rfl rfl rfl

theorem ClaimsSound.submitReport {s : State} (hs : ClaimsSound s) (k : Port) (i : Installed) :
    ClaimsSound (submitReport k i s) := by
  unfold Machine.submitReport
  split
  · exact hs.keep k rfl rfl rfl fun runs _ => ⟨runs, rfl, rfl, rfl, rfl⟩
  · exact hs

/-! ### Windows (2.6, 2.8) -/

/-- R41: after an early end the claim is stale. -/
theorem ClaimsSound.earlyEnd {s : State} (hs : ClaimsSound s) (k : Port) : ClaimsSound (earlyEnd k s) ∧
    staled ((earlyEnd k s).port k).meter.claim = ((earlyEnd k s).port k).meter.claim := by
  cases runs : (s.port k).windowRuns with
  | false =>
    rw [earlyEnd_no_window k s runs]
    exact ⟨hs, (hs k).not_current runs⟩
  | true =>
    obtain ⟨i, installed⟩ := Option.isSome_iff_exists.1 ((PortBlock.windowRuns_iff _).1 runs).1
    rw [earlyEnd_window k s i runs installed]
    refine ⟨hs.stale k rfl rfl rfl, ?_⟩
    rw [State.setPort_port_same]
    exact staled_of_not_current fun c hc => (staled_some hc).1

theorem ClaimsSound.stopMeter {s : State} (hs : ClaimsSound s) (k : Port) : ClaimsSound (stopMeter k s) := by
  obtain ⟨ended, stale⟩ := hs.earlyEnd k
  unfold Machine.stopMeter
  dsimp only
  split
  · exact ended.stale k stale.symm rfl rfl
  · exact hs

/-- R42, R43: an install where no claim is current. -/
theorem ClaimsSound.installProfile {s : State} (hs : ClaimsSound s) (k : Port) (i : Installed)
    (stale : staled (s.port k).meter.claim = (s.port k).meter.claim) : ClaimsSound (installProfile k i s) := by
  rw [installProfile_eq]
  exact ClaimsSound.evaluate (hs.stale k (b := { s.port k with meter := { (s.port k).meter with
    installed := some i, windowRunning := true, timeRemaining := i.profile.windowLength
    seqNo := (s.port k).meter.seqNo + 1, used := 0
    credit := if i.profile.mode = .bucket then i.profile.ceiling else 0
    counters := Counters.zero, highSeen := false } }) stale.symm rfl rfl) k

theorem donationAtClose_no_claim (i : Installed) (m : Meter) (n : Nat) :
    PoolMessage.claim n ∉ donationAtClose i m := by
  rw [donationAtClose_eq]
  split <;> simp

/-- Steps 1 to 5 of a close make the claim stale and may send a donation (R32, R36). -/
theorem ClaimsSound.closeUpTo5 {s : State} (hs : ClaimsSound s) (k : Port) {i : Installed}
    (installed : (s.port k).meter.installed = some i) : ClaimsSound (closeUpTo5 k i s) := by
  intro j
  by_cases same : j = k
  · subst same
    rw [closeUpTo5_port j i s installed]
    refine (hs j).stale rfl ?_ (fun n hn => ?_) rfl
    · have total := claimsSent_append (s.port j) (donationAtClose i (s.port j).meter)
      have none : ({ s.port j with toPool := donationAtClose i (s.port j).meter } : PortBlock).claimsSent = 0 :=
        claimsSent_zero (donationAtClose_no_claim i _)
      rw [none] at total
      exact total
    · rcases List.mem_append.1 hn with old | new
      · exact old
      · exact absurd new (donationAtClose_no_claim i _ n)
  · rw [(Contained.closeUpTo5 k i s).confined.2 j same]
    exact hs j

theorem age_request (e : QueueEntry) : e.age.request = e.request := by
  unfold QueueEntry.age
  split <;> rfl

theorem age_status (e : QueueEntry) : e.age.status = e.status := by
  unfold QueueEntry.age
  split <;> rfl

theorem age_admitted {e : QueueEntry} (h : e.status = .admitted) : e.age = e := by
  simp [QueueEntry.age, h]

theorem release_admitted (maxHold : Nat) {e : QueueEntry} (h : e.status = .admitted) :
    e.release maxHold = e := by
  simp [QueueEntry.release, reachesHold, h]

theorem map_age_allAdmitted {run : List QueueEntry} (h : AllAdmitted run) : run.map QueueEntry.age = run :=
  (List.map_congr_left fun e he => age_admitted (h e he)).trans (List.map_id' run)

theorem map_release_allAdmitted (maxHold : Nat) {run : List QueueEntry} (h : AllAdmitted run) :
    run.map (QueueEntry.release maxHold) = run :=
  (List.map_congr_left fun e he => release_admitted maxHold (h e he)).trans (List.map_id' run)

/-- An ageing keeps the first WAITING entry in its place (R10). -/
theorem waitingRest_map_age (q : List QueueEntry) :
    waitingRest (q.map QueueEntry.age) = (waitingRest q).map QueueEntry.age := by
  conv_lhs => rw [← admittedRun_append_waitingRest q]
  rw [List.map_append, map_age_allAdmitted (admittedRun_allAdmitted q),
    waitingRest_admitted_append (admittedRun_allAdmitted q)]
  cases waiting : waitingRest q with
  | nil => rfl
  | cons e rest =>
    have first : e.age.status = .waiting := (age_status e).trans (waitingRest_head waiting)
    simp [waitingRest, first]

/-- R37: a first WAITING entry the hold limit does not reach stays the first. -/
theorem waitingRest_release_first {maxHold : Nat} {q rest : List QueueEntry} {e : QueueEntry}
    (waiting : waitingRest q = e :: rest) (short : firstReached maxHold q = false) :
    waitingRest (q.map (QueueEntry.release maxHold)) = e :: rest.map (QueueEntry.release maxHold) := by
  have kept : e.release maxHold = e := by
    simp only [firstReached, waiting] at short
    simp [QueueEntry.release, short]
  conv_lhs => rw [← admittedRun_append_waitingRest q]
  rw [List.map_append, map_release_allAdmitted maxHold (admittedRun_allAdmitted q),
    waitingRest_admitted_append (admittedRun_allAdmitted q), waiting, List.map_cons, kept]
  simp [waitingRest, waitingRest_head waiting]

/-- R37: the hold limit makes a claim stale whose entry it reaches, and keeps every other one exact. -/
theorem ClaimsSound.closeHold {s : State} (hs : ClaimsSound s) (k : Port) (i : Installed) :
    ClaimsSound (closeHold k i s) := by
  intro j
  by_cases same : j = k
  · subst same
    have claim := congrArg Meter.claim (closeHold_meter j i s)
    obtain ⟨m, block, -, -, -, running, installed, used, credit, -⟩ := closeHold_port j i s
    rw [block] at claim ⊢
    cases reached : firstReached i.profile.maxHold ((s.port j).queue.map QueueEntry.age) with
    | true =>
      simp only [reached, if_true] at claim
      exact (hs j).stale claim rfl (fun _ => id) rfl
    | false =>
      simp only [reached, Bool.false_eq_true, if_false] at claim
      refine (hs j).keep claim rfl rfl fun runs waiting => ⟨?_, installed, used, credit, ?_⟩
      · rw [PortBlock.windowRuns_iff] at runs ⊢
        obtain ⟨some, state, run⟩ := runs
        exact ⟨by rw [installed]; exact some, state, by rw [running]; exact run⟩
      · obtain ⟨e, rest, waiting⟩ := List.exists_cons_of_ne_nil waiting
        have aged : waitingRest ((s.port j).queue.map QueueEntry.age) = e.age :: rest.map QueueEntry.age := by
          rw [waitingRest_map_age, waiting, List.map_cons]
        dsimp only
        rw [waitingRest_release_first aged reached, waiting]
        exact congrArg some (age_request e)
  · rw [(Contained.closeHold k i s).confined.2 j same]
    exact hs j

/-- A port that enters LOADING or ACTIVE keeps its running window. -/
theorem windowRuns_of_open {b b' : PortBlock} (runs : b.windowRuns = true) (meter : b'.meter = b.meter)
    (state : b'.controller.portState = .active ∨ b'.controller.portState = .loading) : b'.windowRuns = true := by
  rw [PortBlock.windowRuns_iff] at runs ⊢
  rw [meter]
  exact ⟨runs.1, state, runs.2.2⟩

/-- A change of the controller that keeps the port state keeps the window. -/
theorem windowRuns_of_state {b b' : PortBlock} (runs : b.windowRuns = true) (meter : b'.meter = b.meter)
    (state : b'.controller.portState = b.controller.portState) : b'.windowRuns = true :=
  windowRuns_of_open runs meter (by rw [state]; exact ((PortBlock.windowRuns_iff b).1 runs).2.1)

theorem ClaimsSound.startLoad {s : State} (hs : ClaimsSound s) (k : Port) (index : Byte) :
    ClaimsSound (startLoad k index s) :=
  ClaimsSound.congr (hs.keep k (b := { s.port k with
    load := some ⟨index, recordAddress s.tableBase index⟩
    controller := { (s.port k).controller with
      loadInFlight := true, cancelledLoad := false, portState := .loading } }) rfl rfl rfl fun runs _ =>
    ⟨windowRuns_of_open runs rfl (.inr rfl), rfl, rfl, rfl, rfl⟩) rfl

theorem ClaimsSound.closeWindow {s : State} (hs : ClaimsSound s) (k : Port) {i : Installed}
    (installed : (s.port k).meter.installed = some i) : ClaimsSound (closeWindow k i s) := by
  rw [closeWindow_steps]
  have upTo7 := ((hs.closeUpTo5 k installed).evaluate k).closeHold k i
  refine ClaimsSound.submitReport ?_ k i
  generalize Machine.closeHold k i (Machine.evaluate k (Machine.closeUpTo5 k i s)) = u at upTo7
  have stepped := fun c (state : c.portState = (u.port k).controller.portState) =>
    upTo7.setController k c fun runs => windowRuns_of_state runs rfl state
  unfold closeSignal
  dsimp only
  split
  · split
    · split
      · exact (stepped _ (by rfl)).startLoad k _
      · split
        · exact (stepped _ (by rfl)).submit _
        · exact stepped _ (by rfl)
    · exact stepped _ (by rfl)
  · exact upTo7

/-! ### Requests and answers of the pool (01, 2.3) -/

theorem ClaimsSound.takeRequest {s : State} (hs : ClaimsSound s) (k : Port) (r : Request) :
    ClaimsSound (takeRequest k r s) := by
  have joined : ∀ e, ClaimsSound (s.setQueue k ((s.port k).queue ++ [e])) := fun e =>
    hs.keep k rfl rfl rfl fun runs waiting => by
      refine ⟨runs, rfl, rfl, rfl, ?_⟩
      dsimp only
      rw [waitingRest_append waiting]
      obtain ⟨x, rest, waiting⟩ := List.exists_cons_of_ne_nil waiting
      rw [waiting]
      rfl
  unfold Machine.takeRequest
  dsimp only
  split
  · exact (joined _).evaluate k
  · exact joined _

/-- R31, R32: the answer is the one the claim waited for, and nothing is left on its way. -/
theorem ClaimSound.answered {b : PortBlock} (h : ClaimSound b) {a : ClaimAnswer} {rest : List ClaimAnswer}
    (oldest : b.answers = a :: rest) : b.claimsSent = 0 ∧ rest = [] := by
  have account := h.account
  rw [oldest, List.length_cons] at account
  split at account
  · exact ⟨by omega, List.length_eq_zero_iff.1 (by omega)⟩
  · omega

theorem ClaimsSound.takeAnswer {s : State} (hs : ClaimsSound s) (k : Port) (a : ClaimAnswer)
    {rest : List ClaimAnswer} (oldest : (s.port k).answers = a :: rest) :
    ClaimsSound (takeAnswer k a (s.setPort k { s.port k with answers := rest })) := by
  obtain ⟨sent, rfl⟩ := (hs k).answered oldest
  have cleared : ClaimsSound ((s.setPort k { s.port k with answers := [] }).setMeter k
      { (s.port k).meter with claim := none }) := by
    rw [State.setMeter, State.setPort_port_same, State.setPort_setPort]
    exact hs.setPort k (ClaimSound.unclaimed rfl sent rfl)
  unfold Machine.takeAnswer
  simp only [State.setPort_port_same]
  split
  · next i claim installed hc =>
    split
    · next current =>
      obtain ⟨runs, -⟩ := (hs k).current claim hc current
      have now : ∀ r : Evaluated, r.ClaimsExactly i →
          r.KeepsWindow { (s.port k).meter with claim := none } → ClaimsSound (((s.setPort k { s.port k with
            answers := [] }).setMeter k { (s.port k).meter with claim := none }).applyEvaluated k r) :=
        fun r claims window => by
          refine cleared.applyEvaluated ?_ ?_ ?_ ?_ claims ?_ <;>
            rw [State.setMeter_port_same, State.setPort_port_same]
          · exact sent
          · exact installed
          · exact runs
          · exact window
      split
      · exact now _ (grantQueue_claimsExactly k i _ _ _ rfl) (grantQueue_keepsWindow k i _ _ _ rfl)
      · exact now _ (refuseQueue_claimsExactly i _ _ rfl) (refuseQueue_keepsWindow _ _)
    · exact cleared.evaluate k
  · exact cleared.evaluate k

/-- R54: the message of a claim becomes its answer. -/
theorem ClaimSound.claimTaken {b : PortBlock} (h : ClaimSound b) {n : Nat} {rest : List PoolMessage}
    (oldest : b.toPool = .claim n :: rest) (a : ClaimAnswer) :
    ClaimSound { b with toPool := rest, answers := b.answers ++ [a] } := by
  refine ⟨?_, fun c n' hc hn => h.message c n' hc (by rw [oldest]; exact List.mem_cons_of_mem _ hn), h.current⟩
  have account := h.account
  simp only [PortBlock.claimsSent, oldest, List.countP_cons, if_true] at account
  simp only [PortBlock.claimsSent, List.length_append, List.length_singleton]
  omega

theorem ClaimSound.donationTaken {b : PortBlock} (h : ClaimSound b) {d : Nat} {rest : List PoolMessage}
    (oldest : b.toPool = .donation d :: rest) : ClaimSound { b with toPool := rest } := by
  refine ⟨?_, fun c n' hc hn => h.message c n' hc (by rw [oldest]; exact List.mem_cons_of_mem _ hn), h.current⟩
  have account := h.account
  simp only [PortBlock.claimsSent, oldest, List.countP_cons] at account
  exact account

/-! ### Loads, drains and counts -/

theorem ClaimsSound.endLoad {s : State} (hs : ClaimsSound s) (k : Port) : ClaimsSound (endLoad k s) :=
  hs.keep k rfl rfl rfl fun runs _ => ⟨windowRuns_of_state runs rfl rfl, rfl, rfl, rfl, rfl⟩

/-- The early end, an install and the end of a load (R76, R78). -/
theorem ClaimsSound.installAfterEnd {s : State} (hs : ClaimsSound s) (k : Port) (i : Installed) (c : Controller)
    (state : c.portState = (s.port k).controller.portState) :
    ClaimsSound (Machine.installProfile k i ((Machine.earlyEnd k s).setController k c)) := by
  obtain ⟨ended, stale⟩ := hs.earlyEnd k
  have same : c.portState = ((Machine.earlyEnd k s).port k).controller.portState := by
    rw [earlyEnd_controller, state]
  refine (ended.setController k c fun runs => windowRuns_of_state runs rfl same).installProfile k i ?_
  rw [State.setController_port_same]
  exact stale

theorem ClaimsSound.activate {s : State} (hs : ClaimsSound s) (k : Port) (c : Controller)
    (active : c.portState = .active) : ClaimsSound (s.setController k c) :=
  hs.setController k c fun runs => windowRuns_of_open runs rfl (.inl active)

theorem ClaimsSound.installFromTable {s : State} (hs : ClaimsSound s) (k : Port) (index : Byte) (p : Profile) :
    ClaimsSound (installFromTable k index p s) := by
  have begun := hs.installAfterEnd k ⟨p, index, .table⟩ { ((Machine.earlyEnd k s).port k).controller with
    fallbackInUse := false } (by simp only [earlyEnd_controller])
  unfold Machine.installFromTable
  dsimp only
  split
  · exact ((begun.activate k _ (by rfl)).endLoad k).submit _
  · exact (begun.activate k _ (by rfl)).endLoad k

theorem ClaimsSound.installFallback {s : State} (hs : ClaimsSound s) (k : Port) (index : Byte)
    (reason : FaultReason) : ClaimsSound (installFallback k index reason s) :=
  (((hs.installAfterEnd k _ { ((Machine.earlyEnd k s).port k).controller with fallbackInUse := true }
    (by simp only [earlyEnd_controller])).activate k _ (by rfl)).endLoad k).submit _

theorem ClaimsSound.keepRegime {s : State} (hs : ClaimsSound s) (k : Port) (reason : FaultReason) :
    ClaimsSound (keepRegime k reason s) := by
  unfold Machine.keepRegime
  dsimp only
  refine ClaimsSound.submit ?_ _
  split
  · exact (hs.endLoad k).activate k _ (by rfl)
  · exact (hs.endLoad k).massAdmit k _

theorem ClaimsSound.takeLoadResult {s : State} (hs : ClaimsSound s) (k : Port) (result : LoadResult) :
    ClaimsSound (takeLoadResult k result s) := by
  unfold Machine.takeLoadResult
  split
  · exact hs
  · split
    · exact hs.endLoad k
    · split
      · exact hs.installFromTable k _ _
      · split
        · exact hs.installFallback k _ _
        · exact hs.keepRegime k _

/-- A DRAINING port has no window, so the end of the drain touches no current claim (R99). -/
theorem ClaimsSound.judgeDrain {s : State} (hs : ClaimsSound s) (k : Port) : ClaimsSound (judgeDrain k s) := by
  unfold Machine.judgeDrain
  split
  · next drained =>
    refine ClaimsSound.submit (hs.setController k _ fun runs => ?_) _
    obtain ⟨-, open_, -⟩ := (PortBlock.windowRuns_iff _).1 runs
    simp [drained.1] at open_
  · exact hs

theorem ClaimsSound.quiescePort {s : State} (hs : ClaimsSound s) (k : Port) : ClaimsSound (quiescePort k s) :=
  ((hs.stopMeter k).massAdmit k _).judgeDrain k

theorem ClaimsSound.resumePort {s : State} (hs : ClaimsSound s) (k : Port)
    (quiet : (s.port k).controller.portState = .quiet) : ClaimsSound (resumePort k s) := by
  have still : (s.port k).windowRuns = false := by simp [PortBlock.windowRuns, quiet]
  unfold Machine.resumePort
  split
  · rw [startWindow, State.setController_port_same, State.setMeter, State.setController_port_same,
      State.setController, State.setPort_setPort]
    refine ClaimsSound.evaluate ?_ k
    exact hs.stale k ((hs k).not_current still).symm (by rfl) (by rfl)
  · exact hs.massAdmit k _

theorem ClaimsSound.countCompletion {s : State} (hs : ClaimsSound s) (k : Port) (status : AnswerStatus)
    (latency : Nat) : ClaimsSound (countCompletion k status latency s) := by
  unfold Machine.countCompletion
  dsimp only
  split
  · exact hs.keep k rfl rfl rfl fun runs _ => ⟨runs, rfl, rfl, rfl, rfl⟩
  · exact hs

theorem ClaimsSound.countTimeout {s : State} (hs : ClaimsSound s) (k : Port) :
    ClaimsSound (countTimeout k s) := by
  unfold Machine.countTimeout
  dsimp only
  split
  · exact hs.keep k rfl rfl rfl fun runs _ => ⟨runs, rfl, rfl, rfl, rfl⟩
  · exact hs

theorem ClaimsSound.writer {s t : State} (hs : ClaimsSound s) (h : WriterContained s t) : ClaimsSound t :=
  hs.congr h.ports

/-! ## Every effect -/

theorem CommandEffect.keeps_claimsSound {s t : State} (h : CommandEffect s t) (hs : ClaimsSound s) :
    ClaimsSound t := by
  cases h with
  | unchanged | poolLimit | timeout | tableBase | ringStopped | noticePopped | overflowCleared | irqSet =>
    exact hs.congr rfl
  | fallbackSet k | fallbackCleared k =>
    exact hs.keep k rfl rfl rfl fun runs _ => ⟨runs, rfl, rfl, rfl, rfl⟩
  | loadStarted k index => exact hs.startLoad k index
  | quiesced k => exact hs.quiescePort k
  | resumed k quiet => exact hs.resumePort k quiet
  | ringStarted base size => exact hs.writer (WriterContained.startRing base size s)
  | acknowledged c => exact hs.writer (WriterContained.acknowledge c s)

/-- R30, R55: an effect makes a claim in an evaluation, moves it on, makes it stale, or clears it. -/
theorem Effect.keeps_claimsSound {c : Instr} {s t : State} (h : Effect c s t) (hs : ClaimsSound s) :
    ClaimsSound t := by
  cases h with
  | nothing | clock | memoryPortReady | orphanFreed | shifted => exact hs.congr rfl
  | inputFollowed k | portReleased k => exact hs.keep k rfl rfl rfl fun runs _ => ⟨runs, rfl, rfl, rfl, rfl⟩
  | donationTaken k d rest oldest =>
    have taken := hs.setPort k ((hs k).donationTaken oldest)
    exact taken.congr rfl
  | claimTaken k n rest oldest =>
    have taken := hs.setPort k ((hs k).claimTaken oldest (s.pool.answer n))
    exact taken.congr rfl
  | powerReset mcsLow asserted =>
    intro k
    rw [powerOn_port]
    exact ClaimSound.unclaimed rfl rfl rfl
  | softReset bits =>
    intro k
    rw [softReset_port]
    exact (hs k).stale rfl rfl (fun _ => id) rfl
  | request k r => exact hs.takeRequest k r
  | portReset k =>
    have discarded := hs.stale k (b := { s.port k with
      resetAsserted := true, queue := [], meter := (s.port k).meter.staleClaim
      controller := { (s.port k).controller with
        drain := (s.port k).controller.drain.map fun d => { d with ahead := 0 } } }) rfl rfl rfl
    exact (discarded.congr (State.setTable_ports _ _)).judgeDrain k
  | windowClosed k i _ installed => exact hs.closeWindow k installed
  | answerTaken k answer rest oldest => exact hs.takeAnswer k answer oldest
  | reportTaken k r rest =>
    have taken := hs.keep k (b := { s.port k with toWriter := rest }) rfl rfl rfl fun runs _ =>
      ⟨runs, rfl, rfl, rfl, rfl⟩
    exact taken.writer (WriterContained.takeReport r _)
  | internalGranted item rest tag oldest free =>
    rw [grantInternal_eq oldest free]
    exact hs.congr rfl
  | portGranted k e rest tag queue admitted _ free =>
    rw [grantPort_eq queue free]
    have departed := hs.keep k (b := (s.port k).departed) rfl rfl rfl fun runs _ => by
      refine ⟨windowRuns_of_state runs rfl rfl, rfl, rfl, rfl, ?_⟩
      rw [PortBlock.departed, queue, waitingRest_cons_admitted admitted]
      rfl
    exact departed.congr rfl
  | portOrphanFreed tag f k => exact (hs.setEntry tag none).judgeDrain k
  | answered tag f k rtag status data =>
    rw [answerPort_eq]
    have freed : ClaimsSound ((s.emit (.completion k rtag (completionStatus status)
      (if f.kind = .read then data else []))).setEntry tag none) := hs.congr rfl
    exact (freed.countCompletion k status _).judgeDrain k
  | timedOut tag f k rtag =>
    have left : ClaimsSound ((s.setEntry tag (some f.orphan)).emit (.completion k rtag .timeout
      (if f.kind = .read then List.replicate f.beats 0 else []))) := hs.congr rfl
    exact ((left.countTimeout k).submit _).judgeDrain k
  | loadEnded tag f k e result => exact (hs.setEntry tag e).takeLoadResult k result
  | written tag f => exact (hs.setEntry tag none).writer (WriterContained.writeSucceeded _)
  | writeFaulted tag f e reason => exact (hs.setEntry tag e).writer (WriterContained.writeFailed reason _)
  | commanded bits status data owner =>
    have kept := owner.keeps_claimsSound (hs.congr rfl)
    exact kept.congr rfl

theorem ClaimsSound.tick {s : State} (hs : ClaimsSound s) : ClaimsSound (tick s) := by
  intro k
  rw [tick_port, PortBlock.tick_eq]
  exact (hs k).keep rfl rfl rfl fun runs _ => ⟨runs, rfl, rfl, rfl, rfl⟩

/-- Settles O13: each effect and each tick keeps every claim accounted for and exact. -/
theorem everyStepKeepsTheClaimsSound : Obligations.EveryStepKeepsTheClaimsSound := fun _ _ =>
  step_keeps (fun _ hs => hs.tick) (fun _ _ _ hs => hs.congr rfl) fun _ _ _ e hs => e.keeps_claimsSound hs

end Sys2Proof.Machine
end

