-- ==== Sys2Proof/Proofs/QueueSteps.lean ====
section
/-! PROOF. What evaluations, mass admissions and the hold limit do to a port queue: every entry keeps its place,
an ADMITTED one stays so, and the ADMITTED entries stay one run from the head (R5, R10). -/

namespace Sys2Proof.Machine

open Sys2Proof

/-! ## The run and the rest -/

/-- R5, R10: behind the ADMITTED run every entry is WAITING, in falling order of its held-closes count. -/
def RunSound (q : List QueueEntry) : Prop :=
  (∀ e ∈ waitingRest q, e.status = .waiting) ∧
    (waitingRest q).Pairwise fun a b => b.heldCloses ≤ a.heldCloses

/-- A queue whose entries are all WAITING, in falling order of their counts. -/
def AllWaiting (q : List QueueEntry) : Prop :=
  (∀ e ∈ q, e.status = .waiting) ∧ q.Pairwise fun a b => b.heldCloses ≤ a.heldCloses

theorem queueSound_iff (q : List QueueEntry) : QueueSound q ↔ RunSound q ∧ q.length ≤ 16 ∧
    ∀ e ∈ q, e.heldCloses ≤ 15 ∧ e.request.wellFormed = true := by
  constructor
  · intro h
    exact ⟨⟨h.run, h.heldOrder⟩, h.depth, fun e he => ⟨h.held e he, h.wellFormed e he⟩⟩
  · rintro ⟨⟨run, order⟩, depth, each⟩
    exact ⟨depth, run, fun e he => (each e he).1, order, fun e he => (each e he).2⟩

theorem AllAdmitted.runSound {q : List QueueEntry} (h : AllAdmitted q) : RunSound q := by
  rw [RunSound, waitingRest_allAdmitted h]
  exact ⟨by simp, .nil⟩

theorem waitingRest_allWaiting {q : List QueueEntry} (h : ∀ e ∈ q, e.status = .waiting) :
    waitingRest q = q := by
  cases q with
  | nil => rfl
  | cons e q => simp [waitingRest, h e (by simp)]

theorem AllWaiting.runSound {q : List QueueEntry} (h : AllWaiting q) : RunSound q := by
  rw [RunSound, waitingRest_allWaiting h.1]
  exact h

theorem AllWaiting.tail {e : QueueEntry} {q : List QueueEntry} (h : AllWaiting (e :: q)) : AllWaiting q :=
  ⟨fun x hx => h.1 x (List.mem_cons_of_mem _ hx), h.2.of_cons⟩

theorem runSound_iff (q : List QueueEntry) : RunSound q ↔ AllWaiting (waitingRest q) := Iff.rfl

theorem runSound_cons_admitted {e : QueueEntry} (h : e.status = .admitted) (q : List QueueEntry) :
    RunSound (e :: q) ↔ RunSound q := by
  rw [RunSound, waitingRest_cons_admitted h, RunSound]

theorem runSound_cons_waiting {e : QueueEntry} (h : e.status = .waiting) (q : List QueueEntry) :
    RunSound (e :: q) ↔ AllWaiting (e :: q) := by
  rw [RunSound, show waitingRest (e :: q) = e :: q by simp [waitingRest, h], AllWaiting]

theorem runSound_admitted_append {run : List QueueEntry} (h : AllAdmitted run) (q : List QueueEntry) :
    RunSound (run ++ q) ↔ RunSound q := by
  rw [RunSound, waitingRest_admitted_append h, RunSound]

/-! ## Steps of a queue -/

/-- Entry by entry: the request stays, the count stays within 15, and an ADMITTED entry stays ADMITTED. -/
def EntryStep (e e' : QueueEntry) : Prop :=
  e'.request = e.request ∧ (e.heldCloses ≤ 15 → e'.heldCloses ≤ 15) ∧
    (e.status = .admitted → e'.status = .admitted)

/-- A queue after an operation that neither adds nor removes an entry. -/
structure QueueStep (q q' : List QueueEntry) : Prop where
  run     : RunSound q → RunSound q'
  entries : List.Forall₂ EntryStep q q'

theorem EntryStep.refl (e : QueueEntry) : EntryStep e e := ⟨rfl, id, id⟩

theorem EntryStep.trans {a b c : QueueEntry} (h : EntryStep a b) (h' : EntryStep b c) : EntryStep a c := by
  obtain ⟨request, held, status⟩ := h
  obtain ⟨request', held', status'⟩ := h'
  exact ⟨request'.trans request, held' ∘ held, status' ∘ status⟩

theorem forall₂_entryStep_trans {p q r : List QueueEntry} (h : List.Forall₂ EntryStep p q)
    (h' : List.Forall₂ EntryStep q r) : List.Forall₂ EntryStep p r := by
  induction h generalizing r with
  | nil => exact h'
  | cons step _ ih =>
    cases h' with
    | cons step' rest' => exact .cons (step.trans step') (ih rest')

theorem forall₂_entryStep_refl (q : List QueueEntry) : List.Forall₂ EntryStep q q :=
  List.forall₂_same.2 fun e _ => .refl e

theorem forall₂_entryStep_map {f : QueueEntry → QueueEntry} (h : ∀ e, EntryStep e (f e)) (q : List QueueEntry) :
    List.Forall₂ EntryStep q (q.map f) :=
  List.forall₂_map_right_iff.2 (List.forall₂_same.2 fun e _ => h e)

namespace QueueStep

theorem refl (q : List QueueEntry) : QueueStep q q := ⟨id, forall₂_entryStep_refl q⟩

theorem trans {p q r : List QueueEntry} (h : QueueStep p q) (h' : QueueStep q r) : QueueStep p r :=
  ⟨h'.run ∘ h.run, forall₂_entryStep_trans h.entries h'.entries⟩

theorem length {q q' : List QueueEntry} (h : QueueStep q q') : q'.length = q.length := h.entries.length_eq.symm

theorem eq_nil {q' : List QueueEntry} (h : QueueStep [] q') : q' = [] :=
  List.length_eq_zero_iff.1 h.length

theorem allAdmitted {q q' : List QueueEntry} (h : QueueStep q q') (all : AllAdmitted q) : AllAdmitted q' := by
  have entries := h.entries
  clear h
  induction entries with
  | nil => exact all
  | cons step _ ih =>
    intro e he
    rcases List.mem_cons.1 he with rfl | he
    · exact step.2.2 (all _ (by simp))
    · exact ih (fun x hx => all x (List.mem_cons_of_mem _ hx)) e he

theorem waitingRest {q q' : List QueueEntry} (h : QueueStep q q') (none : Machine.waitingRest q = []) :
    Machine.waitingRest q' = [] :=
  waitingRest_allAdmitted (h.allAdmitted (allAdmitted_of_waitingRest none))

theorem forall_mem {q q' : List QueueEntry} (h : List.Forall₂ EntryStep q q') {p : QueueEntry → Prop}
    (step : ∀ e e', EntryStep e e' → p e → p e') (all : ∀ e ∈ q, p e) : ∀ e ∈ q', p e := by
  induction h with
  | nil => simp
  | cons first _ ih =>
    intro e he
    rcases List.mem_cons.1 he with rfl | he
    · exact step _ _ first (all _ (by simp))
    · exact ih (fun x hx => all x (List.mem_cons_of_mem _ hx)) e he

/-- R5, R6, R10: such an operation keeps a sound queue sound. -/
theorem sound {q q' : List QueueEntry} (h : QueueStep q q') (hq : QueueSound q) : QueueSound q' := by
  rw [queueSound_iff] at hq ⊢
  obtain ⟨run, depth, each⟩ := hq
  refine ⟨h.run run, h.length ▸ depth, ?_⟩
  refine forall_mem h.entries (fun e e' step sound => ?_) each
  obtain ⟨request, held, -⟩ := step
  exact ⟨held sound.1, request ▸ sound.2⟩

theorem cons_admitted {e e' : QueueEntry} {q q' : List QueueEntry} (same : EntryStep e e')
    (admitted : e.status = .admitted) (h : QueueStep q q') : QueueStep (e :: q) (e' :: q') := by
  refine ⟨fun run => ?_, .cons same h.entries⟩
  rw [runSound_cons_admitted (same.2.2 admitted)]
  exact h.run ((runSound_cons_admitted admitted q).1 run)

/-- An admission of the first WAITING entry, and what goes on behind it (R27). -/
theorem cons_admit {e : QueueEntry} {q q' : List QueueEntry} (h : QueueStep q q') :
    QueueStep (e :: q) (e.markAdmitted :: q') := by
  refine ⟨fun run => ?_, .cons ⟨rfl, id, fun _ => rfl⟩ h.entries⟩
  rw [runSound_cons_admitted (by rfl)]
  refine h.run ?_
  cases status : e.status with
  | admitted => exact (runSound_cons_admitted status q).1 run
  | waiting => exact ((runSound_cons_waiting status q).1 run).tail.runSound

/-- A refusal marks an entry that stays where it is (R11). -/
theorem cons_refuse (e : QueueEntry) (q : List QueueEntry) : QueueStep (e :: q) (e.markRefused :: q) := by
  refine ⟨fun run => ?_, .cons ⟨rfl, id, id⟩ (forall₂_entryStep_refl q)⟩
  cases status : e.status with
  | admitted =>
    rw [runSound_cons_admitted status] at run
    rwa [runSound_cons_admitted (by exact status)]
  | waiting =>
    rw [runSound_cons_waiting status] at run
    rw [runSound_cons_waiting (by exact status)]
    obtain ⟨waiting, order⟩ := run
    refine ⟨fun x hx => ?_, ?_⟩
    · rcases List.mem_cons.1 hx with rfl | hx
      · exact status
      · exact waiting x (List.mem_cons_of_mem _ hx)
    · exact List.pairwise_cons.2 ⟨(List.pairwise_cons.1 order).1, order.of_cons⟩

theorem admitted_append {run q q' : List QueueEntry} (h : QueueStep q q') (all : AllAdmitted run) :
    QueueStep (run ++ q) (run ++ q') := by
  induction run with
  | nil => exact h
  | cons e run ih =>
    exact cons_admitted (.refl e) (all e (by simp)) (ih fun x hx => all x (List.mem_cons_of_mem _ hx))

theorem evaluateQueue (k : Port) (i : Installed) (m : Meter) (q : List QueueEntry) :
    QueueStep q (evaluateQueue k i m q).queue := by
  induction q generalizing m with
  | nil => exact refl []
  | cons e rest ih =>
    cases status : e.status with
    | admitted =>
      simp only [Machine.evaluateQueue, status]
      exact cons_admitted (.refl e) status (ih m)
    | waiting =>
      cases decided : decideEntry k i m e.request with
      | admission m' ns =>
        simp only [Machine.evaluateQueue, status, decided]
        exact cons_admit (ih m')
      | refuse =>
        simp only [Machine.evaluateQueue, status, decided]
        exact cons_refuse e rest
      | claim n =>
        simp only [Machine.evaluateQueue, status, decided]
        exact refl _

theorem grantQueue (k : Port) (i : Installed) (n : Nat) (m : Meter) (q : List QueueEntry) :
    QueueStep q (grantQueue k i n m q).queue := by
  unfold Machine.grantQueue
  split
  · exact refl q
  · next e rest waiting =>
    have whole := admittedRun_append_waitingRest q
    rw [waiting] at whole
    conv => lhs; rw [← whole]
    exact (cons_admit (evaluateQueue ..)).admitted_append (admittedRun_allAdmitted q)

theorem refuseQueue (m : Meter) (q : List QueueEntry) : QueueStep q (refuseQueue m q).queue := by
  unfold Machine.refuseQueue
  split
  · exact refl q
  · next e rest waiting =>
    have whole := admittedRun_append_waitingRest q
    rw [waiting] at whole
    conv => lhs; rw [← whole]
    exact (cons_refuse e rest).admitted_append (admittedRun_allAdmitted q)

/-- R9: a mass admission leaves no entry WAITING. -/
theorem markAdmitted (q : List QueueEntry) : QueueStep q (q.map QueueEntry.markAdmitted) :=
  ⟨fun _ => AllAdmitted.runSound (allAdmitted_of_waitingRest (waitingRest_all_marked q)),
    forall₂_entryStep_map (f := QueueEntry.markAdmitted) (fun _ => ⟨rfl, id, fun _ => rfl⟩) q⟩

theorem entryStep_age (e : QueueEntry) : EntryStep e e.age := by
  refine ⟨age_request e, fun _ => ?_, fun admitted => (age_status e).trans admitted⟩
  unfold QueueEntry.age
  split
  · exact Nat.min_le_right _ _
  · assumption

theorem entryStep_release (maxHold : Nat) (e : QueueEntry) : EntryStep e (e.release maxHold) := by
  unfold QueueEntry.release
  split
  · exact ⟨rfl, id, fun _ => rfl⟩
  · exact .refl e

theorem age_heldCloses_le {a b : QueueEntry} (ha : a.status = .waiting) (hb : b.status = .waiting)
    (h : b.heldCloses ≤ a.heldCloses) : b.age.heldCloses ≤ a.age.heldCloses := by
  simp only [QueueEntry.age, ha, hb, if_true, saturate]
  omega

theorem age (q : List QueueEntry) : QueueStep q (q.map QueueEntry.age) := by
  refine ⟨fun run => ?_, forall₂_entryStep_map entryStep_age q⟩
  obtain ⟨waiting, order⟩ := run
  rw [RunSound, waitingRest_map_age]
  refine ⟨fun e he => ?_, List.pairwise_map.2 ?_⟩
  · obtain ⟨x, hx, rfl⟩ := List.mem_map.1 he
    exact (age_status x).trans (waiting x hx)
  · exact order.imp_of_mem fun ha hb h => age_heldCloses_le (waiting _ ha) (waiting _ hb) h

/-- R37: where the limit spares an entry, it spares every one behind it. -/
theorem map_release_spared {maxHold : Nat} {e : QueueEntry} {q : List QueueEntry} (h : AllWaiting (e :: q))
    (spared : reachesHold maxHold e = false) : (e :: q).map (QueueEntry.release maxHold) = e :: q := by
  have first := h.1 e (by simp)
  have each : ∀ x ∈ e :: q, x.release maxHold = x := by
    intro x hx
    have behind : x.heldCloses ≤ e.heldCloses := by
      rcases List.mem_cons.1 hx with rfl | hx
      · exact le_rfl
      · exact (List.pairwise_cons.1 h.2).1 x hx
    have waits := h.1 x hx
    refine if_neg ?_
    simp only [reachesHold, first, waits, BEq.rfl, Bool.true_and, Bool.and_eq_true, Bool.and_eq_false_iff,
      bne_iff_ne, bne_eq_false_iff_eq, decide_eq_true_eq, decide_eq_false_iff_not] at spared ⊢
    omega
  exact (List.map_congr_left each).trans (List.map_id' _)

theorem release_allWaiting (maxHold : Nat) {q : List QueueEntry} (h : AllWaiting q) :
    RunSound (q.map (QueueEntry.release maxHold)) := by
  induction q with
  | nil => exact h.runSound
  | cons e q ih =>
    cases reached : reachesHold maxHold e with
    | false =>
      rw [map_release_spared h reached]
      exact h.runSound
    | true =>
      have admitted : (e.release maxHold).status = .admitted := by
        simp [QueueEntry.release, reached, QueueEntry.markAdmitted]
      rw [List.map_cons, runSound_cons_admitted admitted]
      exact ih h.tail

/-- R37: the hold limit admits the longest held entries, which stand first. -/
theorem release (maxHold : Nat) (q : List QueueEntry) : QueueStep q (q.map (QueueEntry.release maxHold)) := by
  refine ⟨fun run => ?_, forall₂_entryStep_map (entryStep_release maxHold) q⟩
  conv in List.map _ _ => rw [← admittedRun_append_waitingRest q]
  have admitted := admittedRun_allAdmitted q
  rw [List.map_append, map_release_allAdmitted maxHold admitted, runSound_admitted_append admitted]
  exact release_allWaiting maxHold run

end QueueStep

end Sys2Proof.Machine
end

