-- ==== Sys2Proof/Proofs/PortInvariant.lean ====
section
/-! PROOF. The ports: queues, load flags and the regime of each port state (R5, R67, R92, R99, R100), kept by
every step. -/

namespace Sys2Proof.Machine

open Sys2Proof

/-! ## The regime of one port -/

/-- What the port state fixes of the meter, the queue and the LIVE entries (R67, R92, R99, R100, R103). -/
def Governed (live : Nat) (b : PortBlock) : Prop :=
  match b.controller.portState with
  | .pass => b.meter.installed = none ∧ b.meter.windowRunning = false ∧ waitingRest b.queue = []
  | .active => b.meter.installed.isSome = true ∧ b.meter.windowRunning = true
  | .loading => b.meter.windowRunning = b.meter.installed.isSome
  | .draining => b.meter.windowRunning = false ∧ waitingRest b.queue = []
  | .quiet => b.meter.windowRunning = false ∧ b.queue = [] ∧ live = 0

/-- A sound port with `live` LIVE entries, but for a drain that may be at its end. -/
structure PortOk (live : Nat) (power : Bool) (b : PortBlock) : Prop where
  queue    : QueueSound b.queue
  flags    : LoadFlagsSound b
  governed : Governed live b
  drain    : b.controller.drain.isSome = true ↔ b.controller.portState = .draining
  counts   : ∀ d, b.controller.drain = some d →
               d.ahead ≤ b.queue.length ∧ d.drained + b.queue.length ≤ 16 ∧ (0 < d.ahead → d.drained = 0)
  closed   : b.resetAsserted = true ∨ power = true → b.queue = [] ∧ live = 0

/-- A drain at its end (R99). -/
def DrainDue (live : Nat) (b : PortBlock) : Prop :=
  b.controller.portState = .draining ∧ b.queue = [] ∧ live = 0

theorem governed_of_regime {s : State} {k : Port} (h : RegimeSound s k) :
    Governed (s.liveCount k) (s.port k) := by
  have still (other : ¬ ((s.port k).controller.portState = .active ∨
      (s.port k).controller.portState = .loading)) : (s.port k).meter.windowRunning = false :=
    Bool.eq_false_iff.2 fun running => other (h.running running)
  unfold Governed
  cases state : (s.port k).controller.portState with
  | pass => exact ⟨(h.pass state).1, still (by simp [state]), (h.pass state).2⟩
  | active => exact h.active state
  | loading => exact h.loading state
  | draining => exact ⟨still (by simp [state]), (h.draining state).1⟩
  | quiet => exact ⟨still (by simp [state]), h.quiet state⟩

theorem regimeSound_of_portOk {s : State} {k : Port} (h : PortOk (s.liveCount k) s.rstAsserted (s.port k))
    (undue : ¬ DrainDue (s.liveCount k) (s.port k)) : RegimeSound s k := by
  have governed := h.governed
  unfold Governed at governed
  refine ⟨fun state => ?_, fun state => ?_, fun state => ?_, fun running => ?_, fun state => ?_, fun state => ?_,
    fun asserted => h.closed (.inl asserted), fun power => h.closed (.inr power), h.drain, h.counts⟩
  · rw [state] at governed
    exact ⟨governed.1, governed.2.2⟩
  · rw [state] at governed
    exact governed
  · rw [state] at governed
    exact governed
  · cases state : (s.port k).controller.portState <;> simp [state, running] at governed ⊢
  · rw [state] at governed
    refine ⟨governed.2, ?_⟩
    simpa [DrainDue, State.drainCondition, state] using undue
  · rw [state] at governed
    exact governed.2

theorem portsSound_iff (s : State) : PortsSound s ↔ ∀ k,
    PortOk (s.liveCount k) s.rstAsserted (s.port k) ∧ ¬ DrainDue (s.liveCount k) (s.port k) := by
  refine forall_congr' fun k => ⟨?_, ?_⟩
  · rintro ⟨queue, flags, regime⟩
    refine ⟨⟨queue, flags, governed_of_regime regime, regime.drain, regime.counts, fun closed =>
      closed.elim regime.reset regime.power⟩, ?_⟩
    rintro ⟨state, empty, none⟩
    have := (regime.draining state).2
    simp [State.drainCondition, empty, none] at this
  · rintro ⟨ok, undue⟩
    exact ⟨ok.queue, ok.flags, regimeSound_of_portOk ok undue⟩

/-- Fewer LIVE entries leave a port sound. -/
theorem PortOk.fewer {live live' : Nat} {power : Bool} {b : PortBlock} (h : PortOk live power b)
    (fewer : live' ≤ live) : PortOk live' power b := by
  refine { h with governed := ?_, closed := fun closed => ?_ }
  · have governed := h.governed
    unfold Governed at governed ⊢
    cases state : b.controller.portState <;> simp only [state] at governed ⊢
    case quiet =>
      obtain ⟨still, empty, none⟩ := governed
      exact ⟨still, empty, by omega⟩
    all_goals exact governed
  · obtain ⟨empty, none⟩ := h.closed closed
    exact ⟨empty, by omega⟩

/-- What an operation keeps of a port whose regime it does not touch. -/
structure PortKept (b b' : PortBlock) : Prop where
  state     : b'.controller.portState = b.controller.portState
  inFlight  : b'.controller.loadInFlight = b.controller.loadInFlight
  cancelled : b'.controller.cancelledLoad = b.controller.cancelledLoad
  drain     : b'.controller.drain = b.controller.drain
  load      : b'.load = b.load
  reset     : b'.resetAsserted = b.resetAsserted
  installed : b'.meter.installed = b.meter.installed
  running   : b'.meter.windowRunning = b.meter.windowRunning
  queue     : QueueStep b.queue b'.queue

theorem LoadFlagsSound.congr {b b' : PortBlock} (h : LoadFlagsSound b)
    (state : b'.controller.portState = b.controller.portState)
    (inFlight : b'.controller.loadInFlight = b.controller.loadInFlight)
    (cancelled : b'.controller.cancelledLoad = b.controller.cancelledLoad) (load : b'.load = b.load) :
    LoadFlagsSound b' := by
  obtain ⟨h1, h2, h3⟩ := h
  refine ⟨?_, ?_, ?_⟩
  · rw [inFlight, load]
    exact h1
  · rw [state, inFlight, cancelled]
    exact h2
  · rw [inFlight, cancelled]
    exact h3

theorem QueueStep.counts {q q' : List QueueEntry} (h : QueueStep q q') {drain : Option Drain}
    (counts : ∀ d, drain = some d → d.ahead ≤ q.length ∧ d.drained + q.length ≤ 16 ∧ (0 < d.ahead → d.drained = 0)) :
    ∀ d, drain = some d → d.ahead ≤ q'.length ∧ d.drained + q'.length ≤ 16 ∧ (0 < d.ahead → d.drained = 0) := by
  rw [h.length]
  exact counts

theorem QueueStep.closed {q q' : List QueueEntry} (h : QueueStep q q') {live : Nat} (empty : q = [] ∧ live = 0) :
    q' = [] ∧ live = 0 := by
  obtain ⟨rfl, none⟩ := empty
  exact ⟨h.eq_nil, none⟩

theorem PortOk.kept {live : Nat} {power : Bool} {b b' : PortBlock} (h : PortOk live power b)
    (same : PortKept b b') : PortOk live power b' := by
  refine ⟨same.queue.sound h.queue, h.flags.congr same.state same.inFlight same.cancelled same.load, ?_, ?_, ?_,
    fun closed => same.queue.closed (h.closed (by rwa [same.reset] at closed))⟩
  · have governed := h.governed
    unfold Governed at governed ⊢
    rw [same.state, same.installed, same.running]
    cases state : b.controller.portState <;> simp only [state] at governed ⊢
    case pass => exact ⟨governed.1, governed.2.1, same.queue.waitingRest governed.2.2⟩
    case draining => exact ⟨governed.1, same.queue.waitingRest governed.2⟩
    case quiet => exact ⟨governed.1, same.queue.closed governed.2⟩
    all_goals exact governed
  · rw [same.drain, same.state]
    exact h.drain
  · rw [same.drain]
    exact same.queue.counts h.counts

theorem DrainDue.kept {live : Nat} {b b' : PortBlock} (same : PortKept b b') (due : DrainDue live b') :
    DrainDue live b := by
  obtain ⟨state, empty, none⟩ := due
  refine ⟨same.state ▸ state, List.length_eq_zero_iff.1 ?_, none⟩
  rw [← same.queue.length, empty]
  rfl

/-- A port that is PASS, LOADING or ACTIVE before and after. -/
theorem PortOk.opened {live live' : Nat} {power : Bool} {b b' : PortBlock} (h : PortOk live power b)
    (before : b.controller.portState ≠ .draining) (after : b'.controller.portState ≠ .draining)
    (fewer : live' ≤ live) (flags : LoadFlagsSound b') (governed : Governed live' b')
    (drain : b'.controller.drain = b.controller.drain) (reset : b'.resetAsserted = b.resetAsserted)
    (queue : QueueStep b.queue b'.queue) : PortOk live' power b' := by
  have none : b.controller.drain = none := by
    rw [← Option.not_isSome_iff_eq_none, h.drain]
    exact before
  refine ⟨queue.sound h.queue, flags, governed, ?_, ?_, fun closed => queue.closed ?_⟩
  · rw [drain, none]
    simpa using after
  · rw [drain]
    exact queue.counts h.counts
  · rw [reset] at closed
    obtain ⟨empty, none⟩ := h.closed closed
    exact ⟨empty, by omega⟩

/-! ## LIVE entries of a port -/

theorem State.liveCount_setEntry (s : State) (tag : Fin 64) (e : Option InFlight) (k : Port) :
    (s.setEntry tag e).liveCount k + (if liveOf k s.table[tag.val] then 1 else 0) =
      s.liveCount k + (if liveOf k e then 1 else 0) :=
  countP_set_add (liveOf k) s.table tag e

theorem liveOf_left {e : Option InFlight} {f : InFlight} (left : e = none ∨ e = some f.orphan) (k : Port) :
    liveOf k e = false := by
  rcases left with rfl | rfl
  · rfl
  · exact liveOf_orphan k _ rfl

theorem liveOf_other {k : Port} {f : InFlight} (other : f.owner.portOf ≠ some k) :
    liveOf k (some f) = false := by
  simp [liveOf, heldBy, other]

theorem State.liveCount_leave_le (s : State) {tag : Fin 64} {f : InFlight} {e : Option InFlight}
    (left : e = none ∨ e = some f.orphan) (k : Port) : (s.setEntry tag e).liveCount k ≤ s.liveCount k := by
  have counted := s.liveCount_setEntry tag e k
  rw [liveOf_left left] at counted
  simp only [Bool.false_eq_true, if_false] at counted
  omega

theorem State.liveCount_leave_other {s : State} {tag : Fin 64} {f : InFlight} {e : Option InFlight}
    (entry : s.table[tag.val] = some f) (left : e = none ∨ e = some f.orphan) {k : Port}
    (other : f.owner.portOf ≠ some k) : (s.setEntry tag e).liveCount k = s.liveCount k := by
  have counted := s.liveCount_setEntry tag e k
  rw [liveOf_left left, entry, liveOf_other other] at counted
  simpa using counted

theorem liveOf_orphaned_spared {k : Port} {p : Owner → Bool} (spared : ∀ o, o.portOf = some k → p o = false)
    (e : Option InFlight) : liveOf k (orphaned p e) = liveOf k e := by
  cases e with
  | none => rfl
  | some f =>
    simp only [orphaned, Option.map_some]
    split
    · next met =>
      have other : f.owner.portOf ≠ some k := fun owner => by simp [spared _ owner] at met
      rw [liveOf_other other, liveOf_orphan k _ rfl]
    · rfl

theorem liveOf_orphaned_gone {k : Port} {p : Owner → Bool} (met : ∀ o, o.portOf = some k → p o = true)
    (e : Option InFlight) : liveOf k (orphaned p e) = false := by
  refine Bool.eq_false_iff.2 fun live => ?_
  obtain ⟨was, not_met⟩ := liveOf_orphaned k p e live
  cases e with
  | none => simp [liveOf_none] at was
  | some f =>
    simp only [liveOf, heldBy, Bool.and_eq_true, beq_iff_eq] at was
    simpa [met _ was.1] using not_met f rfl

theorem State.liveCount_orphanWhere_spared (s : State) {k : Port} {p : Owner → Bool}
    (spared : ∀ o, o.portOf = some k → p o = false) :
    (s.setTable (orphanWhere p s.table)).liveCount k = s.liveCount k := by
  rw [State.liveCount, State.setTable_table, orphanWhere_countP]
  simp only [liveOf_orphaned_spared spared]
  rfl

theorem State.liveCount_orphanWhere_gone (s : State) {k : Port} {p : Owner → Bool}
    (met : ∀ o, o.portOf = some k → p o = true) :
    (s.setTable (orphanWhere p s.table)).liveCount k = 0 := by
  rw [State.liveCount, State.setTable_table, orphanWhere_countP]
  simp only [liveOf_orphaned_gone met]
  simp

/-! ## All ports -/

/-- Every port is sound, but a drain of port `k` may be at its end. -/
def NearlySound (k : Port) (s : State) : Prop :=
  (∀ j, PortOk (s.liveCount j) s.rstAsserted (s.port j)) ∧ ∀ j, j ≠ k → ¬ DrainDue (s.liveCount j) (s.port j)

theorem PortsSound.nearly {s : State} (hs : PortsSound s) (k : Port) : NearlySound k s := by
  rw [portsSound_iff] at hs
  exact ⟨fun j => (hs j).1, fun j _ => (hs j).2⟩

theorem PortsSound.ok {s : State} (hs : PortsSound s) (k : Port) :
    PortOk (s.liveCount k) s.rstAsserted (s.port k) := (hs.nearly k).1 k

theorem NearlySound.sound {k : Port} {s : State} (hs : NearlySound k s)
    (undue : ¬ DrainDue (s.liveCount k) (s.port k)) : PortsSound s := by
  rw [portsSound_iff]
  intro j
  refine ⟨hs.1 j, ?_⟩
  by_cases same : j = k
  · exact same ▸ undue
  · exact hs.2 j same

theorem PortsSound.undue {s : State} (hs : PortsSound s) (k : Port) :
    ¬ DrainDue (s.liveCount k) (s.port k) := by
  rw [portsSound_iff] at hs
  exact (hs k).2

/-- A change that leaves the other ports and their LIVE entries. -/
theorem NearlySound.change {k : Port} {s t : State} (hs : NearlySound k s)
    (ports : ∀ j, j ≠ k → t.port j = s.port j) (live : ∀ j, j ≠ k → t.liveCount j = s.liveCount j)
    (power : t.rstAsserted = s.rstAsserted) (own : PortOk (t.liveCount k) s.rstAsserted (t.port k)) :
    NearlySound k t := by
  refine ⟨fun j => ?_, fun j other => ?_⟩
  · rw [power]
    by_cases same : j = k
    · exact same ▸ own
    · rw [ports j same, live j same]
      exact hs.1 j
  · rw [ports j other, live j other]
    exact hs.2 j other

theorem NearlySound.confined {k : Port} {s t : State} (hs : NearlySound k s) (contained : Contained k s t)
    (own : PortOk (s.liveCount k) s.rstAsserted (t.port k)) : NearlySound k t :=
  have live := State.liveCount_congr contained.confined.table
  hs.change contained.confined.2 (fun j _ => live j) contained.confined.rstAsserted (by rwa [live])

theorem PortsSound.congr {s t : State} (hs : PortsSound s) (ports : t.ports = s.ports)
    (live : ∀ k, t.liveCount k = s.liveCount k) (power : t.rstAsserted = s.rstAsserted) : PortsSound t := by
  rw [portsSound_iff] at hs ⊢
  intro k
  rw [live, power, State.port_def, ports, ← State.port_def]
  exact hs k

/-- A change that touches neither the ports nor the table. -/
theorem PortsSound.same {s t : State} (hs : PortsSound s) (ports : t.ports = s.ports) (table : t.table = s.table)
    (power : t.rstAsserted = s.rstAsserted) : PortsSound t :=
  hs.congr ports (State.liveCount_congr table) power

/-- An operation of port `k` that does not touch its regime. -/
structure RegimeKept (k : Port) (s t : State) : Prop where
  contained : Contained k s t
  port      : PortKept (s.port k) (t.port k)

theorem NearlySound.kept {k : Port} {s t : State} (hs : NearlySound k s) (h : RegimeKept k s t) :
    NearlySound k t := hs.confined h.contained ((hs.1 k).kept h.port)

theorem PortsSound.kept {k : Port} {s t : State} (hs : PortsSound s) (h : RegimeKept k s t) : PortsSound t := by
  refine ((hs.nearly k).kept h).sound fun due => hs.undue k ?_
  rw [State.liveCount_congr h.contained.confined.table] at due
  exact due.kept h.port

/-- R99, R100: the judgement of the drain condition ends a drain that is due. -/
theorem NearlySound.judgeDrain {k : Port} {s : State} (hs : NearlySound k s) : PortsSound (judgeDrain k s) := by
  have contained := Contained.judgeDrain k s
  obtain ⟨-, -, block, drained, still⟩ := judgeDrain_facts s k
  by_cases due : DrainDue (s.liveCount k) (s.port k)
  · have controller := (drained due).1
    rw [controller] at block
    have ok := hs.1 k
    obtain ⟨state, empty, none⟩ := due
    have idle : ¬ ((s.port k).controller.loadInFlight = true ∧ (s.port k).controller.cancelledLoad = false) := by
      rw [← ok.flags.loading, state]
      simp
    have governed := ok.governed
    simp only [Governed, state] at governed
    refine (hs.confined contained ?_).sound ?_
    · rw [block]
      refine ⟨ok.queue, ⟨ok.flags.context, ?_, ok.flags.cancelled⟩, ?_, ?_, ?_, ok.closed⟩
      · simpa using idle
      · exact ⟨governed.1, empty, none⟩
      · simp
      · simp
    · rw [block, DrainDue]
      simp
  · rw [still due]
    exact hs.sound due

/-! ## Operations that do not touch the regime -/

namespace RegimeKept

theorem refl (k : Port) (s : State) : RegimeKept k s s :=
  ⟨.refl k s, rfl, rfl, rfl, rfl, rfl, rfl, rfl, rfl, .refl _⟩

theorem trans {k : Port} {s t u : State} (h : RegimeKept k s t) (h' : RegimeKept k t u) : RegimeKept k s u := by
  obtain ⟨contained, a, b, c, d, e, f, g, i, queue⟩ := h
  obtain ⟨contained', a', b', c', d', e', f', g', i', queue'⟩ := h'
  exact ⟨contained.trans contained', a'.trans a, b'.trans b, c'.trans c, d'.trans d, e'.trans e, f'.trans f,
    g'.trans g, i'.trans i, queue.trans queue'⟩

/-- A change of the port alone. -/
theorem setPort (k : Port) (s : State) {b : PortBlock} (kept : PortKept (s.port k) b) :
    RegimeKept k s (s.setPort k b) :=
  ⟨.setPort k s b, by rwa [State.setPort_port_same]⟩

theorem submit (k : Port) (s : State) (n : Notice) : RegimeKept k s (s.submit n) :=
  ⟨.submit k s n, (refl k s).port⟩

theorem submitAll (k : Port) (s : State) (ns : List Notice) : RegimeKept k s (s.submitAll ns) :=
  ⟨.submitAll k s ns, (refl k s).port⟩

theorem applyEvaluated (k : Port) (s : State) {r : Evaluated} (window : r.KeepsWindow (s.port k).meter)
    (queue : QueueStep (s.port k).queue r.queue) : RegimeKept k s (s.applyEvaluated k r) :=
  (setPort k s (b := { s.port k with
    meter := r.meter, queue := r.queue, toPool := (s.port k).toPool ++ r.messages })
    ⟨rfl, rfl, rfl, rfl, rfl, rfl, window.1, window.2, queue⟩).trans (submitAll ..)

theorem evaluate (k : Port) (s : State) : RegimeKept k s (evaluate k s) := by
  unfold Machine.evaluate
  split
  · exact refl ..
  · split
    · exact applyEvaluated k s (evaluateQueue_keepsWindow ..) (.evaluateQueue ..)
    · exact refl ..

theorem submitReport (k : Port) (i : Installed) (s : State) : RegimeKept k s (submitReport k i s) := by
  refine ⟨.submitReport k i s, ?_⟩
  rw [submitReport_port]
  exact ⟨rfl, rfl, rfl, rfl, rfl, rfl, rfl, rfl, .refl _⟩

theorem earlyEnd (k : Port) (s : State) : RegimeKept k s (earlyEnd k s) := by
  cases runs : (s.port k).windowRuns with
  | false =>
    rw [earlyEnd_no_window k s runs]
    exact refl ..
  | true =>
    obtain ⟨i, installed⟩ := Option.isSome_iff_exists.1 ((PortBlock.windowRuns_iff _).1 runs).1
    rw [earlyEnd_window k s i runs installed]
    exact setPort k s ⟨rfl, rfl, rfl, rfl, rfl, rfl, rfl, rfl, .refl _⟩

theorem closeUpTo5 (k : Port) {i : Installed} {s : State} (installed : (s.port k).meter.installed = some i) :
    RegimeKept k s (closeUpTo5 k i s) := by
  refine ⟨.closeUpTo5 k i s, ?_⟩
  rw [closeUpTo5_port k i s installed]
  exact ⟨rfl, rfl, rfl, rfl, rfl, rfl, rfl, rfl, .refl _⟩

theorem closeHold (k : Port) (i : Installed) (s : State) : RegimeKept k s (closeHold k i s) := by
  refine ⟨.closeHold k i s, ?_⟩
  obtain ⟨m, block, -, -, -, running, installed, -⟩ := closeHold_port k i s
  rw [block]
  exact ⟨rfl, rfl, rfl, rfl, rfl, rfl, installed, running, (QueueStep.age _).trans (.release ..)⟩

theorem takeAnswer (k : Port) (a : ClaimAnswer) (s : State) : RegimeKept k s (takeAnswer k a s) := by
  have cleared := setPort k s (b := { s.port k with meter := { (s.port k).meter with claim := none } })
    ⟨rfl, rfl, rfl, rfl, rfl, rfl, rfl, rfl, .refl _⟩
  unfold Machine.takeAnswer
  dsimp only
  split
  · split
    · split
      · refine cleared.trans (applyEvaluated k _ ?_ ?_) <;> rw [State.setPort_port_same]
        · exact grantQueue_keepsWindow k _ _ _ _ rfl
        · exact .grantQueue ..
      · refine cleared.trans (applyEvaluated k _ ?_ ?_) <;> rw [State.setPort_port_same]
        · exact refuseQueue_keepsWindow _ _
        · exact .refuseQueue ..
    · exact cleared.trans (evaluate ..)
  · exact cleared.trans (evaluate ..)

theorem countCompletion (k : Port) (status : AnswerStatus) (latency : Nat) (s : State) :
    RegimeKept k s (countCompletion k status latency s) := by
  unfold Machine.countCompletion
  dsimp only
  split
  · exact setPort k s ⟨rfl, rfl, rfl, rfl, rfl, rfl, rfl, rfl, .refl _⟩
  · exact refl ..

theorem countTimeout (k : Port) (s : State) : RegimeKept k s (countTimeout k s) := by
  unfold Machine.countTimeout
  dsimp only
  split
  · exact setPort k s ⟨rfl, rfl, rfl, rfl, rfl, rfl, rfl, rfl, .refl _⟩
  · exact refl ..

end RegimeKept

/-! ## Operations that change the regime -/

/-- A change of port `k` after which no drain of it is due. -/
theorem PortsSound.setPort {s : State} (hs : PortsSound s) (k : Port) {b : PortBlock}
    (own : PortOk (s.liveCount k) s.rstAsserted b) (undue : ¬ DrainDue (s.liveCount k) b) :
    PortsSound (s.setPort k b) := by
  refine ((hs.nearly k).confined (Contained.setPort k s b) (by rwa [State.setPort_port_same])).sound ?_
  rw [State.setPort_port_same]
  exact undue

theorem not_due_of_state {live : Nat} {b : PortBlock} (h : b.controller.portState ≠ .draining) :
    ¬ DrainDue live b := fun due => h due.1

/-- R3: a new WAITING entry stands last, with the lowest count. -/
theorem RunSound.join {q : List QueueEntry} (h : RunSound q) {e : QueueEntry} (waits : e.status = .waiting)
    (young : e.heldCloses = 0) : RunSound (q ++ [e]) := by
  by_cases none : waitingRest q = []
  · rw [runSound_admitted_append (allAdmitted_of_waitingRest none), runSound_cons_waiting waits]
    exact ⟨by simpa using waits, by simp⟩
  · obtain ⟨waiting, order⟩ := h
    rw [RunSound, waitingRest_append none]
    refine ⟨fun x hx => ?_, List.pairwise_append.2 ⟨order, by simp, fun a _ b hb => ?_⟩⟩
    · rcases List.mem_append.1 hx with hx | hx
      · exact waiting x hx
      · rw [List.mem_singleton.1 hx]
        exact waits
    · rw [List.mem_singleton.1 hb, young]
      exact Nat.zero_le _

theorem QueueSound.join {q : List QueueEntry} (h : QueueSound q) {state : PortState} {r : Request}
    (pass : state = .pass → AllAdmitted q) (room : q.length < 16) (wellFormed : r.wellFormed = true) :
    QueueSound (q ++ [newEntry state r]) := by
  rw [queueSound_iff] at h ⊢
  obtain ⟨run, -, each⟩ := h
  refine ⟨?_, by simpa using room, fun e he => ?_⟩
  · by_cases passing : state = .pass
    · rw [passing]
      exact (allAdmitted_append_admit (pass passing) (newEntry .pass r)).runSound
    · exact run.join (by simp [newEntry, passing]) rfl
  · rcases List.mem_append.1 he with he | he
    · exact each e he
    · rw [List.mem_singleton.1 he]
      exact ⟨Nat.zero_le _, wellFormed⟩

/-- R3: a request joins the queue of an accepting port. -/
theorem PortOk.join {live : Nat} {power : Bool} {b : PortBlock} (h : PortOk live power b) {r : Request}
    (opened : b.controller.portState.open = true) (inputs : b.resetAsserted = false ∧ power = false)
    (room : b.queue.length < 16) (wellFormed : r.wellFormed = true) :
    PortOk live power { b with queue := b.queue ++ [newEntry b.controller.portState r] } := by
  have not_draining : b.controller.portState ≠ .draining := fun state => by simp [state, PortState.open] at opened
  have no_drain : b.controller.drain = none := by
    rw [← Option.not_isSome_iff_eq_none, h.drain]
    exact not_draining
  have governed := h.governed
  have pass (state : b.controller.portState = .pass) : AllAdmitted b.queue := by
    simp only [Governed, state] at governed
    exact allAdmitted_of_waitingRest governed.2.2
  refine ⟨h.queue.join pass room wellFormed, h.flags.congr rfl rfl rfl rfl, ?_, h.drain, fun d => ?_,
    fun closed => ?_⟩
  · unfold Governed at governed ⊢
    cases state : b.controller.portState <;> simp only [state] at governed ⊢
    case pass =>
      exact ⟨governed.1, governed.2.1,
        waitingRest_allAdmitted (allAdmitted_append_admit (pass state) (newEntry .pass r))⟩
    case draining => exact absurd state not_draining
    case quiet => simp [state, PortState.open] at opened
    all_goals exact governed
  · simp [no_drain]
  · simp [inputs] at closed

theorem PortsSound.takeRequest {s : State} (hs : PortsSound s) {k : Port} {r : Request}
    (accepting : s.accepting k = true) (wellFormed : r.wellFormed = true) :
    PortsSound (takeRequest k r s) := by
  simp only [State.accepting, Bool.and_eq_true, Bool.not_eq_true', decide_eq_true_eq] at accepting
  obtain ⟨⟨opened, inputs⟩, room⟩ := accepting
  have joined := hs.setPort k ((hs.ok k).join opened inputs room wellFormed) (not_due_of_state fun state => by
    dsimp only at state
    simp [state, PortState.open] at opened)
  unfold Machine.takeRequest
  dsimp only
  split
  · exact joined.kept (.evaluate ..)
  · exact joined

/-! ### Loads -/

/-- R68: a load starts in PASS or ACTIVE where none is in flight. -/
theorem PortsSound.startLoad {s : State} (hs : PortsSound s) {k : Port} (index : Byte)
    (idle : (s.port k).controller.portState = .pass ∨ (s.port k).controller.portState = .active) :
    PortsSound (startLoad k index s) := by
  have ok := hs.ok k
  have governed := ok.governed
  refine PortsSound.same (hs.setPort k (b := { s.port k with
    load := some ⟨index, recordAddress s.tableBase index⟩
    controller := { (s.port k).controller with
      loadInFlight := true, cancelledLoad := false, portState := .loading } }) ?_ ?_) rfl rfl rfl
  · refine ok.opened (by rcases idle with state | state <;> simp [state]) (by simp) le_rfl ⟨rfl, by simp, by simp⟩
      ?_ rfl rfl (.refl _)
    rcases idle with state | state <;> simp only [Governed, state] at governed ⊢ <;> simp [governed]
  · exact not_due_of_state (by simp)

/-- A change of the controller beside port state, load flags and drain record. -/
theorem RegimeKept.setController (k : Port) (s : State) {c : Controller}
    (state : c.portState = (s.port k).controller.portState)
    (inFlight : c.loadInFlight = (s.port k).controller.loadInFlight)
    (cancelled : c.cancelledLoad = (s.port k).controller.cancelledLoad)
    (drain : c.drain = (s.port k).controller.drain) : RegimeKept k s (s.setController k c) :=
  setPort k s ⟨state, inFlight, cancelled, drain, rfl, rfl, rfl, rfl, .refl _⟩

theorem PortsSound.closeWindow {s : State} (hs : PortsSound s) (k : Port) {i : Installed}
    (installed : (s.port k).meter.installed = some i) : PortsSound (closeWindow k i s) := by
  rw [closeWindow_steps]
  have upTo7 := ((hs.kept (.closeUpTo5 k installed)).kept (.evaluate k _)).kept (.closeHold k i _)
  refine PortsSound.kept ?_ (.submitReport ..)
  generalize Machine.closeHold k i (Machine.evaluate k (Machine.closeUpTo5 k i s)) = u at upTo7
  unfold closeSignal
  dsimp only
  split
  · next signal =>
    have stepped (remaining : Nat) (counting : Bool) := upTo7.kept (RegimeKept.setController k u (c := {
      (u.port k).controller with dwellRemaining := remaining, dwellCounting := counting }) rfl rfl rfl rfl)
    split
    · split
      · refine (stepped 0 false).startLoad _ (.inr ?_)
        rw [State.setController_port_same]
        exact signal.1
      · split
        · exact (stepped 0 false).kept (.submit k _ _)
        · exact stepped 0 false
    · exact stepped _ _
  · exact upTo7

/-- A LOADING port with a profile. -/
def LoadingInstalled (b : PortBlock) : Prop :=
  b.controller.portState = .loading ∧ b.meter.installed.isSome = true

/-- R42: a LOADING port takes a profile, under which a window runs. -/
theorem PortsSound.installProfile {s : State} (hs : PortsSound s) (k : Port) (i : Installed)
    (loading : (s.port k).controller.portState = .loading) :
    PortsSound (installProfile k i s) ∧ LoadingInstalled ((installProfile k i s).port k) := by
  rw [installProfile_eq]
  refine ⟨PortsSound.kept (hs.setPort k ?_ (not_due_of_state (by simp [loading]))) (.evaluate ..), ?_, ?_⟩
  · refine (hs.ok k).opened (by simp [loading]) (by simp [loading]) le_rfl
      ((hs.ok k).flags.congr rfl rfl rfl rfl) ?_ rfl rfl (.refl _)
    simp [Governed, loading]
  · rw [(RegimeKept.evaluate k _).port.state, State.setPort_port_same]
    exact loading
  · rw [(RegimeKept.evaluate k _).port.installed, State.setPort_port_same]
    rfl

/-- The block of a port whose load is over, under a new port state (R75 step 3, R79). -/
theorem PortOk.loadOver {live : Nat} {power : Bool} {b b' : PortBlock} (h : PortOk live power b)
    (loading : b.controller.portState = .loading) (load : b'.load = none)
    (inFlight : b'.controller.loadInFlight = false) (cancelled : b'.controller.cancelledLoad = false)
    (after : b'.controller.portState ≠ .draining ∧ b'.controller.portState ≠ .loading)
    (governed : Governed live b') (drain : b'.controller.drain = b.controller.drain)
    (reset : b'.resetAsserted = b.resetAsserted) (queue : QueueStep b.queue b'.queue) :
    PortOk live power b' := by
  refine h.opened (by simp [loading]) after.1 le_rfl ⟨?_, ?_, ?_⟩ governed drain reset queue
  · rw [inFlight, load]
    rfl
  · simp [after.2, inFlight]
  · simp [cancelled]

/-- R75, R78: the load is over and the port is ACTIVE with its profile. -/
theorem PortsSound.activate {s : State} (hs : PortsSound s) {k : Port} {c : Controller}
    (loading : LoadingInstalled (s.port k)) (active : c.portState = .active)
    (drain : c.drain = (s.port k).controller.drain) : PortsSound (endLoad k (s.setController k c)) := by
  obtain ⟨loading, installed⟩ := loading
  have governed := (hs.ok k).governed
  simp only [Governed, loading, installed] at governed
  rw [endLoad, State.setController, State.setPort_port_same, State.setPort_setPort]
  refine hs.setPort k ?_ (not_due_of_state (by simp [active]))
  refine (hs.ok k).loadOver loading rfl rfl rfl (by simp [active]) ?_ drain rfl (.refl _)
  simp only [Governed, active]
  exact ⟨installed, governed⟩

/-- The early end and the install in a LOADING port (R76, R78). -/
theorem PortsSound.installAfterEnd {s : State} (hs : PortsSound s) (k : Port) (i : Installed) (fallback : Bool)
    (loading : (s.port k).controller.portState = .loading) {t : State}
    (ht : Machine.installProfile k i ((Machine.earlyEnd k s).setController k
      { ((Machine.earlyEnd k s).port k).controller with fallbackInUse := fallback }) = t) :
    PortsSound t ∧ LoadingInstalled (t.port k) := by
  subst ht
  have marked := (hs.kept (.earlyEnd k s)).kept (RegimeKept.setController k _ (c := {
    ((Machine.earlyEnd k s).port k).controller with fallbackInUse := fallback }) rfl rfl rfl rfl)
  refine marked.installProfile k i ?_
  rw [State.setController_port_same, earlyEnd_controller]
  exact loading

theorem PortsSound.installFromTable {s : State} (hs : PortsSound s) {k : Port} (index : Byte) (p : Profile)
    (loading : (s.port k).controller.portState = .loading) : PortsSound (installFromTable k index p s) := by
  unfold Machine.installFromTable
  dsimp only
  generalize ht : Machine.installProfile k ⟨p, index, .table⟩ _ = t
  obtain ⟨begun, open_⟩ := hs.installAfterEnd k _ false loading ht
  have active := begun.activate open_ (c := { (t.port k).controller.loadDwell p.dwell with
    portState := .active }) rfl rfl
  split
  · exact active.kept (.submit k _ _)
  · exact active

theorem PortsSound.installFallback {s : State} (hs : PortsSound s) {k : Port} (index : Byte)
    (reason : FaultReason) (loading : (s.port k).controller.portState = .loading) :
    PortsSound (installFallback k index reason s) := by
  unfold Machine.installFallback
  dsimp only
  generalize ht : Machine.installProfile k _ _ = t
  obtain ⟨begun, open_⟩ := hs.installAfterEnd k _ true loading ht
  exact (begun.activate open_ (by rfl) (by rfl)).kept (.submit k _ _)

/-- R79: a fault without a valid fallback returns the port to its prior regime. -/
theorem PortsSound.keepRegime {s : State} (hs : PortsSound s) {k : Port} (reason : FaultReason)
    (loading : (s.port k).controller.portState = .loading) : PortsSound (keepRegime k reason s) := by
  have ok := hs.ok k
  have governed := ok.governed
  simp only [Governed, loading] at governed
  unfold Machine.keepRegime
  dsimp only
  refine PortsSound.kept ?_ (.submit k _ _)
  rw [endLoad, State.setPort_port_same]
  split
  · next installed =>
    rw [State.setController, State.setPort_port_same, State.setPort_setPort]
    refine hs.setPort k ?_ (not_due_of_state (by simp))
    exact ok.loadOver loading rfl rfl rfl (by simp) ⟨installed, governed.trans installed⟩ rfl rfl (.refl _)
  · next absent =>
    have none : (s.port k).meter.installed = none := Option.not_isSome_iff_eq_none.1 absent
    rw [massAdmit, State.setController, State.setPort_port_same, State.setPort_port_same, State.setPort_setPort,
      State.setPort_setPort]
    refine hs.setPort k ?_ (not_due_of_state (by simp))
    refine ok.loadOver loading rfl rfl rfl (by simp) ⟨none, ?_, waitingRest_all_marked _⟩ rfl rfl (.markAdmitted _)
    exact governed.trans (by rw [none]; rfl)

/-- R75, R82: the result of a load is taken in LOADING, or ends a cancelled load. -/
theorem PortsSound.takeLoadResult {s : State} (hs : PortsSound s) (k : Port) (result : LoadResult) :
    PortsSound (takeLoadResult k result s) := by
  have flags := (hs.ok k).flags
  unfold Machine.takeLoadResult
  split
  · exact hs
  · next ctx present =>
    split
    · next cancelled =>
      have not_loading : (s.port k).controller.portState ≠ .loading := by
        simp [flags.loading, cancelled]
      refine hs.setPort k ?_ (hs.undue k)
      exact { hs.ok k with flags := ⟨rfl, by simpa using not_loading, by simp⟩ }
    · next running =>
      have loading : (s.port k).controller.portState = .loading := by
        rw [flags.loading, flags.context, present]
        exact ⟨rfl, by simpa using running⟩
      split
      · exact hs.installFromTable _ _ loading
      · split
        · exact hs.installFallback _ _ loading
        · exact hs.keepRegime _ loading

/-! ### Quiescing and resuming -/

/-- R44: QUIESCE leaves no window running. -/
theorem stopMeter_still {s : State} (hs : PortsSound s) (k : Port)
    (opened : (s.port k).controller.portState = .pass ∨ (s.port k).controller.portState = .loading ∨
      (s.port k).controller.portState = .active) :
    ((stopMeter k s).port k).meter.windowRunning = false := by
  unfold stopMeter
  dsimp only
  split
  · rw [State.setMeter_port_same]
  · next still =>
    have governed := (hs.ok k).governed
    rw [PortBlock.windowRuns_iff] at still
    rcases opened with state | state | state <;> simp only [Governed, state] at governed <;>
      simp [state] at still
    · exact governed.2.1
    · cases installed : (s.port k).meter.installed.isSome with
      | true => exact still installed
      | false => rw [governed, installed]
    · exact absurd governed.2 (by simp [still governed.1])

theorem earlyEnd_queue (k : Port) (s : State) : ((earlyEnd k s).port k).queue = (s.port k).queue := by
  cases runs : (s.port k).windowRuns with
  | false => rw [earlyEnd_no_window k s runs]
  | true =>
    obtain ⟨i, installed⟩ := Option.isSome_iff_exists.1 ((PortBlock.windowRuns_iff _).1 runs).1
    rw [earlyEnd_window k s i runs installed, State.setPort_port_same]

theorem stopMeter_queue (k : Port) (s : State) : ((stopMeter k s).port k).queue = (s.port k).queue := by
  unfold stopMeter
  dsimp only
  split
  · rw [State.setMeter_port_same]
    exact earlyEnd_queue k s
  · rfl

/-- R80, R93: a port that quiesces cancels the load it was LOADING. -/
theorem LoadFlagsSound.quiesced {b b' : PortBlock} (h : LoadFlagsSound b)
    (state : b'.controller.portState = .draining)
    (inFlight : b'.controller.loadInFlight = b.controller.loadInFlight)
    (cancelled : b'.controller.cancelledLoad =
      if b.controller.portState = .loading then true else b.controller.cancelledLoad)
    (load : b'.load = b.load) : LoadFlagsSound b' := by
  have loading := h.loading
  refine ⟨by rw [inFlight, load]; exact h.context, ?_, ?_⟩
  · rw [state, inFlight, cancelled]
    by_cases was : b.controller.portState = .loading
    · simp [was]
    · simpa [was] using loading.not.1 was
  · rw [inFlight, cancelled]
    by_cases was : b.controller.portState = .loading
    · exact fun _ => (loading.1 was).1
    · simpa [was] using h.cancelled

theorem PortsSound.quiescePort {s : State} (hs : PortsSound s) (k : Port)
    (opened : (s.port k).controller.portState = .pass ∨ (s.port k).controller.portState = .loading ∨
      (s.port k).controller.portState = .active) : PortsSound (quiescePort k s) := by
  have ok := hs.ok k
  have still := stopMeter_still hs k opened
  have stopped := MeterOnly.stopMeter k s
  have admitted := QueueStep.markAdmitted (s.port k).queue
  refine NearlySound.judgeDrain ((hs.nearly k).confined (((Contained.stopMeter k s).trans
    (Contained.setController ..)).trans (Contained.massAdmit ..)) ?_)
  rw [massAdmit, enterDraining]
  simp only [State.setController_port_same, State.setPort_port_same]
  rw [stopMeter_queue k s, stopped.controller]
  refine ⟨admitted.sound ok.queue, ok.flags.quiesced rfl rfl rfl stopped.load,
    ⟨still, waitingRest_all_marked _⟩, by simp, fun d hd => ?_, fun closed => ?_⟩
  · cases hd
    rw [admitted.length]
    exact ⟨List.countP_le_length, by simpa using ok.queue.depth, fun _ => rfl⟩
  · rw [stopped.resetAsserted] at closed
    exact admitted.closed (ok.closed closed)

/-- R104: a QUIET port opens again, with its queue empty. -/
theorem PortOk.reopened {live : Nat} {power : Bool} {b b' : PortBlock} (h : PortOk live power b)
    (quiet : b.controller.portState = .quiet)
    (after : b'.controller.portState = .pass ∨ b'.controller.portState = .active)
    (governed : Governed live b') (inFlight : b'.controller.loadInFlight = b.controller.loadInFlight)
    (cancelled : b'.controller.cancelledLoad = b.controller.cancelledLoad)
    (drain : b'.controller.drain = b.controller.drain) (load : b'.load = b.load)
    (reset : b'.resetAsserted = b.resetAsserted) (queue : QueueStep b.queue b'.queue) :
    PortOk live power b' := by
  obtain ⟨context, loading, only⟩ := h.flags
  refine h.opened (by simp [quiet]) (by rcases after with state | state <;> simp [state]) le_rfl
    ⟨by rw [inFlight, load]; exact context, ?_, by rwa [inFlight, cancelled]⟩ governed drain reset queue
  rw [inFlight, cancelled, ← loading, quiet]
  rcases after with state | state <;> simp [state]

theorem PortsSound.resumePort {s : State} (hs : PortsSound s) (k : Port)
    (quiet : (s.port k).controller.portState = .quiet) : PortsSound (resumePort k s) := by
  have ok := hs.ok k
  have governed := ok.governed
  simp only [Governed, quiet] at governed
  unfold Machine.resumePort
  split
  · next i installed =>
    refine PortsSound.kept ?_ (.evaluate k _)
    rw [startWindow, State.setController_port_same, State.setMeter, State.setController_port_same,
      State.setController, State.setPort_setPort]
    refine hs.setPort k ?_ (not_due_of_state (by simp))
    refine ok.reopened quiet (.inr rfl) ⟨?_, rfl⟩ rfl rfl rfl rfl rfl (.refl _)
    rw [installed]
    rfl
  · next none =>
    rw [massAdmit, State.setController, State.setPort_port_same, State.setPort_setPort]
    refine hs.setPort k ?_ (not_due_of_state (by simp))
    exact ok.reopened quiet (.inl rfl) ⟨none, governed.1, waitingRest_all_marked _⟩ rfl rfl rfl rfl rfl
      (.markAdmitted _)

/-! ### Grants, answers and resets -/

/-- R98: the drain record counts a departure from the head of the queue. -/
theorem depart_counts {drain : Option Drain} {n : Nat} (counts : ∀ d, drain = some d →
    d.ahead ≤ n + 1 ∧ d.drained + (n + 1) ≤ 16 ∧ (0 < d.ahead → d.drained = 0)) :
    ∀ d, drain.map Drain.depart = some d →
      d.ahead ≤ n ∧ d.drained + n ≤ 16 ∧ (0 < d.ahead → d.drained = 0) := by
  intro d hd
  obtain ⟨x, hx, rfl⟩ := Option.map_eq_some_iff.1 hd
  obtain ⟨ahead, drained, first⟩ := counts x hx
  unfold Drain.depart
  split
  · next some_ahead =>
    have := first some_ahead
    exact ⟨by dsimp only; omega, by dsimp only; omega, fun _ => this⟩
  · exact ⟨by dsimp only; omega, by dsimp only; omega, fun _ => by dsimp only at *; omega⟩

/-- R12: the ADMITTED head of a queue leaves. -/
theorem PortOk.departed {live live' : Nat} {power : Bool} {b : PortBlock} (h : PortOk live power b)
    {e : QueueEntry} {rest : List QueueEntry} (queue : b.queue = e :: rest) (admitted : e.status = .admitted) :
    PortOk live' power b.departed := by
  have tail : b.departed.queue = rest := by rw [PortBlock.departed, queue]; rfl
  have sound := h.queue
  have governed := h.governed
  have counts := h.counts
  have waiting : waitingRest b.queue = waitingRest rest := by rw [queue, waitingRest_cons_admitted admitted]
  rw [queueSound_iff, queue, runSound_cons_admitted admitted] at sound
  obtain ⟨run, depth, each⟩ := sound
  rw [queue, List.length_cons] at counts
  refine ⟨?_, h.flags.congr rfl rfl rfl rfl, ?_, ?_, ?_, fun closed => ?_⟩
  · rw [tail, queueSound_iff]
    exact ⟨run, by rw [List.length_cons] at depth; omega, fun x hx => each x (List.mem_cons_of_mem _ hx)⟩
  · unfold Governed at governed ⊢
    rw [tail, ← waiting]
    rw [show b.departed.controller.portState = b.controller.portState from rfl]
    cases state : b.controller.portState <;> simp only [state] at governed ⊢
    case quiet => simp [queue] at governed
    all_goals exact governed
  · simp only [PortBlock.departed, Option.isSome_map]
    exact h.drain
  · rw [tail]
    exact depart_counts counts
  · have empty := (h.closed closed).1
    rw [queue] at empty
    cases empty

theorem PortsSound.grantPort {s : State} (hs : PortsSound s) {k : Port} {e : QueueEntry}
    {rest : List QueueEntry} {tag : Fin 64} (queue : (s.port k).queue = e :: rest)
    (admitted : e.status = .admitted) (free : s.freePortTag = some tag) : PortsSound (grantPort k s) := by
  have counted (f : InFlight) (j : Port) := s.liveCount_setEntry tag (some f) j
  rw [(State.freePortTag_free free).2] at counted
  simp only [liveOf_none, Bool.false_eq_true, if_false, Nat.add_zero] at counted
  rw [grantPort_eq queue free]
  generalize hf : liveEntry s (.port k e.request.tag) e.request.kind e.request.beats = f
  have owner : f.owner.portOf = some k := by rw [← hf]; rfl
  have one : liveOf k (some f) = true := by
    have live : f.state = .live := by rw [← hf]; rfl
    simp [liveOf, heldBy, owner, live]
  have taken : PortsSound ((s.setPort k (s.port k).departed).setEntry tag (some f)) := by
    refine NearlySound.sound (k := k) ((hs.nearly k).change (fun j other => ?_) (fun j other => ?_) rfl ?_) ?_
    · rw [State.setEntry_port, State.setPort_port_ne _ other]
    · have := counted f j
      rwa [liveOf_other (by rw [owner]; simpa using Ne.symm other)] at this
    · rw [State.setEntry_port, State.setPort_port_same]
      exact (hs.ok k).departed queue admitted
    · intro due
      have more := counted f k
      rw [one] at more
      have none : (s.setEntry tag (some f)).liveCount k = 0 := due.2.2
      simp [none] at more
  exact taken.same rfl rfl rfl

/-- An entry of port `k` that is LIVE no longer. -/
theorem PortsSound.leave {s : State} (hs : PortsSound s) {tag : Fin 64} {f : InFlight} {k : Port}
    (entry : s.table[tag.val] = some f) (owner : f.owner.portOf = some k) {e : Option InFlight}
    (left : e = none ∨ e = some f.orphan) : NearlySound k (s.setEntry tag e) :=
  (hs.nearly k).change (fun _ _ => rfl)
    (fun _ other => State.liveCount_leave_other entry left (by rw [owner]; simpa using Ne.symm other)) rfl
    ((hs.ok k).fewer (s.liveCount_leave_le left k))

/-- An entry of the internal requester that is LIVE no longer. -/
theorem PortsSound.leaveInternal {s : State} (hs : PortsSound s) {tag : Fin 64} {f : InFlight}
    (entry : s.table[tag.val] = some f) (owner : f.owner.portOf = none) {e : Option InFlight}
    (left : e = none ∨ e = some f.orphan) : PortsSound (s.setEntry tag e) :=
  hs.congr rfl (fun _ => State.liveCount_leave_other entry left (by rw [owner]; simp)) rfl

/-- R17, R102: a port whose queue and LIVE entries are gone. -/
theorem PortOk.discarded {live : Nat} {power power' : Bool} {b b' : PortBlock} (h : PortOk live power b)
    (empty : b'.queue = []) (state : b'.controller.portState = b.controller.portState)
    (inFlight : b'.controller.loadInFlight = b.controller.loadInFlight)
    (cancelled : b'.controller.cancelledLoad = b.controller.cancelledLoad)
    (drain : b'.controller.drain = b.controller.drain.map fun d => { d with ahead := 0 })
    (load : b'.load = b.load) (installed : b'.meter.installed = b.meter.installed)
    (running : b'.meter.windowRunning = b.meter.windowRunning) : PortOk 0 power' b' := by
  have governed := h.governed
  refine ⟨?_, h.flags.congr state inFlight cancelled load, ?_, ?_, fun d hd => ?_, fun _ => ⟨empty, rfl⟩⟩
  · rw [empty, queueSound_iff]
    exact ⟨AllAdmitted.runSound (by simp [AllAdmitted]), by simp, by simp⟩
  · unfold Governed at governed ⊢
    rw [state, installed, running, empty]
    cases now : b.controller.portState <;> simp only [now] at governed ⊢
    case pass => exact ⟨governed.1, governed.2.1, rfl⟩
    case draining => exact ⟨governed.1, rfl⟩
    case quiet => exact ⟨governed.1, trivial, trivial⟩
    all_goals exact governed
  · rw [drain, state, Option.isSome_map]
    exact h.drain
  · rw [drain] at hd
    obtain ⟨x, hx, rfl⟩ := Option.map_eq_some_iff.1 hd
    obtain ⟨-, depth, -⟩ := h.counts x hx
    rw [empty]
    exact ⟨le_rfl, by simp only [List.length_nil]; omega, fun some => absurd some (lt_irrefl 0)⟩

/-- R17, R126: a port reset empties the port, and a drain that waited for it is done. -/
theorem PortsSound.portReset {s : State} (hs : PortsSound s) (k : Port) : PortsSound (portReset k s) := by
  have gone := s.liveCount_orphanWhere_gone (k := k) (p := fun o => o.portOf == some k) (by simp)
  have discarded (b : PortBlock) (own : PortOk 0 s.rstAsserted b) : NearlySound k
      ((s.setPort k b).setTable (orphanWhere (fun o => o.portOf == some k) (s.setPort k b).table)) := by
    refine (hs.nearly k).change (fun j other => ?_) (fun j other => ?_) ?_ ?_
    · rw [State.setTable_port, State.setPort_port_ne _ other]
    · refine s.liveCount_orphanWhere_spared fun o owner => ?_
      simpa [owner] using other
    · rw [State.setTable_rstAsserted, State.setPort_rstAsserted]
    · rw [State.setTable_port, State.setPort_port_same]
      exact own.fewer gone.le
  refine NearlySound.judgeDrain (discarded _ ?_)
  exact (hs.ok k).discarded rfl rfl rfl rfl rfl rfl rfl rfl

theorem PortsSound.followed {s : State} (hs : PortsSound s) (k : Port) (asserted : Bool)
    (closed : asserted = true → (s.port k).queue = [] ∧ s.liveCount k = 0) :
    PortsSound (s.setPort k { s.port k with resetAsserted := asserted }) := by
  have ok := hs.ok k
  refine hs.setPort k { ok with flags := ok.flags.congr rfl rfl rfl rfl, closed := ?_ } (hs.undue k)
  rintro (input | power)
  · exact closed input
  · exact ok.closed (.inr power)

theorem portOk_powerOn (power asserted : Bool) : PortOk 0 power (PortBlock.reset asserted) := by
  refine ⟨?_, ⟨rfl, by simp [PortBlock.reset, Controller.reset], by simp [PortBlock.reset, Controller.reset]⟩,
    ⟨rfl, rfl, rfl⟩, by simp [PortBlock.reset, Controller.reset], by simp [PortBlock.reset, Controller.reset],
    fun _ => ⟨rfl, rfl⟩⟩
  rw [queueSound_iff]
  exact ⟨AllAdmitted.runSound (fun _ he => by cases he), Nat.zero_le _, fun _ he => by cases he⟩

/-- R181: SOFT_RESET leaves every port in PASS with its queue ADMITTED. -/
theorem PortOk.softReset {live : Nat} {power : Bool} {b : PortBlock} (h : PortOk live power b) :
    PortOk live power (softResetPort b) := by
  have queue := QueueStep.markAdmitted b.queue
  refine ⟨queue.sound h.queue, ⟨rfl, by simp [softResetPort, Controller.reset],
    by simp [softResetPort, Controller.reset]⟩, ⟨rfl, rfl, waitingRest_all_marked _⟩,
    by simp [softResetPort, Controller.reset], by simp [softResetPort, Controller.reset],
    fun closed => queue.closed (h.closed closed)⟩

theorem PortsSound.writer {s t : State} (hs : PortsSound s) (h : WriterContained s t) : PortsSound t :=
  hs.same h.ports h.table h.rstAsserted

/-! ## Every effect -/

theorem CommandEffect.keeps_portsSound {s t : State} (h : CommandEffect s t) (hs : PortsSound s) :
    PortsSound t := by
  cases h with
  | unchanged | poolLimit | timeout | tableBase | ringStopped | noticePopped | overflowCleared | irqSet =>
    exact hs.same rfl rfl rfl
  | fallbackSet k | fallbackCleared k =>
    exact hs.kept (RegimeKept.setPort k s ⟨rfl, rfl, rfl, rfl, rfl, rfl, rfl, rfl, .refl _⟩)
  | loadStarted k index idle => exact hs.startLoad index idle
  | quiesced k opened => exact hs.quiescePort k opened
  | resumed k quiet => exact hs.resumePort k quiet
  | ringStarted base size => exact hs.writer (WriterContained.startRing base size s)
  | acknowledged c => exact hs.writer (WriterContained.acknowledge c s)

/-- Each effect keeps the ports, the changes of regime at their own port alone. -/
theorem Effect.keeps_portsSound {c : Instr} {s t : State} (h : Effect c s t) (hs : PortsSound s) :
    PortsSound t := by
  cases h with
  | nothing | clock | memoryPortReady | shifted => exact hs.same rfl rfl rfl
  | donationTaken k d rest =>
    have taken := hs.kept (RegimeKept.setPort k s (b := { s.port k with toPool := rest })
      ⟨rfl, rfl, rfl, rfl, rfl, rfl, rfl, rfl, .refl _⟩)
    exact taken.same rfl rfl rfl
  | claimTaken k n rest =>
    have taken := hs.kept (RegimeKept.setPort k s (b := { s.port k with
        toPool := rest, answers := (s.port k).answers ++ [s.pool.answer n] })
      ⟨rfl, rfl, rfl, rfl, rfl, rfl, rfl, rfl, .refl _⟩)
    exact taken.same rfl rfl rfl
  | inputFollowed k power => exact hs.followed k true fun _ => (hs.ok k).closed (.inr power)
  | portReleased k => exact hs.followed k false (by simp)
  | powerReset mcsLow asserted =>
    rw [portsSound_iff]
    intro k
    have none : ({ powerOn mcsLow s with rstAsserted := asserted } : State).liveCount k = 0 :=
      State.liveCount_eq_zero _ k fun tag => by simp [powerOn, liveOf_none]
    rw [powerOn_port, none]
    exact ⟨portOk_powerOn _ _, not_due_of_state (by simp [PortBlock.reset, Controller.reset])⟩
  | softReset bits =>
    rw [portsSound_iff]
    intro k
    have spared := s.liveCount_orphanWhere_spared (k := k) (p := fun o => o.portOf.isNone)
      fun o owner => by simp [owner]
    have live : (Machine.softReset (s.emit (.mdo bits))).liveCount k = s.liveCount k := spared
    rw [softReset_port, live]
    exact ⟨(hs.ok k).softReset, not_due_of_state (by simp [softResetPort, Controller.reset])⟩
  | request k r accepting wellFormed => exact hs.takeRequest accepting wellFormed
  | portReset k => exact hs.portReset k
  | windowClosed k i _ installed => exact hs.closeWindow k installed
  | answerTaken k answer rest =>
    have taken := hs.kept (RegimeKept.setPort k s (b := { s.port k with answers := rest })
      ⟨rfl, rfl, rfl, rfl, rfl, rfl, rfl, rfl, .refl _⟩)
    exact taken.kept (.takeAnswer ..)
  | reportTaken k r rest =>
    have taken := hs.kept (RegimeKept.setPort k s (b := { s.port k with toWriter := rest })
      ⟨rfl, rfl, rfl, rfl, rfl, rfl, rfl, rfl, .refl _⟩)
    exact taken.writer (WriterContained.takeReport r _)
  | internalGranted item rest tag oldest free =>
    refine hs.congr (by rw [grantInternal_eq oldest free]) (fun k => ?_) (by rw [grantInternal_eq oldest free])
    have counted (f : InFlight) := s.liveCount_setEntry tag (some f) k
    rw [(State.freeInternalTag_free free).2] at counted
    rw [grantInternal_eq oldest free]
    refine (counted _).trans ?_
    rw [liveOf_other (by cases item <;> simp [liveEntry, InternalItem.owner, Owner.portOf])]
    rfl
  | portGranted k e rest tag queue admitted _ free => exact hs.grantPort queue admitted free
  | orphanFreed tag f entry orphan =>
    refine hs.congr rfl (fun k => ?_) rfl
    have counted := s.liveCount_setEntry tag none k
    rw [entry, liveOf_orphan k f orphan, liveOf_none] at counted
    simpa using counted
  | portOrphanFreed tag f k entry _ owner => exact (hs.leave entry owner (.inl rfl)).judgeDrain
  | answered tag f k rtag status data entry live owner =>
    rw [answerPort_eq]
    have emitted : PortsSound (s.emit (.completion k rtag (completionStatus status)
      (if f.kind = .read then data else []))) := hs.same rfl rfl rfl
    exact ((emitted.leave entry (by rw [owner]; rfl) (.inl rfl)).kept (.countCompletion ..)).judgeDrain
  | timedOut tag f k rtag entry live owner =>
    have emitted : PortsSound (s.emit (.completion k rtag .timeout
      (if f.kind = .read then List.replicate f.beats 0 else []))) := hs.same rfl rfl rfl
    have left := emitted.leave entry (k := k) (by rw [owner]; rfl) (.inr rfl)
    exact ((left.kept (.countTimeout ..)).kept (.submit k _ _)).judgeDrain
  | loadEnded tag f k e result entry live owner left =>
    exact (hs.leaveInternal entry (by rw [owner]; rfl) left).takeLoadResult k result
  | written tag f entry live owner =>
    exact (hs.leaveInternal entry (by rw [owner]; rfl) (.inl rfl)).writer (WriterContained.writeSucceeded _)
  | writeFaulted tag f e reason entry live owner left =>
    exact (hs.leaveInternal entry (by rw [owner]; rfl) left).writer (WriterContained.writeFailed reason _)
  | commanded bits status data owner =>
    exact (owner.keeps_portsSound (hs.same rfl rfl rfl)).same rfl rfl rfl

theorem PortsSound.tick {s : State} (hs : PortsSound s) : PortsSound (tick s) := by
  rw [portsSound_iff] at hs ⊢
  intro k
  obtain ⟨ok, undue⟩ := hs k
  have kept : PortKept (s.port k) (s.port k).tick := by
    rw [PortBlock.tick_eq]
    exact ⟨rfl, rfl, rfl, rfl, rfl, rfl, rfl, rfl, .refl _⟩
  rw [tick_port]
  exact ⟨ok.kept kept, fun due => undue (due.kept kept)⟩

/-- Settles O9: each effect keeps every port in its regime, and a tick touches only the time remaining. -/
theorem everyStepKeepsThePortsSound : Obligations.EveryStepKeepsThePortsSound := fun _ _ =>
  step_keeps (fun _ hs => hs.tick) (fun _ _ _ hs => hs.same rfl rfl rfl) fun _ _ _ e hs => e.keeps_portsSound hs

end Sys2Proof.Machine
end

