-- ==== Sys2Proof/Proofs/StartAndFrames.lean ====
section
/-! PROOF. The step and its two cases, the state after reset, and the bits of a frame. -/

namespace Sys2Proof.Machine

open Sys2Proof

/-! ## The step -/

/-- Settles O1: the step matches on the queue. -/
theorem stepRunsTheFrontCommand : Obligations.StepRunsTheFrontCommand := fun _ _ _ => rfl

theorem idle_due {s : State} (operating : s.operating = true) (due : s.dueHappenings ≠ []) :
    idle s = { s with
      pending := s.pending ++ arrange s.dueHappenings s.choices
      choices := s.choices + s.dueHappenings.length } := by
  unfold idle
  rw [if_pos operating]
  split
  · next none => exact absurd none due
  · next found => rw [found]

theorem idle_undue {s : State} (operating : s.operating = true) (due : s.dueHappenings = []) :
    idle s = tick s := by
  unfold idle
  rw [if_pos operating, due]

theorem idle_off {s : State} (off : s.operating = false) : idle s = s := by
  unfold idle
  rw [off]
  rfl

/-- Settles O2: the happenings due are those `State.Due` names, each once, and a free order only reorders them;
where none is due a tick passes. -/
theorem idlePassesTimeOrQueuesWhatIsDue : Obligations.IdlePassesTimeOrQueuesWhatIsDue := by
  intro s empty
  rw [step_idle empty]
  refine ⟨fun off => by rw [idle_off off], fun operating none => ?_, fun operating ⟨c, due⟩ => ?_⟩
  · have undue : s.dueHappenings = [] :=
      List.eq_nil_iff_forall_not_mem.2 fun c hc => none c ((mem_dueHappenings s c).1 hc)
    refine ⟨tick s, by rw [idle_undue operating undue], rfl, fun k => ?_⟩
    rw [tick_port, PortBlock.tick_eq]
  · have some_due : s.dueHappenings ≠ [] := List.ne_nil_of_mem ((mem_dueHappenings s c).2 due)
    have arranged := arrange_perm s.dueHappenings s.choices
    refine ⟨arrange s.dueHappenings s.choices, s.choices + s.dueHappenings.length, ?_, arranged.nodup_iff.2 (nodup_dueHappenings s), fun c => ?_⟩
    · rw [idle_due operating some_due, empty, List.nil_append]
    · rw [arranged.mem_iff]
      exact mem_dueHappenings s c

/-! ## The state after reset -/

theorem State.reset_port (k : Port) : State.reset.port k = PortBlock.reset false := PerPort.get_all ..

theorem State.reset_liveCount (k : Port) : State.reset.liveCount k = 0 :=
  State.liveCount_eq_zero _ k fun tag => by simp [State.reset, liveOf_none]

/-- Settles O3: every block is written out in `State.reset`. -/
theorem resetLeavesPowerOnValues : Obligations.ResetLeavesPowerOnValues := by
  refine ⟨fun k => ?_, rfl, rfl, rfl, rfl, fun tag => by simp [State.reset], rfl, rfl, rfl, rfl, rfl, rfl⟩
  have accepts : State.reset.accepting k = !(State.reset.port k).resetAsserted := by cases k <;> rfl
  rw [State.reset_port] at accepts ⊢
  exact ⟨rfl, rfl, rfl, rfl, rfl, by decide, rfl, rfl, accepts⟩

/-- Settles O4: no port, load, entry, record or claim is there, and every count is 0. -/
theorem resetIsSound : Obligations.ResetIsSound where
  notices := Nat.zero_le _
  pool := ⟨le_rfl, Nat.zero_le _⟩
  response := Nat.zero_le _
  meters := fun k => by
    rw [State.reset_port, meterSound_iff]
    exact ⟨fun valid => (by cases valid), Meter.reset_fits⟩
  ports := by
    rw [portsSound_iff]
    intro k
    rw [State.reset_port, State.reset_liveCount]
    exact ⟨portOk_powerOn _ _, not_due_of_state (by simp [PortBlock.reset, Controller.reset])⟩
  loads := by
    refine LoadsAccounted.empty (fun k => ?_) fun k => State.work_empty rfl (State.liveOwned_empty rfl _)
    rw [State.reset_port]
    exact ⟨rfl, rfl⟩
  table := TableSound.empty rfl
  writer := WriterSound.reset rfl (State.work_empty rfl (State.liveOwned_empty rfl _))
  claims := fun k => by
    rw [State.reset_port]
    exact ClaimSound.unclaimed rfl rfl rfl

/-! ## The bits of a frame -/

/-- Settles O5: the bits, decoded. -/
theorem frameWordsDecode : Obligations.FrameWordsDecode := by
  unfold Obligations.FrameWordsDecode
  decide

/-- R188: the code of a management command names it again. -/
theorem commandOf_frameOf {i : Instr} {code : Byte} {f : Frame} (wellFormed : i.wellFormed = true)
    (spelled : frameOf i = some (code, f)) :
    (match commandOf code with
      | some command => command f
      | none => .badCommand code f) = i := by
  cases i with
  | badCommand code' f' =>
    obtain ⟨rfl, rfl⟩ : code' = code ∧ f' = f := by simpa [frameOf] using spelled
    have unknown : commandOf code' = none := by simpa [Instr.wellFormed] using wellFormed
    rw [unknown]
  | readResponse f' | getStatus f' | getPort f' | getWindow f' | getProfile f' | getPool f' | setTableBase f'
  | setFallback f' | clearFallback f' | load f' | quiesce f' | resume f' | setPoolLimit f' | setTimeout f'
  | setRing f' | ringOff f' | reportAck f' | popNotice f' | clearOverflow f' | setIrq f' | softReset f' =>
    cases spelled
    rfl
  | requestTaken | prstAsserted | prstReleased | rstAsserted | rstReleased | refclkStopped | refclkRestarted
  | windowClose | donationTaken | claimTaken | claimAnswerTaken | reportSubmission | issueGrant
  | memoryPortReady | memoryAnswer | completionDeadline | shortFrame | mcsRiseWithoutFrame => cases spelled

/-- Settles O6: gathering the bits gives the bytes back, and the code names the command. -/
theorem frameDecodesBackToItsCommand : Obligations.FrameDecodesBackToItsCommand := by
  intro i code f wellFormed spelled
  have bits : encodeFrame code f = (code :: f.args).flatMap bitsOfByte ++
      List.replicate f.partialBits.val false := rfl
  have length : Fin.ofNat 8 (List.replicate f.partialBits.val false).length = f.partialBits := by simp
  unfold decodeFrame
  rw [bits, gatherBytes_flatMap]
  simp only [length]
  exact commandOf_frameOf wellFormed spelled

end Sys2Proof.Machine
end

