-- ==== Sys2Proof/Proofs/Taking.lean ====
section
/-! PROOF. When nothing is taken: without REFCLK, under RST_N, by a link that waits, and without a cause. -/

namespace Sys2Proof.Machine

open Sys2Proof

/-! ## A part that does not operate, and a link that does not listen -/

theorem State.listening_of_off {s : State} (off : s.operating = false) : s.listening = false := by
  simp [State.listening, off]

/-- R183, R185: a link that does not listen takes no frame. -/
theorem exec_unheard {s : State} (deaf : s.listening = false) {c : Instr}
    (frame : (∃ n, c = .shortFrame n) ∨ frameOf c ≠ none) : exec c s = .next s := by
  cases c with
  | shortFrame bits => exact happening_not_taken deaf ..
  | badCommand code f => exact happening_not_taken (by rw [deaf]; rfl) ..
  | readResponse f => exact happening_not_taken deaf ..
  | getStatus f | getPool f | setTableBase f | setPoolLimit f | setTimeout f | setRing f | ringOff f
  | reportAck f | popNotice f | clearOverflow f | setIrq f | softReset f | getPort f | getWindow f
  | getProfile f | setFallback f | clearFallback f | load f | quiesce f | resume f =>
    exact happening_not_taken deaf ..
  | requestTaken | prstAsserted | prstReleased | rstAsserted | rstReleased | refclkStopped | refclkRestarted
  | windowClose | donationTaken | claimTaken | claimAnswerTaken | reportSubmission | issueGrant
  | memoryPortReady | memoryAnswer | completionDeadline | mcsRiseWithoutFrame => simp [frameOf] at frame

/-- A change of a pin or of the clock, which is followed where other happenings are not taken. -/
def FollowsPin : Instr → Prop
  | .prstAsserted _ | .prstReleased _ | .rstAsserted | .rstReleased _ | .refclkStopped | .refclkRestarted _ => True
  | _ => False

/-- R20, R128, R183, R185: a part that does not operate takes nothing but the changes of its pins. -/
theorem exec_off {s : State} (off : s.operating = false) {c : Instr} (other : ¬ FollowsPin c) :
    exec c s = .next s := by
  have deaf := State.listening_of_off off
  cases c with
  | prstAsserted | prstReleased | rstAsserted | rstReleased | refclkStopped | refclkRestarted =>
    exact absurd trivial other
  | requestTaken k r => exact happening_not_taken (by rw [off]; rfl) ..
  | windowClose k => exact happening_not_taken (by rw [off]; rfl) ..
  | donationTaken k =>
    simp only [exec, execDonationTaken]
    split
    · exact happening_not_taken off ..
    all_goals rfl
  | claimTaken k =>
    simp only [exec, execClaimTaken]
    split
    · exact happening_not_taken off ..
    all_goals rfl
  | claimAnswerTaken k =>
    simp only [exec, execClaimAnswerTaken]
    split
    · rfl
    · exact happening_not_taken off ..
  | reportSubmission k =>
    simp only [exec, execReportSubmission]
    split
    · rfl
    · exact happening_not_taken off ..
  | completionDeadline tag =>
    simp only [exec, execCompletionDeadline]
    split
    · rfl
    · exact happening_not_taken (by rw [off]; rfl) ..
  | issueGrant | mcsRiseWithoutFrame => exact happening_not_taken (by rw [off]; rfl) ..
  | memoryPortReady => exact happening_not_taken off ..
  | memoryAnswer tag status data => exact happening_not_taken off ..
  | shortFrame | badCommand | readResponse | getStatus | getPool | setTableBase | setPoolLimit | setTimeout
  | setRing | ringOff | reportAck | popNotice | clearOverflow | setIrq | softReset | getPort | getWindow
  | getProfile | setFallback | clearFallback | load | quiesce | resume =>
    exact exec_unheard deaf (by simp [frameOf])

/-- Settles O18: no happening but the named ones is taken by a part that does not operate, and no frame by a link
that waits. -/
theorem nothingIsTakenWithoutClockOrUnderReset : Obligations.NothingIsTakenWithoutClockOrUnderReset := by
  intro c s
  refine ⟨fun stopped restart => ?_, fun asserted inputs changes stop => ?_, fun waits frame => ?_⟩
  · have off : s.operating = false := by simp [State.operating, stopped]
    cases c with
    | refclkRestarted b => exact absurd rfl (restart b)
    | prstAsserted k | rstAsserted | rstReleased b => exact happening_not_taken (by rw [stopped]; rfl) ..
    | prstReleased k | refclkStopped => exact happening_not_taken stopped ..
    | _ => exact exec_off off (by simp [FollowsPin])
  · have off : s.operating = false := by simp [State.operating, asserted]
    cases c with
    | prstAsserted k => exact absurd rfl (inputs k).1
    | prstReleased k => exact absurd rfl (inputs k).2
    | rstReleased b => exact absurd rfl (changes b).1
    | refclkRestarted b => exact absurd rfl (changes b).2
    | refclkStopped => exact absurd rfl stop
    | rstAsserted => exact happening_not_taken (by simp [asserted]) ..
    | _ => exact exec_off off (by simp [FollowsPin])
  · exact exec_unheard (by simp [State.listening, waits]) frame

/-! ## Happenings without a cause -/

theorem State.due_windowClose {s : State} {k : Port} (due : s.closeDue k = true) : s.Due (.windowClose k) := by
  simp only [State.closeDue, Bool.and_eq_true, beq_iff_eq] at due
  exact .inl ⟨k, rfl, due⟩

theorem State.due_completionDeadline {s : State} {tag : Fin 64} {f : InFlight}
    (entry : s.table[tag.val] = some f) (reached : s.deadlineReached f = true) :
    s.Due (.completionDeadline tag) := by
  have live := State.deadlineReached_live reached
  simp only [State.deadlineReached, live] at reached
  cases deadline : f.deadline with
  | none => simp [deadline] at reached
  | some d =>
    rw [deadline] at reached
    exact .inr ⟨tag, f, d, rfl, entry, live, deadline, of_decide_eq_true reached⟩

theorem exec_windowClose_undue {s : State} {k : Port} (undue : ¬ s.Due (.windowClose k)) :
    exec (.windowClose k) s = .next s := by
  have still : s.closeDue k = false := Bool.eq_false_iff.2 fun due => undue (State.due_windowClose due)
  exact happening_not_taken (by simp [still]) ..

theorem exec_completionDeadline_undue {s : State} {tag : Fin 64} (undue : ¬ s.Due (.completionDeadline tag)) :
    exec (.completionDeadline tag) s = .next s := by
  simp only [exec, execCompletionDeadline]
  split
  · rfl
  · next f entry =>
    have early : s.deadlineReached f = false :=
      Bool.eq_false_iff.2 fun reached => undue (State.due_completionDeadline entry reached)
    exact happening_not_taken (by simp [early]) ..

theorem exec_donationTaken_none {s : State} {k : Port} (none : ∀ d rest, (s.port k).toPool ≠ .donation d :: rest) :
    exec (.donationTaken k) s = .next s := by
  simp only [exec, execDonationTaken]
  split
  · next d rest oldest => exact absurd oldest (none d rest)
  all_goals rfl

theorem exec_claimTaken_none {s : State} {k : Port} (none : ∀ n rest, (s.port k).toPool ≠ .claim n :: rest) :
    exec (.claimTaken k) s = .next s := by
  simp only [exec, execClaimTaken]
  split
  · next n rest oldest => exact absurd oldest (none n rest)
  all_goals rfl

/-- Settles O27: each happening is guarded by its cause. -/
theorem withoutItsCauseAHappeningChangesNothing : Obligations.WithoutItsCauseAHappeningChangesNothing := by
  intro s k tag
  refine ⟨exec_windowClose_undue, exec_donationTaken_none, exec_claimTaken_none, fun none => ?answer,
    fun none => ?report, fun busy => ?grant, exec_completionDeadline_undue, fun asserted => ?reset,
    fun asserted => ?rst, fun released low => ?release, fun running low => ?restart, fun risen => ?rise⟩
  case answer => simp only [exec, execClaimAnswerTaken, none]
  case report => simp only [exec, execReportSubmission, none]
  case grant => exact happening_not_taken (by simp [Option.isSome_iff_ne_none.2 busy]) ..
  case reset => exact happening_not_taken (by simp [asserted]) ..
  case rst => exact happening_not_taken (by simp [asserted]) ..
  case release => exact happening_not_taken (by simp [released]) ..
  case restart => exact happening_not_taken (by simp [running]) ..
  case rise => exact happening_not_taken (by simp [risen]) ..

end Sys2Proof.Machine
end

