-- ==== Sys2Proof/Proofs/SequenceNumbers.lean ====
section
/-! PROOF. The window sequence number of a port: a close, an install and a RESUME with a profile raise it by one
(R26, R45), a reset returns it to 0, and nothing else touches it. -/

namespace Sys2Proof.Machine

open Sys2Proof

/-! ## Operations that keep the number -/

/-- The window sequence number of port `k`. -/
def State.seqNo (s : State) (k : Port) : BitVec 32 := (s.port k).meter.seqNo

theorem evaluate_seqNo (k : Port) (s : State) : (evaluate k s).seqNo k = s.seqNo k := by
  obtain ⟨m, q, claims, block, -, -, number, -⟩ := evaluate_port_same k s
  rw [State.seqNo, block]
  exact number

theorem crossHighMark_seqNo (k : Port) (i : Installed) (m : Meter) :
    (crossHighMark k i m).1.seqNo = m.seqNo := by
  rw [crossHighMark_eq]
  split <;> rfl

theorem evaluateQueue_seqNo (k : Port) (i : Installed) (m : Meter) (q : List QueueEntry) :
    (evaluateQueue k i m q).meter.seqNo = m.seqNo := by
  obtain ⟨-, number, -⟩ := evaluateQueue_meter k i m q
  exact number

theorem grantQueue_seqNo (k : Port) (i : Installed) (n : Nat) (m : Meter) (q : List QueueEntry)
    (unclaimed : m.claim = none) : (grantQueue k i n m q).meter.seqNo = m.seqNo := by
  cases waiting : waitingRest q with
  | nil => simp only [grantQueue, waiting]
  | cons e rest =>
    rw [grantQueue_eq k i n m waiting rfl unclaimed]
    exact (evaluateQueue_seqNo ..).trans (crossHighMark_seqNo ..)

theorem refuse_seqNo (m : Meter) (e : QueueEntry) : (m.refuse e).seqNo = m.seqNo := by
  unfold Meter.refuse
  split <;> rfl

theorem refuseQueue_seqNo (m : Meter) (q : List QueueEntry) : (refuseQueue m q).meter.seqNo = m.seqNo := by
  unfold refuseQueue
  split
  · rfl
  · exact refuse_seqNo m _

theorem applyEvaluated_seqNo (k : Port) (s : State) (r : Evaluated) :
    (s.applyEvaluated k r).seqNo k = r.meter.seqNo := by
  simp [State.seqNo, State.applyEvaluated]

theorem takeRequest_seqNo (k : Port) (r : Request) (s : State) : (takeRequest k r s).seqNo k = s.seqNo k := by
  have joined (e : QueueEntry) : (s.setQueue k ((s.port k).queue ++ [e])).seqNo k = s.seqNo k := by
    simp [State.seqNo]
  unfold takeRequest
  dsimp only
  split
  · exact (evaluate_seqNo ..).trans (joined _)
  · exact joined _

theorem takeAnswer_seqNo (k : Port) (a : ClaimAnswer) (s : State) : (takeAnswer k a s).seqNo k = s.seqNo k := by
  have cleared : (s.setMeter k { (s.port k).meter with claim := none }).seqNo k = s.seqNo k := by
    simp [State.seqNo]
  unfold takeAnswer
  dsimp only
  split
  · split
    · split
      · exact (applyEvaluated_seqNo ..).trans (grantQueue_seqNo k _ _ _ _ rfl)
      · exact (applyEvaluated_seqNo ..).trans (refuseQueue_seqNo ..)
    · exact (evaluate_seqNo ..).trans cleared
  · exact (evaluate_seqNo ..).trans cleared

theorem judgeDrain_meter (k : Port) (s : State) : ((judgeDrain k s).port k).meter = (s.port k).meter := by
  obtain ⟨-, -, block, -⟩ := judgeDrain_facts s k
  rw [block]

theorem judgeDrain_seqNo (k : Port) (s : State) : (judgeDrain k s).seqNo k = s.seqNo k :=
  congrArg Meter.seqNo (judgeDrain_meter k s)

theorem countCompletion_seqNo (k : Port) (status : AnswerStatus) (latency : Nat) (s : State) :
    (countCompletion k status latency s).seqNo k = s.seqNo k := by
  unfold countCompletion
  dsimp only
  split
  · simp [State.seqNo]
  · rfl

theorem countTimeout_seqNo (k : Port) (s : State) : (countTimeout k s).seqNo k = s.seqNo k := by
  unfold countTimeout
  dsimp only
  split
  · simp [State.seqNo]
  · rfl

theorem earlyEnd_seqNo (k : Port) (s : State) : (earlyEnd k s).seqNo k = s.seqNo k := by
  cases runs : (s.port k).windowRuns with
  | false => rw [earlyEnd_no_window k s runs]
  | true =>
    obtain ⟨i, installed⟩ := Option.isSome_iff_exists.1 ((PortBlock.windowRuns_iff _).1 runs).1
    rw [earlyEnd_window k s i runs installed, State.seqNo, State.setPort_port_same]
    rfl

theorem stopMeter_seqNo (k : Port) (s : State) : (stopMeter k s).seqNo k = s.seqNo k := by
  unfold stopMeter
  dsimp only
  split
  · rw [State.seqNo, State.setMeter_port_same]
    exact earlyEnd_seqNo k s
  · rfl

theorem massAdmit_seqNo (k : Port) (s : State) : (massAdmit k s).seqNo k = s.seqNo k := by
  simp [State.seqNo, massAdmit, Meter.staleClaim]

theorem setController_seqNo (k : Port) (s : State) (c : Controller) :
    (s.setController k c).seqNo k = s.seqNo k := by
  simp [State.seqNo]

theorem quiescePort_seqNo (k : Port) (s : State) : (quiescePort k s).seqNo k = s.seqNo k := by
  rw [quiescePort, judgeDrain_seqNo, massAdmit_seqNo, enterDraining, setController_seqNo, stopMeter_seqNo]

theorem endLoad_seqNo (k : Port) (s : State) : (endLoad k s).seqNo k = s.seqNo k := by
  simp [State.seqNo, endLoad]

theorem keepRegime_seqNo (k : Port) (reason : FaultReason) (s : State) :
    (keepRegime k reason s).seqNo k = s.seqNo k := by
  unfold keepRegime
  dsimp only
  rw [State.seqNo, State.submit_port, ← State.seqNo]
  split
  · rw [setController_seqNo, endLoad_seqNo]
  · rw [massAdmit_seqNo, setController_seqNo, endLoad_seqNo]

/-! ## Operations that raise it -/

/-- R26: the number of port `k` stays or rises by one. -/
def NumberFollows (k : Port) (s t : State) : Prop := t.seqNo k = s.seqNo k ∨ t.seqNo k = s.seqNo k + 1

theorem startWindow_seqNo (k : Port) (i : Installed) (s : State) :
    (startWindow k i s).seqNo k = s.seqNo k + 1 := by
  simp [State.seqNo, startWindow]

theorem installProfile_seqNo (k : Port) (i : Installed) (s : State) :
    (installProfile k i s).seqNo k = s.seqNo k + 1 := by
  rw [installProfile_eq, evaluate_seqNo]
  simp [State.seqNo]

theorem installFromTable_seqNo (k : Port) (index : Byte) (p : Profile) (s : State) :
    (installFromTable k index p s).seqNo k = s.seqNo k + 1 := by
  unfold installFromTable
  dsimp only
  split
  · rw [State.seqNo, State.submit_port, ← State.seqNo, endLoad_seqNo, setController_seqNo, installProfile_seqNo,
      setController_seqNo, earlyEnd_seqNo]
  · rw [endLoad_seqNo, setController_seqNo, installProfile_seqNo, setController_seqNo, earlyEnd_seqNo]

theorem installFallback_seqNo (k : Port) (index : Byte) (reason : FaultReason) (s : State) :
    (installFallback k index reason s).seqNo k = s.seqNo k + 1 := by
  unfold installFallback
  dsimp only
  rw [State.seqNo, State.submit_port, ← State.seqNo, endLoad_seqNo, setController_seqNo, installProfile_seqNo,
    setController_seqNo, earlyEnd_seqNo]

theorem takeLoadResult_follows (k : Port) (result : LoadResult) (s : State) :
    NumberFollows k s (takeLoadResult k result s) := by
  unfold takeLoadResult
  split
  · exact .inl rfl
  · split
    · exact .inl (endLoad_seqNo ..)
    · split
      · exact .inr (installFromTable_seqNo ..)
      · split
        · exact .inr (installFallback_seqNo ..)
        · exact .inl (keepRegime_seqNo ..)

theorem resumePort_follows (k : Port) (s : State) : NumberFollows k s (resumePort k s) := by
  unfold resumePort
  split
  · right
    rw [evaluate_seqNo, startWindow_seqNo, setController_seqNo]
  · left
    rw [massAdmit_seqNo, setController_seqNo]

theorem closeWindow_seqNo (k : Port) {i : Installed} {s : State}
    (installed : (s.port k).meter.installed = some i) :
    (closeWindow k i s).seqNo k = s.seqNo k + 1 := by
  have upTo5 : (closeUpTo5 k i s).seqNo k = s.seqNo k + 1 := by
    rw [State.seqNo, closeUpTo5_port k i s installed]
    rfl
  have hold (u : State) : (closeHold k i u).seqNo k = u.seqNo k := by
    obtain ⟨m, block, -, number, -⟩ := closeHold_port k i u
    rw [State.seqNo, block]
    exact number
  have signal (u : State) : (closeSignal k i u).seqNo k = u.seqNo k := by
    obtain ⟨c, l, block⟩ := closeSignal_port k i u
    rw [State.seqNo, block]
    rfl
  have report (u : State) : (submitReport k i u).seqNo k = u.seqNo k := by
    rw [State.seqNo, submitReport_port]
    rfl
  rw [closeWindow_steps, report, signal, hold, evaluate_seqNo, upTo5]

/-! ## Every command -/

/-- An operation of port `k` leaves the numbers of the other ports. -/
theorem NumberFollows.others {k : Port} {s t : State} (own : NumberFollows k s t)
    (others : ∀ j, j ≠ k → t.port j = s.port j) (j : Port) : NumberFollows j s t := by
  by_cases same : j = k
  · exact same ▸ own
  · left
    rw [State.seqNo, others j same]
    rfl

theorem NumberFollows.of_ports {s t : State} (same : t.ports = s.ports) (k : Port) : NumberFollows k s t := by
  left
  rw [State.seqNo, State.port_def, same]
  rfl

theorem NumberFollows.setPort (s : State) (k : Port) (b : PortBlock) (number : b.meter.seqNo = s.seqNo k)
    (j : Port) : NumberFollows j s (s.setPort k b) := by
  refine NumberFollows.others (s := s) (k := k) (.inl ?_) (fun j other => State.setPort_port_ne _ other b) j
  rw [State.seqNo, State.setPort_port_same]
  exact number

/-- The same from another state with the same number. -/
theorem NumberFollows.after {k : Port} {s u t : State} (h : NumberFollows k u t) (same : u.seqNo k = s.seqNo k) :
    NumberFollows k s t := by
  rw [NumberFollows, same] at h
  exact h

theorem startLoad_seqNo (k : Port) (index : Byte) (s : State) : (startLoad k index s).seqNo k = s.seqNo k := by
  simp [State.seqNo, startLoad]

theorem portReset_seqNo (k : Port) (s : State) : (portReset k s).seqNo k = s.seqNo k := by
  rw [portReset, judgeDrain_seqNo]
  simp [State.seqNo, Meter.staleClaim]

theorem answerPort_follows (k : Port) (rtag : Fin 32) (tag : Fin 64) (f : InFlight) (status : AnswerStatus)
    (data : List Beat) (s : State) (j : Port) : NumberFollows j s (answerPort k rtag tag f status data s) := by
  refine .others (k := k) (.inl ?_) (answerPort_contained k rtag tag f status data s).confined.2 j
  rw [answerPort_eq, judgeDrain_seqNo, countCompletion_seqNo]

theorem deadlinePort_follows (k : Port) (rtag : Fin 32) (tag : Fin 64) (f : InFlight) (s : State) (j : Port) :
    NumberFollows j s (deadlinePort k rtag tag f s) := by
  refine .others (k := k) (.inl ?_) (deadlinePort_contained k rtag tag f s).confined.2 j
  rw [deadlinePort, judgeDrain_seqNo, State.seqNo, State.submit_port, ← State.seqNo, countTimeout_seqNo]

theorem CommandEffect.number_follows {s t : State} (h : CommandEffect s t) (k : Port) : NumberFollows k s t := by
  cases h with
  | unchanged | poolLimit | timeout | tableBase | ringStopped | noticePopped | overflowCleared | irqSet =>
    exact .inl rfl
  | fallbackSet j | fallbackCleared j => exact .setPort s j _ (by rfl) k
  | loadStarted j index => exact .others (.inl (startLoad_seqNo ..)) (Contained.startLoad j index s).confined.2 k
  | quiesced j => exact .others (.inl (quiescePort_seqNo j s)) (Contained.quiescePort j s).confined.2 k
  | resumed j => exact (resumePort_follows j s).others (Contained.resumePort j s).confined.2 k
  | ringStarted base size => exact .of_ports (WriterContained.startRing base size s).ports k
  | acknowledged c => exact .of_ports (WriterContained.acknowledge c s).ports k

theorem Effect.number_follows {c : Instr} {s t : State} (h : Effect c s t) (k : Port) :
    NumberFollows k s t ∨ (t.seqNo k = 0 ∧
      (c = .rstAsserted ∨ (∃ b, c = .rstReleased b) ∨ ∃ f, c = .softReset f)) := by
  cases h with
  | powerReset mcsLow asserted cause =>
    right
    rw [State.seqNo, powerOn_port]
    exact ⟨rfl, cause.elim .inl fun released => .inr (.inl released)⟩
  | softReset bits cause =>
    right
    rw [State.seqNo, softReset_port]
    exact ⟨rfl, .inr (.inr cause)⟩
  | nothing | clock | memoryPortReady | orphanFreed | shifted => exact .inl (.inl rfl)
  | inputFollowed j | portReleased j => exact .inl (.setPort s j _ (by rfl) k)
  | donationTaken j d rest =>
    exact .inl (NumberFollows.setPort s j { s.port j with toPool := rest } rfl k)
  | claimTaken j n rest =>
    exact .inl (NumberFollows.setPort s j { s.port j with
      toPool := rest, answers := (s.port j).answers ++ [s.pool.answer n] } rfl k)
  | request j r =>
    exact .inl (.others (.inl (takeRequest_seqNo j r s)) (Contained.takeRequest j r s).confined.2 k)
  | portReset j =>
    refine .inl (.others (.inl (portReset_seqNo j s)) (fun i other => ?_) k)
    rw [(portReset_contained j s).confined.2 i other, State.setTable_port]
  | windowClosed j i _ installed =>
    exact .inl (.others (.inr (closeWindow_seqNo j installed)) (Contained.closeWindow j i s).confined.2 k)
  | answerTaken j answer rest =>
    have taken (i : Port) : (s.setPort j { s.port j with answers := rest }).seqNo i = s.seqNo i := by
      by_cases same : i = j
      · subst same
        simp [State.seqNo]
      · simp [State.seqNo, same]
    exact .inl (NumberFollows.after (.others (.inl (takeAnswer_seqNo ..))
      (Contained.takeAnswer j answer _).confined.2 k) (taken k))
  | reportTaken j r rest =>
    have taken := NumberFollows.setPort s j { s.port j with toWriter := rest } rfl k
    rw [NumberFollows, State.seqNo, ← (WriterContained.takeReport r _).port] at taken
    exact .inl taken
  | internalGranted item rest tag oldest free =>
    rw [grantInternal_eq oldest free]
    exact .inl (.inl rfl)
  | portGranted j e rest tag queue _ _ free =>
    rw [grantPort_eq queue free]
    exact .inl (NumberFollows.setPort s j (s.port j).departed rfl k)
  | portOrphanFreed tag f j =>
    exact .inl (.others (s := s) (.inl (judgeDrain_seqNo j (s.setEntry tag none)))
      (Contained.judgeDrain j _).confined.2 k)
  | answered tag f j rtag status data => exact .inl (answerPort_follows j rtag tag f status data s k)
  | timedOut tag f j rtag => exact .inl (deadlinePort_follows j rtag tag f s k)
  | loadEnded tag f j e result =>
    exact .inl (.others (s := s) (takeLoadResult_follows j result (s.setEntry tag e))
      (Contained.takeLoadResult j result _).confined.2 k)
  | written tag f => exact .inl (.of_ports (WriterContained.writeSucceeded _).ports k)
  | writeFaulted tag f e reason => exact .inl (.of_ports (WriterContained.writeFailed reason _).ports k)
  | commanded bits status data owner => exact .inl (owner.number_follows k)

/-- Settles O14: one case per effect. -/
theorem sequenceNumbersRiseByOne : Obligations.SequenceNumbersRiseByOne := by
  intro c s
  obtain ⟨t, taken, effect⟩ := exec_effective c s
  refine ⟨t, taken, fun k => ?_⟩
  have follows := effect.number_follows k
  rwa [NumberFollows, or_assoc] at follows

end Sys2Proof.Machine
end

