-- ==== Sys2Proof/Proofs/SafetyRules.lean ====
section
/-! PROOF. Rules about every command: a command of one port leaves the others (R70, R92), and a transaction is
completed at most once (R16, R111). -/

namespace Sys2Proof.Machine

open Sys2Proof

/-! ## The other ports -/

/-- Every port but `k` is as it was. -/
def SparesOthers (k : Port) (s t : State) : Prop := ∀ j, j ≠ k → t.port j = s.port j

theorem happening_spares {k : Port} {s u t : State} {enabled : Bool} (h : happening enabled s u = .next t)
    (spares : SparesOthers k s u) : SparesOthers k s t := by
  unfold happening at h
  injection h with h
  subst h
  split
  · exact spares
  · exact fun _ _ => rfl

theorem setPort_spares (k : Port) (s : State) (b : PortBlock) : SparesOthers k s (s.setPort k b) :=
  fun _ other => State.setPort_port_ne _ other b

theorem exec_prstAsserted_spares {k : Port} {s t : State} (h : exec (.prstAsserted k) s = .next t) :
    SparesOthers k s t := by
  refine happening_spares h ?_
  split
  · exact setPort_spares k s _
  · intro j other
    rw [(portReset_contained k s).confined.2 j other, State.setTable_port]

theorem exec_windowClose_spares {k : Port} {s t : State} (h : exec (.windowClose k) s = .next t) :
    SparesOthers k s t := by
  refine happening_spares h ?_
  split
  · exact (Contained.closeWindow k _ s).confined.2
  · exact fun _ _ => rfl

theorem exec_donationTaken_spares {k : Port} {s t : State} (h : exec (.donationTaken k) s = .next t) :
    SparesOthers k s t := by
  simp only [exec, execDonationTaken] at h
  split at h
  · exact happening_spares h (setPort_spares k s _)
  all_goals
    injection h with h
    exact fun j _ => by rw [h]

theorem exec_claimTaken_spares {k : Port} {s t : State} (h : exec (.claimTaken k) s = .next t) :
    SparesOthers k s t := by
  simp only [exec, execClaimTaken] at h
  split at h
  · exact happening_spares h (setPort_spares k s _)
  all_goals
    injection h with h
    exact fun j _ => by rw [h]

theorem exec_claimAnswerTaken_spares {k : Port} {s t : State} (h : exec (.claimAnswerTaken k) s = .next t) :
    SparesOthers k s t := by
  simp only [exec, execClaimAnswerTaken] at h
  split at h
  · injection h with h
    exact fun j _ => by rw [h]
  · refine happening_spares h fun j other => ?_
    rw [(Contained.takeAnswer k _ _).confined.2 j other, State.setPort_port_ne _ other]

theorem exec_reportSubmission_spares {k : Port} {s t : State} (h : exec (.reportSubmission k) s = .next t) :
    SparesOthers k s t := by
  simp only [exec, execReportSubmission] at h
  split at h
  · injection h with h
    exact fun j _ => by rw [h]
  · refine happening_spares h fun j other => ?_
    rw [(WriterContained.takeReport _ _).port j, State.setPort_port_ne _ other]

/-- R165, R170: a frame that names port `k` spares the others where its owner does. -/
theorem takePortFrame_spares {k : Port} {count : Nat} {args : List Byte} {p : Fin 8} {s t : State}
    {owner : Port → List Byte → State → State} (h : takePortFrame count ⟨portByte k :: args, p⟩ s owner = .next t)
    (spares : ∀ s', SparesOthers k s' (owner k args s')) : SparesOthers k s t := by
  refine happening_spares h ?_
  split
  · simp only [List.headD_cons, portOfByte_portByte, List.tail_cons]
    exact fun j other => spares (s.emit _) j other
  · exact fun _ _ => rfl

theorem takeLoad_spares (k : Port) (index : Byte) (s : State) : SparesOthers k s (takeLoad k index s) := by
  have started : SparesOthers k s ((startLoad k index s).respond .ok []) :=
    fun j other => (Contained.startLoad k index s).confined.2 j other
  have refused (status : Status) : SparesOthers k s (s.respond status []) := fun _ _ => rfl
  unfold takeLoad
  split
  case h_1 | h_2 =>
    split
    · exact refused _
    · exact started
  all_goals exact refused _

theorem takeQuiesce_spares (k : Port) (s : State) : SparesOthers k s (takeQuiesce k s) := by
  have quiesced : SparesOthers k s ((quiescePort k s).respond .ok []) :=
    fun j other => (Contained.quiescePort k s).confined.2 j other
  have refused (status : Status) : SparesOthers k s (s.respond status []) := fun _ _ => rfl
  unfold takeQuiesce
  split
  case h_4 | h_5 => exact refused _
  all_goals exact quiesced

theorem exec_setFallback (f : Frame) (s : State) : exec (.setFallback f) s = execSetFallback f s := by rfl

theorem exec_clearFallback (f : Frame) (s : State) : exec (.clearFallback f) s = execClearFallback f s := by rfl

theorem exec_load (f : Frame) (s : State) : exec (.load f) s = execLoad f s := by rfl

theorem exec_quiesce (f : Frame) (s : State) : exec (.quiesce f) s = execQuiesce f s := by rfl

theorem exec_resume (f : Frame) (s : State) : exec (.resume f) s = execResume f s := by rfl

/-- Settles O15: what a happening or a command of port `k` does is contained in that port. -/
theorem onlyTheNamedPortChanges : Obligations.OnlyTheNamedPortChanges := by
  intro k j s t other h
  suffices spares : SparesOthers k s t from spares j other
  rcases h with ⟨r, h⟩ | h | h | h | h | h | h | h | ⟨args, p, h⟩
  · exact happening_spares h (Contained.takeRequest k r s).confined.2
  · exact exec_prstAsserted_spares h
  · exact happening_spares h (setPort_spares k s _)
  · exact exec_windowClose_spares h
  · exact exec_donationTaken_spares h
  · exact exec_claimTaken_spares h
  · exact exec_claimAnswerTaken_spares h
  · exact exec_reportSubmission_spares h
  · rcases h with h | h | h | h | h
    · rw [exec_setFallback, execSetFallback] at h
      refine takePortFrame_spares h fun s' => ?_
      split
      · exact setPort_spares k s' _
      · exact fun _ _ => rfl
    · rw [exec_clearFallback, execClearFallback] at h
      exact takePortFrame_spares h fun s' => setPort_spares k s' _
    · rw [exec_load, execLoad] at h
      exact takePortFrame_spares h fun s' => takeLoad_spares k _ s'
    · rw [exec_quiesce, execQuiesce] at h
      exact takePortFrame_spares h fun s' => takeQuiesce_spares k s'
    · rw [exec_resume, execResume] at h
      refine takePortFrame_spares h fun s' => ?_
      split
      · exact fun j other => (Contained.resumePort k s').confined.2 j other
      · exact fun _ _ => rfl

/-! ## Completions -/

/-- R111: an ORPHAN stays as it is until it is freed. -/
def OrphansStay (s t : State) : Prop :=
  ∀ (tag : Fin 64) (f : InFlight), s.table[tag.val] = some f → f.state = .orphan →
    ∀ g, t.table[tag.val] = some g → g = f

/-- What a command puts out: at most one thing, a completion only of a LIVE entry that is LIVE no longer. -/
structure PutsOut (s t : State) (l : List Output) : Prop where
  outputs    : t.outputs = s.outputs ++ l
  one        : l.length ≤ 1
  completion : ∀ k rtag status data, Output.completion k rtag status data ∈ l →
    ∃ (tag : Fin 64) (f : InFlight), s.table[tag.val] = some f ∧ f.state = .live ∧ f.owner = .port k rtag ∧
      ∀ g, t.table[tag.val] = some g → g.state = .orphan
  orphans    : OrphansStay s t

theorem OrphansStay.of_table {s t : State} (same : t.table = s.table) : OrphansStay s t := by
  intro tag f entry _ g found
  rw [same, entry] at found
  exact (Option.some.inj found).symm

/-- A write to an entry that is no ORPHAN, or an ORPHAN freed. -/
theorem OrphansStay.setEntry {s t : State} {tag : Fin 64} {e : Option InFlight}
    (table : t.table = (s.setEntry tag e).table)
    (fits : ∀ f, s.table[tag.val] = some f → f.state = .live ∨ e = none) : OrphansStay s t := by
  intro other f entry orphan g found
  rw [table, State.setEntry_get] at found
  split at found
  · next same =>
    subst same
    rcases fits f entry with live | none
    · rw [orphan] at live
      cases live
    · rw [none] at found
      cases found
  · rw [entry] at found
    exact (Option.some.inj found).symm

theorem OrphansStay.orphanWhere {s t : State} {p : Owner → Bool} (table : t.table = orphanWhere p s.table) :
    OrphansStay s t := by
  intro tag f entry orphan g found
  rw [table, orphanWhere_get, entry, Option.map_some, orphan] at found
  exact (Option.some.inj found).symm

theorem PutsOut.nothing {s t : State} (outputs : t.outputs = s.outputs) (orphans : OrphansStay s t) :
    PutsOut s t [] :=
  ⟨by rw [outputs, List.append_nil], Nat.zero_le _, by simp, orphans⟩

/-- A transaction sent, or bits of MDO. -/
theorem PutsOut.other {s t : State} {o : Output} (outputs : t.outputs = s.outputs ++ [o])
    (other : ∀ k rtag status data, o ≠ .completion k rtag status data) (orphans : OrphansStay s t) :
    PutsOut s t [o] :=
  ⟨outputs, le_rfl, fun k rtag status data ho => absurd (List.mem_singleton.1 ho).symm (other k rtag status data),
    orphans⟩

/-- The completion of a LIVE entry, which is freed or left as an ORPHAN (R120, R122). -/
theorem PutsOut.completed {s t : State} {tag : Fin 64} {f : InFlight} {k : Port} {rtag : Fin 32}
    {status : CompletionStatus} {data : List Beat} {e : Option InFlight}
    (outputs : t.outputs = s.outputs ++ [.completion k rtag status data])
    (table : t.table = (s.setEntry tag e).table) (entry : s.table[tag.val] = some f) (live : f.state = .live)
    (owner : f.owner = .port k rtag) (left : e = none ∨ e = some f.orphan) :
    PutsOut s t [.completion k rtag status data] := by
  refine ⟨outputs, le_rfl, fun k' rtag' status' data' ho => ?_, .setEntry table fun g found => ?_⟩
  · obtain ⟨rfl, rfl, -, -⟩ : k' = k ∧ rtag' = rtag ∧ status' = status ∧ data' = data := by simpa using ho
    refine ⟨tag, f, entry, live, owner, fun g found => ?_⟩
    rw [table, State.setEntry_get_same] at found
    rcases left with none | orphan
    · rw [none] at found
      cases found
    · rw [orphan] at found
      rw [← Option.some.inj found]
      rfl
  · left
    rw [entry] at found
    rw [← Option.some.inj found]
    exact live

theorem PutsOut.contained {k : Port} {s t : State} (h : Contained k s t) : PutsOut s t [] :=
  .nothing h.confined.outputs (.of_table h.confined.table)

theorem PutsOut.writer {s t : State} (h : WriterContained s t) : PutsOut s t [] :=
  .nothing h.outputs (.of_table h.table)

theorem CommandEffect.puts_out_nothing {s t : State} (h : CommandEffect s t) : PutsOut s t [] := by
  cases h with
  | unchanged | poolLimit | timeout | tableBase | ringStopped | noticePopped | overflowCleared | irqSet
  | fallbackSet | fallbackCleared => exact .nothing rfl (.of_table rfl)
  | loadStarted k index => exact .contained (Contained.startLoad k index s)
  | quiesced k => exact .contained (Contained.quiescePort k s)
  | resumed k => exact .contained (Contained.resumePort k s)
  | ringStarted base size => exact .writer (WriterContained.startRing base size s)
  | acknowledged c => exact .writer (WriterContained.acknowledge c s)

theorem Effect.puts_out {c : Instr} {s t : State} (h : Effect c s t) : ∃ l, PutsOut s t l := by
  cases h with
  | nothing | inputFollowed | portReleased | clock | donationTaken | claimTaken | memoryPortReady =>
    exact ⟨_, .nothing rfl (.of_table rfl)⟩
  | powerReset =>
    refine ⟨_, .nothing rfl fun tag f _ _ g found => ?_⟩
    simp [powerOn] at found
  | softReset bits => exact ⟨_, .other rfl (by simp) (.orphanWhere (p := fun o => o.portOf.isNone) rfl)⟩
  | shifted bits => exact ⟨_, .other rfl (by simp) (.of_table rfl)⟩
  | request k r => exact ⟨_, .contained (Contained.takeRequest k r s)⟩
  | portReset k =>
    have contained := (portReset_contained k s).confined
    have table : (Machine.portReset k s).table = orphanWhere (fun o => o.portOf == some k) s.table := by
      rw [contained.table, State.setTable_table]
    have outputs : (Machine.portReset k s).outputs = s.outputs := by rw [contained.outputs, State.setTable_outputs]
    exact ⟨_, .nothing outputs (.orphanWhere table)⟩
  | windowClosed k i => exact ⟨_, .contained (Contained.closeWindow k i s)⟩
  | answerTaken k answer rest =>
    exact ⟨_, .contained ((Contained.setPort k s _).trans (Contained.takeAnswer k answer _))⟩
  | reportTaken k r rest =>
    have contained := WriterContained.takeReport r (s.setPort k { s.port k with toWriter := rest })
    exact ⟨_, .nothing contained.outputs (.of_table contained.table)⟩
  | internalGranted item rest tag oldest free =>
    rw [grantInternal_eq oldest free]
    refine ⟨_, .other rfl (by simp) (.setEntry (tag := tag) rfl fun f found => ?_)⟩
    rw [(State.freeInternalTag_free free).2] at found
    cases found
  | portGranted k e rest tag queue _ _ free =>
    rw [grantPort_eq queue free]
    refine ⟨_, .other rfl (by simp) (.setEntry (tag := tag) rfl fun f found => ?_)⟩
    rw [(State.freePortTag_free free).2] at found
    cases found
  | orphanFreed tag f => exact ⟨_, .nothing rfl (.setEntry rfl fun _ _ => .inr rfl)⟩
  | portOrphanFreed tag f k =>
    have contained := (Contained.judgeDrain k (s.setEntry tag none)).confined
    exact ⟨_, .nothing contained.outputs (.setEntry contained.table fun _ _ => .inr rfl)⟩
  | answered tag f k rtag status data entry live owner =>
    have contained := (answerPort_contained k rtag tag f status data s).confined
    exact ⟨_, .completed contained.outputs contained.table entry live owner (.inl rfl)⟩
  | timedOut tag f k rtag entry live owner =>
    have contained := (deadlinePort_contained k rtag tag f s).confined
    exact ⟨_, .completed contained.outputs contained.table entry live owner (.inr rfl)⟩
  | loadEnded tag f k e result entry live =>
    have contained := (Contained.takeLoadResult k result (s.setEntry tag e)).confined
    refine ⟨_, .nothing contained.outputs (.setEntry contained.table fun g found => .inl ?_)⟩
    rw [← Option.some.inj (entry.symm.trans found)]
    exact live
  | written tag f entry live =>
    have contained := WriterContained.writeSucceeded (s.setEntry tag none)
    exact ⟨_, .nothing contained.outputs (.setEntry contained.table fun _ _ => .inr rfl)⟩
  | writeFaulted tag f e reason entry live =>
    have contained := WriterContained.writeFailed reason (s.setEntry tag e)
    refine ⟨_, .nothing contained.outputs (.setEntry contained.table fun g found => .inl ?_)⟩
    rw [← Option.some.inj (entry.symm.trans found)]
    exact live
  | commanded bits status data owner =>
    have quiet := owner.puts_out_nothing
    have outputs := quiet.outputs
    rw [List.append_nil] at outputs
    exact ⟨_, .other outputs (by simp) quiet.orphans⟩

/-- Settles O16: one case per effect. -/
theorem eachTransactionCompletesAtMostOnce : Obligations.EachTransactionCompletesAtMostOnce := by
  intro c s
  obtain ⟨t, taken, effect⟩ := exec_effective c s
  obtain ⟨l, outputs, one, completion, orphans⟩ := effect.puts_out
  exact ⟨t, l, taken, outputs, one, completion, orphans⟩

end Sys2Proof.Machine
end

