-- ==== Sys2Proof/Proofs/ReportAccount.lean ====
section
/-! PROOF. The account of R194: every report taken while the ring runs is written, queued or counted. -/

namespace Sys2Proof.Machine

open Sys2Proof

/-! ## What the account speaks of -/

/-- The records a writer holds for port `k` (R194). -/
def ReportWriter.held (w : ReportWriter) (k : Port) : Nat :=
  ((w.queue.filter fun r => r.port == k).map fun r => 1 + r.gapCount).sum + w.gapCount.get k

theorem recordsHeld_eq (s : State) (k : Port) : s.recordsHeld k = s.writer.held k := rfl

/-- What a record written takes out of the account of port `k`. -/
def recordWritten (w w' : ReportWriter) (k : Port) : Nat :=
  match w.queue with
  | r :: _ => if w'.producer ≠ w.producer ∧ r.port = k then 1 + r.gapCount else 0
  | [] => 0

/-- What a submission taken puts into the account of port `k`. -/
def recordTaken (s : State) (c : Instr) (k : Port) : Nat :=
  match c with
  | .reportSubmission j =>
    match (s.port j).toWriter with
    | r :: _ => if s.operating = true ∧ r.port = k then 1 else 0
    | [] => 0
  | _ => 0

theorem recordWritten_still {w w' : ReportWriter} (still : w'.producer = w.producer) (k : Port) :
    recordWritten w w' k = 0 := by
  unfold recordWritten
  split
  · simp [still]
  · rfl

theorem recordWritten_next {w w' : ReportWriter} {r : Report} {rest : List Report} (queue : w.queue = r :: rest)
    (next : w'.producer = w.producer + 1) (k : Port) :
    recordWritten w w' k = if r.port = k then 1 + r.gapCount else 0 := by
  unfold recordWritten
  rw [queue]
  simp [next]

theorem recordTaken_other {s : State} {c : Instr} (other : ∀ j, c ≠ .reportSubmission j) (k : Port) :
    recordTaken s c k = 0 := by
  unfold recordTaken
  split
  · exact absurd rfl (other _)
  · rfl

/-- The queue, the gap counts and the producer index stay. -/
def SameAccount (w w' : ReportWriter) : Prop :=
  w'.queue = w.queue ∧ w'.gapCount = w.gapCount ∧ w'.producer = w.producer

theorem SameAccount.held {w w' : ReportWriter} (h : SameAccount w w') (k : Port) : w'.held k = w.held k := by
  obtain ⟨queue, gaps, -⟩ := h
  rw [ReportWriter.held, queue, gaps]
  rfl

theorem SameAccount.balanced {w w' : ReportWriter} (h : SameAccount w w') (k : Port) :
    w'.held k + recordWritten w w' k = w.held k := by
  rw [h.held, recordWritten_still h.2.2, Nat.add_zero]

/-- R152: a judgement starts a write or announces an episode, and touches no record. -/
theorem judgeWrite_sameAccount (s : State) : SameAccount s.writer (judgeWrite s).writer := by
  unfold judgeWrite
  split
  · exact ⟨rfl, rfl, rfl⟩
  · split
    · split
      · split <;> exact ⟨rfl, rfl, rfl⟩
      · exact ⟨rfl, rfl, rfl⟩
    · exact ⟨rfl, rfl, rfl⟩

/-- A judgement of the writer `w` leaves its records and its producer index. -/
theorem judged_sameAccount (s : State) (w : ReportWriter) : SameAccount w (judgeWrite (s.setWriter w)).writer :=
  judgeWrite_sameAccount (s.setWriter w)

theorem ReportWriter.held_cons {w : ReportWriter} {r : Report} {rest : List Report} (queue : w.queue = r :: rest)
    (k : Port) : w.held k = { w with queue := rest }.held k + if r.port = k then 1 + r.gapCount else 0 := by
  unfold ReportWriter.held
  rw [queue, List.filter_cons]
  by_cases same : r.port = k
  · simp only [same, BEq.rfl, if_true, List.map_cons, List.sum_cons]
    omega
  · simp [same]

/-- R149: a record queued carries the gap count of its port. -/
theorem ReportWriter.held_queued (w : ReportWriter) (r : Report) (k : Port) :
    (w.queued r).held k = w.held k + if r.port = k then 1 else 0 := by
  unfold ReportWriter.held ReportWriter.queued
  simp only [List.filter_append, List.map_append, List.sum_append]
  by_cases same : r.port = k
  · simp only [same, BEq.rfl, List.filter_cons_of_pos, List.filter_nil, List.map_cons, List.map_nil,
      List.sum_cons, List.sum_nil, PerPort.get_set_same, if_true]
    omega
  · simp [same, PerPort.get_set_ne _ (Ne.symm same)]

/-- R150: a record lost is counted, below the maximum. -/
theorem ReportWriter.held_lost (w : ReportWriter) (r : Report) (k : Port) (short : w.gapCount.get k < 255) :
    { w with gapCount := countGap w.gapCount r.port }.held k = w.held k + if r.port = k then 1 else 0 := by
  unfold ReportWriter.held countGap saturate
  by_cases same : r.port = k
  · simp only [same, PerPort.get_set_same, if_true]
    omega
  · simp [same, PerPort.get_set_ne _ (Ne.symm same)]

theorem takeReport_balanced (r : Report) {s : State} (running : s.writer.ring = .run) (k : Port)
    (short : s.writer.gapCount.get k < 255) :
    (takeReport r s).writer.held k + recordWritten s.writer (takeReport r s).writer k =
      s.writer.held k + if r.port = k then 1 else 0 := by
  rcases Nat.lt_or_ge s.writer.queue.length 8 with room | full
  · have queued : SameAccount (s.writer.queued r) (takeReport r s).writer := by
      rw [takeReport_queued r running room]
      split
      · exact judged_sameAccount ..
      · exact ⟨rfl, rfl, rfl⟩
    rw [queued.held, ReportWriter.held_queued, recordWritten_still (queued.2.2.trans (by rfl)), Nat.add_zero]
  · rw [takeReport_lost r running full, State.setWriter_writer, ReportWriter.held_lost _ r k short,
      recordWritten_still (by rfl), Nat.add_zero]

/-- R154: a record written leaves the queue, its gap count with it. -/
theorem writeSucceeded_balanced {s : State} {r : Report} {rest : List Report} (running : s.writer.ring = .run)
    (queue : s.writer.queue = r :: rest) (k : Port) :
    (writeSucceeded s).writer.held k + recordWritten s.writer (writeSucceeded s).writer k = s.writer.held k := by
  have advanced : SameAccount (s.writer.advanced rest) (writeSucceeded s).writer := by
    rw [writeSucceeded_cons s running queue]
    exact judged_sameAccount ..
  rw [advanced.held, recordWritten_next queue (advanced.2.2.trans (by rfl)), ReportWriter.held_cons queue]
  rfl

/-! ## Every effect -/

/-- The account of port `k` from one state to another where nothing is taken. -/
def Balanced (k : Port) (s t : State) : Prop :=
  t.writer.held k + recordWritten s.writer t.writer k = s.writer.held k

theorem Balanced.of_writer {k : Port} {s t : State} (same : t.writer = s.writer) : Balanced k s t := by
  rw [Balanced, same]
  exact SameAccount.balanced ⟨rfl, rfl, rfl⟩ k

theorem Balanced.contained {k j : Port} {s t : State} (h : Contained j s t) : Balanced k s t :=
  .of_writer h.confined.writer

theorem CommandEffect.balanced {s t : State} (h : CommandEffect s t) (k : Port) (before : s.writer.ring = .run)
    (after : t.writer.ring = .run) : Balanced k s t := by
  cases h with
  | unchanged | poolLimit | timeout | tableBase | noticePopped | overflowCleared | irqSet | fallbackSet
  | fallbackCleared => exact .of_writer rfl
  | loadStarted j index => exact .contained (Contained.startLoad j index s)
  | quiesced j => exact .contained (Contained.quiescePort j s)
  | resumed j => exact .contained (Contained.resumePort j s)
  | ringStarted base size stopped => exact absurd before stopped
  | ringStopped => cases after
  | acknowledged c =>
    have same : SameAccount s.writer (acknowledge c s).writer := by
      rw [acknowledge_eq]
      exact judged_sameAccount s _
    exact same.balanced k

theorem Effect.balanced {c : Instr} {s t : State} (h : Effect c s t) (sound : WriterSound s) (k : Port)
    (before : s.writer.ring = .run) (after : t.writer.ring = .run) (other : ∀ j, c ≠ .reportSubmission j) :
    Balanced k s t := by
  cases h with
  | nothing | inputFollowed | portReleased | clock | donationTaken | claimTaken | memoryPortReady
  | orphanFreed | shifted => exact .of_writer rfl
  | powerReset | softReset => cases after
  | request j r => exact .contained (Contained.takeRequest j r s)
  | portReset j =>
    refine .of_writer ?_
    rw [(portReset_contained j s).confined.writer, State.setTable_writer]
  | windowClosed j i => exact .contained (Contained.closeWindow j i s)
  | answerTaken j answer rest =>
    exact .contained ((Contained.setPort j s _).trans (Contained.takeAnswer j answer _))
  | reportTaken j r rest cause => exact absurd cause (other j)
  | internalGranted item rest tag oldest free => exact .of_writer (by rw [grantInternal_eq oldest free])
  | portGranted j e rest tag queue _ _ free =>
    refine .of_writer ?_
    rw [grantPort_eq queue free]
    rfl
  | portOrphanFreed tag f j => exact .of_writer (Contained.judgeDrain j (s.setEntry tag none)).confined.writer
  | answered tag f j rtag status data =>
    exact .of_writer (answerPort_contained j rtag tag f status data s).confined.writer
  | timedOut tag f j rtag => exact .of_writer (deadlinePort_contained j rtag tag f s).confined.writer
  | loadEnded tag f j e result =>
    exact .of_writer (Contained.takeLoadResult j result (s.setEntry tag e)).confined.writer
  | written tag f entry live owner =>
    have writing := (sound.leave entry live owner (.inl rfl)).1
    obtain ⟨r, rest, queue⟩ := List.exists_cons_of_ne_nil (sound.head before writing)
    exact writeSucceeded_balanced (s := s.setEntry tag none) before queue k
  | writeFaulted => cases after
  | commanded bits status data owner =>
    exact owner.balanced k before after

/-- R149: the submission taken is queued or counted. -/
theorem exec_reportSubmission_balanced {s t : State} {j : Port} (h : exec (.reportSubmission j) s = .next t)
    (running : s.writer.ring = .run) (k : Port) (short : s.writer.gapCount.get k < 255) :
    t.writer.held k + recordWritten s.writer t.writer k =
      s.writer.held k + recordTaken s (.reportSubmission j) k := by
  simp only [exec, execReportSubmission] at h
  unfold recordTaken
  split at h
  · next none =>
    injection h with h
    subst h
    simp only [none]
    exact SameAccount.balanced ⟨rfl, rfl, rfl⟩ k
  · next r rest oldest =>
    simp only [oldest]
    cases operating : s.operating with
    | false =>
      rw [operating, happening_not_taken rfl] at h
      injection h with h
      subst h
      simpa using SameAccount.balanced ⟨rfl, rfl, rfl⟩ k
    | true =>
      rw [operating, happening_taken rfl] at h
      injection h with h
      subst h
      simpa using takeReport_balanced r (s := s.setPort j { s.port j with toWriter := rest }) running k short

/-- Settles O17: a submission taken is one more record, a record written takes its gap count along, and nothing
else touches the account. -/
theorem everyReportTakenIsAccountedFor : Obligations.EveryReportTakenIsAccountedFor := by
  intro c s t k sound taken before after short _ _
  show t.writer.held k + recordWritten s.writer t.writer k = s.writer.held k + recordTaken s c k
  by_cases submission : ∃ j, c = .reportSubmission j
  · obtain ⟨j, rfl⟩ := submission
    exact exec_reportSubmission_balanced taken before k short
  · have other (j : Port) : c ≠ .reportSubmission j := fun same => submission ⟨j, same⟩
    rw [recordTaken_other other, Nat.add_zero]
    exact (exec_effect taken).balanced sound k before after other

end Sys2Proof.Machine
end

