-- ==== Sys2Proof/Proofs/Admission.lean ====
section
/-! PROOF. Requests and evaluations: what joins the queue, what an evaluation decides about the first WAITING
entry, and what the answer to a claim does (R2 to R4, R27 to R33). -/

namespace Sys2Proof.Machine

open Sys2Proof

/-! ## One admission and the evaluation behind it -/

theorem State.submitAll_append (s : State) (ns ms : List Notice) :
    s.submitAll (ns ++ ms) = (s.submitAll ns).submitAll ms := by
  simp [State.submitAll, State.setNotices]

/-- `State.withAdmission` is the meter of R33 and the notice it submits. -/
theorem State.withAdmission_eq (s : State) (k : Port) (i : Installed) (m : Meter) (q : List QueueEntry) :
    s.withAdmission k i m q = (s.setPort k { s.port k with queue := q, meter := (crossHighMark k i m).1 }).submitAll
      (crossHighMark k i m).2 := by
  rw [crossHighMark_eq, State.withAdmission]
  split
  · dsimp only
    split <;> rfl
  · rfl

theorem evaluateQueue_admitted_entry (k : Port) (i : Installed) (m : Meter) {run : List QueueEntry}
    (admitted : AllAdmitted run) (e : QueueEntry) (rest : List QueueEntry) :
    evaluateQueue k i m (run ++ e.markAdmitted :: rest) = { evaluateQueue k i m rest with
      queue := run ++ e.markAdmitted :: (evaluateQueue k i m rest).queue } := by
  rw [evaluateQueue_run _ _ _ _ _ admitted]
  rfl

/-- Behind an entry just admitted the evaluation goes on with the rest (R27). -/
theorem evaluate_behind {s : State} {k : Port} {i : Installed} {m : Meter} {run rest : List QueueEntry}
    (e : QueueEntry) (ns : List Notice) (runs : (s.port k).windowRuns = true)
    (installed : m.installed = some i) (running : m.windowRunning = (s.port k).meter.windowRunning)
    (unclaimed : m.claim = none) (admitted : AllAdmitted run) :
    evaluate k ((s.setPort k { s.port k with queue := run ++ e.markAdmitted :: rest, meter := m }).submitAll ns) =
      s.applyEvaluated k { evaluateQueue k i m rest with
        queue := run ++ e.markAdmitted :: (evaluateQueue k i m rest).queue
        notices := ns ++ (evaluateQueue k i m rest).notices } := by
  obtain ⟨-, open_, run_on⟩ := (PortBlock.windowRuns_iff _).1 runs
  have runs' : ({ s.port k with queue := run ++ e.markAdmitted :: rest, meter := m } : PortBlock).windowRuns =
      true := (PortBlock.windowRuns_iff _).2 ⟨by simp [installed], open_, by rw [running]; exact run_on⟩
  have block : ((s.setPort k { s.port k with queue := run ++ e.markAdmitted :: rest, meter := m }).submitAll
      ns).port k = { s.port k with queue := run ++ e.markAdmitted :: rest, meter := m } := by
    rw [State.submitAll_port, State.setPort_port_same]
  rw [evaluate_eq (i := i) (by rw [block]; exact runs') (by rw [block]; exact installed)
    (by rw [block]; exact unclaimed), block]
  dsimp only
  rw [evaluateQueue_admitted_entry k i m admitted, State.applyEvaluated, block, State.applyEvaluated,
    State.submitAll_append]
  refine congrArg (fun t : State => State.submitAll t (evaluateQueue k i m rest).notices) ?_
  show State.submitAll ((s.setPort k _).setPort k _) ns = _
  rw [State.setPort_setPort]

/-- The queue of a port with its first WAITING entry, in a window with no claim outstanding (R27). -/
structure Judged (s : State) (k : Port) (i : Installed) (run : List QueueEntry) (e : QueueEntry)
    (rest : List QueueEntry) : Prop where
  runs      : (s.port k).windowRuns = true
  installed : (s.port k).meter.installed = some i
  unclaimed : (s.port k).meter.claim = none
  queue     : (s.port k).queue = run ++ e :: rest
  admitted  : AllAdmitted run
  waiting   : e.status = .waiting

theorem Judged.evaluate {s : State} {k : Port} {i : Installed} {run rest : List QueueEntry} {e : QueueEntry}
    (h : Judged s k i run e rest) : evaluate k s = s.applyEvaluated k
      { evaluateQueue k i (s.port k).meter (e :: rest) with
        queue := run ++ (evaluateQueue k i (s.port k).meter (e :: rest)).queue } := by
  rw [evaluate_eq h.runs h.installed h.unclaimed, h.queue, evaluateQueue_run _ _ _ _ _ h.admitted]

/-- R28: after an admission the next entry is judged. -/
theorem Judged.admission {s : State} {k : Port} {i : Installed} {run rest : List QueueEntry} {e : QueueEntry}
    (h : Judged s k i run e rest) {m : Meter} {ns : List Notice}
    (decided : decideEntry k i (s.port k).meter e.request = .admission m ns) :
    Machine.evaluate k s = Machine.evaluate k ((s.setPort k { s.port k with
      queue := run ++ e.markAdmitted :: rest, meter := m }).submitAll ns) := by
  obtain ⟨-, -, -, running, installed, claim⟩ := decideEntry_keeps decided
  rw [evaluate_behind e ns h.runs (installed.trans h.installed) running (claim.trans h.unclaimed) h.admitted,
    h.evaluate]
  simp only [evaluateQueue, h.waiting, decided]

/-- R30: a claim ends the evaluation. -/
theorem Judged.claim {s : State} {k : Port} {i : Installed} {run rest : List QueueEntry} {e : QueueEntry}
    (h : Judged s k i run e rest) {n : Nat}
    (decided : decideEntry k i (s.port k).meter e.request = .claim n) :
    Machine.evaluate k s = s.setPort k { s.port k with
      meter := { (s.port k).meter with claim := some ⟨n, true⟩ }
      toPool := (s.port k).toPool ++ [.claim n] } := by
  rw [h.evaluate]
  simp only [evaluateQueue, h.waiting, decided, State.applyEvaluated, State.submitAll_nil]
  rw [← h.queue]

/-- A refusal counts once in the entry's life (R11). -/
theorem refuse_eq (m : Meter) (e : QueueEntry) : m.refuse e = { m with counters := { m.counters with
    refused := if e.refusedOnce then m.counters.refused else min (m.counters.refused + 1) 65535 } } := by
  unfold Meter.refuse
  split <;> rfl

theorem evaluateQueue_refuse {k : Port} {i : Installed} {m : Meter} {e : QueueEntry} {rest : List QueueEntry}
    (waiting : e.status = .waiting) (decided : decideEntry k i m e.request = .refuse) :
    evaluateQueue k i m (e :: rest) = ⟨m.refuse e, e.markRefused :: rest, [], []⟩ := by
  simp only [evaluateQueue, waiting, decided]

/-- R29: a refusal ends the evaluation. -/
theorem Judged.refuse {s : State} {k : Port} {i : Installed} {run rest : List QueueEntry} {e : QueueEntry}
    (h : Judged s k i run e rest) (decided : decideEntry k i (s.port k).meter e.request = .refuse) :
    Machine.evaluate k s = s.setPort k { s.port k with
      queue := run ++ { e with refusedOnce := true } :: rest
      meter := { (s.port k).meter with counters := { (s.port k).meter.counters with
        refused := if e.refusedOnce then (s.port k).meter.counters.refused
          else min ((s.port k).meter.counters.refused + 1) 65535 } } } := by
  rw [h.evaluate, ← refuse_eq, evaluateQueue_refuse h.waiting decided]
  simp only [State.applyEvaluated, State.submitAll_nil, List.append_nil]
  rfl

/-- R28: an admission in scope, in the terms of `debited`. -/
theorem Judged.admitInScope {s : State} {k : Port} {i : Installed} {run rest : List QueueEntry} {e : QueueEntry}
    (h : Judged s k i run e rest) (scope : inScope i.profile.scope e.request.kind = true)
    (passes : PassesTest i (s.port k).meter e.request) :
    Machine.evaluate k s = Machine.evaluate k (s.withAdmission k i (debited i (s.port k).meter e.request)
      (run ++ { e with status := .admitted } :: rest)) := by
  rw [State.withAdmission_eq, h.admission (decideEntry_passes k i _ _ scope passes)]
  rfl

/-- R28: an admission out of scope. -/
theorem Judged.admitOutOfScope {s : State} {k : Port} {i : Installed} {run rest : List QueueEntry}
    {e : QueueEntry} (h : Judged s k i run e rest) (scope : inScope i.profile.scope e.request.kind = false) :
    Machine.evaluate k s = Machine.evaluate k (s.setPort k { s.port k with
      queue := run ++ { e with status := .admitted } :: rest
      meter := { (s.port k).meter with counters := { (s.port k).meter.counters with
        unmetered := min ((s.port k).meter.counters.unmetered + e.request.beats) 16777215 } } }) :=
  h.admission (decideEntry_out k i _ _ scope)

theorem Judged.claimShortfall {s : State} {k : Port} {i : Installed} {run rest : List QueueEntry}
    {e : QueueEntry} (h : Judged s k i run e rest) (scope : inScope i.profile.scope e.request.kind = true)
    (fails : ¬ PassesTest i (s.port k).meter e.request) (borrow : i.profile.flags.borrow = true) :
    Machine.evaluate k s = s.setPort k { s.port k with
      meter := { (s.port k).meter with claim := some ⟨shortfallOf i (s.port k).meter e.request, true⟩ }
      toPool := (s.port k).toPool ++ [.claim (shortfallOf i (s.port k).meter e.request)] } :=
  h.claim (by rw [decideEntry_fails k i _ _ scope fails, if_pos borrow])

theorem Judged.refuseShortfall {s : State} {k : Port} {i : Installed} {run rest : List QueueEntry}
    {e : QueueEntry} (h : Judged s k i run e rest) (scope : inScope i.profile.scope e.request.kind = true)
    (fails : ¬ PassesTest i (s.port k).meter e.request) (borrow : i.profile.flags.borrow = false) :
    Machine.evaluate k s = s.setPort k { s.port k with
      queue := run ++ { e with refusedOnce := true } :: rest
      meter := { (s.port k).meter with counters := { (s.port k).meter.counters with
        refused := if e.refusedOnce then (s.port k).meter.counters.refused
          else min ((s.port k).meter.counters.refused + 1) 65535 } } } :=
  h.refuse (by rw [decideEntry_fails k i _ _ scope fails, borrow]; rfl)

/-- Settles O23: an evaluation is idle without its conditions, and otherwise what the first WAITING entry comes
to. -/
theorem evaluationGoesAlongTheQueue : Obligations.EvaluationGoesAlongTheQueue := by
  intro s k
  refine ⟨evaluate_idle, fun i run e rest runs installed unclaimed queue admitted waiting => ?_⟩
  have judged : Judged s k i run e rest := ⟨runs, installed, unclaimed, queue, admitted, waiting⟩
  exact ⟨judged.admitOutOfScope, judged.admitInScope, judged.claimShortfall, judged.refuseShortfall⟩

/-! ## Requests -/

theorem exec_requestTaken_eq {s : State} {k : Port} {r : Request} (operating : s.operating = true)
    (accepts : s.Accepts k) (wellFormed : r.wellFormed = true) :
    exec (.requestTaken k r) s = .next (takeRequest k r s) :=
  happening_taken (by rw [operating, accepts.accepting, wellFormed]; rfl) ..

/-- R3, R8: what a request does in its port state. -/
theorem takeRequest_pass {s : State} {k : Port} (pass : (s.port k).controller.portState = .pass) (r : Request) :
    takeRequest k r s =
      s.setPort k { s.port k with queue := (s.port k).queue ++ [⟨r, .admitted, 0, false⟩] } := by
  simp [takeRequest, newEntry, pass, State.setQueue]

theorem takeRequest_other {s : State} {k : Port} (other : (s.port k).controller.portState ≠ .pass) (r : Request) :
    takeRequest k r s = if waitingRest (s.port k).queue = []
      then evaluate k (s.setPort k { s.port k with queue := (s.port k).queue ++ [⟨r, .waiting, 0, false⟩] })
      else s.setPort k { s.port k with queue := (s.port k).queue ++ [⟨r, .waiting, 0, false⟩] } := by
  simp [takeRequest, newEntry, other, State.setQueue]

/-- Settles O19: the new entry, which no evaluation judges in the cases named. -/
theorem requestJoinsTheQueue : Obligations.RequestJoinsTheQueue := by
  intro s k r operating accepts wellFormed
  rw [exec_requestTaken_eq operating accepts wellFormed]
  refine ⟨fun pass => by rw [takeRequest_pass pass], fun other unjudged => ?_⟩
  rw [takeRequest_other other]
  split
  · next none =>
    rw [evaluate_idle]
    rw [State.setPort_port_same]
    rcases unjudged with ⟨e, he, waits⟩ | still | claimed
    · rw [allAdmitted_of_waitingRest none e he] at waits
      cases waits
    · exact .inl still
    · exact .inr (.inl claimed)
  · rfl

/-- Settles O20: the accepting flag is the three conditions. -/
theorem requestIsHeldOff : Obligations.RequestIsHeldOff := by
  intro s k r refused
  have clear : s.accepting k = false := by
    refine Bool.eq_false_iff.2 fun accepting => refused ?_
    simp only [State.accepting, Bool.and_eq_true, Bool.not_eq_true', decide_eq_true_eq] at accepting
    obtain ⟨⟨opened, inputs⟩, room⟩ := accepting
    refine ⟨?_, inputs, room⟩
    cases state : (s.port k).controller.portState <;> simp [state, PortState.open] at opened ⊢
  exact ⟨clear, happening_not_taken (by rw [clear, Bool.and_false]; rfl) ..⟩

/-- A request that is judged at once (R8, R27). -/
theorem takeRequest_judged {s : State} {k : Port} {r : Request} {i : Installed}
    (runs : (s.port k).windowRuns = true) (installed : (s.port k).meter.installed = some i)
    (unclaimed : (s.port k).meter.claim = none) (admitted : AllAdmitted (s.port k).queue) :
    ∃ u, takeRequest k r s = evaluate k u ∧
      u = s.setPort k { s.port k with queue := (s.port k).queue ++ [⟨r, .waiting, 0, false⟩] } ∧
      Judged u k i (s.port k).queue ⟨r, .waiting, 0, false⟩ [] := by
  obtain ⟨-, open_, -⟩ := (PortBlock.windowRuns_iff _).1 runs
  have other : (s.port k).controller.portState ≠ .pass := fun pass => by simp [pass] at open_
  refine ⟨_, by rw [takeRequest_other other, if_pos (waitingRest_allAdmitted admitted)], rfl, ?_⟩
  refine ⟨?_, ?_, ?_, ?_, admitted, rfl⟩ <;> rw [State.setPort_port_same]
  · exact runs
  · exact installed
  · exact unclaimed

theorem withAdmission_setQueue (s : State) (k : Port) (i : Installed) (m : Meter) (q q' : List QueueEntry) :
    (s.setPort k { s.port k with queue := q' }).withAdmission k i m q = s.withAdmission k i m q := by
  rw [State.withAdmission_eq, State.withAdmission_eq, State.setPort_port_same, State.setPort_setPort]

/-- With every entry ADMITTED an evaluation does nothing (R27). -/
theorem evaluate_withAdmission {s : State} {k : Port} {i : Installed} {m : Meter} {q : List QueueEntry}
    (admitted : AllAdmitted q) : evaluate k (s.withAdmission k i m q) = s.withAdmission k i m q := by
  refine evaluate_idle (.inr (.inr ?_))
  rw [State.withAdmission_eq, State.submitAll_port, State.setPort_port_same]
  exact admitted

/-- Settles O21: the request is judged, and the evaluation ends behind it. -/
theorem requestIsAdmittedByTheMeter : Obligations.RequestIsAdmittedByTheMeter := by
  intro s k r i operating accepts wellFormed runs installed unclaimed admitted
  obtain ⟨u, taken, hu, judged⟩ := takeRequest_judged (r := r) runs installed unclaimed admitted
  have now : AllAdmitted ((s.port k).queue ++ [⟨r, .admitted, 0, false⟩]) :=
    allAdmitted_append_admit admitted ⟨r, .waiting, 0, false⟩
  have block : u.port k = { s.port k with queue := (s.port k).queue ++ [⟨r, .waiting, 0, false⟩] } := by
    rw [hu, State.setPort_port_same]
  rw [exec_requestTaken_eq operating accepts wellFormed, taken]
  refine ⟨fun scope => ?_, fun scope passes => ?_⟩
  · rw [judged.admitOutOfScope scope, evaluate_idle, block, hu, State.setPort_setPort]
    rw [State.setPort_port_same]
    exact .inr (.inr now)
  · rw [judged.admitInScope scope (by rw [block]; exact passes), evaluate_withAdmission now, block, hu,
      withAdmission_setQueue]

theorem shortfallOf_le {i : Installed} {m : Meter} {r : Request} (within : m.used ≤ i.profile.budget) :
    shortfallOf i m r ≤ r.beats := by
  unfold shortfallOf
  split <;> omega

/-- Settles O22: the request is judged, and the evaluation ends with it. -/
theorem requestIsClaimedForOrRefused : Obligations.RequestIsClaimedForOrRefused := by
  intro s k r i operating accepts wellFormed runs installed unclaimed admitted scope fails
  obtain ⟨u, taken, hu, judged⟩ := takeRequest_judged (r := r) runs installed unclaimed admitted
  have block : u.port k = { s.port k with queue := (s.port k).queue ++ [⟨r, .waiting, 0, false⟩] } := by
    rw [hu, State.setPort_port_same]
  have fails' : ¬ PassesTest i (u.port k).meter r := by rwa [block]
  have beats : r.beats ≤ 16 := by
    simp only [Request.wellFormed, Bool.and_eq_true, decide_eq_true_eq] at wellFormed
    exact wellFormed.1.2
  rw [exec_requestTaken_eq operating accepts wellFormed, taken]
  refine ⟨fun borrow => ⟨?_, shortfallOf_pos fails, fun within => (shortfallOf_le within).trans beats⟩,
    fun borrow => ?_⟩
  · rw [judged.claimShortfall scope fails' borrow, block, hu, State.setPort_setPort]
  · rw [judged.refuseShortfall scope fails' borrow, block, hu, State.setPort_setPort]
    rfl

/-! ## Answers of the pool -/

theorem exec_claimAnswerTaken_eq {s : State} {k : Port} {a : ClaimAnswer} {later : List ClaimAnswer}
    (operating : s.operating = true) (oldest : (s.port k).answers = a :: later) :
    exec (.claimAnswerTaken k) s =
      .next (takeAnswer k a (s.setPort k { s.port k with answers := later })) := by
  simp only [exec, execClaimAnswerTaken, oldest]
  exact happening_taken operating ..

theorem setMeter_applyEvaluated (s : State) (k : Port) (m : Meter) (r : Evaluated) :
    (s.setMeter k m).applyEvaluated k r = s.applyEvaluated k r := by
  rw [State.applyEvaluated, State.setMeter_port_same, State.setMeter, State.setPort_setPort]
  rfl

/-- The answer to a current claim (R31). -/
theorem takeAnswer_current {s : State} {k : Port} {i : Installed} {n : Nat}
    (installed : (s.port k).meter.installed = some i) (claim : (s.port k).meter.claim = some ⟨n, true⟩)
    (a : ClaimAnswer) : takeAnswer k a s = s.applyEvaluated k (match a with
      | .grant => grantQueue k i n { (s.port k).meter with claim := none } (s.port k).queue
      | .refusal => refuseQueue { (s.port k).meter with claim := none } (s.port k).queue) := by
  unfold takeAnswer
  simp only [installed, claim, if_true]
  cases a <;> exact setMeter_applyEvaluated ..

/-- The answer to a stale claim, or to none (R32). -/
theorem takeAnswer_stale {s : State} {k : Port} (stale : ∀ c, (s.port k).meter.claim = some c → c.current = false)
    (a : ClaimAnswer) : takeAnswer k a s = evaluate k (s.setMeter k { (s.port k).meter with claim := none }) := by
  unfold takeAnswer
  dsimp only
  split
  · next claim installed held =>
    rw [if_neg (by simp [stale _ held])]
  · rfl

theorem granted_window (i : Installed) (n : Nat) (m : Meter) (r : Request) (k : Port) :
    (crossHighMark k i (granted i n m r)).1.installed = m.installed ∧
      (crossHighMark k i (granted i n m r)).1.windowRunning = m.windowRunning ∧
      (crossHighMark k i (granted i n m r)).1.claim = none :=
  ⟨crossHighMark_installed .., crossHighMark_running .., crossHighMark_claim ..⟩

/-- Settles O31: the entry under claim is admitted by `granted`, and the evaluation goes on behind it. -/
theorem grantAdmitsTheEntryUnderClaim : Obligations.GrantAdmitsTheEntryUnderClaim := by
  intro s k i n later run e rest operating runs installed claim oldest queue admitted waiting
  obtain ⟨rest_eq, run_eq⟩ := waitingRest_run (run := run) rest admitted waiting
  rw [exec_claimAnswerTaken_eq operating oldest]
  generalize hu : s.setPort k { s.port k with answers := later } = u
  have block : u.port k = { s.port k with answers := later } := by rw [← hu, State.setPort_port_same]
  obtain ⟨installed', running, unclaimed⟩ := granted_window i n (s.port k).meter e.request k
  rw [takeAnswer_current (i := i) (n := n) (by rw [block]; exact installed) (by rw [block]; exact claim),
    State.withAdmission_eq]
  dsimp only
  rw [grantQueue_eq (run := run) k i n _ (by rw [block, queue]; exact rest_eq)
    (by rw [block, queue]; exact run_eq) rfl]
  refine congrArg _ ((evaluate_behind (i := i) e _ ?_ (installed'.trans installed) ?_ unclaimed admitted).trans
    ?_).symm
  · rw [block]
    exact runs
  · rw [block]
    exact running
  · rw [block]
    rfl

/-- Settles O32: a current refusal is a refusal of the entry under claim; otherwise the claim record goes. -/
theorem refusedAndStaleAnswers : Obligations.RefusedAndStaleAnswers := by
  intro s k a later operating oldest
  rw [exec_claimAnswerTaken_eq operating oldest]
  refine ⟨fun i n run e rest refusal installed claim queue admitted waiting => ?_, fun stale => ?_⟩
  · obtain ⟨rest_eq, run_eq⟩ := waitingRest_run (run := run) rest admitted waiting
    rw [refusal, takeAnswer_current (i := i) (n := n) (by rw [State.setPort_port_same]; exact installed)
      (by rw [State.setPort_port_same]; exact claim), State.setPort_port_same]
    dsimp only
    rw [refuseQueue_eq (run := run) _ (by rw [queue]; exact rest_eq) (by rw [queue]; exact run_eq), refuse_eq]
    simp only [State.applyEvaluated, State.submitAll_nil, List.append_nil, State.setPort_port_same,
      State.setPort_setPort]
    rfl
  · rw [takeAnswer_stale (by rw [State.setPort_port_same]; exact stale), State.setPort_port_same, State.setMeter,
      State.setPort_port_same, State.setPort_setPort]

end Sys2Proof.Machine
end

