-- ==== Sys2Proof/Proofs/ResetsAndPins.lean ====
section
/-! PROOF. Power-on reset, port reset, clock and pins, and the credit pool (chapters 01, 03, 06, 09). -/

namespace Sys2Proof.Machine

open Sys2Proof

/-! ## Power-on reset and pins -/

theorem accepting_reset (asserted power : Bool) {s : State} {k : Port}
    (block : s.port k = PortBlock.reset asserted) (rst : s.rstAsserted = power) :
    s.accepting k = (!asserted && !power) := by
  rw [State.accepting, block, rst]
  simp [PortBlock.reset, Controller.reset, PortState.open]

/-- Settles O25: `powerOn` writes every block, and the accepting flags follow the inputs. -/
theorem powerOnResetLeavesEveryBlockAtItsValues : Obligations.PowerOnResetLeavesEveryBlockAtItsValues := by
  intro s running
  refine ⟨fun released => ?_, fun asserted low => ?_⟩
  · refine ⟨{ powerOn false s with rstAsserted := true }, happening_taken (by simp [running, released]) ..,
      fun k => ?_, ?_⟩
    · rw [accepting_reset _ true (powerOn_port false true s k) rfl]
      simp
    · simp [powerOn, State.reset, running]
  · refine ⟨{ powerOn low s with rstAsserted := false }, happening_taken (by simp [running, asserted]) ..,
      fun k => ?_, ?_⟩
    · rw [accepting_reset _ false (powerOn_port low false s k) rfl]
      simp
    · simp [powerOn, State.reset, running, Link.reset]

/-- Settles O26: each event is taken under its condition and writes its fields. -/
theorem clockAndPinEvents : Obligations.ClockAndPinEvents := by
  intro s
  refine ⟨fun running => happening_taken running .., fun stopped low => happening_taken (by simp [stopped]) ..,
    fun operating waits => happening_taken (by simp [operating, waits]) .., fun operating =>
    happening_taken operating ..⟩

/-! ## Port reset -/

/-- The block of port `k` once a port reset has discarded its queue (R17, R102). -/
def PortBlock.discarded (b : PortBlock) : PortBlock :=
  { b with
    resetAsserted := true, queue := [], meter := b.meter.staleClaim
    controller := { b.controller with drain := b.controller.drain.map fun d => { d with ahead := 0 } } }

/-- What a port reset hands to the judgement of the drain condition (R17, R102, R126). -/
structure ResetBegun (k : Port) (s u : State) : Prop where
  rest   : u = { s with ports := u.ports, table := u.table }
  others : ∀ j, j ≠ k → u.port j = s.port j
  port   : u.port k = (s.port k).discarded
  table  : u.table = orphanWhere (fun o => o.portOf == some k) s.table
  live   : u.liveCount k = 0

theorem portReset_begun (k : Port) (s : State) : ∃ u, portReset k s = judgeDrain k u ∧ ResetBegun k s u := by
  refine ⟨(s.setPort k (s.port k).discarded).setTable
    (orphanWhere (fun o => o.portOf == some k) (s.setPort k (s.port k).discarded).table), rfl, rfl,
    fun j other => ?_, ?_, ?_, ?_⟩
  · rw [State.setTable_port, State.setPort_port_ne _ other]
  · rw [State.setTable_port, State.setPort_port_same]
  · rw [State.setTable_table, State.setPort_table]
  · exact (s.setPort k (s.port k).discarded).liveCount_orphanWhere_gone (by simp)

/-- R99, R100: the end of a drain, or nothing, in a port that a reset has emptied. -/
theorem ResetBegun.judged {k : Port} {s u : State} (h : ResetBegun k s u) :
    judgeDrain k u = { s with
        ports := (judgeDrain k u).ports, table := (judgeDrain k u).table, notices := (judgeDrain k u).notices } ∧
      (judgeDrain k u).table = orphanWhere (fun o => o.portOf == some k) s.table ∧
      (∀ j, j ≠ k → (judgeDrain k u).port j = s.port j) ∧
      (judgeDrain k u).port k =
        { (s.port k).discarded with controller := ((judgeDrain k u).port k).controller } := by
  obtain ⟨rest, others, port, table, -⟩ := h
  obtain ⟨frame, spared, block, -, -⟩ := judgeDrain_facts u k
  have same : (judgeDrain k u).table = u.table := by rw [frame]
  refine ⟨?_, same.trans table, fun j other => (spared j other).trans (others j other), ?_⟩
  · rw [same]
    rw [rest] at frame ⊢
    exact frame
  · rw [← port]
    exact block

theorem exec_prstAsserted {s : State} {k : Port} (running : s.refclkRunning = true)
    (input : (s.port k).resetAsserted = false) : exec (.prstAsserted k) s = .next (if s.rstAsserted
      then s.setPort k { s.port k with resetAsserted := true } else portReset k s) :=
  happening_taken (by rw [running, input]; rfl) ..

theorem none_ahead {c : Controller} (none : c.drain = none) :
    { c with drain := c.drain.map fun d => { d with ahead := 0 } } = c := by
  obtain ⟨_, _, _, _, _, _, drain⟩ := c
  subst none
  rfl

theorem orphaned_entry (k : Port) (s : State) (tag : Fin 64) :
    (orphanWhere (fun o => o.portOf == some k) s.table)[tag.val] = (s.table[tag.val]).map fun f =>
      if f.state = .live ∧ f.owner.portOf = some k then { f with state := .orphan, deadline := none } else f := by
  rw [orphanWhere_get]
  simp only [Bool.and_eq_true, beq_iff_eq]
  rfl

/-- Settles O24: the reset empties the port and ends a drain that waited for it; the release follows the input. -/
theorem portResetDiscardsAndReleaseReopens : Obligations.PortResetDiscardsAndReleaseReopens := by
  intro s k running
  refine ⟨fun power input drain => ?assert, fun power => ?follow, ?release⟩
  case follow =>
    cases input : (s.port k).resetAsserted with
    | true =>
      have same : { s.port k with resetAsserted := true } = s.port k := by rw [← input]
      rw [same, State.setPort_self]
      exact happening_not_taken (by simp [input]) ..
    | false => rw [exec_prstAsserted running input, if_pos power]
  case release =>
    refine ⟨_, happening_taken running .., rfl, ?_⟩
    rw [State.accepting, State.setPort_port_same, State.setPort_rstAsserted]
    cases state : (s.port k).controller.portState <;> simp [PortState.open]
  case assert =>
    obtain ⟨u, reset, begun⟩ := portReset_begun k s
    obtain ⟨rest, table, others, block⟩ := begun.judged
    obtain ⟨-, -, -, drained, still⟩ := judgeDrain_facts u k
    have begun_port := begun.port
    have same_notices : u.notices = s.notices := by rw [begun.rest]
    refine ⟨judgeDrain k u, ?_, rest, others, block, ?_, fun tag => ?_, fun other => ?_, fun d draining hd => ?_⟩
    · rw [exec_prstAsserted running input, if_neg (by simp [power]), reset]
    · rw [State.accepting, block]
      simp [PortBlock.discarded]
    · simp only [table]
      exact orphaned_entry k s tag
    · have none : (s.port k).controller.drain = none := Option.not_isSome_iff_eq_none.1 fun some => other (drain some)
      rw [still (fun due => other (by rw [begun_port] at due; exact due.1)), begun_port, same_notices]
      exact ⟨none_ahead none, rfl⟩
    · obtain ⟨controller, notices⟩ := drained ⟨by rw [begun_port]; exact draining, by rw [begun_port]; rfl, begun.live⟩
      refine ⟨?_, ?_⟩
      · rw [controller, begun_port]
        rfl
      · rw [notices, begun_port, same_notices]
        simp [PortBlock.discarded, hd, Meter.staleClaim, Meter.index]

/-! ## The credit pool (03) -/

/-- Settles O33: the donation is taken. -/
theorem donationRaisesTheLevelToTheLimit : Obligations.DonationRaisesTheLevelToTheLimit := by
  intro s k d later operating oldest
  simp only [exec, execDonationTaken, oldest]
  exact happening_taken operating ..

/-- Settles O34: the claim is answered by the level. -/
theorem claimIsGrantedWholeOrRefused : Obligations.ClaimIsGrantedWholeOrRefused := by
  intro s k n later operating oldest
  have taken : exec (.claimTaken k) s = .next { s.setPort k { s.port k with
      toPool := later, answers := (s.port k).answers ++ [s.pool.answer n] } with
      pool := s.pool.afterClaim n } := by
    simp only [exec, execClaimTaken, oldest]
    exact happening_taken operating ..
  rw [taken]
  refine ⟨fun enough => ?_, fun short => ?_⟩
  · rw [Pool.answer, Pool.afterClaim, if_pos enough, if_pos enough]
  · rw [Pool.answer, Pool.afterClaim, if_neg (Nat.not_le.2 short), if_neg (Nat.not_le.2 short)]
    rfl

end Sys2Proof.Machine
end

