-- ==== Sys2Proof/Proofs/ReportsAndGrants.lean ====
section
/-! PROOF. The report writer's submissions and the issue arbiter's grants (R113 to R116, R149 to R153, R187). -/

namespace Sys2Proof.Machine

open Sys2Proof

/-! ## Submissions -/

theorem exec_reportSubmission_eq {s : State} {k : Port} {r : Report} {later : List Report}
    (operating : s.operating = true) (oldest : (s.port k).toWriter = r :: later) :
    exec (.reportSubmission k) s = .next (takeReport r (s.setPort k { s.port k with toWriter := later })) := by
  simp only [exec, execReportSubmission, oldest]
  exact happening_taken operating ..

/-- R149: a record behind others, or behind a write in flight, waits. -/
theorem takeReport_waits (r : Report) {s : State} (running : s.writer.ring = .run)
    (room : s.writer.queue.length < 8) (behind : s.writer.queue ≠ [] ∨ s.writer.writeInFlight = true) :
    takeReport r s = s.setWriter (s.writer.queued r) := by
  rw [takeReport_queued r running room]
  split
  · next empty =>
    exact judgeWrite_still _ (.inr (.inl (behind.resolve_left fun some => some empty)))
  · rfl

theorem queued_only (r : Report) {w : ReportWriter} (empty : w.queue = []) :
    (w.queued r).queue = { r with gapCount := w.gapCount.get r.port } :: [] := by
  rw [ReportWriter.queued, empty]
  rfl

/-- R152, R153: the only record is judged at once, and its write starts. -/
theorem takeReport_starts (r : Report) {s : State} (running : s.writer.ring = .run) (empty : s.writer.queue = [])
    (idle : s.writer.writeInFlight = false) (room : s.writer.occupancy < s.writer.size) :
    takeReport r s = (s.setWriter { s.writer.queued r with writeInFlight := true }).joinInternal
      (.report s.writer.slotAddress (beatsOfReport { r with gapCount := s.writer.gapCount.get r.port })) := by
  rw [takeReport_queued r running (by simp [empty]), if_pos empty]
  exact judgeWrite_room _ _ [] running idle (queued_only r empty) (decide_eq_false (Nat.not_le.2 room))

/-- R152: the only record waits on a full ring. -/
theorem takeReport_full (r : Report) {s : State} (running : s.writer.ring = .run) (empty : s.writer.queue = [])
    (idle : s.writer.writeInFlight = false) (full : s.writer.size ≤ s.writer.occupancy) :
    takeReport r s = { s with
      writer := { s.writer.queued r with fullEpisode := true }
      notices := if s.writer.fullEpisode then s.notices
        else s.notices.submit (writerNotice .ringFull s.writer.producer.toNat) } := by
  rw [takeReport_queued r running (by simp [empty]), if_pos empty]
  exact judgeWrite_full _ _ [] running idle (queued_only r empty) (decide_eq_true full)

/-- R187: the 64 bytes of a report record, number by number. -/
theorem bytesOfReport_eq (r : Report) : bytesOfReport r =
    [portByte r.port, windowFlagsByte r.window.flags, BitVec.ofNat 8 (codeOfSource r.window.source),
      BitVec.ofNat 8 (codeOfMode r.window.mode)] ++
    bytesLE 4 r.window.seqNo.toNat ++ [r.window.index, BitVec.ofNat 8 r.gapCount] ++
    bytesLE 2 r.window.endAllowance ++ bytesLE 4 r.window.counters.meteredRead ++
    bytesLE 4 r.window.counters.meteredWrite ++ bytesLE 4 r.window.counters.unmetered ++
    bytesLE 4 r.window.counters.forced ++ bytesLE 4 r.window.counters.borrowed ++
    bytesLE 2 r.window.counters.refused ++ bytesLE 2 r.window.counters.timeouts ++
    bytesLE 2 r.window.counters.errors ++ bytesLE 2 r.window.counters.maxLatency ++ List.replicate 24 0 := rfl

/-- Settles O35: each case of `takeReport`, and the bytes of its beats. -/
theorem reportIsQueuedCountedOrDropped : Obligations.ReportIsQueuedCountedOrDropped := by
  intro s k r later operating oldest
  rw [exec_reportSubmission_eq operating oldest]
  refine ⟨fun stopped => ?stopped, fun running full => ?lost, fun running room => ⟨fun behind => ?waits,
    fun empty idle free => ?starts, fun empty idle full => ?full⟩, ?bytes⟩
  case stopped => rw [takeReport_stopped r (by exact stopped)]
  case lost => rw [takeReport_lost r (by exact running) (by exact full)]; rfl
  case waits => rw [takeReport_waits r (by exact running) (by exact room) (by exact behind)]; rfl
  case starts =>
    rw [takeReport_starts r (by exact running) (by exact empty) (by exact idle) (by exact free)]
    rfl
  case full =>
    rw [takeReport_full r (by exact running) (by exact empty) (by exact idle) (by exact full)]
    rfl
  case bytes =>
    refine ⟨by simp [beatsOfReport], by simp, fun n j hn hj => ?_⟩
    have byte := beatsOfReport_byte r hn hj
    rw [bytesOfReport_eq, windowFlagsByte_eq] at byte
    simp only [bytesLE_four, bytesLE_two] at byte
    exact byte

/-! ## Grants -/

theorem exec_issueGrant_eq {s : State} (operating : s.operating = true) (ready : s.memoryPort = none) :
    exec .issueGrant s = .next (grant s) :=
  happening_taken (by simp [operating, ready]) ..

/-- R113, R114: an item and a free internal entry make the internal requester a candidate. -/
theorem State.internalCandidate_true {s : State} {item : InternalItem} {rest : List InternalItem}
    (list : s.internalList = item :: rest) (free : s.table[62] = none ∨ s.table[63] = none) :
    s.internalCandidate = true := by
  have room : s.internalInUse < 2 := by
    unfold State.internalInUse
    rcases free with free | free
    · rw [free, if_neg (by simp)]
      split <;> simp
    · rw [free, if_neg (c := Option.isSome none = true) (by simp)]
      split <;> simp
  simp [State.internalCandidate, State.internalMayTake, list, room]

/-- Settles O36: the grant of the head of the list, with the lower free tag. -/
theorem internalRequesterIsGrantedFirst : Obligations.InternalRequesterIsGrantedFirst := by
  intro s item rest operating ready list free
  rw [exec_issueGrant_eq operating ready, grant, if_pos (State.internalCandidate_true list free),
    grantInternal_eq list (State.freeInternalTag_eq s free)]
  cases item <;> rfl

/-- Settles O37: the grant of the first candidate in turn, with the lowest free tag. -/
theorem portsAreGrantedInTurn : Obligations.PortsAreGrantedInTurn := by
  intro s operating ready idle candidate
  have is_candidate (k : Port) : s.portCandidate k = true ↔ candidate k := s.portCandidate_iff k
  rw [exec_issueGrant_eq operating ready, grant, if_neg (by rw [State.internalCandidate_false s idle]; simp)]
  refine ⟨fun k e rest tag queue now first low free lowest => ?_, fun none => ?_⟩
  · have granted := s.grantedPort_eq k ((is_candidate k).2 now) fun before after round j hj =>
      Bool.eq_false_iff.2 fun earlier => first before after round j hj ((is_candidate j).1 earlier)
    rw [granted]
    dsimp only
    rw [grantPort_eq queue (s.freePortTag_eq tag low free lowest), PortBlock.departed, queue]
    cases k <;> rfl
  · have nobody : s.grantedPort = .none :=
      List.find?_eq_none.2 fun k _ => by simpa using mt (is_candidate k).1 (none k)
    rw [nobody]

end Sys2Proof.Machine
end

