-- ==== Sys2Proof/Proofs/WindowClose.lean ====
section
/-! PROOF. The window close, from the state its re-evaluation leaves: what the hold limit, the close signal and
the report add to it (R36, R37, R40, R85, R86). -/

namespace Sys2Proof.Machine

open Sys2Proof

/-! ## The state the re-evaluation leaves -/

theorem windowRenewed_list (k : Port) (i : Installed) (s : State) :
    (s.windowRenewed k i).internalList = s.internalList := by
  unfold State.windowRenewed
  dsimp only
  split <;> rfl

/-- What steps 1 to 6 of a close leave of port `k` (R36). -/
structure Renewed (s : State) (k : Port) (i : Installed) (u : State) : Prop where
  confined : Confined k s u
  list     : u.internalList = s.internalList
  others   : u.port k = { s.port k with
               meter := (u.port k).meter, queue := (u.port k).queue, toPool := (u.port k).toPool }
  claims   : ∃ claims : List PoolMessage, (∀ x ∈ claims, ∃ n, x = .claim n) ∧
               (u.port k).toPool = (s.port k).toPool ++ donationAtClose i (s.port k).meter ++ claims
  snapshot : (u.port k).meter.snapshot = snapshotAtEnd (s.port k) i false (missesLowMark i (s.port k).meter)
  number   : (u.port k).meter.seqNo = (s.port k).meter.seqNo + 1
  time     : (u.port k).meter.timeRemaining = i.profile.windowLength
  running  : (u.port k).meter.windowRunning = true
  profile  : (u.port k).meter.installed = some i
  entries  : List.Forall₂ (fun e e' : QueueEntry => e'.request = e.request ∧ e'.heldCloses = e.heldCloses ∧
               (e.status = .admitted → e' = e)) (s.port k).queue (u.port k).queue

theorem renewed {s : State} {k : Port} {i : Installed} (runs : (s.port k).windowRuns = true)
    (installed : (s.port k).meter.installed = some i) : Renewed s k i (evaluate k (s.windowRenewed k i)) := by
  obtain ⟨-, -, running⟩ := (PortBlock.windowRuns_iff _).1 runs
  obtain ⟨m, q, claims, block, only, snapshot, number, time, run, profile, entries⟩ :=
    evaluate_port_same k (s.windowRenewed k i)
  rw [windowRenewed_port] at block snapshot number time run profile entries
  refine ⟨(Confined.windowRenewed k i s).trans (Confined.evaluate ..), ?_, ?_, ⟨claims, only, ?_⟩, ?_, ?_, ?_, ?_,
    ?_, ?_⟩
  · rw [(MeterOnly.evaluate k _).list, windowRenewed_list]
  all_goals rw [block]
  · exact snapshot
  · exact number
  · exact time
  · exact run.trans running
  · exact profile.trans installed
  · exact entries

/-- A close that is due, from the state the re-evaluation leaves. -/
theorem exec_windowClose_eq {s : State} {k : Port} {i : Installed} (operating : s.operating = true)
    (runs : (s.port k).windowRuns = true) (over_ : (s.port k).meter.timeRemaining = 0)
    (installed : (s.port k).meter.installed = some i) :
    exec (.windowClose k) s = .next (submitReport k i (closeSignal k i (closeHold k i
      (evaluate k (s.windowRenewed k i))))) := by
  rw [windowClose_due operating runs over_ installed, closeWindow_steps, closeUpTo5_eq k i s installed]

/-! ## Steps 7 to 9 -/

/-- What steps 7 to 9 leave of the meter, the queue and the messages of port `k` (R37, R40, R85). -/
structure Closed (k : Port) (i : Installed) (u t : State) : Prop where
  confined : Confined k u t
  others   : t.port k = { u.port k with
               queue := (t.port k).queue, controller := (t.port k).controller, load := (t.port k).load
               toWriter := (t.port k).toWriter, meter := (t.port k).meter }
  queue    : (t.port k).queue = ((u.port k).queue.map QueueEntry.age).map (QueueEntry.release i.profile.maxHold)
  meter    : (t.port k).meter = ((closeHold k i u).port k).meter
  reports  : (t.port k).toWriter = (u.port k).toWriter ++ reportOf k i (t.port k).meter.snapshot

theorem closed (k : Port) (i : Installed) (u : State) :
    Closed k i u (submitReport k i (closeSignal k i (closeHold k i u))) := by
  obtain ⟨m, hold, -⟩ := closeHold_port k i u
  obtain ⟨c, l, signal⟩ := closeSignal_port k i (closeHold k i u)
  have report := submitReport_port k i (closeSignal k i (closeHold k i u))
  rw [signal, hold] at report
  refine ⟨((Confined.closeHold ..).trans (Confined.closeSignal ..)).trans (Confined.submitReport ..), ?_, ?_, ?_,
    ?_⟩ <;> rw [report]
  rw [hold]

/-- R37: of the meter the hold limit changes the claim and the forced beats. -/
theorem Closed.meter_shape {k : Port} {i : Installed} {u t : State} (h : Closed k i u t) :
    (t.port k).meter = { (u.port k).meter with
      claim := (t.port k).meter.claim
      counters := { (u.port k).meter.counters with forced := (t.port k).meter.counters.forced } } := by
  have meter := h.meter
  rw [closeHold_meter] at meter
  rw [meter]
  dsimp only
  split <;> rfl

theorem Closed.shape {k : Port} {i : Installed} {u t : State} (h : Closed k i u t) :
    t.port k = { u.port k with
      queue := (t.port k).queue, controller := (t.port k).controller, load := (t.port k).load
      toWriter := (t.port k).toWriter
      meter := { (u.port k).meter with
        claim := (t.port k).meter.claim
        counters := { (u.port k).meter.counters with forced := (t.port k).meter.counters.forced } } } := by
  rw [← h.meter_shape]
  exact h.others

theorem release_request (maxHold : Nat) (e : QueueEntry) : (e.release maxHold).request = e.request :=
  (QueueStep.entryStep_release maxHold e).1

theorem forall₂_request {q q' : List QueueEntry}
    (h : List.Forall₂ (fun e e' : QueueEntry => e'.request = e.request ∧ e'.heldCloses = e.heldCloses ∧
      (e.status = .admitted → e' = e)) q q') : q'.map QueueEntry.request = q.map QueueEntry.request := by
  induction h with
  | nil => rfl
  | cons same _ ih => rw [List.map_cons, List.map_cons, ih, same.1]

theorem Closed.requests {k : Port} {i : Installed} {u t : State} (h : Closed k i u t) :
    (t.port k).queue.map QueueEntry.request = (u.port k).queue.map QueueEntry.request := by
  rw [h.queue, List.map_map, List.map_map]
  exact List.map_congr_left fun e _ => (release_request _ _).trans (age_request e)

/-- Where nothing is WAITING the re-evaluation and the hold limit do nothing (R27, R37). -/
theorem Closed.allAdmitted {s t : State} {k : Port} {i : Installed}
    (h : Closed k i (evaluate k (s.windowRenewed k i)) t) (admitted : AllAdmitted (s.port k).queue) :
    (t.port k).queue = (s.port k).queue ∧ (t.port k).meter = ((s.windowRenewed k i).port k).meter := by
  have queue : ((s.windowRenewed k i).port k).queue = (s.port k).queue := by rw [windowRenewed_port]
  have idle : evaluate k (s.windowRenewed k i) = s.windowRenewed k i :=
    evaluate_idle (.inr (.inr (by rw [queue]; exact admitted)))
  have kept := h.queue
  have meter := h.meter
  rw [idle, queue, map_age_allAdmitted admitted, map_release_allAdmitted _ admitted] at kept
  rw [idle, closeHold_allAdmitted k i _ (by rw [queue]; exact admitted) (by rw [windowRenewed_port]; rfl)] at meter
  exact ⟨kept, meter⟩

/-- Settles O28: steps 1 to 6 renew the window, and steps 7 to 9 touch the claim, the forced beats, the queue and
the reports alone. -/
theorem windowCloseEndsTheWindow : Obligations.WindowCloseEndsTheWindow := by
  intro s k i operating runs expired installed
  have begun := renewed runs installed
  refine ⟨_, exec_windowClose_eq operating runs expired installed, ?_⟩
  have done := closed k i (evaluate k (s.windowRenewed k i))
  generalize submitReport k i _ = t at done
  generalize hu : evaluate k (s.windowRenewed k i) = u at begun done
  have confined := begun.confined.trans done.confined
  have block := begun.others
  have meter := done.meter_shape
  have snapshot : (t.port k).meter.snapshot = (u.port k).meter.snapshot := by rw [meter]
  refine ⟨confined.1, confined.2, done.shape, snapshot.trans begun.snapshot, ?_, ?_, ?_, ?_, ?_, ?_,
    done.requests.trans (forall₂_request begun.entries), ?_, ?_, ?_, fun admitted => ?_⟩
  · rw [meter]
    exact begun.number
  · rw [meter]
    exact begun.time
  · rw [meter]
    exact begun.running
  · rw [meter]
    exact begun.profile
  · rw [done.reports, block]
  · obtain ⟨claims, only, sent⟩ := begun.claims
    exact ⟨claims, only, by rw [done.others]; exact sent⟩
  · rw [done.others, block]
  · rw [done.others, block]
  · rw [done.others, block]
  · obtain ⟨queue, same⟩ := Closed.allAdmitted (hu ▸ done) admitted
    rw [windowRenewed_port] at same
    rw [same]
    exact ⟨queue, rfl, rfl, rfl, fun cap => by simp [cap], fun bucket => by simp [bucket]⟩

/-! ## The hold limit -/

theorem reachesHold_eq (maxHold : Nat) (e : QueueEntry) : reachesHold maxHold e =
    decide (e.status = .waiting ∧ maxHold ≠ 0 ∧ maxHold ≤ e.heldCloses) := by
  rw [Bool.eq_iff_iff]
  simp [reachesHold, and_assoc]

/-- R37: the notice of the entries the limit releases. -/
theorem closeHold_notices {k : Port} {i : Installed} {u : State} (installed : (u.port k).meter.installed = some i) :
    (closeHold k i u).notices =
      let released := ((u.port k).queue.map QueueEntry.age).filter (reachesHold i.profile.maxHold)
      if released ≠ [] ∧ i.profile.flags.nForced = true then u.notices.submit
        { kind := .forced, port := some k, seqNo := (u.port k).meter.seqNo, index := i.index,
          detail := min released.length 65535 }
      else u.notices := by
  unfold closeHold
  dsimp only
  split
  · rw [State.submit_notices, State.setPort_notices, portNotice, State.setPort_port_same]
    split <;> simp [Meter.index, installed, Meter.staleClaim]
  · rfl

/-- R37: the claim after the hold limit. -/
theorem Closed.claim {k : Port} {i : Installed} {u t : State} (h : Closed k i u t) :
    (t.port k).meter.claim =
      if firstReached i.profile.maxHold ((u.port k).queue.map QueueEntry.age)
        then staled (u.port k).meter.claim else (u.port k).meter.claim := by
  rw [h.meter, closeHold_meter]
  dsimp only
  split <;> rfl

theorem Closed.counters {k : Port} {i : Installed} {u t : State} (h : Closed k i u t) :
    (t.port k).meter.counters = { (u.port k).meter.counters with
      forced := min ((u.port k).meter.counters.forced + totalBeats
        (((u.port k).queue.map QueueEntry.age).filter (reachesHold i.profile.maxHold))) 16777215 } := by
  rw [h.meter, closeHold_meter]
  dsimp only
  split <;> rfl

theorem firstReached_run {maxHold : Nat} {run rest : List QueueEntry} {e : QueueEntry}
    (admitted : AllAdmitted run) (waiting : e.status = .waiting) :
    firstReached maxHold (run ++ e :: rest) = reachesHold maxHold e := by
  rw [firstReached, (waitingRest_run rest admitted waiting).1]

theorem firstReached_allAdmitted {maxHold : Nat} {q : List QueueEntry} (admitted : AllAdmitted q) :
    firstReached maxHold q = false := by
  rw [firstReached, waitingRest_allAdmitted admitted]

/-- R10, R37: what a close does to one entry. -/
def HeldBy (maxHold : Nat) (e e' : QueueEntry) : Prop :=
  e'.request = e.request ∧ (e.status = .admitted → e' = e) ∧
    (e'.status = .waiting → e.status = .waiting ∧ e'.heldCloses = min (e.heldCloses + 1) 15 ∧
      (maxHold ≠ 0 → e'.heldCloses < maxHold))

theorem heldBy_release_age {maxHold : Nat} {e x : QueueEntry}
    (same : x.request = e.request ∧ x.heldCloses = e.heldCloses ∧ (e.status = .admitted → x = e)) :
    HeldBy maxHold e (x.age.release maxHold) := by
  obtain ⟨request, held, admitted⟩ := same
  refine ⟨(release_request ..).trans ((age_request x).trans request), fun was => ?_, fun still => ?_⟩
  · rw [admitted was, age_admitted was, release_admitted maxHold was]
  · have spared : reachesHold maxHold x.age = false := Bool.eq_false_iff.2 fun reached => by
      simp [QueueEntry.release, reached, QueueEntry.markAdmitted] at still
    have kept : x.age.release maxHold = x.age := if_neg (by simp [spared])
    rw [kept, age_status] at still
    have aged : x.age.heldCloses = min (e.heldCloses + 1) 15 := by
      rw [QueueEntry.age, if_pos still, ← held]
      rfl
    rw [kept]
    refine ⟨?_, aged, fun limit => ?_⟩
    · cases was : e.status with
      | waiting => rfl
      | admitted =>
        rw [admitted was, was] at still
        cases still
    · rw [reachesHold_eq, decide_eq_false_iff_not, age_status] at spared
      exact Nat.lt_of_not_le fun reached => spared ⟨still, limit, reached⟩

theorem forall₂_getElem? {α β : Type} {R : α → β → Prop} {l : List α} {l' : List β} (h : List.Forall₂ R l l')
    {n : Nat} {a : α} {b : β} (ha : l[n]? = some a) (hb : l'[n]? = some b) : R a b := by
  induction h generalizing n with
  | nil => cases ha
  | cons first _ ih =>
    cases n with
    | zero =>
      cases ha
      cases hb
      exact first
    | succ n => exact ih ha hb

theorem Closed.entries {s u t : State} {k : Port} {i : Installed} (begun : Renewed s k i u) (h : Closed k i u t) :
    List.Forall₂ (HeldBy i.profile.maxHold) (s.port k).queue (t.port k).queue := by
  rw [h.queue, List.map_map, List.forall₂_map_right_iff]
  exact begun.entries.imp fun _ _ => heldBy_release_age

/-! ## The close signal (R85, R86) -/

/-- A close signal a frozen or stopped dwell ignores. -/
theorem closeSignal_ignored {k : Port} {u : State} (i : Installed)
    (ignored : (u.port k).controller.portState ≠ .active ∨ (u.port k).controller.loadInFlight = true ∨
      (u.port k).controller.dwellCounting = false) : closeSignal k i u = u := by
  unfold closeSignal
  dsimp only
  refine if_neg ?_
  rintro ⟨active, free, counting⟩
  rcases ignored with other | loading | stopped
  · exact other active
  · simp [free] at loading
  · simp [counting] at stopped

/-- A dwell that counts: ACTIVE, with no load in flight. -/
def Counting (c : Controller) : Prop :=
  c.portState = .active ∧ c.loadInFlight = false ∧ c.dwellCounting = true

theorem closeSignal_steps {k : Port} {u : State} (i : Installed) (counting : Counting (u.port k).controller)
    (more : 2 ≤ (u.port k).controller.dwellRemaining) : closeSignal k i u =
      u.setController k { (u.port k).controller with
        dwellRemaining := (u.port k).controller.dwellRemaining - 1 } := by
  unfold closeSignal
  dsimp only
  exact (if_pos counting).trans (if_neg (by omega))

theorem closeSignal_ends {k : Port} {u : State} (i : Installed) (counting : Counting (u.port k).controller)
    (last : (u.port k).controller.dwellRemaining = 1) : closeSignal k i u =
      let stopped := u.setController k { (u.port k).controller with dwellRemaining := 0, dwellCounting := false }
      if i.profile.flags.link then startLoad k i.profile.nextIndex stopped
      else if i.profile.flags.nDwell then stopped.submit (portNotice stopped k .dwellEnd 0) else stopped := by
  unfold closeSignal
  dsimp only
  exact (if_pos counting).trans (if_pos (by omega))

theorem submitReport_notices (k : Port) (i : Installed) (s : State) :
    (submitReport k i s).notices = s.notices := by
  unfold submitReport
  split <;> rfl

/-- The DWELL_END notice of a close (R86). -/
def dwellEnd (k : Port) (i : Installed) (number : BitVec 32) : Notice :=
  { kind := .dwellEnd, port := some k, seqNo := number, index := i.index, detail := 0 }

theorem portNotice_dwellEnd {k : Port} {i : Installed} {u : State}
    (installed : (u.port k).meter.installed = some i) (c : Controller) :
    portNotice (u.setController k c) k .dwellEnd 0 = dwellEnd k i (u.port k).meter.seqNo := by
  simp [portNotice, dwellEnd, Meter.index, installed]

/-- What a close signal submits. -/
theorem closeSignal_notices {k : Port} {i : Installed} {u : State} (installed : (u.port k).meter.installed = some i)
    (ends : Counting (u.port k).controller ∧ i.profile.flags.link = false ∧ i.profile.flags.nDwell = true)
    (last : (u.port k).controller.dwellRemaining = 1) :
    (closeSignal k i u).notices = u.notices.submit (dwellEnd k i (u.port k).meter.seqNo) := by
  obtain ⟨counting, link, nDwell⟩ := ends
  rw [closeSignal_ends i counting last]
  simp only [link, nDwell, if_true, Bool.false_eq_true, if_false]
  rw [State.submit_notices, portNotice_dwellEnd installed]
  rfl

theorem closeSignal_silent {k : Port} {i : Installed} {u : State}
    (silent : ¬ (Counting (u.port k).controller ∧ i.profile.flags.link = false ∧ i.profile.flags.nDwell = true) ∨
      2 ≤ (u.port k).controller.dwellRemaining) : (closeSignal k i u).notices = u.notices := by
  unfold closeSignal
  dsimp only
  split
  · next counting =>
    split
    · next last =>
      have other := silent.resolve_right (by omega)
      split
      · rfl
      · next link =>
        rw [if_neg fun nDwell => other ⟨counting, by simpa using link, nDwell⟩]
        rfl
    · rfl
  · rfl

/-! ## The hold limit and the dwell in a close -/

theorem Closed.notices_raised {k : Port} {i : Installed} {u : State}
    (silent : ¬ (Counting (u.port k).controller ∧ i.profile.flags.link = false ∧ i.profile.flags.nDwell = true) ∨
      2 ≤ (u.port k).controller.dwellRemaining) :
    (submitReport k i (closeSignal k i (closeHold k i u))).notices = (closeHold k i u).notices := by
  have controller := (MeterOnly.closeHold k i u).controller
  rw [submitReport_notices, closeSignal_silent]
  rwa [controller]

theorem closeHold_window (k : Port) (i : Installed) (u : State) :
    ((closeHold k i u).port k).meter.installed = (u.port k).meter.installed ∧
      ((closeHold k i u).port k).meter.seqNo = (u.port k).meter.seqNo := by
  obtain ⟨m, block, -, number, -, -, installed, -⟩ := closeHold_port k i u
  rw [block]
  exact ⟨installed, number⟩

theorem Closed.notices_ended {k : Port} {i : Installed} {u : State}
    (installed : (u.port k).meter.installed = some i)
    (ends : Counting (u.port k).controller ∧ i.profile.flags.link = false ∧ i.profile.flags.nDwell = true)
    (last : (u.port k).controller.dwellRemaining = 1) :
    (submitReport k i (closeSignal k i (closeHold k i u))).notices =
      (closeHold k i u).notices.submit (dwellEnd k i (u.port k).meter.seqNo) := by
  have controller := (MeterOnly.closeHold k i u).controller
  obtain ⟨profile, number⟩ := closeHold_window k i u
  rw [submitReport_notices, closeSignal_notices (profile.trans installed) (by rwa [controller])
    (by rwa [controller]), number]

theorem Renewed.controller {s u : State} {k : Port} {i : Installed} (h : Renewed s k i u) :
    (u.port k).controller = (s.port k).controller := by rw [h.others]

/-- Settles O29: the hold limit of step 7 on the queue the re-evaluation leaves, and the notices of steps 7
and 8. -/
theorem windowCloseAppliesTheHoldLimit : Obligations.WindowCloseAppliesTheHoldLimit := by
  intro s k i operating runs expired installed
  have begun := renewed runs installed
  have taken := exec_windowClose_eq operating runs expired installed
  have done := closed k i (evaluate k (s.windowRenewed k i))
  intro u aged reached released raised c dwellEnds
  have limit : reached = reachesHold i.profile.maxHold := funext fun e => (reachesHold_eq _ e).symm
  have ageing : aged = (u.port k).queue.map QueueEntry.age := rfl
  have notices : (closeHold k i u).notices = raised := by
    rw [closeHold_notices begun.profile, begun.number, ← ageing, ← limit]
  have entries := Closed.entries begun done
  refine ⟨_, taken, entries.length_eq.symm, ?_, ?_, fun run e rest queue admitted waiting => ?_, fun admitted => ?_,
    fun silent => ?_, fun ends last => ?_, fun n e e' he he' => forall₂_getElem? entries he he'⟩
  · rw [done.queue, ← ageing]
    refine List.map_congr_left fun e _ => ?_
    rw [limit]
    rfl
  · rw [done.counters, ← ageing, ← limit]
    rfl
  · rw [done.claim, ← ageing, queue, firstReached_run admitted waiting, limit]
  · rw [done.claim, ← ageing, firstReached_allAdmitted admitted]
    rfl
  · rw [Closed.notices_raised, notices]
    rw [begun.controller]
    exact silent.imp_left fun other ends => other ⟨ends.1.1, ends.1.2.1, ends.1.2.2, ends.2⟩
  · obtain ⟨active, free, counting, link, nDwell⟩ := ends
    rw [Closed.notices_ended begun.profile (by rw [begun.controller]; exact ⟨⟨active, free, counting⟩, link, nDwell⟩)
      (by rw [begun.controller]; exact last), notices, begun.number]
    rfl

theorem submitReport_list (k : Port) (i : Installed) (s : State) :
    (submitReport k i s).internalList = s.internalList := (MeterOnly.submitReport k i s).list

/-- What steps 1 to 7 leave for the close signal (R85). -/
structure SignalReady (s : State) (k : Port) (i : Installed) (v : State) : Prop where
  controller : (v.port k).controller = (s.port k).controller
  load       : (v.port k).load = (s.port k).load
  list       : v.internalList = s.internalList
  base       : v.tableBase = s.tableBase
  profile    : (v.port k).meter.installed = some i
  number     : (v.port k).meter.seqNo = (s.port k).meter.seqNo + 1

theorem signalReady {s : State} {k : Port} {i : Installed} (runs : (s.port k).windowRuns = true)
    (installed : (s.port k).meter.installed = some i) :
    SignalReady s k i (closeHold k i (evaluate k (s.windowRenewed k i))) := by
  have begun := renewed runs installed
  have hold := MeterOnly.closeHold k i (evaluate k (s.windowRenewed k i))
  obtain ⟨profile, number⟩ := closeHold_window k i (evaluate k (s.windowRenewed k i))
  have base := ((begun.confined.trans (Confined.closeHold k i _))).rest.2.2.2.2.2.2
  exact ⟨hold.controller.trans begun.controller, hold.load.trans (by rw [begun.others]),
    hold.list.trans begun.list, base, profile.trans begun.profile, number.trans begun.number⟩

/-- What a close leaves of the controller and the load: what the close signal leaves of them. -/
theorem submitReport_controller (k : Port) (i : Installed) (v : State) :
    ((submitReport k i v).port k).controller = (v.port k).controller ∧
      ((submitReport k i v).port k).load = (v.port k).load := by
  rw [submitReport_port]
  exact ⟨rfl, rfl⟩

/-- Settles O30: the cases of the close signal. -/
theorem windowCloseStepsTheDwell : Obligations.WindowCloseStepsTheDwell := by
  intro s k i operating runs expired installed
  have ready := signalReady runs installed
  refine ⟨_, exec_windowClose_eq operating runs expired installed, ?_⟩
  generalize closeHold k i (evaluate k (s.windowRenewed k i)) = v at ready
  obtain ⟨controller, load⟩ := submitReport_controller k i (closeSignal k i v)
  rw [controller, load, submitReport_list, submitReport_notices]
  refine ⟨fun ignored => ?_, fun active free counting => ⟨fun more => ?_, fun last link => ?_, fun last link => ?_⟩⟩
  · rw [closeSignal_ignored i (by rw [ready.controller]; exact ignored)]
    exact ⟨ready.controller, ready.load, ready.list⟩
  · rw [closeSignal_steps i (by rw [ready.controller]; exact ⟨active, free, counting⟩)
      (by rw [ready.controller]; exact more), State.setController_port_same, ready.controller, ready.load]
    exact ⟨rfl, rfl, ready.list⟩
  all_goals
    rw [closeSignal_ends i (by rw [ready.controller]; exact ⟨active, free, counting⟩)
      (by rw [ready.controller]; exact last), ready.controller]
    simp only [link, if_true, Bool.false_eq_true, if_false]
  · simp only [startLoad, State.joinInternal_port, State.setPort_port_same, State.setController_port_same]
    refine ⟨trivial, ?_, ?_⟩
    · rw [State.setController_tableBase, ready.base]
      rfl
    · rw [State.joinInternal_internalList, State.setController_tableBase, ready.base]
      exact congrArg (· ++ _) ready.list
  · cases nDwell : i.profile.flags.nDwell with
    | false =>
      simp only [Bool.false_eq_true, if_false, State.setController_port_same]
      exact ⟨trivial, ready.load, ready.list, fun set => (by cases set)⟩
    | true =>
      simp only [if_true, State.submit_port, State.setController_port_same]
      refine ⟨trivial, ready.load, ready.list, fun _ => ⟨v.notices, ?_⟩⟩
      rw [State.submit_notices, portNotice_dwellEnd ready.profile, ready.number]
      rfl

end Sys2Proof.Machine
end

