-- ==== Sys2Proof/Proofs/Transactions.lean ====
section
/-! PROOF. Answers of the memory and deadlines, of port transactions and of cancelled loads (R119, R120, R122). -/

namespace Sys2Proof.Machine

open Sys2Proof

/-! ## The happenings that end a transaction -/

theorem exec_memoryAnswer_taken {s : State} (operating : s.operating = true) (tag : Fin 64)
    (status : AnswerStatus) (data : List Beat) :
    exec (.memoryAnswer tag status data) s = .next (takeMemoryAnswer tag status data s) :=
  happening_taken operating s _

theorem exec_completionDeadline_due {s : State} {tag : Fin 64} {f : InFlight} (operating : s.operating = true)
    (entry : s.table[tag.val] = some f) (due : s.Due (.completionDeadline tag)) :
    exec (.completionDeadline tag) s = .next (passDeadline tag f s) := by
  obtain ⟨_, reached⟩ := State.Due.reached entry due
  simp only [exec, execCompletionDeadline, entry]
  exact happening_taken (by rw [operating, reached]; rfl) ..

/-! ## What a count and the judgement of the drain after it come to -/

/-- R99, R100: the judgement of the drain after the meter has counted. -/
theorem judgeDrain_counted {s : State} {k : Port} {m : Meter} (seqNo : m.seqNo = (s.port k).meter.seqNo)
    (installed : m.installed = (s.port k).meter.installed) :
    ∃ t, judgeDrain k (s.setPort k { s.port k with meter := m }) = t ∧
      t = { s with ports := t.ports, notices := t.notices } ∧
      (∀ j, j ≠ k → t.port j = s.port j) ∧
      t.port k = { s.port k with controller := (t.port k).controller, meter := m } ∧
      ((s.port k).controller.portState = .draining ∧ (s.port k).queue = [] ∧ t.liveCount k = 0 →
        (t.port k).controller = { (s.port k).controller with portState := .quiet, drain := none } ∧
        t.notices = s.notices.submit
          { kind := .quiesced, port := some k, seqNo := (s.port k).meter.seqNo,
            index := (s.port k).meter.index,
            detail := match (s.port k).controller.drain with
              | some d => min d.drained 65535
              | none => 0 }) ∧
      (¬ ((s.port k).controller.portState = .draining ∧ (s.port k).queue = [] ∧ t.liveCount k = 0) →
        (t.port k).controller = (s.port k).controller ∧ t.notices = s.notices) := by
  obtain ⟨rest, others, own, drained, going⟩ :=
    judgeDrain_facts (s.setPort k { s.port k with meter := m }) k
  have index : m.index = (s.port k).meter.index := by rw [Meter.index, Meter.index, installed]
  have live : (judgeDrain k (s.setPort k { s.port k with meter := m })).liveCount k =
      (s.setPort k { s.port k with meter := m }).liveCount k := by
    rw [State.liveCount, State.liveCount, rest]
  rw [State.setPort_port_same] at own drained going
  refine ⟨_, rfl, rest, fun j ne => (others j ne).trans (State.setPort_port_ne s ne _), own, ?_, ?_⟩
  · rw [live]
    rw [seqNo, index] at drained
    exact drained
  · intro not_over
    rw [live] at not_over
    rw [going not_over, State.setPort_port_same]
    exact ⟨rfl, rfl⟩

theorem portNotice_counted {s : State} {k : Port} {m : Meter} (seqNo : m.seqNo = (s.port k).meter.seqNo)
    (installed : m.installed = (s.port k).meter.installed) (kind : NoticeKind) (detail : Nat) :
    portNotice (s.setPort k { s.port k with meter := m }) k kind detail = portNotice s k kind detail := by
  simp only [portNotice, State.setPort_port_same, seqNo, Meter.index, installed]

/-! ## Port transactions -/

/-- R35, R120: the meter of a block at an answer with this latency. -/
def PortBlock.meterAnswered (b : PortBlock) (status : AnswerStatus) (latency : Nat) : Meter :=
  if b.windowRuns then
    { b.meter with counters := { b.meter.counters with
      maxLatency := max b.meter.counters.maxLatency (min latency 65535)
      errors := match status with
        | .ok => b.meter.counters.errors
        | .error => min (b.meter.counters.errors + 1) 65535 } }
  else b.meter

/-- R35, R122: the meter of a block at a deadline. -/
def PortBlock.meterTimedOut (b : PortBlock) : Meter :=
  if b.windowRuns then
    { b.meter with counters := { b.meter.counters with
      timeouts := min (b.meter.counters.timeouts + 1) 65535 } }
  else b.meter

theorem countCompletion_meter (s : State) (k : Port) (status : AnswerStatus) (latency : Nat) :
    countCompletion k status latency s =
      s.setPort k { s.port k with meter := (s.port k).meterAnswered status latency } :=
  countCompletion_eq s k status latency

theorem countTimeout_meter (s : State) (k : Port) :
    countTimeout k s = s.setPort k { s.port k with meter := (s.port k).meterTimedOut } :=
  countTimeout_eq s k

/-- The latency is bounded already where the counter saturates. -/
theorem meterAnswered_latency (b : PortBlock) (status : AnswerStatus) (s : State) (f : InFlight) :
    b.meterAnswered status (s.latency f) = b.meterAnswered status (s.ticks - f.issueTime).toNat := by
  unfold PortBlock.meterAnswered State.latency maxEvents
  rw [Nat.min_assoc, Nat.min_self]

theorem meterAnswered_kept (b : PortBlock) (status : AnswerStatus) (latency : Nat) :
    (b.meterAnswered status latency).seqNo = b.meter.seqNo ∧
      (b.meterAnswered status latency).installed = b.meter.installed := by
  unfold PortBlock.meterAnswered
  split <;> exact ⟨rfl, rfl⟩

theorem meterTimedOut_kept (b : PortBlock) :
    b.meterTimedOut.seqNo = b.meter.seqNo ∧ b.meterTimedOut.installed = b.meter.installed := by
  unfold PortBlock.meterTimedOut
  split <;> exact ⟨rfl, rfl⟩

theorem completionStatus_eq (status : AnswerStatus) : completionStatus status = (match status with
    | .ok => .ok
    | .error => .error) := by
  cases status <;> rfl

theorem beatsOfKind_eq (kind : Kind) (data : List Beat) : (if kind = .read then data else []) = (match kind with
    | .read => data
    | .write => []) := by
  cases kind <;> rfl

/-- Settles O38: the completion goes out and the entry goes; the meter counts; the drain is judged. -/
theorem answerCompletesAPortTransaction : Obligations.AnswerCompletesAPortTransaction := by
  intro s tag f k rtag status data operating entry live owner
  have taken : takeMemoryAnswer tag status data s = answerPort k rtag tag f status data s := by
    rw [takeMemoryAnswer, entry]
    simp only [live, owner]
  rw [exec_memoryAnswer_taken operating, taken, answerPort_eq, countCompletion_meter, meterAnswered_latency,
    completionStatus_eq, beatsOfKind_eq]
  obtain ⟨seqNo, installed⟩ := meterAnswered_kept (s.port k) status (s.ticks - f.issueTime).toNat
  obtain ⟨t, judged, rest, others, own, drained, going⟩ :=
    judgeDrain_counted (k := k) (s := (s.emit (.completion k rtag _ _)).setEntry tag none) seqNo installed
  exact ⟨t, congrArg Host.Outcome.next judged, rest, others, own, drained, going⟩

/-- Settles O43: the entry becomes an ORPHAN and TIMEOUT goes out; the meter counts; the notice is submitted;
the drain is judged. -/
theorem deadlineTimesOutAPortTransaction : Obligations.DeadlineTimesOutAPortTransaction := by
  intro s tag f k rtag operating entry due owner n
  have timed : passDeadline tag f s = deadlinePort k rtag tag f s := by simp only [passDeadline, owner]
  obtain ⟨seqNo, installed⟩ := meterTimedOut_kept (s.port k)
  have counted : ∀ s', s'.port k = s.port k →
      portNotice (countTimeout k s') k .completionTimeout rtag.val = n := by
    intro s' same
    rw [← same] at seqNo installed
    rw [countTimeout_meter, portNotice_counted seqNo installed, portNotice, same, Nat.min_eq_left (by omega)]
  rw [exec_completionDeadline_due operating entry due, timed, deadlinePort, counted _ (by rfl), countTimeout_meter,
    beatsOfKind_eq]
  obtain ⟨t, judged, rest, others, own, drained, going⟩ :=
    judgeDrain_counted (k := k)
      (s := ((s.setEntry tag (some f.orphan)).emit (.completion k rtag .timeout _)).submit n) seqNo installed
  exact ⟨t, congrArg Host.Outcome.next judged, rest, others, own, drained, going⟩

/-! ## Discarded answers -/

/-- R119: an ORPHAN of a port is freed; the drain of the port is as it was. -/
theorem judgeDrain_orphanFreed {s : State} {tag : Fin 64} {f : InFlight} {k : Port}
    (entry : s.table[tag.val] = some f) (orphan : f.state = .orphan)
    (going : (s.port k).controller.portState = .draining → (s.port k).queue ≠ [] ∨ s.liveCount k ≠ 0) :
    judgeDrain k (s.setEntry tag none) = s.setEntry tag none := by
  have same : (s.setEntry tag none).liveCount k = s.liveCount k := by
    have counted := s.liveCount_setEntry tag none k
    rw [entry, liveOf_orphan k f orphan, liveOf_none] at counted
    simpa using counted
  obtain ⟨_, _, _, _, still⟩ := judgeDrain_facts (s.setEntry tag none) k
  refine still ?_
  rw [same]
  rintro ⟨draining, empty, none_live⟩
  exact (going draining).elim (fun some => some empty) (fun some => some none_live)

/-- R82: whatever the result of a cancelled load, the load is over and nothing else comes of it. -/
theorem takeLoadResult_cancelled {s : State} {k : Port} (result : LoadResult)
    (loading : (s.port k).load.isSome = true) (cancelled : (s.port k).controller.cancelledLoad = true) :
    takeLoadResult k result s = endLoad k s := by
  obtain ⟨ctx, context⟩ := Option.isSome_iff_exists.1 loading
  obtain ⟨ended, _⟩ := takeLoadResult_eq k result s ctx context
  exact ended cancelled

/-- Settles O39: by the entry the answer's tag names: FREE, ORPHAN, or that of a cancelled load, which a
deadline ends as well. -/
theorem discardedAnswers : Obligations.DiscardedAnswers := by
  intro s tag status data operating
  rw [exec_memoryAnswer_taken operating]
  refine ⟨fun free => ?_, fun f entry orphan going => ?_, fun f k entry live owner loading cancelled =>
    ⟨?_, fun due => ?_⟩⟩
  · rw [takeMemoryAnswer, free]
  · have freed : takeMemoryAnswer tag status data s = s.setEntry tag none := by
      rw [takeMemoryAnswer, entry]
      cases owner : f.owner with
      | port k rtag =>
        simp only [orphan, owner]
        exact judgeDrain_orphanFreed entry orphan (going k (by rw [owner]; rfl))
      | load k => simp only [orphan, owner]
      | report => simp only [orphan, owner]
    rw [freed]
    rfl
  · rw [takeMemoryAnswer, entry]
    simp only [live, owner]
    rw [takeLoadResult_cancelled (s := s.setEntry tag none) _ loading cancelled]
    rfl
  · have timed : passDeadline tag f s = takeLoadResult k (.fault .timeout) (s.setEntry tag (some f.orphan)) := by
      simp only [passDeadline, owner]
    rw [exec_completionDeadline_due operating entry due, timed,
      takeLoadResult_cancelled (s := s.setEntry tag (some f.orphan)) _ loading cancelled]
    rfl

end Sys2Proof.Machine
end

