-- ==== Sys2Proof/Proofs/ProfileFields.lean ====
section
/-! PROOF. The fields of a profile as a record and a frame carry them, and the tests of validation (R72 to R74,
R186, R188). -/

namespace Sys2Proof.Machine

open Sys2Proof

/-! ## Fields -/

/-- The fields that these bytes and words carry. -/
def rawFields (mode scope maxHold next : Byte) (window budget ceiling high low flags dwell : BitVec 16) :
    RawProfile :=
  { mode := mode.toNat, scope := scope.toNat, windowLength := window.toNat, budget := budget.toNat
    ceiling := ceiling.toNat, highMark := high.toNat, lowMark := low.toNat, maxHold := maxHold.toNat
    flags := flags.toNat, dwell := dwell.toNat, nextIndex := next.toNat }

/-- The profile that these bytes and words name. -/
def profileOfFields (mode scope maxHold next : Byte) (window budget ceiling high low flags dwell : BitVec 16) :
    Profile :=
  { mode := if mode = 0 then .observe else if mode = 1 then .cap else .bucket
    scope := if scope = 1 then .reads else if scope = 2 then .writes else .both
    windowLength := window.toNat, budget := budget.toNat, ceiling := ceiling.toNat
    highMark := high.toNat, lowMark := low.toNat, maxHold := maxHold.toNat
    flags := ⟨flags.getLsbD 0, flags.getLsbD 1, flags.getLsbD 2, flags.getLsbD 3,
      flags.getLsbD 4, flags.getLsbD 5, flags.getLsbD 6, flags.getLsbD 7, flags.getLsbD 8⟩
    dwell := dwell.toNat, nextIndex := next }

/-- One of the checks of R74 fails. -/
def FieldsFail (mode scope maxHold : Byte) (window budget ceiling : BitVec 16) : Prop :=
  3 ≤ mode.toNat ∨ scope.toNat = 0 ∨ 4 ≤ scope.toNat ∨ window.toNat < 16 ∨
    ((mode = 1 ∨ mode = 2) ∧ budget = 0) ∨ (mode = 2 ∧ ceiling.toNat < budget.toNat) ∨ 16 ≤ maxHold.toNat

section
variable (mode scope maxHold next : Byte) (window budget ceiling high low flags dwell : BitVec 16)

/-- The checks, on the numbers the bytes and words stand for. -/
theorem rawFields_inRange : (rawFields mode scope maxHold next window budget ceiling high low flags dwell).inRange =
    true ↔ ¬ FieldsFail mode scope maxHold window budget ceiling := by
  have mode1 : mode = 1 ↔ mode.toNat = 1 := BitVec.toNat_inj.symm
  have mode2 : mode = 2 ↔ mode.toNat = 2 := BitVec.toNat_inj.symm
  have budget0 : budget = 0 ↔ budget.toNat = 0 := BitVec.toNat_inj.symm
  rw [RawProfile.inRange_iff, FieldsFail, mode1, mode2, budget0]
  simp only [rawFields]
  omega

/-- Fields that pass make up the profile they name. -/
theorem rawFields_toProfile (pass : ¬ FieldsFail mode scope maxHold window budget ceiling) :
    (rawFields mode scope maxHold next window budget ceiling high low flags dwell).toProfile =
      profileOfFields mode scope maxHold next window budget ceiling high low flags dwell := by
  obtain ⟨mode_lt, ⟨scope_pos, scope_lt⟩, _⟩ := (RawProfile.inRange_iff _).1
    ((rawFields_inRange mode scope maxHold next window budget ceiling high low flags dwell).2 pass)
  have mode_code : modeOfCode mode.toNat = if mode = 0 then .observe else if mode = 1 then .cap else .bucket := by
    rw [modeOfCode_eq (n := mode.toNat) mode_lt]
    simp only [← BitVec.toNat_inj]
    rfl
  have scope_code : scopeOfCode scope.toNat = if scope = 1 then .reads else if scope = 2 then .writes else .both := by
    rw [scopeOfCode_eq (n := scope.toNat) scope_pos scope_lt]
    simp only [← BitVec.toNat_inj]
    rfl
  have next_code : BitVec.ofNat 8 next.toNat = next := by simp
  simp only [RawProfile.toProfile, rawFields, mode_code, scope_code, next_code]
  rfl

/-! ## Records and frames -/

/-- R186: the fields lie at their offsets in a record, each word with its low byte first. -/
theorem rawOfRecord_fields (format : Byte) (rest : List Byte) :
    rawOfRecord (format :: mode :: scope :: maxHold :: window.extractLsb' 0 8 :: window.extractLsb' 8 8 ::
      budget.extractLsb' 0 8 :: budget.extractLsb' 8 8 :: ceiling.extractLsb' 0 8 :: ceiling.extractLsb' 8 8 ::
      high.extractLsb' 0 8 :: high.extractLsb' 8 8 :: low.extractLsb' 0 8 :: low.extractLsb' 8 8 ::
      flags.extractLsb' 0 8 :: flags.extractLsb' 8 8 :: dwell.extractLsb' 0 8 :: dwell.extractLsb' 8 8 ::
      next :: rest) =
    rawFields mode scope maxHold next window budget ceiling high low flags dwell := by
  simp [rawOfRecord, rawFields, fieldAt_one, fieldAt_two, natOfLE_byte, natOfLE_word16]

/-- R188: the fields lie at their offsets in a frame, each word with its high byte first. -/
theorem rawOfFrame_fields :
    rawOfFrame [mode, scope, window.extractLsb' 8 8, window.extractLsb' 0 8, budget.extractLsb' 8 8,
      budget.extractLsb' 0 8, ceiling.extractLsb' 8 8, ceiling.extractLsb' 0 8, high.extractLsb' 8 8,
      high.extractLsb' 0 8, low.extractLsb' 8 8, low.extractLsb' 0 8, maxHold, flags.extractLsb' 8 8,
      flags.extractLsb' 0 8, dwell.extractLsb' 8 8, dwell.extractLsb' 0 8, next] =
    rawFields mode scope maxHold next window budget ceiling high low flags dwell := by
  simp [rawOfFrame, rawFields, fieldAt_one, fieldAt_two, natOfBE_byte, natOfBE_word16]

end

/-! ## Validation -/

/-- R73: the check sum adds the halfwords, each with its low byte first. -/
theorem checkSum_eq (bytes : List Byte) : checkSum bytes = ((List.range 16).map fun n =>
    (bytes.getD (2 * n) 0).toNat + 256 * (bytes.getD (2 * n + 1) 0).toNat).sum % 65536 := by
  simp only [checkSum, fieldAt_two, natOfLE_pair]

/-- R72: the tests of validation, in order. -/
theorem validateRecord_tests {bytes : List Byte} {r : RawProfile} (fields : rawOfRecord bytes = r) :
    (bytes.getD 0 0 ≠ 0xB6 → validateRecord bytes = .error .badFormat) ∧
    (bytes.getD 0 0 = 0xB6 → checkSum bytes ≠ 0 → validateRecord bytes = .error .badCheck) ∧
    (bytes.getD 0 0 = 0xB6 → checkSum bytes = 0 → r.inRange = false → validateRecord bytes = .error .badField) ∧
    (bytes.getD 0 0 = 0xB6 → checkSum bytes = 0 → r.inRange = true → validateRecord bytes = .ok r.toProfile) := by
  rw [validateRecord, fields]
  refine ⟨fun format => if_pos format, fun format check => ?_, fun format check range => ?_,
    fun format check range => ?_⟩
  · rw [if_neg (not_not.2 format), if_pos check]
  · rw [if_neg (not_not.2 format), if_neg (not_not.2 check), range]
    rfl
  · rw [if_neg (not_not.2 format), if_neg (not_not.2 check), if_pos range]

end Sys2Proof.Machine
end

