-- ==== Sys2Proof/Proofs/Installs.lean ====
section
/-! PROOF. The results of loads: a record installed, the fallback installed, the prior regime kept (R41 to R43,
R71 to R79). -/

namespace Sys2Proof.Machine

open Sys2Proof

/-! ## The state an install hands to the evaluation -/

/-- What `State.windowInstalled` leaves of the port: a window begun under `i`, the old one ended early where it
ran, with its snapshot and its report. -/
theorem windowInstalled_port (s : State) (k : Port) (i : Installed) :
    ∃ (w : Snapshot) (claim : Option Claim) (reports : List Report),
      s.windowInstalled k i = s.setPort k { s.port k with
        toWriter := (s.port k).toWriter ++ reports
        meter := { (s.port k).meter with
          installed := some i, windowRunning := true, timeRemaining := i.profile.windowLength
          seqNo := (s.port k).meter.seqNo + 1, used := 0
          credit := if i.profile.mode = .bucket then i.profile.ceiling else 0
          counters := ⟨0, 0, 0, 0, 0, 0, 0, 0, 0⟩, highSeen := false, snapshot := w, claim := claim } } ∧
      claim.isSome = (s.port k).meter.claim.isSome ∧
      (∀ old, (s.port k).meter.installed = some old → (s.port k).windowRuns = true →
        w = snapshotAtEnd (s.port k) old true false ∧ reports = reportOf k old w) ∧
      ((s.port k).windowRuns = false → w = (s.port k).meter.snapshot ∧ reports = []) := by
  cases installed : (s.port k).meter.installed with
  | none =>
    have stopped : (s.port k).windowRuns = false := by simp [PortBlock.windowRuns, installed]
    refine ⟨_, _, [], ?_, rfl, fun old h => by simp at h, fun _ => ⟨rfl, rfl⟩⟩
    simp only [State.windowInstalled, installed, List.append_nil]
  | some old =>
    cases running : (s.port k).windowRuns with
    | false =>
      refine ⟨_, _, [], ?_, rfl, fun _ _ h => by simp at h, fun _ => ⟨rfl, rfl⟩⟩
      simp only [State.windowInstalled, installed, running, List.append_nil, Bool.false_eq_true, if_false]
    | true =>
      refine ⟨snapshotAtEnd (s.port k) old true false, staled (s.port k).meter.claim,
        reportOf k old (snapshotAtEnd (s.port k) old true false), ?_, by simp [staled], ?_, fun h => by simp at h⟩
      · simp only [State.windowInstalled, installed, running, if_true]
      · rintro _ h -
        injection h with h
        subst h
        exact ⟨rfl, rfl⟩

/-! ## What an install comes to -/

/-- What an install of `i` at port `k` in `s` leaves in `u`, once the meter has evaluated. -/
structure InstalledIn (k : Port) (i : Installed) (s u : State) : Prop where
  rest : u = { s with ports := u.ports, notices := u.notices }
  others : ∀ j, j ≠ k → u.port j = s.port j
  controller : (u.port k).controller = (s.port k).controller
  fallback : (u.port k).fallback = (s.port k).fallback
  installed : (u.port k).meter.installed = some i
  running : (u.port k).meter.windowRunning = true
  timeRemaining : (u.port k).meter.timeRemaining = i.profile.windowLength
  seqNo : (u.port k).meter.seqNo = (s.port k).meter.seqNo + 1
  ended : ∀ old, (s.port k).meter.installed = some old → (s.port k).windowRuns = true →
    (u.port k).meter.snapshot = snapshotAtEnd (s.port k) old true false ∧
    (u.port k).toWriter = (s.port k).toWriter ++ reportOf k old (u.port k).meter.snapshot
  stopped : (s.port k).windowRuns = false →
    (u.port k).meter.snapshot = (s.port k).meter.snapshot ∧ (u.port k).toWriter = (s.port k).toWriter
  requests : (u.port k).queue.map QueueEntry.request = (s.port k).queue.map QueueEntry.request
  idle : AllAdmitted (s.port k).queue ∨ (s.port k).meter.claim.isSome = true →
    (u.port k).queue = (s.port k).queue ∧ (u.port k).toPool = (s.port k).toPool ∧
    (u.port k).meter.counters = ⟨0, 0, 0, 0, 0, 0, 0, 0, 0⟩ ∧ (u.port k).meter.used = 0 ∧
    (u.port k).meter.credit = (if i.profile.mode = .bucket then i.profile.ceiling else 0)

theorem installedIn (k : Port) (i : Installed) (s : State) :
    InstalledIn k i s (evaluate k (s.windowInstalled k i)) := by
  obtain ⟨w, claim, reports, begun, outstanding, ended, stopped⟩ := windowInstalled_port s k i
  have own := congrArg (State.port · k) begun
  simp only [State.setPort_port_same] at own
  obtain ⟨m, q, claims, port, _, snapshot, seqNo, time, running, installed, entries⟩ :=
    evaluate_port_same k (s.windowInstalled k i)
  rw [own] at port snapshot seqNo time running installed entries
  refine ⟨?rest, fun j ne => ?others, ?_, ?_, ?_, ?_, ?_, ?_, fun old was runs => ?ended, fun h => ?stopped, ?_,
    fun still => ?idle⟩
  case rest => rw [evaluate_frame, begun]; rfl
  case others => rw [evaluate_port_ne _ _ ne, begun, State.setPort_port_ne _ ne]
  case ended =>
    obtain ⟨rfl, rfl⟩ := ended old was runs
    rw [port]
    exact ⟨snapshot, by rw [snapshot]⟩
  case stopped =>
    obtain ⟨rfl, rfl⟩ := stopped h
    rw [port]
    exact ⟨snapshot, List.append_nil _⟩
  case idle =>
    have unjudged : evaluate k (s.windowInstalled k i) = s.windowInstalled k i := by
      refine evaluate_idle (.inr ?_)
      rw [own]
      exact still.elim .inr fun some => .inl (outstanding.trans some)
    rw [unjudged, own]
    exact ⟨rfl, rfl, rfl, rfl, rfl⟩
  all_goals rw [port]
  · exact installed
  · exact running
  · exact time
  · exact seqNo
  · exact forall₂_request entries

/-! ## The end of a load that installs -/

/-- What an install at the end of a load leaves before its notice is submitted. -/
def State.loadInstalled (s : State) (k : Port) (i : Installed) (c : Controller) : State :=
  let u := evaluate k (s.windowInstalled k i)
  u.setPort k { u.port k with load := none, controller := { c with loadInFlight := false, cancelledLoad := false } }

theorem loadInstalled_port (s : State) (k : Port) (i : Installed) (c : Controller) :
    (s.loadInstalled k i c).port k = { (evaluate k (s.windowInstalled k i)).port k with
      load := none, controller := { c with loadInFlight := false, cancelledLoad := false } } :=
  State.setPort_port_same ..

theorem endLoad_installed (k : Port) (i : Installed) (s : State) (c c' : Controller)
    (same : c.portState = (s.port k).controller.portState) :
    endLoad k ((installProfile k i ((earlyEnd k s).setController k c)).setController k c') =
      s.loadInstalled k i c' := by
  rw [installAfterEnd_eq k i s c same]
  simp only [endLoad, State.loadInstalled, State.setController, State.setPort_port_same, State.setPort_setPort]

theorem portNotice_installed (s : State) (k : Port) (i : Installed) (c : Controller) (kind : NoticeKind)
    {detail : Nat} (small : detail ≤ 65535) : portNotice (s.loadInstalled k i c) k kind detail =
      { kind := kind, port := some k, seqNo := (s.port k).meter.seqNo + 1, index := i.index, detail := detail } := by
  have installing := installedIn k i s
  simp only [portNotice, loadInstalled_port, installing.seqNo, Meter.index, installing.installed,
    Nat.min_eq_left small]

/-- R76, R77: an accepted record is installed, with its notice last. -/
theorem installFromTable_eq (k : Port) (index : Byte) (p : Profile) (s : State) :
    installFromTable k index p s =
      let t := s.loadInstalled k ⟨p, index, .table⟩ { (s.port k).controller with
        portState := .active, dwellRemaining := p.dwell, dwellCounting := decide (p.dwell ≠ 0)
        fallbackInUse := false }
      t.setNotices (if p.flags.nInstall = true then t.notices.submit
        { kind := .installed, port := some k, seqNo := (s.port k).meter.seqNo + 1, index := index,
          detail := index.toNat } else t.notices) := by
  have small : index.toNat ≤ 65535 := by omega
  simp only [installFromTable, (MeterOnly.installProfile ..).controller, State.setController_port_same,
    earlyEnd_controller, Controller.loadDwell]
  rw [endLoad_installed k _ s _ _ (by rfl), portNotice_installed _ _ _ _ _ small]
  split <;> rfl

/-- R78: the fallback is installed with dwell 0, with its notice last. -/
theorem installFallback_eq (k : Port) (index : Byte) (reason : FaultReason) (s : State) :
    installFallback k index reason s =
      (s.loadInstalled k ⟨{ (s.port k).fallback.fields with dwell := 0 }, index, .fallback⟩
        { (s.port k).controller with
          portState := .active, dwellRemaining := 0, dwellCounting := false, fallbackInUse := true }).submit
        { kind := .profileFault, port := some k, seqNo := (s.port k).meter.seqNo + 1, index := index,
          detail := codeOfReason reason + 256 } := by
  have small : faultDetail reason true ≤ 65535 := by cases reason <;> decide
  simp only [installFallback, (MeterOnly.installProfile ..).controller, State.setController_port_same,
    earlyEnd_controller, (MeterOnly.earlyEnd ..).fallback]
  rw [endLoad_installed k _ s _ _ (by rfl), portNotice_installed _ _ _ _ _ small]
  rfl

theorem loadInstalled_rest (s : State) (k : Port) (i : Installed) (c : Controller) (q : NoticeQueue) :
    (s.loadInstalled k i c).setNotices q =
      { s with ports := (s.loadInstalled k i c).ports, notices := q } :=
  congrArg (fun u : State => (u.setPort k { (evaluate k (s.windowInstalled k i)).port k with
    load := none, controller := { c with loadInFlight := false, cancelledLoad := false } }).setNotices q)
    (installedIn k i s).rest

theorem loadInstalled_port_ne (s : State) {k j : Port} (i : Installed) (c : Controller) (ne : j ≠ k) :
    (s.loadInstalled k i c).port j = s.port j :=
  (State.setPort_port_ne _ ne _).trans ((installedIn k i s).others j ne)

/-! ## The prior regime -/

/-- R79: a port with a profile goes back to ACTIVE. -/
theorem keepRegime_active (k : Port) (reason : FaultReason) {s : State} {i : Installed}
    (installed : (s.port k).meter.installed = some i) :
    keepRegime k reason s = (s.setPort k { s.port k with
      load := none
      controller := { (s.port k).controller with
        portState := .active, loadInFlight := false, cancelledLoad := false } }).submit
      { kind := .profileFault, port := some k, seqNo := (s.port k).meter.seqNo, index := i.index,
        detail := codeOfReason reason } := by
  have small : codeOfReason reason ≤ 65535 := by cases reason <;> decide
  simp only [keepRegime, endLoad_port, installed, Option.isSome_some, if_true, portNotice,
    State.setController_port_same, Meter.index, faultDetail, Bool.false_eq_true, if_false, Nat.add_zero,
    Nat.min_eq_left small]
  simp only [endLoad, State.setController, State.setPort_port_same, State.setPort_setPort]

/-- R79: a port without one goes back to PASS, and its WAITING entries are admitted. -/
theorem keepRegime_pass (k : Port) (reason : FaultReason) {s : State}
    (installed : (s.port k).meter.installed = none) :
    keepRegime k reason s = (s.setPort k { s.port k with
      load := none
      queue := (s.port k).queue.map fun e => { e with status := .admitted }
      meter := { (s.port k).meter with claim := staled (s.port k).meter.claim }
      controller := { (s.port k).controller with
        portState := .pass, loadInFlight := false, cancelledLoad := false } }).submit
      { kind := .profileFault, port := some k, seqNo := (s.port k).meter.seqNo, index := 0xFF,
        detail := codeOfReason reason } := by
  have small : codeOfReason reason ≤ 65535 := by cases reason <;> decide
  simp only [keepRegime, endLoad_port, installed, Option.isSome_none, Bool.false_eq_true, if_false, massAdmit_eq,
    portNotice, State.setPort_port_same, State.setController_port_same, Meter.index, faultDetail, Nat.add_zero,
    Nat.min_eq_left small]
  simp only [endLoad, State.setController, State.setPort_port_same, State.setPort_setPort]

/-! ## The happenings that bring the result -/

theorem exec_memoryAnswer_load {s : State} {tag : Fin 64} {f : InFlight} {k : Port}
    (operating : s.operating = true) (entry : s.table[tag.val] = some f) (live : f.state = .live)
    (owner : f.owner = .load k) (status : AnswerStatus) (data : List Beat) :
    exec (.memoryAnswer tag status data) s =
      .next (takeLoadResult k (loadResultOf status data) (s.setEntry tag none)) := by
  rw [exec_memoryAnswer_taken operating, takeMemoryAnswer, entry]
  simp only [live, owner]

theorem exec_completionDeadline_load {s : State} {tag : Fin 64} {f : InFlight} {k : Port}
    (operating : s.operating = true) (entry : s.table[tag.val] = some f) (owner : f.owner = .load k)
    (due : s.Due (.completionDeadline tag)) :
    exec (.completionDeadline tag) s =
      .next (takeLoadResult k (.fault .timeout) (s.setEntry tag (some f.orphan))) := by
  rw [exec_completionDeadline_due operating entry due, passDeadline]
  simp only [owner]

/-- R71, R121, R123: the three causes of a fault hand the loader a result that comes to it. -/
theorem exec_fault {s : State} {tag : Fin 64} {f : InFlight} {k : Port} {c : Instr} {reason : FaultReason}
    {left : Option InFlight} (operating : s.operating = true) (entry : s.table[tag.val] = some f)
    (live : f.state = .live) (owner : f.owner = .load k)
    (cause : (∃ data, c = .memoryAnswer tag .error data ∧ reason = .memoryError ∧ left = none) ∨
      (∃ data, c = .memoryAnswer tag .ok data ∧ left = none ∧
        validateRecord (bytesOfRecordRead data) = .error reason) ∨
      (c = .completionDeadline tag ∧ s.Due c ∧ reason = .timeout ∧
        left = some { f with state := .orphan, deadline := none })) :
    ∃ result, exec c s = .next (takeLoadResult k result (s.setEntry tag left)) ∧
      result.judge = .error reason := by
  rcases cause with ⟨data, rfl, rfl, rfl⟩ | ⟨data, rfl, rfl, invalid⟩ | ⟨rfl, due, rfl, rfl⟩
  · exact ⟨_, exec_memoryAnswer_load operating entry live owner .error data, rfl⟩
  · exact ⟨_, exec_memoryAnswer_load operating entry live owner .ok data, invalid⟩
  · exact ⟨_, exec_completionDeadline_load operating entry owner due, rfl⟩

/-! ## The obligations -/

/-- Settles O40: the bytes of the two beats; the tests in order; and an accepted record installed. -/
theorem acceptedRecordIsInstalled : Obligations.AcceptedRecordIsInstalled := by
  refine ⟨fun first second n inside => ⟨bytesOfRecordRead_length _, bytesOfRecordRead_two first second inside⟩,
    ?tests, ?install⟩
  case tests =>
    intro format mode scope maxHold next window budget ceiling high low flags dwell check unused _ two bytes sum
      fails
    have fields : rawOfRecord bytes =
        rawFields mode scope maxHold next window budget ceiling high low flags dwell :=
      rawOfRecord_fields mode scope maxHold next window budget ceiling high low flags dwell format _
    obtain ⟨format', check', range, accepted⟩ := validateRecord_tests fields
    have checked : checkSum bytes = sum := checkSum_eq bytes
    rw [checked] at check' range accepted
    have pass := rawFields_inRange mode scope maxHold next window budget ceiling high low flags dwell
    refine ⟨format', check', fun h h' fail => range h h' (Bool.eq_false_iff.2 fun ok => pass.1 ok fail),
      fun h h' ok => (accepted h h' (pass.2 ok)).trans (congrArg Except.ok ?_)⟩
    exact rawFields_toProfile mode scope maxHold next window budget ceiling high low flags dwell ok
  case install =>
    intro s tag f k ctx data p operating entry live owner context current valid _ u
    obtain ⟨_, judged⟩ :=
      takeLoadResult_eq k (loadResultOf .ok data) (s.setEntry tag none) ctx context
    obtain ⟨accepted, _⟩ := judged current
    have installing := installedIn k ⟨p, ctx.index, .table⟩ (s.setEntry tag none)
    refine ⟨_, (exec_memoryAnswer_load operating entry live owner .ok data).trans
      (congrArg Host.Outcome.next ((accepted p valid).trans (installFromTable_eq ..))), loadInstalled_rest ..,
      fun j ne => loadInstalled_port_ne _ _ _ ne, ?_⟩
    simp only [State.setNotices_port, State.setNotices_notices, loadInstalled_port]
    exact ⟨rfl, rfl, rfl, trivial, installing.installed, installing.running, installing.timeRemaining,
      installing.seqNo, installing.ended, installing.stopped, installing.requests, installing.idle⟩

/-- Settles O41: the three causes give the loader the same fault; with a valid fallback that is installed, and
without one the port goes back to ACTIVE or PASS. -/
theorem loadFaultInstallsTheFallbackOrReturns : Obligations.LoadFaultInstallsTheFallbackOrReturns := by
  intro s tag f k ctx c reason entry operating held live owner context current _ cause u
  obtain ⟨result, taken, faulty⟩ := exec_fault operating held live owner cause
  obtain ⟨_, judged⟩ := takeLoadResult_eq k result (s.setEntry tag entry) ctx context
  obtain ⟨_, faulted⟩ := judged current
  obtain ⟨fallback, prior⟩ := faulted reason faulty
  rw [taken]
  cases valid : (s.port k).fallback.valid with
  | true =>
    have installing := installedIn k ⟨{ (s.port k).fallback.fields with dwell := 0 }, ctx.index, .fallback⟩
      (s.setEntry tag entry)
    refine ⟨_, congrArg Host.Outcome.next ((fallback valid).trans (installFallback_eq ..)), loadInstalled_rest ..,
      fun j ne => loadInstalled_port_ne _ _ _ ne, ?_⟩
    simp only [State.submit_port, State.submit_notices, loadInstalled_port]
    exact ⟨trivial, trivial, trivial, installing.fallback, fun _ => ⟨rfl, rfl, installing.installed, rfl,
      installing.running, installing.timeRemaining, installing.seqNo, installing.ended, installing.stopped,
      installing.idle⟩, fun h => by simp at h, fun h => by simp at h⟩
  | false =>
    cases installed : (s.port k).meter.installed with
    | some i =>
      refine ⟨_, congrArg Host.Outcome.next ((prior valid).trans (keepRegime_active k reason installed)), rfl,
        fun j ne => State.setPort_port_ne _ ne _, ?_⟩
      simp only [State.submit_port, State.submit_notices, State.setPort_port_same]
      exact ⟨trivial, trivial, trivial, rfl, fun h => by simp at h, fun _ _ h => by cases h; exact ⟨rfl, rfl⟩,
        fun _ h => by simp at h⟩
    | none =>
      refine ⟨_, congrArg Host.Outcome.next ((prior valid).trans (keepRegime_pass k reason installed)), rfl,
        fun j ne => State.setPort_port_ne _ ne _, ?_⟩
      simp only [State.submit_port, State.submit_notices, State.setPort_port_same]
      exact ⟨trivial, trivial, trivial, rfl, fun h => by simp at h, fun _ _ h => by simp at h,
        fun _ _ => ⟨rfl, rfl⟩⟩

end Sys2Proof.Machine
end

