-- ==== Sys2Proof/Proofs/FrameCommands.lean ====
section
/-! PROOF. Frames no block takes, the fallback commands, and SOFT_RESET (R164, R165, R87, R88, R181). -/

namespace Sys2Proof.Machine

open Sys2Proof

/-! ## Frames refused by the link -/

/-- Settles O44: neither frame reaches a block. -/
theorem shortAndUnknownFrames : Obligations.ShortAndUnknownFrames := by
  intro s listening
  refine ⟨fun bits => happening_taken listening .., fun code f unknown => ?_⟩
  exact happening_taken (by rw [listening, unknown]; rfl) ..

/-- R165 step 3: a command's frame is taken with the number of argument bytes the code table gives. -/
theorem exec_command_frame {code : Byte} {command : Frame → Instr} {count : Nat}
    (named : commandOf code = some command) (counted : (code.toNat, count) ∈ argumentBytes) (f : Frame)
    (s : State) : ∃ owner, exec (command f) s = takeFrame count f s owner := by
  simp only [argumentBytes, List.mem_cons, Prod.mk.injEq, List.not_mem_nil, or_false] at counted
  rcases counted with ⟨h, rfl⟩ | ⟨h, rfl⟩ | ⟨h, rfl⟩ | ⟨h, rfl⟩ | ⟨h, rfl⟩ | ⟨h, rfl⟩ | ⟨h, rfl⟩ | ⟨h, rfl⟩ |
    ⟨h, rfl⟩ | ⟨h, rfl⟩ | ⟨h, rfl⟩ | ⟨h, rfl⟩ | ⟨h, rfl⟩ | ⟨h, rfl⟩ | ⟨h, rfl⟩ | ⟨h, rfl⟩ | ⟨h, rfl⟩ | ⟨h, rfl⟩ |
    ⟨h, rfl⟩ | ⟨h, rfl⟩
  all_goals
    simp only [commandOf, h, Option.some.injEq] at named
    subst named
    simp only [exec, execGetStatus, execGetPort, execGetWindow, execGetProfile, execGetPool, execSetTableBase,
      execSetFallback, execClearFallback, execLoad, execQuiesce, execResume, execSetPoolLimit, execSetTimeout,
      execSetRing, execRingOff, execReportAck, execPopNotice, execClearOverflow, execSetIrq, execSoftReset,
      takePortFrame]
    exact ⟨_, rfl⟩

/-- R165 step 4, R171: the commands whose byte 1 is a port look it up before their owner sees the rest. -/
theorem exec_command_portFrame {code : Byte} {command : Frame → Instr} {count : Nat}
    (named : commandOf code = some command) (counted : (code.toNat, count) ∈ argumentBytes)
    (port : code.toNat ∈ portCodes) (f : Frame) (s : State) :
    ∃ owner, exec (command f) s = takePortFrame count f s owner := by
  simp only [portCodes, List.mem_cons, List.not_mem_nil, or_false] at port
  rcases port with h | h | h | h | h | h | h | h
  all_goals
    simp only [commandOf, h, Option.some.injEq] at named
    simp [argumentBytes, h] at counted
    subst named counted
    simp only [exec, execGetPort, execGetWindow, execGetProfile, execSetFallback, execClearFallback, execLoad,
      execQuiesce, execResume]
    exact ⟨_, rfl⟩

/-- Settles O46: the length is checked first, then the port, and only then does an owner see the frame. -/
theorem wrongLengthOrPortIsRefused : Obligations.WrongLengthOrPortIsRefused := by
  intro s code command count f listening named counted
  refine ⟨fun wrong => ?_, fun port rest whole length coded args high => ?_⟩
  · obtain ⟨owner, framed⟩ := exec_command_frame named counted f s
    rw [framed]
    exact takeFrame_bad s count f owner listening wrong
  · obtain ⟨owner, framed⟩ := exec_command_portFrame named counted coded f s
    rw [framed]
    exact takePortFrame_no_port s count f owner listening whole length
      (by rw [args]; exact portOfByte_eq_none port high)

/-! ## The fallback -/

theorem exec_setFallback_whole {s : State} (listening : s.listening = true) (k : Port) {args : List Byte}
    (length : args.length = 18) :
    let f := wholeFrame (portByte k :: args)
    exec (.setFallback f) s = .next (if (rawOfFrame args).inRange then
      (s.setPort k { s.port k with fallback := ⟨true, (rawOfFrame args).toProfile⟩ }).answered f .ok []
      else s.answered f .badArg []) := by
  intro f
  have whole := takePortFrame_whole s k args (fun k args s' => if (rawOfFrame args).inRange then
    (s'.setPort k { s'.port k with fallback := ⟨true, (rawOfFrame args).toProfile⟩ }).respond .ok []
    else s'.respond .badArg []) listening
  rw [length] at whole
  exact whole

/-- Settles O51: the checks of the fields decide about SET_FALLBACK; CLEAR_FALLBACK needs none. -/
theorem fallbackIsSetAndCleared : Obligations.FallbackIsSetAndCleared := by
  intro s k listening
  refine ⟨fun mode scope maxHold next window budget ceiling high low flags dwell => ?set, ?clear⟩
  case set =>
    have pass := rawFields_inRange mode scope maxHold next window budget ceiling high low flags dwell
    refine ⟨fun fail => ?_, fun ok => ?_⟩
    · refine (exec_setFallback_whole listening k (by rfl)).trans (congrArg Host.Outcome.next (if_neg ?_))
      rw [rawOfFrame_fields]
      exact fun checked => pass.1 checked fail
    · refine (exec_setFallback_whole listening k (by rfl)).trans (congrArg Host.Outcome.next ?_)
      rw [rawOfFrame_fields, if_pos (pass.2 ok),
        rawFields_toProfile mode scope maxHold next window budget ceiling high low flags dwell ok]
      rfl
  case clear =>
    rw [exec_clearFallback]
    exact takePortFrame_whole s k [] _ listening

/-! ## SOFT_RESET -/

theorem orphaned_internal (s : State) (tag : Fin 64) :
    (orphanWhere (fun o => o.portOf.isNone) s.table)[tag.val] = (s.table[tag.val]).map fun f =>
      if f.state = .live ∧ f.owner.portOf = none then { f with state := .orphan, deadline := none } else f := by
  rw [orphanWhere_get]
  simp only [Bool.and_eq_true, beq_iff_eq, Option.isNone_iff_eq_none]
  rfl

/-- Settles O60: each block in turn, as the table of R181 gathers them. -/
theorem softResetRestartsThePolicy : Obligations.SoftResetRestartsThePolicy := by
  intro s listening
  refine ⟨softReset (s.emit (quietMdo (wholeFrame []))), takeFrame_whole s [] (fun _ s' => softReset s') listening,
    fun k => ?_, fun tag => orphaned_internal s tag, rfl⟩
  rw [softReset_port]
  rfl

end Sys2Proof.Machine
end

