-- ==== Sys2Proof/Proofs/PortCommands.lean ====
section
/-! PROOF. LOAD, QUIESCE and RESUME (R44, R45, R68, R69, R93 to R104). -/

namespace Sys2Proof.Machine

open Sys2Proof

/-! ## LOAD -/

theorem exec_load_whole {s : State} (listening : s.listening = true) (k : Port) (index : Byte) :
    exec (.load (wholeFrame [portByte k, index])) s =
      .next (takeLoad k index (s.emit (quietMdo (wholeFrame [portByte k, index])))) := by
  rw [exec_load]
  exact takePortFrame_whole s k [index] (fun k args s' => takeLoad k (args.headD 0) s') listening

/-- R68, R69: LOAD in PASS and ACTIVE without a load in flight. -/
theorem takeLoad_starts {k : Port} (index : Byte) {s : State}
    (opened : (s.port k).controller.portState = .pass ∨ (s.port k).controller.portState = .active)
    (free : (s.port k).controller.loadInFlight = false) :
    takeLoad k index s = (startLoad k index s).respond .ok [] := by
  unfold takeLoad
  rcases opened with state | state <;> simp only [state, free, Bool.false_eq_true, if_false]

/-- R69: LOAD in LOADING, or with a load in flight. -/
theorem takeLoad_busy {k : Port} (index : Byte) {s : State}
    (busy : (s.port k).controller.portState = .loading ∨
      (((s.port k).controller.portState = .pass ∨ (s.port k).controller.portState = .active) ∧
        (s.port k).controller.loadInFlight = true)) :
    takeLoad k index s = s.respond .busy [] := by
  unfold takeLoad
  rcases busy with state | ⟨state | state, flag⟩
  · simp only [state]
  · simp only [state, flag, if_true]
  · simp only [state, flag, if_true]

/-- R69: LOAD in DRAINING and QUIET. -/
theorem takeLoad_badState {k : Port} (index : Byte) {s : State}
    (shut : (s.port k).controller.portState = .draining ∨ (s.port k).controller.portState = .quiet) :
    takeLoad k index s = s.respond .badState [] := by
  unfold takeLoad
  rcases shut with state | state <;> simp only [state]

/-- Settles O52: by the port state and the load-in-flight flag. -/
theorem loadStartsOrIsRefused : Obligations.LoadStartsOrIsRefused := by
  intro s k index listening f state
  rw [exec_load_whole listening]
  exact ⟨fun opened free => congrArg Host.Outcome.next (takeLoad_starts index opened free),
    fun busy => congrArg Host.Outcome.next (takeLoad_busy index busy),
    fun shut => congrArg Host.Outcome.next (takeLoad_badState index shut)⟩

/-! ## QUIESCE -/

/-- R44: the stop of the meter ends a running window early and leaves a stopped meter as it was. -/
theorem stopMeter_eq (k : Port) (s : State) : ∃ (m : Meter) (reports : List Report),
    stopMeter k s = s.setPort k { s.port k with meter := m, toWriter := (s.port k).toWriter ++ reports } ∧
    m.seqNo = (s.port k).meter.seqNo ∧ m.installed = (s.port k).meter.installed ∧
    ((s.port k).windowRuns = false → reports = [] ∧ m = (s.port k).meter) ∧
    (∀ i, (s.port k).windowRuns = true → (s.port k).meter.installed = some i →
      reports = reportOf k i (snapshotAtEnd (s.port k) i true false) ∧
      m = { (s.port k).meter with
        windowRunning := false, counters := ⟨0, 0, 0, 0, 0, 0, 0, 0, 0⟩, highSeen := false
        snapshot := snapshotAtEnd (s.port k) i true false
        claim := staled (s.port k).meter.claim }) := by
  cases running : (s.port k).windowRuns with
  | false =>
    refine ⟨(s.port k).meter, [], ?_, rfl, rfl, fun _ => ⟨rfl, rfl⟩, fun _ h => by simp at h⟩
    rw [List.append_nil]
    exact (if_neg (by simp [running])).trans (State.setPort_self s k).symm
  | true =>
    obtain ⟨profiled, _⟩ := (s.port k).windowRuns_iff.1 running
    obtain ⟨i, installed⟩ := Option.isSome_iff_exists.1 profiled
    refine ⟨{ (s.port k).meter with
        windowRunning := false, counters := ⟨0, 0, 0, 0, 0, 0, 0, 0, 0⟩, highSeen := false
        snapshot := snapshotAtEnd (s.port k) i true false
        claim := staled (s.port k).meter.claim }, reportOf k i (snapshotAtEnd (s.port k) i true false), ?_, rfl, rfl,
      fun h => by simp at h, ?_⟩
    · rw [stopMeter, if_pos running, earlyEnd_window k s i running installed]
      simp only [State.setMeter, State.setPort_port_same, State.setPort_setPort]
      rfl
    · rintro j - other
      obtain rfl : i = j := Option.some.inj (installed.symm.trans other)
      exact ⟨rfl, rfl⟩

theorem staled_staled (c : Option Claim) : staled (staled c) = staled c := by
  cases c <;> rfl

/-- R93 to R96: the block of a port that QUIESCE has taken to DRAINING. -/
def PortBlock.quiesced (b : PortBlock) (m : Meter) (reports : List Report) : PortBlock :=
  { b with
    queue := b.queue.map fun e => { e with status := .admitted }
    meter := { m with claim := staled m.claim }, toWriter := b.toWriter ++ reports
    controller := { b.controller with
      portState := .draining
      cancelledLoad := if b.controller.portState = .loading then true else b.controller.cancelledLoad
      drain := some ⟨b.queue.countP fun e => e.status == .admitted, 0⟩ } }

theorem massAdmit_enterDraining {k : Port} {s t : State} {m : Meter} {reports : List Report}
    (stopped : t = s.setPort k { s.port k with meter := m, toWriter := (s.port k).toWriter ++ reports }) :
    massAdmit k (enterDraining k t) = s.setPort k ((s.port k).quiesced m reports) := by
  subst stopped
  simp only [massAdmit_eq, enterDraining, State.setController, State.setPort_port_same, State.setPort_setPort,
    admittedCount]
  rfl

/-- R99, R100: a port with nothing queued and nothing LIVE is QUIET at once. -/
theorem judgeDrain_quiesced (k : Port) (s : State) {m : Meter} (reports : List Report)
    (seqNo : m.seqNo = (s.port k).meter.seqNo) (installed : m.installed = (s.port k).meter.installed) :
    let b := (s.port k).quiesced m reports
    (¬ ((s.port k).queue = [] ∧ s.liveCount k = 0) → judgeDrain k (s.setPort k b) = s.setPort k b) ∧
    ((s.port k).queue = [] ∧ s.liveCount k = 0 → judgeDrain k (s.setPort k b) =
      (s.setPort k { b with controller := { b.controller with portState := .quiet, drain := none } }).submit
        { kind := .quiesced, port := some k, seqNo := (s.port k).meter.seqNo, index := (s.port k).meter.index,
          detail := 0 }) := by
  intro b
  have index : b.meter.index = (s.port k).meter.index := by
    rw [Meter.index, Meter.index]
    exact congrArg (fun i : Option Installed => match i with
      | some i => i.index
      | none => 0xFF) installed
  have condition : (s.setPort k b).drainCondition k = true ↔ (s.port k).queue = [] ∧ s.liveCount k = 0 := by
    have same : (s.setPort k b).liveCount k = s.liveCount k := rfl
    simp only [State.drainCondition, State.setPort_port_same, same, Bool.and_eq_true, List.isEmpty_iff, beq_iff_eq]
    simp only [b, PortBlock.quiesced, List.map_eq_nil_iff]
  have draining : ((s.setPort k b).port k).controller.portState = .draining := by
    rw [State.setPort_port_same]
    rfl
  refine ⟨fun going => if_neg fun settled => going (condition.1 settled.2), fun settled => ?_⟩
  refine (if_pos ⟨draining, condition.2 settled⟩).trans ?_
  simp only [drainDone, State.setController, portNotice, State.drainedCount, State.setPort_port_same,
    State.setPort_setPort, index]
  rw [← seqNo]
  rfl

/-- R93, R97: QUIESCE by the port state. -/
theorem takeQuiesce_eq (k : Port) (s : State) :
    ((s.port k).controller.portState = .draining ∨ (s.port k).controller.portState = .quiet →
      takeQuiesce k s = s.respond .badState []) ∧
    ((s.port k).controller.portState = .pass ∨ (s.port k).controller.portState = .loading ∨
        (s.port k).controller.portState = .active →
      takeQuiesce k s = (quiescePort k s).respond .ok []) := by
  unfold takeQuiesce
  refine ⟨fun shut => ?_, fun opened => ?_⟩
  · rcases shut with state | state <;> simp only [state]
  · rcases opened with state | state | state <;> simp only [state]

theorem exec_quiesce_whole {s : State} (listening : s.listening = true) (k : Port) :
    exec (.quiesce (wholeFrame [portByte k])) s =
      .next (takeQuiesce k (s.emit (quietMdo (wholeFrame [portByte k])))) := by
  rw [exec_quiesce]
  exact takePortFrame_whole s k [] (fun k _ s' => takeQuiesce k s') listening

/-- Settles O53: the meter stops, the drain record is made before the mass admission, and the drain is judged. -/
theorem quiesceDrainsThePort : Obligations.QuiesceDrainsThePort := by
  intro s k listening f state
  obtain ⟨refused, taken⟩ := takeQuiesce_eq k (s.emit (quietMdo f))
  rw [exec_quiesce_whole listening]
  refine ⟨fun shut => congrArg Host.Outcome.next (refused shut), fun opened => ?_⟩
  obtain ⟨m, reports, stop, seqNo, installed, still, ended⟩ := stopMeter_eq k (s.emit (quietMdo f))
  obtain ⟨going, done⟩ := judgeDrain_quiesced k (s.emit (quietMdo f)) reports seqNo installed
  refine ⟨{ m with claim := staled m.claim }, reports, fun stopped => ?_, fun i running was => ?_, ?_⟩
  · obtain ⟨rfl, rfl⟩ := still stopped
    exact ⟨rfl, rfl⟩
  · obtain ⟨rfl, rfl⟩ := ended i running was
    refine ⟨rfl, ?_⟩
    rw [staled_staled]
    rfl
  · rw [taken opened, quiescePort, massAdmit_enterDraining stop]
    exact ⟨fun busy => congrArg (fun t => Host.Outcome.next (t.respond .ok [])) (going busy),
      fun idle => congrArg (fun t => Host.Outcome.next (t.respond .ok [])) (done idle)⟩

/-! ## RESUME -/

theorem exec_resume_whole {s : State} (listening : s.listening = true) (k : Port) :
    exec (.resume (wholeFrame [portByte k])) s =
      .next (if (s.port k).controller.portState = .quiet then
        (resumePort k (s.emit (quietMdo (wholeFrame [portByte k])))).respond .ok []
      else s.answered (wholeFrame [portByte k]) .badState []) := by
  rw [exec_resume]
  exact takePortFrame_whole s k [] (fun k _ s' => if (s'.port k).controller.portState = .quiet then
    (resumePort k s').respond .ok [] else s'.respond .badState []) listening

/-- R45, R104: a port with a profile goes to ACTIVE with a new window; nothing waits to be evaluated. -/
theorem resumePort_active {k : Port} {s : State} {i : Installed} (empty : (s.port k).queue = [])
    (installed : (s.port k).meter.installed = some i) :
    resumePort k s = s.setPort k { s.port k with
      controller := { (s.port k).controller with portState := .active }
      meter := { (s.port k).meter with
        windowRunning := true, timeRemaining := i.profile.windowLength, seqNo := (s.port k).meter.seqNo + 1
        used := 0, credit := if i.profile.mode = .bucket then i.profile.ceiling else 0
        counters := ⟨0, 0, 0, 0, 0, 0, 0, 0, 0⟩, highSeen := false } } := by
  simp only [resumePort, installed]
  rw [evaluate_idle]
  · simp only [startWindow, State.setMeter, State.setController, State.setPort_port_same, State.setPort_setPort,
      installed]
    rfl
  · refine .inr (.inr ?_)
    simp only [startWindow, State.setMeter_port_same, State.setController_port_same, empty]
    exact List.forall_mem_nil _

/-- R104: a port without one goes to PASS. -/
theorem resumePort_pass {k : Port} {s : State} (empty : (s.port k).queue = [])
    (installed : (s.port k).meter.installed = none) :
    resumePort k s = s.setPort k { s.port k with
      controller := { (s.port k).controller with portState := .pass }
      meter := { (s.port k).meter with claim := staled (s.port k).meter.claim } } := by
  simp only [resumePort, installed, massAdmit_eq, State.setController, State.setPort_port_same,
    State.setPort_setPort, empty, List.map_nil]

/-- Settles O54: by the port state, and in QUIET by the profile. -/
theorem resumeReopensAQuietPort : Obligations.ResumeReopensAQuietPort := by
  intro s k listening f
  rw [exec_resume_whole listening]
  refine ⟨fun other => congrArg Host.Outcome.next (if_neg other), fun quiet empty => ?_⟩
  rw [if_pos quiet]
  exact ⟨fun i installed => congrArg (fun t => Host.Outcome.next (t.respond .ok []))
      (resumePort_active (s := s.emit (quietMdo f)) empty installed),
    fun installed => congrArg (fun t => Host.Outcome.next (t.respond .ok []))
      (resumePort_pass (s := s.emit (quietMdo f)) empty installed)⟩

end Sys2Proof.Machine
end
